-- ==== Sys2Proof/Word.lean ====
section
/-!
DEFINITION. The widths of the machine (spec 00_scope.md R4): a register and an address have 64 bits, a byte 8, an
instruction word 32. Only the types stand here.
-/
namespace Sys2Proof

/-- A register, a virtual address or a physical address: 64 bits (R4). -/
abbrev Word := BitVec 64

/-- A byte: 8 bits (R4). -/
abbrev Byte := BitVec 8

/-- An instruction word: "Instructions are always 32 bits in length" (30_encoding.md R90). -/
abbrev InstrWord := BitVec 32

/-- The number of a general purpose register, 0 to 31 (10_state.md R10): `0` is `zr`, `31` is `ip`. -/
abbrev Reg := Fin 32

/-- The number of a control register, 0 to 23 (10_state.md R16). -/
abbrev CtrlReg := Fin 24

end Sys2Proof
end

