-- ==== Sys2Proof/Syntax.lean ====
section
/-!
DEFINITION. The 78 machine instructions of Aphelion v6: one constructor per row of spec/opcode_table.json, in the order of
the manual's families. Operands are the instruction's fields (30_encoding.md R92, R96) as they are encoded, before extension
or scaling (R95): register numbers, the unsigned bits of an immediate, the one-bit flags as `Bool`. Fields that the spec
marks unused have no operand (R97).
-/
namespace Sys2Proof

/-- One machine instruction (30_encoding.md R101). -/
inductive Instr where
  -- Memory loads (40_loads.md)
  /-- `lw`: load word (R121). -/
  | lw (r1 r2 r3 : Reg) (imm9 : BitVec 9)
  /-- `lh`: load half-word (R122). -/
  | lh (r1 r2 r3 : Reg) (imm9 : BitVec 9)
  /-- `lq`: load quarter-word (R123). -/
  | lq (r1 r2 r3 : Reg) (imm9 : BitVec 9)
  /-- `lb`: load byte (R124). -/
  | lb (r1 r2 r3 : Reg) (imm9 : BitVec 9)
  /-- `llw`: load-lock word (R125). -/
  | llw (r1 r2 r3 : Reg) (imm9 : BitVec 9)
  /-- `llh`: load-lock half-word (R126). -/
  | llh (r1 r2 r3 : Reg) (imm9 : BitVec 9)
  /-- `llq`: load-lock quarter-word (R127). -/
  | llq (r1 r2 r3 : Reg) (imm9 : BitVec 9)
  /-- `llb`: load-lock byte (R128). -/
  | llb (r1 r2 r3 : Reg) (imm9 : BitVec 9)
  -- Memory stores (41_stores.md)
  /-- `sw`: store word (R131). -/
  | sw (r1 r2 r3 : Reg) (imm9 : BitVec 9)
  /-- `sh`: store half-word (R132). -/
  | sh (r1 r2 r3 : Reg) (imm9 : BitVec 9)
  /-- `sq`: store quarter-word (R133). -/
  | sq (r1 r2 r3 : Reg) (imm9 : BitVec 9)
  /-- `sb`: store byte (R134). -/
  | sb (r1 r2 r3 : Reg) (imm9 : BitVec 9)
  /-- `scw`: store-conditional word (R136). -/
  | scw (r1 r2 r3 : Reg) (imm9 : BitVec 9)
  /-- `sch`: store-conditional half-word (R137). -/
  | sch (r1 r2 r3 : Reg) (imm9 : BitVec 9)
  /-- `scq`: store-conditional quarter-word (R138). -/
  | scq (r1 r2 r3 : Reg) (imm9 : BitVec 9)
  /-- `scb`: store-conditional byte (R139). -/
  | scb (r1 r2 r3 : Reg) (imm9 : BitVec 9)
  -- Memory effects (42_memory_effects.md)
  /-- `fence`: memory fence; `l` against loads, `s` against stores (R141). -/
  | fence (l s : Bool)
  /-- `cinval`: invalidate cache; `d` data, `i` instruction, `m` block, page, all, invalid (R142). -/
  | cinval (r1 : Reg) (d i : Bool) (m : BitVec 2)
  /-- `cfetch`: fetch cache block for a load (`l`), store (`s`), fetch (`i`) (R143). -/
  | cfetch (r1 : Reg) (l s i : Bool)
  -- Arithmetic (43_arithmetic.md)
  /-- `ssi`: set shifted immediate (R152). -/
  | ssi (r1 : Reg) (c : Bool) (sh : BitVec 2) (val : BitVec 16)
  /-- `add`: integer add (R153). -/
  | add (r1 r2 r3 : Reg) (imm9 : BitVec 9)
  /-- `sub`: integer subtract (R154). -/
  | sub (r1 r2 r3 : Reg) (imm9 : BitVec 9)
  /-- `mul`: integer multiply (R155). -/
  | mul (r1 r2 r3 : Reg) (imm9 : BitVec 9)
  /-- `umulh`: high bits of unsigned multiply (R156). -/
  | umulh (r1 r2 r3 : Reg) (imm9 : BitVec 9)
  /-- `imulh`: high bits of signed multiply (R157). -/
  | imulh (r1 r2 r3 : Reg) (imm9 : BitVec 9)
  /-- `udiv`: unsigned divide (R158). -/
  | udiv (r1 r2 r3 : Reg) (imm9 : BitVec 9)
  /-- `idiv`: signed divide (R159). -/
  | idiv (r1 r2 r3 : Reg) (imm9 : BitVec 9)
  /-- `urem`: unsigned remainder (R160). -/
  | urem (r1 r2 r3 : Reg) (imm9 : BitVec 9)
  /-- `irem`: signed remainder (R161). -/
  | irem (r1 r2 r3 : Reg) (imm9 : BitVec 9)
  /-- `addi`: add immediate (R162). -/
  | addi (r1 r2 : Reg) (imm14 : BitVec 14)
  /-- `subi`: subtract immediate (R163). -/
  | subi (r1 r2 : Reg) (imm14 : BitVec 14)
  /-- `muli`: multiply immediate (R164). -/
  | muli (r1 r2 : Reg) (imm14 : BitVec 14)
  /-- `udivi`: unsigned divide immediate (R165). -/
  | udivi (r1 r2 : Reg) (imm14 : BitVec 14)
  /-- `idivi`: signed divide immediate (R166). -/
  | idivi (r1 r2 : Reg) (imm14 : BitVec 14)
  /-- `uremi`: unsigned remainder immediate (R167). -/
  | uremi (r1 r2 : Reg) (imm14 : BitVec 14)
  /-- `iremi`: signed remainder immediate (R168). -/
  | iremi (r1 r2 : Reg) (imm14 : BitVec 14)
  -- Bitwise logic (44_bitwise.md)
  /-- `and`: bitwise AND (R171). -/
  | and (r1 r2 r3 : Reg) (imm9 : BitVec 9)
  /-- `or`: bitwise OR (R172). -/
  | or (r1 r2 r3 : Reg) (imm9 : BitVec 9)
  /-- `nor`: bitwise NOR (R173). -/
  | nor (r1 r2 r3 : Reg) (imm9 : BitVec 9)
  /-- `xor`: bitwise XOR (R174). -/
  | xor (r1 r2 r3 : Reg) (imm9 : BitVec 9)
  /-- `andi`: bitwise AND with an immediate (R175). -/
  | andi (r1 r2 : Reg) (imm14 : BitVec 14)
  /-- `ori`: bitwise OR with an immediate (R176). -/
  | ori (r1 r2 : Reg) (imm14 : BitVec 14)
  /-- `nori`: bitwise NOR with an immediate (R177). -/
  | nori (r1 r2 : Reg) (imm14 : BitVec 14)
  /-- `xori`: bitwise XOR with an immediate (R178). -/
  | xori (r1 r2 : Reg) (imm14 : BitVec 14)
  /-- `sl`: shift left (R179). -/
  | sl (r1 r2 r3 : Reg) (imm9 : BitVec 9)
  /-- `usr`: unsigned shift right (R180). -/
  | usr (r1 r2 r3 : Reg) (imm9 : BitVec 9)
  /-- `isr`: signed shift right (R181). -/
  | isr (r1 r2 r3 : Reg) (imm9 : BitVec 9)
  /-- `si`: shift immediate; `i` makes the right shift signed (R182). -/
  | si (r1 r2 : Reg) (lsh rsh : BitVec 6) (i : Bool)
  /-- `cb`: clear bits (R183). -/
  | cb (r1 r2 : Reg) (lsh rsh : BitVec 6)
  /-- `ror`: rotate right (R184). -/
  | ror (r1 r2 r3 : Reg) (imm9 : BitVec 9)
  /-- `rol`: rotate left (R185). -/
  | rol (r1 r2 r3 : Reg) (imm9 : BitVec 9)
  /-- `rev`: reverse bits (R186). -/
  | rev (r1 r2 : Reg) (set : BitVec 6)
  /-- `csb`: count set bits (R187). -/
  | csb (r1 r2 : Reg)
  /-- `clz`: count leading zeroes (R188). -/
  | clz (r1 r2 : Reg)
  /-- `ctz`: count trailing zeroes (R189). -/
  | ctz (r1 r2 : Reg)
  /-- `ext`: extract bits (R190). -/
  | ext (r1 r2 r3 : Reg)
  /-- `dep`: deposit bits (R191). -/
  | dep (r1 r2 r3 : Reg)
  -- Comparison (45_comparison.md)
  /-- `seq`: set equal (R201). -/
  | seq (r1 r2 r3 : Reg) (imm9 : BitVec 9)
  /-- `sult`: set unsigned less than (R202). -/
  | sult (r1 r2 r3 : Reg) (imm9 : BitVec 9)
  /-- `silt`: set signed less than (R203). -/
  | silt (r1 r2 r3 : Reg) (imm9 : BitVec 9)
  /-- `sule`: set unsigned less or equal (R204). -/
  | sule (r1 r2 r3 : Reg) (imm9 : BitVec 9)
  /-- `sile`: set signed less or equal (R205). -/
  | sile (r1 r2 r3 : Reg) (imm9 : BitVec 9)
  /-- `seqi`: set equal immediate (R206). -/
  | seqi (r1 r2 : Reg) (imm14 : BitVec 14)
  /-- `sulti`: set unsigned less than immediate (R207). -/
  | sulti (r1 r2 : Reg) (imm14 : BitVec 14)
  /-- `silti`: set signed less than immediate (R208). -/
  | silti (r1 r2 : Reg) (imm14 : BitVec 14)
  /-- `sulei`: set unsigned less or equal immediate (R209). -/
  | sulei (r1 r2 : Reg) (imm14 : BitVec 14)
  /-- `silei`: set signed less or equal immediate (R210). -/
  | silei (r1 r2 : Reg) (imm14 : BitVec 14)
  -- Control flow (46_control_flow.md)
  /-- `bz`: branch if zero (R221). -/
  | bz (r1 : Reg) (imm19 : BitVec 19)
  /-- `bn`: branch if not zero (R222). -/
  | bn (r1 : Reg) (imm19 : BitVec 19)
  /-- `jl`: jump and link (R223). -/
  | jl (r1 r2 : Reg) (imm14 : BitVec 14)
  /-- `jlr`: jump and link relative (R224). -/
  | jlr (r1 r2 : Reg) (imm14 : BitVec 14)
  -- System control (47_system.md)
  /-- `syscall`: system call interrupt (R231). -/
  | syscall
  /-- `breakpt`: breakpoint interrupt (R232). -/
  | breakpt
  /-- `wait`: wait for interrupt (R233). -/
  | wait
  /-- `spin`: hint spin-wait loop (R234). -/
  | spin
  /-- `iret`: interrupt return (R237). -/
  | iret
  /-- `lctrl`: load control register (R235). -/
  | lctrl (r1 : Reg) (imm19 : BitVec 19)
  /-- `sctrl`: store control register (R236). -/
  | sctrl (r1 : Reg) (imm19 : BitVec 19)
  deriving DecidableEq, Repr

end Sys2Proof
end

