-- ==== Sys2Proof/Decode.lean ====
section
/-!
DEFINITION. Decoding and encoding (30_encoding.md). `decodeWord` reads the low byte, which "uniquely identif[ies]" the
instruction (R91), and takes the fields of its format (R92, R96); unused fields are ignored (R97). Every word that is no
instruction is rejected by name. `encode` writes the word of an instruction from the same tables, unused fields 0.
-/
namespace Sys2Proof

/-- Why bytes are no instruction. -/
inductive DecodeError where
  /-- Fewer than the four bytes of an instruction word (R90). -/
  | tooShort (length : Nat)
  /-- Bits [1:0] are 11, which is assigned to no format (R91, R104 class 1). -/
  | noFormat (low : Byte)
  /-- The low byte is not in the decode table (R101, R104 class 1). -/
  | noInstruction (low : Byte)
  deriving DecidableEq, Repr

/-- The low byte, bits [7:0]: format and opcode (R91). -/
def lowByte (w : InstrWord) : Byte := w.extractLsb' 0 8

/-- `r1` = bits [12:8] in all formats (R92). -/
def fieldR1 (w : InstrWord) : Reg := (w.extractLsb' 8 5).toFin

/-- `r2` = bits [17:13] in Formats B and C (R92). -/
def fieldR2 (w : InstrWord) : Reg := (w.extractLsb' 13 5).toFin

/-- `r3` = bits [22:18] in Format C (R92). -/
def fieldR3 (w : InstrWord) : Reg := (w.extractLsb' 18 5).toFin

/-- `imm9` = bits [31:23] in Format C (R92). -/
def fieldImm9 (w : InstrWord) : BitVec 9 := w.extractLsb' 23 9

/-- `imm14` = bits [31:18] in Format B (R92). -/
def fieldImm14 (w : InstrWord) : BitVec 14 := w.extractLsb' 18 14

/-- `imm19` = bits [31:13] in Format A (R92). -/
def fieldImm19 (w : InstrWord) : BitVec 19 := w.extractLsb' 13 19

/-- The decode table (R101) with the sub-fields of R96, by family. -/
def decodeWord (w : InstrWord) : Except DecodeError Instr :=
  match lowByte w with
  -- Memory loads (40_loads.md)
  | 0x12#8 => .ok (.lw (fieldR1 w) (fieldR2 w) (fieldR3 w) (fieldImm9 w))
  | 0x32#8 => .ok (.lh (fieldR1 w) (fieldR2 w) (fieldR3 w) (fieldImm9 w))
  | 0x52#8 => .ok (.lq (fieldR1 w) (fieldR2 w) (fieldR3 w) (fieldImm9 w))
  | 0x72#8 => .ok (.lb (fieldR1 w) (fieldR2 w) (fieldR3 w) (fieldImm9 w))
  | 0x92#8 => .ok (.llw (fieldR1 w) (fieldR2 w) (fieldR3 w) (fieldImm9 w))
  | 0xB2#8 => .ok (.llh (fieldR1 w) (fieldR2 w) (fieldR3 w) (fieldImm9 w))
  | 0xD2#8 => .ok (.llq (fieldR1 w) (fieldR2 w) (fieldR3 w) (fieldImm9 w))
  | 0xF2#8 => .ok (.llb (fieldR1 w) (fieldR2 w) (fieldR3 w) (fieldImm9 w))
  -- Memory stores (41_stores.md)
  | 0x16#8 => .ok (.sw (fieldR1 w) (fieldR2 w) (fieldR3 w) (fieldImm9 w))
  | 0x36#8 => .ok (.sh (fieldR1 w) (fieldR2 w) (fieldR3 w) (fieldImm9 w))
  | 0x56#8 => .ok (.sq (fieldR1 w) (fieldR2 w) (fieldR3 w) (fieldImm9 w))
  | 0x76#8 => .ok (.sb (fieldR1 w) (fieldR2 w) (fieldR3 w) (fieldImm9 w))
  | 0x96#8 => .ok (.scw (fieldR1 w) (fieldR2 w) (fieldR3 w) (fieldImm9 w))
  | 0xB6#8 => .ok (.sch (fieldR1 w) (fieldR2 w) (fieldR3 w) (fieldImm9 w))
  | 0xD6#8 => .ok (.scq (fieldR1 w) (fieldR2 w) (fieldR3 w) (fieldImm9 w))
  | 0xF6#8 => .ok (.scb (fieldR1 w) (fieldR2 w) (fieldR3 w) (fieldImm9 w))
  -- Memory effects (42_memory_effects.md)
  | 0x10#8 => .ok (.fence (w.getLsbD 13) (w.getLsbD 14))
  | 0x30#8 => .ok (.cinval (fieldR1 w) (w.getLsbD 13) (w.getLsbD 14) (w.extractLsb' 15 2))
  | 0x50#8 => .ok (.cfetch (fieldR1 w) (w.getLsbD 13) (w.getLsbD 14) (w.getLsbD 15))
  -- Arithmetic (43_arithmetic.md)
  | 0x08#8 => .ok (.ssi (fieldR1 w) (w.getLsbD 13) (w.extractLsb' 14 2) (w.extractLsb' 16 16))
  | 0x02#8 => .ok (.add (fieldR1 w) (fieldR2 w) (fieldR3 w) (fieldImm9 w))
  | 0x22#8 => .ok (.sub (fieldR1 w) (fieldR2 w) (fieldR3 w) (fieldImm9 w))
  | 0x42#8 => .ok (.mul (fieldR1 w) (fieldR2 w) (fieldR3 w) (fieldImm9 w))
  | 0xC6#8 => .ok (.umulh (fieldR1 w) (fieldR2 w) (fieldR3 w) (fieldImm9 w))
  | 0xE6#8 => .ok (.imulh (fieldR1 w) (fieldR2 w) (fieldR3 w) (fieldImm9 w))
  | 0x82#8 => .ok (.udiv (fieldR1 w) (fieldR2 w) (fieldR3 w) (fieldImm9 w))
  | 0xA2#8 => .ok (.idiv (fieldR1 w) (fieldR2 w) (fieldR3 w) (fieldImm9 w))
  | 0xC2#8 => .ok (.urem (fieldR1 w) (fieldR2 w) (fieldR3 w) (fieldImm9 w))
  | 0xE2#8 => .ok (.irem (fieldR1 w) (fieldR2 w) (fieldR3 w) (fieldImm9 w))
  | 0x01#8 => .ok (.addi (fieldR1 w) (fieldR2 w) (fieldImm14 w))
  | 0x21#8 => .ok (.subi (fieldR1 w) (fieldR2 w) (fieldImm14 w))
  | 0x41#8 => .ok (.muli (fieldR1 w) (fieldR2 w) (fieldImm14 w))
  | 0x81#8 => .ok (.udivi (fieldR1 w) (fieldR2 w) (fieldImm14 w))
  | 0xA1#8 => .ok (.idivi (fieldR1 w) (fieldR2 w) (fieldImm14 w))
  | 0xC1#8 => .ok (.uremi (fieldR1 w) (fieldR2 w) (fieldImm14 w))
  | 0xE1#8 => .ok (.iremi (fieldR1 w) (fieldR2 w) (fieldImm14 w))
  -- Bitwise logic (44_bitwise.md)
  | 0x06#8 => .ok (.and (fieldR1 w) (fieldR2 w) (fieldR3 w) (fieldImm9 w))
  | 0x26#8 => .ok (.or (fieldR1 w) (fieldR2 w) (fieldR3 w) (fieldImm9 w))
  | 0x46#8 => .ok (.nor (fieldR1 w) (fieldR2 w) (fieldR3 w) (fieldImm9 w))
  | 0x66#8 => .ok (.xor (fieldR1 w) (fieldR2 w) (fieldR3 w) (fieldImm9 w))
  | 0x05#8 => .ok (.andi (fieldR1 w) (fieldR2 w) (fieldImm14 w))
  | 0x25#8 => .ok (.ori (fieldR1 w) (fieldR2 w) (fieldImm14 w))
  | 0x45#8 => .ok (.nori (fieldR1 w) (fieldR2 w) (fieldImm14 w))
  | 0x65#8 => .ok (.xori (fieldR1 w) (fieldR2 w) (fieldImm14 w))
  | 0x8A#8 => .ok (.sl (fieldR1 w) (fieldR2 w) (fieldR3 w) (fieldImm9 w))
  | 0x4A#8 => .ok (.usr (fieldR1 w) (fieldR2 w) (fieldR3 w) (fieldImm9 w))
  | 0x6A#8 => .ok (.isr (fieldR1 w) (fieldR2 w) (fieldR3 w) (fieldImm9 w))
  | 0x09#8 => .ok (.si (fieldR1 w) (fieldR2 w) (w.extractLsb' 18 6) (w.extractLsb' 24 6) (w.getLsbD 30))
  | 0x29#8 => .ok (.cb (fieldR1 w) (fieldR2 w) (w.extractLsb' 18 6) (w.extractLsb' 24 6))
  | 0x0A#8 => .ok (.ror (fieldR1 w) (fieldR2 w) (fieldR3 w) (fieldImm9 w))
  | 0x2A#8 => .ok (.rol (fieldR1 w) (fieldR2 w) (fieldR3 w) (fieldImm9 w))
  | 0x49#8 => .ok (.rev (fieldR1 w) (fieldR2 w) (w.extractLsb' 18 6))
  | 0xC5#8 => .ok (.csb (fieldR1 w) (fieldR2 w))
  | 0x85#8 => .ok (.clz (fieldR1 w) (fieldR2 w))
  | 0xA5#8 => .ok (.ctz (fieldR1 w) (fieldR2 w))
  | 0x86#8 => .ok (.ext (fieldR1 w) (fieldR2 w) (fieldR3 w))
  | 0xA6#8 => .ok (.dep (fieldR1 w) (fieldR2 w) (fieldR3 w))
  -- Comparison (45_comparison.md)
  | 0x8E#8 => .ok (.seq (fieldR1 w) (fieldR2 w) (fieldR3 w) (fieldImm9 w))
  | 0x0E#8 => .ok (.sult (fieldR1 w) (fieldR2 w) (fieldR3 w) (fieldImm9 w))
  | 0x2E#8 => .ok (.silt (fieldR1 w) (fieldR2 w) (fieldR3 w) (fieldImm9 w))
  | 0x4E#8 => .ok (.sule (fieldR1 w) (fieldR2 w) (fieldR3 w) (fieldImm9 w))
  | 0x6E#8 => .ok (.sile (fieldR1 w) (fieldR2 w) (fieldR3 w) (fieldImm9 w))
  | 0x8D#8 => .ok (.seqi (fieldR1 w) (fieldR2 w) (fieldImm14 w))
  | 0x0D#8 => .ok (.sulti (fieldR1 w) (fieldR2 w) (fieldImm14 w))
  | 0x2D#8 => .ok (.silti (fieldR1 w) (fieldR2 w) (fieldImm14 w))
  | 0x4D#8 => .ok (.sulei (fieldR1 w) (fieldR2 w) (fieldImm14 w))
  | 0x6D#8 => .ok (.silei (fieldR1 w) (fieldR2 w) (fieldImm14 w))
  -- Control flow (46_control_flow.md)
  | 0xD0#8 => .ok (.bz (fieldR1 w) (fieldImm19 w))
  | 0xF0#8 => .ok (.bn (fieldR1 w) (fieldImm19 w))
  | 0xB1#8 => .ok (.jl (fieldR1 w) (fieldR2 w) (fieldImm14 w))
  | 0x91#8 => .ok (.jlr (fieldR1 w) (fieldR2 w) (fieldImm14 w))
  -- System control (47_system.md)
  | 0x1C#8 => .ok .syscall
  | 0x3C#8 => .ok .breakpt
  | 0xFC#8 => .ok .wait
  | 0x5C#8 => .ok .spin
  | 0x9C#8 => .ok .iret
  | 0xBC#8 => .ok (.lctrl (fieldR1 w) (fieldImm19 w))
  | 0xDC#8 => .ok (.sctrl (fieldR1 w) (fieldImm19 w))
  | low => if low.extractLsb' 0 2 = 0b11#2 then .error (.noFormat low) else .error (.noInstruction low)

/-- The word whose four bytes, from the lowest address up, are `b0 b1 b2 b3`: "the byte at the lowest address holds bits
[7:0]" (R90, 20_memory.md R40). -/
def wordOfBytes (b0 b1 b2 b3 : Byte) : InstrWord := b3 ++ b2 ++ b1 ++ b0

/-- The instruction at the front of a list of bytes, lowest address first, and the bytes after it: total on any bytes. -/
def decodeBytes : List Byte → Except DecodeError (Instr × List Byte)
  | b0 :: b1 :: b2 :: b3 :: rest =>
    match decodeWord (wordOfBytes b0 b1 b2 b3) with
    | .ok ins => .ok (ins, rest)
    | .error e => .error e
  | short => .error (.tooShort short.length)

/-- The four bytes of a word as memory holds them, lowest address first (R90). -/
def bytesOfWord (w : InstrWord) : List Byte :=
  [w.extractLsb' 0 8, w.extractLsb' 8 8, w.extractLsb' 16 8, w.extractLsb' 24 8]

/-- The instruction the decoder reads from an opcode-table row's bits: `w` below `nbits`, every bit above 0, laid out as
memory holds it. -/
def decodeTableWord (nbits w : Nat) : Option Instr :=
  match decodeBytes (bytesOfWord (BitVec.ofNat 32 (w % 2 ^ nbits))) with
  | .ok (ins, _) => some ins
  | .error _ => none

/-- A Format A word (R92): `imm19`, `r1`, and the low byte of opcode and format. -/
def formatA (low : Byte) (r1 : Reg) (imm19 : BitVec 19) : InstrWord := imm19 ++ (BitVec.ofFin r1 : BitVec 5) ++ low

/-- A Format B word (R92): `imm14`, `r2`, `r1`, and the low byte. -/
def formatB (low : Byte) (r1 r2 : Reg) (imm14 : BitVec 14) : InstrWord :=
  imm14 ++ (BitVec.ofFin r2 : BitVec 5) ++ (BitVec.ofFin r1 : BitVec 5) ++ low

/-- A Format C word (R92): `imm9`, `r3`, `r2`, `r1`, and the low byte. -/
def formatC (low : Byte) (r1 r2 r3 : Reg) (imm9 : BitVec 9) : InstrWord :=
  imm9 ++ (BitVec.ofFin r3 : BitVec 5) ++ (BitVec.ofFin r2 : BitVec 5) ++ (BitVec.ofFin r1 : BitVec 5) ++ low

/-- One bit of an instruction word. -/
def flagBit (b : Bool) : BitVec 1 := BitVec.ofBool b

/-- The word of an instruction (R98 to R101), with every unused field 0 as assemblers write it (R97). -/
def encode : Instr → InstrWord
  -- Memory loads (40_loads.md)
  | .lw r1 r2 r3 imm9 => formatC 0x12#8 r1 r2 r3 imm9
  | .lh r1 r2 r3 imm9 => formatC 0x32#8 r1 r2 r3 imm9
  | .lq r1 r2 r3 imm9 => formatC 0x52#8 r1 r2 r3 imm9
  | .lb r1 r2 r3 imm9 => formatC 0x72#8 r1 r2 r3 imm9
  | .llw r1 r2 r3 imm9 => formatC 0x92#8 r1 r2 r3 imm9
  | .llh r1 r2 r3 imm9 => formatC 0xB2#8 r1 r2 r3 imm9
  | .llq r1 r2 r3 imm9 => formatC 0xD2#8 r1 r2 r3 imm9
  | .llb r1 r2 r3 imm9 => formatC 0xF2#8 r1 r2 r3 imm9
  -- Memory stores (41_stores.md)
  | .sw r1 r2 r3 imm9 => formatC 0x16#8 r1 r2 r3 imm9
  | .sh r1 r2 r3 imm9 => formatC 0x36#8 r1 r2 r3 imm9
  | .sq r1 r2 r3 imm9 => formatC 0x56#8 r1 r2 r3 imm9
  | .sb r1 r2 r3 imm9 => formatC 0x76#8 r1 r2 r3 imm9
  | .scw r1 r2 r3 imm9 => formatC 0x96#8 r1 r2 r3 imm9
  | .sch r1 r2 r3 imm9 => formatC 0xB6#8 r1 r2 r3 imm9
  | .scq r1 r2 r3 imm9 => formatC 0xD6#8 r1 r2 r3 imm9
  | .scb r1 r2 r3 imm9 => formatC 0xF6#8 r1 r2 r3 imm9
  -- Memory effects (42_memory_effects.md)
  | .fence l s => formatA 0x10#8 0 (0#17 ++ flagBit s ++ flagBit l)
  | .cinval r1 d i m => formatA 0x30#8 r1 (0#15 ++ m ++ flagBit i ++ flagBit d)
  | .cfetch r1 l s i => formatA 0x50#8 r1 (0#16 ++ flagBit i ++ flagBit s ++ flagBit l)
  -- Arithmetic (43_arithmetic.md)
  | .ssi r1 c sh val => formatA 0x08#8 r1 (val ++ sh ++ flagBit c)
  | .add r1 r2 r3 imm9 => formatC 0x02#8 r1 r2 r3 imm9
  | .sub r1 r2 r3 imm9 => formatC 0x22#8 r1 r2 r3 imm9
  | .mul r1 r2 r3 imm9 => formatC 0x42#8 r1 r2 r3 imm9
  | .umulh r1 r2 r3 imm9 => formatC 0xC6#8 r1 r2 r3 imm9
  | .imulh r1 r2 r3 imm9 => formatC 0xE6#8 r1 r2 r3 imm9
  | .udiv r1 r2 r3 imm9 => formatC 0x82#8 r1 r2 r3 imm9
  | .idiv r1 r2 r3 imm9 => formatC 0xA2#8 r1 r2 r3 imm9
  | .urem r1 r2 r3 imm9 => formatC 0xC2#8 r1 r2 r3 imm9
  | .irem r1 r2 r3 imm9 => formatC 0xE2#8 r1 r2 r3 imm9
  | .addi r1 r2 imm14 => formatB 0x01#8 r1 r2 imm14
  | .subi r1 r2 imm14 => formatB 0x21#8 r1 r2 imm14
  | .muli r1 r2 imm14 => formatB 0x41#8 r1 r2 imm14
  | .udivi r1 r2 imm14 => formatB 0x81#8 r1 r2 imm14
  | .idivi r1 r2 imm14 => formatB 0xA1#8 r1 r2 imm14
  | .uremi r1 r2 imm14 => formatB 0xC1#8 r1 r2 imm14
  | .iremi r1 r2 imm14 => formatB 0xE1#8 r1 r2 imm14
  -- Bitwise logic (44_bitwise.md)
  | .and r1 r2 r3 imm9 => formatC 0x06#8 r1 r2 r3 imm9
  | .or r1 r2 r3 imm9 => formatC 0x26#8 r1 r2 r3 imm9
  | .nor r1 r2 r3 imm9 => formatC 0x46#8 r1 r2 r3 imm9
  | .xor r1 r2 r3 imm9 => formatC 0x66#8 r1 r2 r3 imm9
  | .andi r1 r2 imm14 => formatB 0x05#8 r1 r2 imm14
  | .ori r1 r2 imm14 => formatB 0x25#8 r1 r2 imm14
  | .nori r1 r2 imm14 => formatB 0x45#8 r1 r2 imm14
  | .xori r1 r2 imm14 => formatB 0x65#8 r1 r2 imm14
  | .sl r1 r2 r3 imm9 => formatC 0x8A#8 r1 r2 r3 imm9
  | .usr r1 r2 r3 imm9 => formatC 0x4A#8 r1 r2 r3 imm9
  | .isr r1 r2 r3 imm9 => formatC 0x6A#8 r1 r2 r3 imm9
  | .si r1 r2 lsh rsh i => formatB 0x09#8 r1 r2 (0#1 ++ flagBit i ++ rsh ++ lsh)
  | .cb r1 r2 lsh rsh => formatB 0x29#8 r1 r2 (0#2 ++ rsh ++ lsh)
  | .ror r1 r2 r3 imm9 => formatC 0x0A#8 r1 r2 r3 imm9
  | .rol r1 r2 r3 imm9 => formatC 0x2A#8 r1 r2 r3 imm9
  | .rev r1 r2 set => formatB 0x49#8 r1 r2 (0#8 ++ set)
  | .csb r1 r2 => formatB 0xC5#8 r1 r2 0
  | .clz r1 r2 => formatB 0x85#8 r1 r2 0
  | .ctz r1 r2 => formatB 0xA5#8 r1 r2 0
  | .ext r1 r2 r3 => formatC 0x86#8 r1 r2 r3 0
  | .dep r1 r2 r3 => formatC 0xA6#8 r1 r2 r3 0
  -- Comparison (45_comparison.md)
  | .seq r1 r2 r3 imm9 => formatC 0x8E#8 r1 r2 r3 imm9
  | .sult r1 r2 r3 imm9 => formatC 0x0E#8 r1 r2 r3 imm9
  | .silt r1 r2 r3 imm9 => formatC 0x2E#8 r1 r2 r3 imm9
  | .sule r1 r2 r3 imm9 => formatC 0x4E#8 r1 r2 r3 imm9
  | .sile r1 r2 r3 imm9 => formatC 0x6E#8 r1 r2 r3 imm9
  | .seqi r1 r2 imm14 => formatB 0x8D#8 r1 r2 imm14
  | .sulti r1 r2 imm14 => formatB 0x0D#8 r1 r2 imm14
  | .silti r1 r2 imm14 => formatB 0x2D#8 r1 r2 imm14
  | .sulei r1 r2 imm14 => formatB 0x4D#8 r1 r2 imm14
  | .silei r1 r2 imm14 => formatB 0x6D#8 r1 r2 imm14
  -- Control flow (46_control_flow.md)
  | .bz r1 imm19 => formatA 0xD0#8 r1 imm19
  | .bn r1 imm19 => formatA 0xF0#8 r1 imm19
  | .jl r1 r2 imm14 => formatB 0xB1#8 r1 r2 imm14
  | .jlr r1 r2 imm14 => formatB 0x91#8 r1 r2 imm14
  -- System control (47_system.md)
  | .syscall => formatA 0x1C#8 0 0
  | .breakpt => formatA 0x3C#8 0 0
  | .wait => formatA 0xFC#8 0 0
  | .spin => formatA 0x5C#8 0 0
  | .iret => formatA 0x9C#8 0 0
  | .lctrl r1 imm19 => formatA 0xBC#8 r1 imm19
  | .sctrl r1 imm19 => formatA 0xDC#8 r1 imm19

/-- The bits of an instruction's word that decoding looks at: the low byte and the fields in use; the others are the fields marked
unused (R97). -/
def Instr.usedBits : Instr → InstrWord
  | .fence .. => 0x000060FF#32
  | .cinval .. => 0x0001FFFF#32
  | .cfetch .. => 0x0000FFFF#32
  | .si .. => 0x7FFFFFFF#32
  | .cb .. => 0x3FFFFFFF#32
  | .rev .. => 0x00FFFFFF#32
  | .csb .. | .clz .. | .ctz .. => 0x0003FFFF#32
  | .ext .. | .dep .. => 0x007FFFFF#32
  | .syscall | .breakpt | .wait | .spin | .iret => 0x000000FF#32
  | .lw .. | .lh .. | .lq .. | .lb .. | .llw .. | .llh .. | .llq .. | .llb .. | .sw .. | .sh .. | .sq .. | .sb ..
  | .scw .. | .sch .. | .scq .. | .scb .. | .ssi .. | .add .. | .sub .. | .mul .. | .umulh .. | .imulh ..
  | .udiv .. | .idiv .. | .urem .. | .irem .. | .addi .. | .subi .. | .muli .. | .udivi .. | .idivi .. | .uremi ..
  | .iremi .. | .and .. | .or .. | .nor .. | .xor .. | .andi .. | .ori .. | .nori .. | .xori .. | .sl .. | .usr ..
  | .isr .. | .ror .. | .rol .. | .seq .. | .sult .. | .silt .. | .sule .. | .sile .. | .seqi .. | .sulti ..
  | .silti .. | .sulei .. | .silei .. | .bz .. | .bn .. | .jl .. | .jlr .. | .lctrl .. | .sctrl .. => 0xFFFFFFFF#32

end Sys2Proof
end

