-- ==== Sys2Proof/Config.lean ====
section
/-!
DEFINITION. What the platform or the implementation fixes (spec 00_scope.md section 4), as plain data. The values of one
machine stand in a `Platform`, which the state carries and no step changes, so that a statement about every state holds
for every platform. `Config.resetPlatform` and `Config.resetIp` are the values `State.reset` takes.
-/
namespace Sys2Proof

/-- The kind of a memory access (20_memory.md R62): a data read, a data write, an instruction fetch. -/
inductive Access where
  /-- R: a data read, `cinval`, `cfetch`. -/
  | read
  /-- W: a data write. -/
  | write
  /-- X: an instruction fetch. -/
  | fetch
  deriving DecidableEq, Repr

/-- The data sizes (20_memory.md R41): byte 1, quarter-word 2, half-word 4, word 8 bytes. -/
inductive AccessSize where
  /-- 1 byte, mnemonic suffix `b`. -/
  | byte
  /-- 2 bytes, mnemonic suffix `q`. -/
  | quarter
  /-- 4 bytes, mnemonic suffix `h`. -/
  | half
  /-- 8 bytes, mnemonic suffix `w`. -/
  | word
  deriving DecidableEq, Repr

/-- `LOCK_GRANULE` (20_memory.md R56): how coarsely a store unlocks a lock state. -/
inductive LockGranule where
  /-- A store unlocks when it overlaps the locked bytes. -/
  | exact
  /-- A store unlocks when it touches the 64-byte block that holds the locked location. -/
  | block64
  deriving DecidableEq, Repr

/-- `DATA_ALIGN` (20_memory.md R42): which data addresses are aligned. The spec names `natural` and lets a reader change it; the
other value is a DESIGN CHOICE (safe, log entry 21). -/
inductive DataAlign where
  /-- An access of `n` bytes is aligned at the multiples of `n`: the default. -/
  | natural
  /-- An access is aligned where its bytes lie in one 64-byte block, and so in one page and one cached copy. -/
  | withinBlock
  deriving DecidableEq, Repr

/-- Physical addresses that respond, and to what: part of the platform's `bus_ok` (20_memory.md R48). The region is the
bytes `base` to `base + size - 1`; it answers an access that lies wholly inside it, whose kind is flagged and whose size
is listed. A list of regions can state any predicate of address, size and kind (log entry 6). -/
structure BusRegion where
  /-- The lowest physical address. -/
  base : Nat
  /-- The number of bytes. -/
  size : Nat
  /-- Answers data reads (and page-walk reads). -/
  reads : Bool
  /-- Answers data writes. -/
  writes : Bool
  /-- Answers instruction fetches. -/
  fetches : Bool
  /-- The access sizes it answers; a fetch has size `half`, a page-table-entry read size `word`. -/
  sizes : List AccessSize
  deriving DecidableEq, Repr

/-- The implementation parameters of 00_scope.md section 4. `RESET_IP` is `Config.resetIp`; `NUM_LPS` is 1 (log
entry 1). -/
structure Platform where
  /-- `bus_ok`: the accesses that respond (R48). -/
  bus : List BusRegion
  /-- `DATA_ALIGN` (R42). -/
  dataAlign : DataAlign
  /-- `LOCK_GRANULE` (R56). -/
  lockGranule : LockGranule
  /-- `HAS_DCACHE` (R60). -/
  hasDcache : Bool
  /-- `HAS_ICACHE` (R60). -/
  hasIcache : Bool
  /-- `HAS_TCACHE` (R67). -/
  hasTcache : Bool
  /-- Loads and stores may take effect later than their instructions, and in another order (10_state.md R31, 20_memory.md R50,
  R52); `false` performs every access in program order (R59). -/
  reorders : Bool
  deriving DecidableEq, Repr

/-- DESIGN CHOICE (unsafe, log entry 5): RAM at physical 0 to 0xFFFFF and nowhere else, the platform of the spec's own
vectors (95_test_vectors.md section 1); the ISA fixes no address map (R48). -/
def Config.resetRam : BusRegion :=
  { base := 0, size := 0x100000, reads := true, writes := true, fetches := true,
    sizes := [.byte, .quarter, .half, .word] }

/-- DESIGN CHOICE (unsafe, log entries 5 and 8): the platform after reset, with the parameters at the defaults of
95_test_vectors.md section 1. -/
def Config.resetPlatform : Platform :=
  { bus := [Config.resetRam], dataAlign := .natural, lockGranule := .exact, hasDcache := false, hasIcache := false,
    hasTcache := false, reorders := false }

/-- `RESET_IP` (70_reset_and_hazards.md R300): a platform parameter, 4-byte aligned. DESIGN CHOICE (unsafe, log entry 3):
0x1000, where the default start state of 95_test_vectors.md section 1 has its `pc`. -/
def Config.resetIp : Word := 0x1000

end Sys2Proof
end

