-- ==== Sys2Proof/Machine/State.lean ====
section
/-!
DEFINITION. The state of one logical processor with its memory, its caches, its platform's parameters and the inputs its
environment will give it, as plain data; the causes of interrupts; the reset state.
-/
namespace Sys2Proof.Machine

/-- The fourteen defined interrupt causes, in the order of their numbers 0 to 13 (60_exceptions.md R252). Causes 14 and 15
are reserved and never raised (R277). -/
inductive Cause where
  /-- 0: "External (IO) interrupt." -/
  | externl
  /-- 1: "Debugger breakpoint." -/
  | breakpt
  /-- 2: "System call." -/
  | syscall
  /-- 3: "Invalid operation has been loaded and executed." -/
  | invalid
  /-- 4: "Bus fault while reading from memory." -/
  | busr
  /-- 5: "Bus fault while writing to memory." -/
  | busw
  /-- 6: "Bus fault while fetching code from memory." -/
  | busx
  /-- 7: "Access violation while reading from memory." -/
  | accessr
  /-- 8: "Access violation while writing to memory." -/
  | accessw
  /-- 9: "Access violation while fetching code from memory." -/
  | accessx
  /-- 10: "Unaligned access while reading from memory." -/
  | ualignr
  /-- 11: "Unaligned access while writing to memory." -/
  | ualignw
  /-- 12: "Unaligned access while fetching code from memory." -/
  | ualignx
  /-- 13: a page table entry could not be loaded (R276). -/
  | vatfail
  deriving DecidableEq, Repr

/-- An interrupt being raised: `raise c (a, p)` of 60_exceptions.md R256. -/
structure Interrupt where
  /-- The cause `c`. -/
  cause : Cause
  /-- The address `a` that `intval` receives, for the causes that record one (10_state.md R19). -/
  val : Option Word
  /-- The page table entry `p` that `intpte` receives, where one was read (10_state.md R21). -/
  pte : Option Word
  deriving DecidableEq, Repr

/-- The lock state (10_state.md R20): set by the load-lock instructions, tested by the store-conditional ones. -/
structure Lock where
  /-- Locked or unlocked. -/
  locked : Bool
  /-- The width of the lock: 1, 2, 4 or 8 bytes. -/
  width : AccessSize
  /-- The virtual address the load-lock computed. -/
  address : Word
  /-- The physical address it translated to (20_memory.md R54). -/
  paddr : Word
  deriving DecidableEq, Repr

/-- Physical memory (10_state.md R32) as (address, byte) pairs in one canonical form: addresses strictly rising and below
2^64, and no entry equal to what an unlisted address reads as (`Memory.wf` in Machine/Ops.lean). -/
abbrev Memory := List Host.Cell

/-- One store: the low bytes of `value`, as many as `size` has, to physical `addr` and up, little-endian (20_memory.md R45). -/
structure Store where
  /-- The lowest physical address. -/
  addr : Word
  /-- The number of bytes. -/
  size : AccessSize
  /-- The value; its low bytes are stored. -/
  value : Word
  deriving DecidableEq, Repr

/-- What an access does at the point of the global memory order at which it takes effect (20_memory.md R50). -/
inductive AccessEffect where
  /-- A plain load: its bytes are read; its register already has them (log entry 9). -/
  | load
  /-- The load of the load-lock that set the lock state: from here on stores unlock it (R54, R56). -/
  | loadLock
  /-- A store, plain or conditional, of the low bytes of a value. -/
  | store (value : Word)
  deriving DecidableEq, Repr

/-- A memory operation "issued but not yet globally performed" (10_state.md R31). -/
structure Pending where
  /-- The lowest physical address. -/
  addr : Word
  /-- The number of bytes. -/
  size : AccessSize
  /-- What it does when it takes effect. -/
  effect : AccessEffect
  /-- The number of events of the environment that it lets pass; it takes effect with the next one (log entry 9). -/
  wait : Nat
  deriving DecidableEq, Repr

/-- A cached copy of a 64-byte block (20_memory.md R60): the block that holds physical addresses `64 * number` to
`64 * number + 63`, its bytes listed in `copy` by physical address, in memory's form. -/
structure CacheBlock where
  /-- The block's number: its physical address divided by 64. -/
  number : Nat
  /-- The bytes the block had when it was copied, kept up to date with the stores of logical processors in the d-cache. -/
  copy : Memory
  deriving DecidableEq, Repr

/-- A translation cache entry (20_memory.md R67): a virtual page number and the final page table entry of a walk that
succeeded. -/
structure Translation where
  /-- The virtual page number: the virtual address divided by 4096. -/
  page : Nat
  /-- The final page table entry. -/
  pte : Word
  deriving DecidableEq, Repr

/-- What may happen between two instructions, or while an instruction waits for earlier accesses, at times the ISA leaves open
(20_memory.md R60, R67; 10_state.md R31; log entries 2, 9, 11, 12). With every event the accesses pending for it take effect. -/
inductive EnvEvent where
  /-- Nothing but that time passes. -/
  | pass
  /-- The d-cache loads a block from memory. -/
  | fillD (number : Nat)
  /-- The i-cache loads a block, from the d-cache's copy if `fromD` and one is present, else from memory (R58). -/
  | fillI (number : Nat) (fromD : Bool)
  /-- The d-cache drops a block. -/
  | dropD (number : Nat)
  /-- The i-cache drops a block. -/
  | dropI (number : Nat)
  /-- The translation cache of the current mode remembers the translation of an address, if the walk succeeds (R67). -/
  | remember (va : Word)
  /-- A translation cache drops a page: the user one if `user`, else the kernel one. -/
  | forget (user : Bool) (page : Nat)
  /-- A store of another logical processor takes effect: visible at once to this one's d-cache (R57, R59). -/
  | lpStore (st : Store)
  /-- A store of an external agent, such as a memory-mapped device: cached copies may go stale (R57, R58). -/
  | extStore (st : Store)
  deriving DecidableEq, Repr

/-- The inputs of one step: what happens before it, and the level of `ext_irq` (10_state.md R29) at its boundary. -/
structure EnvInput where
  /-- What happens before the step, in order. -/
  events : List EnvEvent
  /-- On a platform that reorders accesses, the memory access of the step's instruction takes effect with the event of this number
  among those to come, 0 at once, or later where earlier accesses make it wait (20_memory.md R50, log entry 9). -/
  delay : Nat
  /-- An external interrupt is requested, and not deferred, at this boundary (60_exceptions.md R261, log entry 14). -/
  extIrq : Bool
  deriving DecidableEq, Repr

/-- The state of the machine. Every register the spec names has one home here; `X[0]` is hard-wired and `X[31]` is `pc`
(10_state.md R11 to R13), so the register file holds `X[1]` to `X[30]`. -/
structure State where
  /-- `X[1]` to `X[30]`, `X[n]` at index `n - 1` (10_state.md R10). -/
  gpr : Vector Word 30
  /-- The instruction pointer `ip` (10_state.md R13). -/
  pc : Word
  /-- The 24 control registers by number (10_state.md R16). -/
  ctrl : Vector Word 24
  /-- The lock state (10_state.md R20). -/
  lock : Lock
  /-- Set by `wait`, cleared when an interrupt is taken (10_state.md R30). -/
  paused : Bool
  /-- Physical memory: what has taken effect in the global memory order (10_state.md R32, 20_memory.md R50). -/
  mem : Memory
  /-- Memory operations issued and not yet performed, oldest first (10_state.md R31). -/
  pending : List Pending
  /-- The data cache (10_state.md R28). -/
  dcache : List CacheBlock
  /-- The instruction cache (10_state.md R28). -/
  icache : List CacheBlock
  /-- The kernel-mode translation cache entries (20_memory.md R67). -/
  tcacheK : List Translation
  /-- The user-mode translation cache entries (20_memory.md R67). -/
  tcacheU : List Translation
  /-- The platform's parameters (00_scope.md section 4); no step changes them. -/
  platform : Platform
  /-- The MODEL's own: the delay of the memory access of the instruction being executed, from its step's input (log entry 9). -/
  delay : Nat
  /-- The MODEL's own: what the environment does at the coming steps, one element a step, quiet when it is used up (log
  entry 2). -/
  env : List EnvInput
  deriving DecidableEq, Repr

/-- The reasons for which the machine would stop with a fault. There are none: every exceptional event of this machine is an
interrupt whose entry the spec describes (60_exceptions.md R250, R256), so it gives a next state. Safe: nothing is cut
short (log entry 27). -/
inductive Fault where
  deriving DecidableEq, Repr

/-- The reasons for which a step has no meaning. -/
inductive Refusal where
  /-- Raised only by an arm of `exec` for an instruction without a meaning; no arm raises it. Safe: the machine stops. -/
  | notModelled (mnemonic : String)
  deriving DecidableEq, Repr

/-- The machine right after reset (10_state.md R36, 70_reset_and_hazards.md R300): `stat` 0 (kernel mode, external
interrupts disabled, translation off), `pc` at `RESET_IP`, unlocked, not paused, caches empty, no access pending. What R300 leaves
unspecified is 0 here (`lock.width` 1 byte): DESIGN CHOICE, unsafe, log entry 4; memory, the platform and the environment:
log entries 2, 5, 7, 8. -/
def State.reset : State :=
  { gpr := Vector.replicate 30 0, pc := Config.resetIp, ctrl := Vector.replicate 24 0,
    lock := { locked := false, width := .byte, address := 0, paddr := 0 }, paused := false, mem := [], pending := [],
    dcache := [], icache := [], tcacheK := [], tcacheU := [], platform := Config.resetPlatform, delay := 0,
    env := [] }

end Sys2Proof.Machine
end

