-- ==== Sys2Proof/Machine/Operands.lean ====
section
/-!
DEFINITION. Operands: reading and writing the general registers, the control registers and their fields, and every way an
immediate is extended and scaled (30_encoding.md R95), an address or target is formed, and a shift amount is taken.
-/
namespace Sys2Proof.Machine

/-! ### General purpose registers -/

/-- `X[r]` as a source: `X[0]` reads 0 (10_state.md R11), `X[31]` reads `pc` (R13). -/
def State.getReg (s : State) (r : Reg) : Word :=
  if r.val = 0 then 0
  else if h : r.val - 1 < 30 then s.gpr[r.val - 1]
  else s.pc

/-- `X[r] <- v`: discarded for `X[0]` (10_state.md R11) and for `X[31]` (R12). -/
def State.setReg (s : State) (r : Reg) (v : Word) : State :=
  if r.val = 0 then s
  else if h : r.val - 1 < 30 then { s with gpr := s.gpr.set (r.val - 1) v }
  else s

/-- `pc <- v`, the only way an instruction changes `pc` (00_scope.md section 5.2). -/
def State.setPc (s : State) (v : Word) : State := { s with pc := v }

/-! ### Control registers -/

/-- `intip`, number 16 (10_state.md R18). -/
abbrev ctrlIntip : CtrlReg := 16
/-- `intval`, number 17 (10_state.md R19). -/
abbrev ctrlIntval : CtrlReg := 17
/-- `intpte`, number 18 (10_state.md R21). -/
abbrev ctrlIntpte : CtrlReg := 18
/-- `intcause`, number 19 (10_state.md R22). -/
abbrev ctrlIntcause : CtrlReg := 19
/-- `kptp`, number 20 (10_state.md R23). -/
abbrev ctrlKptp : CtrlReg := 20
/-- `uptp`, number 21 (10_state.md R24). -/
abbrev ctrlUptp : CtrlReg := 21
/-- `stat`, number 22 (10_state.md R25). -/
abbrev ctrlStat : CtrlReg := 22
/-- `intstat`, number 23 (10_state.md R26). -/
abbrev ctrlIntstat : CtrlReg := 23

/-- The bits of control register `n` that are not hardwired to 0 (10_state.md R16): [63:2] of `int0` to `int15` and `intip`,
[63:12] of `kptp` and `uptp`, [2:0] of `stat` and `intstat` (R27), all of `intval`, `intpte`, `intcause`. -/
def ctrlMask (n : CtrlReg) : Word :=
  if n.val ≤ 16 then 0xFFFFFFFFFFFFFFFC
  else if n.val ≤ 19 then 0xFFFFFFFFFFFFFFFF
  else if n.val ≤ 21 then 0xFFFFFFFFFFFFF000
  else 0x7

/-- `C[n]`: "a read returns the stored value" (10_state.md R16). -/
def State.getCtrl (s : State) (n : CtrlReg) : Word := s.ctrl[n]

/-- `C[n] <- v`: "A write, by `sctrl` or by hardware, stores the value with the register's hardwired bits forced to 0"
(10_state.md R16). -/
def State.setCtrl (s : State) (n : CtrlReg) (v : Word) : State := { s with ctrl := s.ctrl.set n (v &&& ctrlMask n) }

/-- The control register that the field `imm19` of `lctrl` and `sctrl` names, if it is 0 to 23 (47_system.md R235). -/
def ctrlNumber (imm19 : BitVec 19) : Option CtrlReg := if h : imm19.toNat < 24 then some ⟨imm19.toNat, h⟩ else none

/-- `stat.E`, bit 0: external interrupts are enabled (10_state.md R25). -/
def State.statE (s : State) : Bool := (s.getCtrl ctrlStat).getLsbD 0

/-- `stat.U`, bit 1: user mode (10_state.md R25). -/
def State.statU (s : State) : Bool := (s.getCtrl ctrlStat).getLsbD 1

/-- `stat.V`, bit 2: virtual address translation is enabled (10_state.md R25). -/
def State.statV (s : State) : Bool := (s.getCtrl ctrlStat).getLsbD 2

/-! ### Sizes, immediates, addresses -/

/-- The number of bytes of an access (20_memory.md R41). -/
def sizeBytes : AccessSize → Nat
  | .byte => 1
  | .quarter => 2
  | .half => 4
  | .word => 8

/-- The left shift of an offset, which counts units of the access size (30_encoding.md R95). -/
def sizeShift : AccessSize → Nat
  | .byte => 0
  | .quarter => 1
  | .half => 2
  | .word => 3

/-- `zext_N` (00_scope.md section 5.1): an immediate extended with zeros to 64 bits. -/
def zext {n : Nat} (v : BitVec n) : Word := v.setWidth 64

/-- `sext_N` (00_scope.md section 5.1): an immediate extended with its highest bit to 64 bits. -/
def sext {n : Nat} (v : BitVec n) : Word := v.signExtend 64

/-- The offset of a load or store: `zext_9(imm9) << k`, the shift on the immediate alone (40_loads.md R120). -/
def scaledOffset (sz : AccessSize) (imm9 : BitVec 9) : Word := zext imm9 <<< sizeShift sz

/-- The address of loads, load-locks and plain stores: `X[r2] + X[r3] + offset` (40_loads.md R120, 41_stores.md R130). -/
def State.indexedAddr (s : State) (sz : AccessSize) (r2 r3 : Reg) (imm9 : BitVec 9) : Word :=
  s.getReg r2 + s.getReg r3 + scaledOffset sz imm9

/-- The address of a store-conditional: `X[r3] + offset` (41_stores.md R135). -/
def State.conditionalAddr (s : State) (sz : AccessSize) (r3 : Reg) (imm9 : BitVec 9) : Word :=
  s.getReg r3 + scaledOffset sz imm9

/-- The right-hand operand `X[r3] + zext_9(imm9)` of Format C arithmetic and comparison (43_arithmetic.md R150). -/
def State.plusZext (s : State) (r3 : Reg) (imm9 : BitVec 9) : Word := s.getReg r3 + zext imm9

/-- The right-hand operand `X[r3] + sext_9(imm9)` (43_arithmetic.md R150). -/
def State.plusSext (s : State) (r3 : Reg) (imm9 : BitVec 9) : Word := s.getReg r3 + sext imm9

/-- The right-hand operand `X[r3] | zext_9(imm9)` of Format C logic: "OR-ed into `X[r3]`, not added" (44_bitwise.md R170). -/
def State.orZext (s : State) (r3 : Reg) (imm9 : BitVec 9) : Word := s.getReg r3 ||| zext imm9

/-- The shift or rotate amount `(X[r3] + zext_9(imm9)) & 63` (44_bitwise.md R170). -/
def State.shiftAmount (s : State) (r3 : Reg) (imm9 : BitVec 9) : Nat := ((s.getReg r3 + zext imm9) &&& 63).toNat

/-- The target of `bz` and `bn`: `pc + (sext_19(imm19) << 2)` (46_control_flow.md R221). -/
def State.branchTarget (s : State) (imm19 : BitVec 19) : Word := s.pc + (sext imm19 <<< 2)

/-- The target of `jl`: `X[r2] + (zext_14(imm14) << 2)` (46_control_flow.md R223). -/
def State.jumpTarget (s : State) (r2 : Reg) (imm14 : BitVec 14) : Word := s.getReg r2 + (zext imm14 <<< 2)

/-- The target of `jlr`: `pc + X[r2] + (zext_14(imm14) << 2)` (46_control_flow.md R224). -/
def State.relativeTarget (s : State) (r2 : Reg) (imm14 : BitVec 14) : Word :=
  s.pc + s.getReg r2 + (zext imm14 <<< 2)

/-! ### Results -/

/-- The quotient of `udiv`, `udivi`: floor, all ones for a divisor of 0 (43_arithmetic.md R151, R158). -/
def unsignedQuotient (a b : Word) : Word := if b = 0 then 0xFFFFFFFFFFFFFFFF else BitVec.ofNat 64 (a.toNat / b.toNat)

/-- The remainder of `urem`, `uremi`: all ones for a divisor of 0 (43_arithmetic.md R151, R160). -/
def unsignedRemainder (a b : Word) : Word := if b = 0 then 0xFFFFFFFFFFFFFFFF else BitVec.ofNat 64 (a.toNat % b.toNat)

/-- The quotient of `idiv`, `idivi`: the exact quotient rounded toward zero, its low 64 bits; all ones for a divisor of 0
(43_arithmetic.md R151, R159). The rounding and -2^63 / -1 are R151's, log entry 16. -/
def signedQuotient (a b : Word) : Word :=
  if b = 0 then 0xFFFFFFFFFFFFFFFF else BitVec.ofInt 64 (a.toInt.tdiv b.toInt)

/-- The remainder of `irem`, `iremi`: the sign of the dividend or zero; all ones for a divisor of 0 (43_arithmetic.md R151,
R161, log entry 16). -/
def signedRemainder (a b : Word) : Word :=
  if b = 0 then 0xFFFFFFFFFFFFFFFF else BitVec.ofInt 64 (a.toInt.tmod b.toInt)

/-- The upper 64 bits of the 128-bit unsigned product (43_arithmetic.md R156). -/
def unsignedProductHigh (a b : Word) : Word := BitVec.ofNat 64 (a.toNat * b.toNat / 2 ^ 64)

/-- The upper 64 bits of the 128-bit signed product: the exact product divided by 2^64, rounded down (43_arithmetic.md
R157). -/
def signedProductHigh (a b : Word) : Word := BitVec.ofInt 64 (a.toInt * b.toInt / 2 ^ 64)

/-- The result of `ssi` on the old value of its register (43_arithmetic.md R152). -/
def setShifted (old : Word) (c : Bool) (sh : BitVec 2) (val : BitVec 16) : Word :=
  let shift := 16 * sh.toNat
  if c then sext val <<< shift else (old &&& ~~~((0xFFFF : Word) <<< shift)) ||| (zext val <<< shift)

/-- A right rotation by 0 to 63; by 0 it is the identity (44_bitwise.md R184). -/
def rotatedRight (v : Word) (amount : Nat) : Word :=
  if amount = 0 then v else (v >>> amount) ||| (v <<< (64 - amount))

/-- A left rotation by 0 to 63 (44_bitwise.md R185). -/
def rotatedLeft (v : Word) (amount : Nat) : Word :=
  if amount = 0 then v else (v <<< amount) ||| (v >>> (64 - amount))

/-- The result of `si`: left by `lsh`, then right by `rsh`, signed if `sgn` (44_bitwise.md R182). -/
def shiftedLeftRight (v : Word) (lsh rsh : BitVec 6) (sgn : Bool) : Word :=
  let t := v <<< lsh.toNat
  if sgn then t.sshiftRight rsh.toNat else t >>> rsh.toNat

/-- The mask of `cb` (44_bitwise.md R183). -/
def clearMask (lsh rsh : BitVec 6) : Word := ((0xFFFFFFFFFFFFFFFF : Word) <<< lsh.toNat) >>> rsh.toNat

/-- One swap stage of `rev`: the bits under `hi` go down by `k`, those under `lo` up (44_bitwise.md R186). -/
def swapStage (on : Bool) (hi lo : Word) (k : Nat) (v : Word) : Word :=
  if on then ((v &&& hi) >>> k) ||| ((v &&& lo) <<< k) else v

/-- The result of `rev`: the stages that `set` enables, from the widest to the narrowest (44_bitwise.md R186). -/
def reversedBits (v : Word) (sel : BitVec 6) : Word :=
  let v5 := swapStage (sel.getLsbD 5) 0xFFFFFFFF00000000 0x00000000FFFFFFFF 32 v
  let v4 := swapStage (sel.getLsbD 4) 0xFFFF0000FFFF0000 0x0000FFFF0000FFFF 16 v5
  let v3 := swapStage (sel.getLsbD 3) 0xFF00FF00FF00FF00 0x00FF00FF00FF00FF 8 v4
  let v2 := swapStage (sel.getLsbD 2) 0xF0F0F0F0F0F0F0F0 0x0F0F0F0F0F0F0F0F 4 v3
  let v1 := swapStage (sel.getLsbD 1) 0xCCCCCCCCCCCCCCCC 0x3333333333333333 2 v2
  swapStage (sel.getLsbD 0) 0xAAAAAAAAAAAAAAAA 0x5555555555555555 1 v1

/-- The number of set bits among bits `n - 1` to 0 (44_bitwise.md R187). -/
def countSet (v : Word) : Nat → Nat
  | 0 => 0
  | n + 1 => countSet v n + (if v.getLsbD n then 1 else 0)

/-- The number of clear bits from bit `n - 1` down to the first set one (44_bitwise.md R188). -/
def countLeadingZeroes (v : Word) : Nat → Nat
  | 0 => 0
  | n + 1 => if v.getLsbD n then 0 else 1 + countLeadingZeroes v n

/-- The number of clear bits from bit `64 - n` up to the first set one (44_bitwise.md R189). -/
def countTrailingZeroes (v : Word) : Nat → Nat
  | 0 => 0
  | n + 1 => if v.getLsbD (63 - n) then 0 else 1 + countTrailingZeroes v n

/-- One bit of a word as a word. -/
def bitWord (v : Word) (k : Nat) : Word := if v.getLsbD k then 1 else 0

/-- The bits of `v` at the set positions of `mask` from position `64 - n` up, packed from bit 0 (44_bitwise.md R190). -/
def extractFrom (v mask : Word) : Nat → Word
  | 0 => 0
  | n + 1 =>
    if mask.getLsbD (63 - n) then bitWord v (63 - n) ||| (extractFrom v mask n <<< 1) else extractFrom v mask n

/-- The bits of `v` from bit `k` up, spread to the set positions of `mask` from position `64 - n` up (44_bitwise.md R191). -/
def depositFrom (v mask : Word) : Nat → Nat → Word
  | 0, _ => 0
  | n + 1, k =>
    if mask.getLsbD (63 - n) then (bitWord v k <<< (63 - n)) ||| depositFrom v mask n (k + 1)
    else depositFrom v mask n k

end Sys2Proof.Machine
end

