-- ==== Sys2Proof/Machine/Ops.lean ====
section
/-!
DEFINITION. The operations the instructions share: memory, pending accesses and the caches, translation, the access primitives
`MemRead`, `MemWrite` and `Fetch`, taking an interrupt and returning from one, and the environment's events.
-/
namespace Sys2Proof.Machine

/-! ### Memory as data -/

/-- The byte at an address; one that is not listed reads 0 (DESIGN CHOICE, unsafe, log entry 7). -/
def Memory.read : Memory → Nat → Byte
  | [], _ => 0
  | (a, b) :: rest, x => if x = a then b else Memory.read rest x

/-- The memory without an entry for an address. -/
def Memory.remove : Memory → Nat → Memory
  | [], _ => []
  | (a, b) :: rest, x => if a = x then Memory.remove rest x else (a, b) :: Memory.remove rest x

/-- The memory with an entry put before the first one of a higher address. -/
def Memory.insert : Memory → Nat → Byte → Memory
  | [], x, v => [(x, v)]
  | (a, b) :: rest, x, v => if x < a then (x, v) :: (a, b) :: rest else (a, b) :: Memory.insert rest x v

/-- Writing a byte: the entry is replaced, or removed when the byte is what an unlisted address reads as. -/
def Memory.write (m : Memory) (x : Nat) (v : Byte) : Memory :=
  if v = 0 then m.remove x else (m.remove x).insert x v

/-- The canonical form from address `lo` up: addresses strictly rising, below 2^64, no entry equal to 0. -/
def Memory.wfFrom : Nat → Memory → Bool
  | _, [] => true
  | lo, (a, b) :: rest => decide (lo ≤ a) && decide (a < 2 ^ 64) && decide (b ≠ 0) && Memory.wfFrom (a + 1) rest

/-- The canonical form holds: equal memories are then equal lists. -/
def Memory.wf (m : Memory) : Bool := Memory.wfFrom 0 m

/-- Byte `k` of a value, the lowest first (20_memory.md R40). -/
def byteOf (v : Word) (k : Nat) : Byte := (v >>> (8 * k)).setWidth 8

/-- The `n` bytes that `f` gives from physical address `pa` up, little-endian, zero-extended (20_memory.md R40, R41). -/
def assemble (f : Word → Byte) (pa : Word) : Nat → Word
  | 0 => 0
  | n + 1 => assemble f pa n ||| (zext (f (pa + BitVec.ofNat 64 n)) <<< (8 * n))

/-- The low `n` bytes of `v` written little-endian from physical address `pa` up (20_memory.md R40, R45). -/
def Memory.writeBytes (m : Memory) (pa v : Word) : Nat → Memory
  | 0 => m
  | n + 1 => (Memory.writeBytes m pa v n).write (pa + BitVec.ofNat 64 n).toNat (byteOf v n)

/-! ### Caches as data -/

/-- The byte a cache's copy has for an address, if it holds the block (20_memory.md R60: blocks of 64 bytes). -/
def cachedByte (c : List CacheBlock) (a : Word) : Option Byte :=
  match c.find? (fun blk => blk.number == a.toNat / 64) with
  | some blk => some (blk.copy.read a.toNat)
  | none => none

/-- The copies with one byte replaced in the block that holds it. -/
def cachePut (c : List CacheBlock) (a : Word) (b : Byte) : List CacheBlock :=
  c.map fun blk => if blk.number = a.toNat / 64 then { blk with copy := blk.copy.write a.toNat b } else blk

/-- The copies with the low `n` bytes of `v` replaced from address `pa` up. -/
def cachePutBytes (c : List CacheBlock) (pa v : Word) : Nat → List CacheBlock
  | 0 => c
  | n + 1 => cachePut (cachePutBytes c pa v n) (pa + BitVec.ofNat 64 n) (byteOf v n)

/-- The copies without one block. -/
def cacheDrop (c : List CacheBlock) (number : Nat) : List CacheBlock := c.filter fun blk => blk.number != number

/-- The part of memory that block `number` holds. -/
def blockOf (m : Memory) (number : Nat) : Memory := m.filter fun cell => cell.1 / 64 == number

/-! ### Stores: taking effect, unlocking -/

/-- The bytes `a` to `a + n - 1` and `b` to `b + m - 1` have one in common (addresses modulo 2^64). -/
def overlaps (a : Word) (n : Nat) (b : Word) (m : Nat) : Bool := decide ((b - a).toNat < n) || decide ((a - b).toNat < m)

/-- The byte a store writes to an address, if it writes there. -/
def Store.byteAt (st : Store) (a : Word) : Option Byte :=
  if (a - st.addr).toNat < sizeBytes st.size then some (byteOf st.value (a - st.addr).toNat) else none

/-- The bytes of an access and the `n` bytes at `pa` have one in common. -/
def Pending.overlaps (p : Pending) (pa : Word) (n : Nat) : Bool := Machine.overlaps p.addr (sizeBytes p.size) pa n

/-- The access is a store. -/
def Pending.isStore (p : Pending) : Bool :=
  match p.effect with
  | .store _ => true
  | .load | .loadLock => false

/-- The byte an access writes to an address, if it writes there. -/
def Pending.byteAt (p : Pending) (a : Word) : Option Byte :=
  match p.effect with
  | .store v => Store.byteAt { addr := p.addr, size := p.size, value := v } a
  | .load | .loadLock => none

/-- The byte that the newest store of a list of accesses (oldest first) writes to an address, if one does. -/
def pendingByte : List Pending → Word → Option Byte
  | [], _ => none
  | p :: rest, a =>
    match pendingByte rest a with
    | some b => some b
    | none => p.byteAt a

/-- The load of the load-lock that set the lock state has not taken effect: stores come before it, and do not unlock it yet
(20_memory.md R52, R56, log entry 18). -/
def State.lockPending (s : State) : Bool := s.pending.any fun p => p.effect == .loadLock

/-- A store unlocks the lock state that it overlaps (20_memory.md R45, R56 item 1); with `block64`, also one that touches the
64-byte block of the locked location (R56 item 6). The comparison is of physical addresses (R54). -/
def unlocks (p : Platform) (lk : Lock) (st : Store) : Bool :=
  match p.lockGranule with
  | .exact => overlaps lk.paddr (sizeBytes lk.width) st.addr (sizeBytes st.size)
  | .block64 =>
    overlaps lk.paddr (sizeBytes lk.width) st.addr (sizeBytes st.size) ||
      overlaps (lk.paddr &&& 0xFFFFFFFFFFFFFFC0) 64 st.addr (sizeBytes st.size)

/-- The lock state unlocked (20_memory.md R56). -/
def State.unlock (s : State) : State := { s with lock := { s.lock with locked := false } }

/-- The lock state after a store took effect: `lock.locked` cleared if the store unlocks it. -/
def State.lockAfter (s : State) (st : Store) : Lock :=
  if !s.lockPending && unlocks s.platform s.lock st then { s.lock with locked := false } else s.lock

/-- A store of a logical processor takes effect in the global memory order: memory, the d-cache's copies (coherent, 20_memory.md
R57) and the lock state (R45). The i-cache's copies stay as they are (R58). -/
def State.takeEffect (s : State) (st : Store) : State :=
  { s with
    mem := s.mem.writeBytes st.addr st.value (sizeBytes st.size)
    dcache := cachePutBytes s.dcache st.addr st.value (sizeBytes st.size)
    lock := s.lockAfter st }

/-- An access takes effect. A load changes nothing: its value was taken from the state in which it takes effect (log entry 9). -/
def State.performed (s : State) (p : Pending) : State :=
  match p.effect with
  | .store v => s.takeEffect { addr := p.addr, size := p.size, value := v }
  | .load | .loadLock => s

/-- The accesses of a list that are `due` take effect, oldest first; the others stay pending behind `kept`, each one event nearer. -/
def State.performDue (due : Pending → Bool) : List Pending → List Pending → State → State
  | kept, [], s => { s with pending := kept }
  | kept, p :: rest, s =>
    if due p then State.performDue due kept rest ({ s with pending := kept ++ rest }.performed p)
    else State.performDue due (kept ++ [{ p with wait := p.wait - 1 }]) rest s

/-- The accesses that have let their events pass take effect. -/
def State.comeDue (s : State) : State := State.performDue (fun p => p.wait == 0) [] s.pending s

/-- Every pending access takes effect, oldest first. -/
def State.performAll (s : State) : State := State.performDue (fun _ => true) [] s.pending s

/-! ### What a read of one physical byte gives -/

/-- A byte of memory as the global memory order has it: what a page walk reads (20_memory.md R68). -/
def State.memByte (s : State) (a : Word) : Byte := s.mem.read a.toNat

/-- A byte as a data load sees it that takes effect in this state: the d-cache's copy, else memory (20_memory.md R50, R57). -/
def State.loadByte (s : State) (a : Word) : Byte :=
  match (if s.platform.hasDcache then cachedByte s.dcache a else none) with
  | some b => b
  | none => s.memByte a

/-- A byte as an instruction fetch sees it: with an i-cache, its copy or else memory (20_memory.md R58); without one, memory
(R69). -/
def State.fetchByte (s : State) (a : Word) : Byte :=
  match (if s.platform.hasIcache then cachedByte s.icache a else none) with
  | some b => b
  | none => s.memByte a

/-- The `n` bytes at `pa` as a data load returns them (20_memory.md R44). -/
def State.loadValue (s : State) (pa : Word) (n : Nat) : Word := assemble s.loadByte pa n

/-! ### The bus -/

/-- A region answers a kind of access. -/
def BusRegion.answersKind (r : BusRegion) : Access → Bool
  | .read => r.reads
  | .write => r.writes
  | .fetch => r.fetches

/-- A region answers an access that lies wholly inside it. -/
def BusRegion.answers (r : BusRegion) (pa : Word) (sz : AccessSize) (kind : Access) : Bool :=
  BusRegion.answersKind r kind && r.sizes.contains sz && decide (r.base ≤ pa.toNat) &&
    decide (pa.toNat + sizeBytes sz ≤ r.base + r.size)

/-- `bus_ok(pa, n, kind)` (20_memory.md R48): some region answers. -/
def State.busOk (s : State) (pa : Word) (sz : AccessSize) (kind : Access) : Bool :=
  s.platform.bus.any fun r => BusRegion.answers r pa sz kind

/-! ### Interrupts -/

/-- The number of a cause (60_exceptions.md R252), which is the number of its handler register too (R282). -/
def causeNumber : Cause → Fin 16
  | .externl => 0
  | .breakpt => 1
  | .syscall => 2
  | .invalid => 3
  | .busr => 4
  | .busw => 5
  | .busx => 6
  | .accessr => 7
  | .accessw => 8
  | .accessx => 9
  | .ualignr => 10
  | .ualignw => 11
  | .ualignx => 12
  | .vatfail => 13

/-- The handler register `int<c>` of a cause (10_state.md R17). -/
def handlerOf (c : Cause) : CtrlReg := ⟨(causeNumber c).val, by have := (causeNumber c).isLt; omega⟩

/-- An interrupt that records neither an address nor a page table entry: EXTERNL, BREAKPT, SYSCALL, INVALID (10_state.md
R19). -/
def plainInterrupt (c : Cause) : Interrupt := { cause := c, val := none, pte := none }

/-- An interrupt that records the address of the access (10_state.md R19). -/
def addressInterrupt (c : Cause) (a : Word) : Interrupt := { cause := c, val := some a, pte := none }

/-- An access violation that records the address and the last page table entry read (10_state.md R21). -/
def pteInterrupt (c : Cause) (a p : Word) : Interrupt := { cause := c, val := some a, pte := some p }

/-- `UALIGNR`, `UALIGNW`, `UALIGNX` by kind (60_exceptions.md R273 to R275). -/
def unalignedCause : Access → Cause
  | .read => .ualignr
  | .write => .ualignw
  | .fetch => .ualignx

/-- `ACCESSR`, `ACCESSW`, `ACCESSX` by kind (60_exceptions.md R270 to R272). -/
def accessCause : Access → Cause
  | .read => .accessr
  | .write => .accessw
  | .fetch => .accessx

/-- `BUSR`, `BUSW`, `BUSX` by kind (60_exceptions.md R267 to R269). -/
def busCause : Access → Cause
  | .read => .busr
  | .write => .busw
  | .fetch => .busx

/-- `C[intval] <- a` for the causes that record an address; else unchanged (10_state.md R19). -/
def State.recordAddress (s : State) : Option Word → State
  | some a => s.setCtrl ctrlIntval a
  | none => s

/-- `C[intpte] <- p` where a page table entry was read; else unchanged (10_state.md R21). -/
def State.recordPte (s : State) : Option Word → State
  | some p => s.setCtrl ctrlIntpte p
  | none => s

/-! ### Virtual address translation -/

/-- "Bits 63..48 of the virtual address" match bit 47 (20_memory.md R62, R65). -/
def canonicalAddr (va : Word) : Bool :=
  va.extractLsb' 48 16 == (if va.getLsbD 47 then 0xFFFF else 0)

/-- The index of a level's page table: bits [47 - 9 * level : 39 - 9 * level] (20_memory.md R62, R63). -/
def tableIndex (va : Word) (level : Nat) : Word := zext (va.extractLsb' (39 - 9 * level) 9)

/-- The physical address that a page table entry's `next` field names: `pte[63:12] ++ 0b000000000000` (20_memory.md R62,
R64). -/
def nextBase (pte : Word) : Word := pte &&& 0xFFFFFFFFFFFFF000

/-- The page-table root: `C[uptp]` in user mode, `C[kptp]` in kernel mode (20_memory.md R61). -/
def State.tableRoot (s : State) : Word := if s.statU then s.getCtrl ctrlUptp else s.getCtrl ctrlKptp

/-- The 8-byte page table entry at a physical address, as memory has it (20_memory.md R68). -/
def State.pteAt (s : State) (pa : Word) : Word := assemble s.memByte pa 8

/-- The walk through the levels of a list, from a table, with the entry read last (20_memory.md R62): a refused read gives
`VATFAIL` (R66), a clear `v` gives `ACCESS*` with that entry (R65). -/
def State.walk (s : State) (va : Word) (kind : Access) : List Nat → Word → Word → Except Interrupt Word
  | [], _, pte => .ok pte
  | level :: rest, table, _ =>
    let pa := table + 8 * tableIndex va level
    if s.busOk pa .word .read then
      let pte := s.pteAt pa
      if pte.getLsbD 0 then s.walk va kind rest (nextBase pte) pte
      else .error (pteInterrupt (accessCause kind) va pte)
    else .error (addressInterrupt .vatfail va)

/-- The four levels from the root: the final page table entry (20_memory.md R62). -/
def State.finalPte (s : State) (va : Word) (kind : Access) : Except Interrupt Word :=
  s.walk va kind [0, 1, 2, 3] s.tableRoot 0

/-- The test of `w` (writes) or `x` (fetches) on the final entry, and the physical address (20_memory.md R62). -/
def applyPte (va : Word) (kind : Access) (pte : Word) : Except Interrupt Word :=
  if (kind = .write ∧ pte.getLsbD 1 = false) ∨ (kind = .fetch ∧ pte.getLsbD 2 = false) then
    .error (pteInterrupt (accessCause kind) va pte)
  else .ok (nextBase pte ||| (va &&& 0xFFF))

/-- The translation cache of the current mode (20_memory.md R67). -/
def State.currentTcache (s : State) : List Translation := if s.statU then s.tcacheU else s.tcacheK

/-- The final entry that the translation cache holds for an address, if there is a cache and it holds one (20_memory.md R67,
log entry 12). -/
def State.cachedPte (s : State) (va : Word) : Option Word :=
  if s.platform.hasTcache then
    match s.currentTcache.find? (fun t => t.page == va.toNat / 4096) with
    | some t => some t.pte
    | none => none
  else none

/-- `Translate(va, kind)` (20_memory.md R62): the identity when `stat.V` is 0. -/
def State.translate (s : State) (va : Word) (kind : Access) : Except Interrupt Word :=
  if s.statV then
    if canonicalAddr va then
      match s.cachedPte va with
      | some pte => applyPte va kind pte
      | none =>
        match s.finalPte va kind with
        | .ok pte => applyPte va kind pte
        | .error i => .error i
    else .error (addressInterrupt (accessCause kind) va)
  else .ok va

/-! ### The environment's events, and waiting for them -/

/-- One event of the environment (log entries 2, 9, 11, 12). A platform without the unit concerned ignores it. -/
def State.afterEvent (s : State) : EnvEvent → State
  | .pass => s
  | .fillD number =>
    if s.platform.hasDcache then
      { s with dcache := { number := number, copy := blockOf s.mem number } :: cacheDrop s.dcache number }
    else s
  | .fillI number fromD =>
    if s.platform.hasIcache then
      let copy :=
        match (if fromD && s.platform.hasDcache then s.dcache.find? (fun blk => blk.number == number) else none) with
        | some blk => blk.copy
        | none => blockOf s.mem number
      { s with icache := { number := number, copy := copy } :: cacheDrop s.icache number }
    else s
  | .dropD number => { s with dcache := cacheDrop s.dcache number }
  | .dropI number => { s with icache := cacheDrop s.icache number }
  | .remember va =>
    if s.platform.hasTcache && s.statV && canonicalAddr va then
      match s.finalPte va .read with
      | .ok pte =>
        if s.statU then { s with tcacheU := { page := va.toNat / 4096, pte := pte } :: s.tcacheU }
        else { s with tcacheK := { page := va.toNat / 4096, pte := pte } :: s.tcacheK }
      | .error _ => s
    else s
  | .forget user page =>
    if user then { s with tcacheU := s.tcacheU.filter fun t => t.page != page }
    else { s with tcacheK := s.tcacheK.filter fun t => t.page != page }
  | .lpStore st => s.takeEffect st
  | .extStore st =>
    { s with mem := s.mem.writeBytes st.addr st.value (sizeBytes st.size), lock := s.lockAfter st }

/-- An event happens, and the accesses pending for it take effect. -/
def State.tick (s : State) (e : EnvEvent) : State := (s.afterEvent e).comeDue

/-- Events in order. -/
def State.ticks (s : State) : List EnvEvent → State
  | [] => s
  | e :: rest => (s.tick e).ticks rest

/-- The first event that the inputs of the coming steps list, and the inputs without it. -/
def nextEvent : List EnvInput → Option (EnvEvent × List EnvInput)
  | [] => none
  | i :: rest =>
    match i.events with
    | e :: es => some (e, { i with events := es } :: rest)
    | [] =>
      match nextEvent rest with
      | some (e, rest') => some (e, i :: rest')
      | none => none

/-- The state when `n` more events have happened; where fewer are to come, every pending access has taken effect. An
instruction that waits goes on in this state; one whose access takes effect later only looks into it (log entry 9). -/
def State.elapse (s : State) : Nat → State
  | 0 => s
  | n + 1 =>
    match nextEvent s.env with
    | some (e, rest) => ({ s with env := rest }.tick e).elapse n
    | none => s.performAll

/-- The number of events after which the pending accesses that `sel` selects have taken effect. -/
def State.lastDue (s : State) (sel : Pending → Bool) : Nat :=
  s.pending.foldr (fun p n => if sel p then max (p.wait + 1) n else n) 0

/-- The state when every pending access has taken effect: what interrupt entry waits for (60_exceptions.md R259). -/
def State.completed (s : State) : State := s.elapse (s.lastDue fun _ => true)

/-- The number of events after which the pending accesses to a byte of the `n` at `pa` have taken effect: an access to them takes
effect no earlier (20_memory.md R50 a). -/
def State.overlapWait (s : State) (pa : Word) (n : Nat) : Nat := s.lastDue fun p => p.overlaps pa n

/-- The number of events after which an access to `n` bytes at `pa` takes effect: the delay of the step's input on a platform that
reorders accesses, or more where earlier accesses make it wait (20_memory.md R50). -/
def State.waitFor (s : State) (pa : Word) (n : Nat) : Nat :=
  max (if s.platform.reorders then s.delay else 0) (s.overlapWait pa n)

/-- The state in which an access to `n` bytes at `pa`, issued now, takes effect. DESIGN CHOICE (unsafe, log entry 9): its d-cache has
what the events to come make of it; a later `cinval` of this processor, which the spec does not order with the load
(91_not_in_source.md N11), is not seen by a load issued before it. -/
def State.effectPoint (s : State) (pa : Word) (n : Nat) : State := s.elapse (s.waitFor pa n)

/-- An access is issued that takes effect after `n` events: at once for 0, else it joins the pending ones. -/
def State.issueAfter (s : State) (n : Nat) (pa : Word) (sz : AccessSize) (eff : AccessEffect) : State :=
  match n with
  | 0 => s.performed { addr := pa, size := sz, effect := eff, wait := 0 }
  | k + 1 => { s with pending := s.pending ++ [{ addr := pa, size := sz, effect := eff, wait := k }] }

/-- A load or a plain store is issued. -/
def State.issue (s : State) (pa : Word) (sz : AccessSize) (eff : AccessEffect) : State :=
  s.issueAfter (s.waitFor pa (sizeBytes sz)) pa sz eff

/-! ### Taking an interrupt and returning from one -/

/-- Interrupt entry (60_exceptions.md R256): earlier accesses complete (R259); `intip`, `intstat`, `intcause`, and where the cause
has them `intval`, `intpte`, are written; `pc` goes to the handler; `stat.U` and `stat.E` are cleared, `stat.V` kept (R257); the
lock is unlocked; a pause ends. `pc` is the address to save: `A + 4` while the instruction at `A` executes, `A` for its fetch
(10_state.md R14). -/
def State.enterInterrupt (s : State) (i : Interrupt) : State :=
  let s1 := s.completed
  let s2 := ((s1.setCtrl ctrlIntip s1.pc).setCtrl ctrlIntstat (s1.getCtrl ctrlStat)).setCtrl ctrlIntcause
    (BitVec.ofNat 64 (causeNumber i.cause).val)
  let s3 := (s2.recordAddress i.val).recordPte i.pte
  let s4 := (s3.setPc (s3.getCtrl (handlerOf i.cause))).setCtrl ctrlStat (s3.getCtrl ctrlStat &&& 0xFFFFFFFFFFFFFFFC)
  { s4.unlock with paused := false }

/-- Interrupt return (47_system.md R237, 60_exceptions.md R279): `stat <- intstat`, `pc <- intip`, unlock. -/
def State.returnFromInterrupt (s : State) : State :=
  ((s.setCtrl ctrlStat (s.getCtrl ctrlIntstat)).setPc (s.getCtrl ctrlIntip)).unlock

/-- The instruction ends by raising an interrupt: a next state, at the handler (60_exceptions.md R253). -/
def State.raised (s : State) (i : Interrupt) : Host.Outcome State Fault Refusal := .next (s.enterInterrupt i)

/-! ### The access primitives -/

/-- Alignment (20_memory.md R42): a fetch at the multiples of 4; a data access as `DATA_ALIGN` says, by default where
`addr mod n = 0`. -/
def State.aligned (s : State) (addr : Word) (sz : AccessSize) (kind : Access) : Bool :=
  match kind, s.platform.dataAlign with
  | .fetch, _ | _, .natural => addr.toNat % sizeBytes sz == 0
  | _, .withinBlock => decide (addr.toNat % 64 + sizeBytes sz ≤ 64)

/-- The first two checks of an access, alignment and then translation (20_memory.md R47): the physical address. -/
def State.accessAddr (s : State) (addr : Word) (sz : AccessSize) (kind : Access) : Except Interrupt Word :=
  if s.aligned addr sz kind then s.translate addr kind else .error (addressInterrupt (unalignedCause kind) addr)

/-- `MemRead(addr, n)` (20_memory.md R44): the value that the bytes have where the load takes effect, zero-extended, and the state
with the load issued. -/
def State.memRead (s : State) (addr : Word) (sz : AccessSize) : Except Interrupt (Word × State) :=
  match s.accessAddr addr sz .read with
  | .error i => .error i
  | .ok pa =>
    if s.busOk pa sz .read then
      .ok ((s.effectPoint pa (sizeBytes sz)).loadValue pa (sizeBytes sz), s.issue pa sz .load)
    else .error (addressInterrupt .busr addr)

/-- `MemWrite(addr, n, v)` (20_memory.md R45). -/
def State.memWrite (s : State) (addr : Word) (sz : AccessSize) (v : Word) : Except Interrupt State :=
  match s.accessAddr addr sz .write with
  | .error i => .error i
  | .ok pa =>
    if s.busOk pa sz .write then .ok (s.issue pa sz (.store v))
    else .error (addressInterrupt .busw addr)

/-- The state in which a fetch from `pa` reads its four bytes, all at one point of the global memory order (20_memory.md R43):
without an i-cache it waits for the earlier stores to them (R69). -/
def State.fetchPoint (s : State) (pa : Word) : State :=
  if s.platform.hasIcache then s else s.elapse (s.lastDue fun p => p.isStore && p.overlaps pa 4)

/-- `Fetch(addr)` (20_memory.md R46): the instruction word at a virtual address, and the state in which it was read. -/
def State.fetchWord (s : State) (addr : Word) : Except Interrupt (InstrWord × State) :=
  match s.accessAddr addr .half .fetch with
  | .error i => .error i
  | .ok pa =>
    if s.busOk pa .half .fetch then
      .ok ((assemble (s.fetchPoint pa).fetchByte pa 4).setWidth 32, s.fetchPoint pa)
    else .error (addressInterrupt .busx addr)

/-! ### The shapes of the memory instructions -/

/-- A plain load (40_loads.md R120): `X[r1] <- MemRead(addr, n)`. -/
def State.load (s : State) (sz : AccessSize) (r1 r2 r3 : Reg) (imm9 : BitVec 9) : Host.Outcome State Fault Refusal :=
  match s.memRead (s.indexedAddr sz r2 r3 imm9) sz with
  | .error i => s.raised i
  | .ok (v, s1) => .next (s1.setReg r1 v)

/-- An access as one that no longer holds the lock state. -/
def Pending.plain (p : Pending) : Pending := { p with effect := if p.effect = .loadLock then .load else p.effect }

/-- The lock state set by a load-lock, in place of the one before (20_memory.md R54). -/
def State.lockOn (s : State) (addr : Word) (sz : AccessSize) (pa : Word) : State :=
  { s with
    lock := { locked := true, width := sz, address := addr, paddr := pa }
    pending := s.pending.map Pending.plain }

/-- A load-lock (40_loads.md R129): the lock is written first, its `paddr` when the translation succeeds, and then the load
is made as by a plain load; a load that raises leaves the lock overwritten and, by interrupt entry, unlocked. -/
def State.loadLock (s : State) (sz : AccessSize) (r1 r2 r3 : Reg) (imm9 : BitVec 9) : Host.Outcome State Fault Refusal :=
  let addr := s.indexedAddr sz r2 r3 imm9
  match s.accessAddr addr sz .read with
  | .error i => (s.lockOn addr sz s.lock.paddr).raised i
  | .ok pa =>
    let s1 := s.lockOn addr sz pa
    if s.busOk pa sz .read then
      .next ((s1.issue pa sz .loadLock).setReg r1 ((s.effectPoint pa (sizeBytes sz)).loadValue pa (sizeBytes sz)))
    else s1.raised (addressInterrupt .busr addr)

/-- A plain store (41_stores.md R130): `MemWrite(addr, n, X[r1])`. -/
def State.store (s : State) (sz : AccessSize) (r1 r2 r3 : Reg) (imm9 : BitVec 9) : Host.Outcome State Fault Refusal :=
  match s.memWrite (s.indexedAddr sz r2 r3 imm9) sz (s.getReg r1) with
  | .error i => s.raised i
  | .ok s1 => .next s1

/-- The test of a store-conditional (41_stores.md R135): locked, and the address and the width are the lock's. -/
def State.lockHolds (s : State) (addr : Word) (sz : AccessSize) : Bool :=
  s.lock.locked && s.lock.address == addr && s.lock.width == sz

/-- The state in which a store-conditional tests the lock: the state as it is, but where the lock holds and earlier accesses to its
bytes are pending, the state in which those have taken effect (20_memory.md R50 a, log entry 18). -/
def State.testPoint (s : State) (addr pa : Word) (sz : AccessSize) : State :=
  if s.lockHolds addr sz then s.elapse (s.overlapWait pa (sizeBytes sz)) else s

/-- The number of events after which the store of a store-conditional that succeeds takes effect: as for a plain store if the lock
would still hold there, so that no other store to the locked bytes comes between the test and the store; else in its turn
(20_memory.md R52, R56, log entry 18). -/
def State.conditionalWait (s : State) (addr pa : Word) (sz : AccessSize) : Nat :=
  if (s.effectPoint pa (sizeBytes sz)).lockHolds addr sz then s.waitFor pa (sizeBytes sz)
  else s.overlapWait pa (sizeBytes sz)

/-- A store-conditional (41_stores.md R135): alignment and translation on both paths, the bus access only on success; the flag
goes to `X[r2]`. One that succeeds may take effect later, as a plain store may (20_memory.md R52); one that fails waits until the
lock is as it was tested, and makes no access. -/
def State.storeConditional (s : State) (sz : AccessSize) (r1 r2 r3 : Reg) (imm9 : BitVec 9) :
    Host.Outcome State Fault Refusal :=
  let addr := s.conditionalAddr sz r3 imm9
  match s.accessAddr addr sz .write with
  | .error i => s.raised i
  | .ok pa =>
    if (s.testPoint addr pa sz).lockHolds addr sz then
      if s.busOk pa sz .write then
        .next ((s.issueAfter (s.conditionalWait addr pa sz) pa sz (.store (s.getReg r1))).unlock.setReg r2 1)
      else s.raised (addressInterrupt .busw addr)
    else .next ((s.testPoint addr pa sz).setReg r2 0)

/-! ### The boundary between two instructions -/

/-- A step without events, delay and request. -/
def quietInput : EnvInput := { events := [], delay := 0, extIrq := false }

/-- The inputs of the coming step; the environment is quiet when none are listed (log entry 2). -/
def State.input (s : State) : EnvInput :=
  match s.env with
  | [] => quietInput
  | e :: _ => e

/-- The state at the coming step's boundary: its input is used up and its events have happened; where none is to come any more,
every pending access has taken effect, so that none is pending for ever. -/
def State.atBoundary (s : State) : State :=
  let b := ({ s with env := s.env.tail, delay := s.input.delay }).ticks s.input.events
  if (nextEvent b.env).isSome then b else b.performAll

/-- An external interrupt is taken at the boundary: requested, and `stat.E` is 1 (10_state.md R14, 60_exceptions.md R261,
R262). -/
def State.takesExternal (s : State) : Bool := s.input.extIrq && s.atBoundary.statE

end Sys2Proof.Machine
end

