-- ==== Sys2Proof/Machine/Arithmetic.lean ====
section
/-!
DEFINITION. Arithmetic (43_arithmetic.md): modulo 2^64, no flags, no interrupts; each writes only `X[r1]`.
-/
namespace Sys2Proof.Machine

/-- `ssi`: 16 bits of `X[r1]` are set; with `c` the lower ones are 0 and the upper ones sign-extended (R152). -/
def execSsi (r1 : Reg) (c : Bool) (sh : BitVec 2) (val : BitVec 16) (s : State) : Host.Outcome State Fault Refusal :=
  .next (s.setReg r1 (setShifted (s.getReg r1) c sh val))

/-- `add`: `X[r1] <- X[r2] + (X[r3] + zext_9(imm9))` (R153). -/
def execAdd (r1 r2 r3 : Reg) (imm9 : BitVec 9) (s : State) : Host.Outcome State Fault Refusal :=
  .next (s.setReg r1 (s.getReg r2 + s.plusZext r3 imm9))

/-- `sub`: `X[r1] <- X[r2] - (X[r3] + zext_9(imm9))` (R154). -/
def execSub (r1 r2 r3 : Reg) (imm9 : BitVec 9) (s : State) : Host.Outcome State Fault Refusal :=
  .next (s.setReg r1 (s.getReg r2 - s.plusZext r3 imm9))

/-- `mul`: `X[r1] <- (X[r2] * (X[r3] + sext_9(imm9)))[63:0]` (R155). -/
def execMul (r1 r2 r3 : Reg) (imm9 : BitVec 9) (s : State) : Host.Outcome State Fault Refusal :=
  .next (s.setReg r1 (s.getReg r2 * s.plusSext r3 imm9))

/-- `umulh`: bits [127:64] of the unsigned product of `X[r2]` and `X[r3] + zext_9(imm9)` (R156). -/
def execUmulh (r1 r2 r3 : Reg) (imm9 : BitVec 9) (s : State) : Host.Outcome State Fault Refusal :=
  .next (s.setReg r1 (unsignedProductHigh (s.getReg r2) (s.plusZext r3 imm9)))

/-- `imulh`: bits [127:64] of the signed product of `X[r2]` and `X[r3] + sext_9(imm9)` (R157). -/
def execImulh (r1 r2 r3 : Reg) (imm9 : BitVec 9) (s : State) : Host.Outcome State Fault Refusal :=
  .next (s.setReg r1 (signedProductHigh (s.getReg r2) (s.plusSext r3 imm9)))

/-- `udiv`: `X[r2] /u (X[r3] + zext_9(imm9))`, all ones for a divisor of 0 (R158). -/
def execUdiv (r1 r2 r3 : Reg) (imm9 : BitVec 9) (s : State) : Host.Outcome State Fault Refusal :=
  .next (s.setReg r1 (unsignedQuotient (s.getReg r2) (s.plusZext r3 imm9)))

/-- `idiv`: `X[r2] /s (X[r3] + sext_9(imm9))`, all ones for a divisor of 0 (R159). -/
def execIdiv (r1 r2 r3 : Reg) (imm9 : BitVec 9) (s : State) : Host.Outcome State Fault Refusal :=
  .next (s.setReg r1 (signedQuotient (s.getReg r2) (s.plusSext r3 imm9)))

/-- `urem`: `X[r2] %u (X[r3] + zext_9(imm9))`, all ones for a divisor of 0 (R160). -/
def execUrem (r1 r2 r3 : Reg) (imm9 : BitVec 9) (s : State) : Host.Outcome State Fault Refusal :=
  .next (s.setReg r1 (unsignedRemainder (s.getReg r2) (s.plusZext r3 imm9)))

/-- `irem`: `X[r2] %s (X[r3] + sext_9(imm9))`, all ones for a divisor of 0 (R161). -/
def execIrem (r1 r2 r3 : Reg) (imm9 : BitVec 9) (s : State) : Host.Outcome State Fault Refusal :=
  .next (s.setReg r1 (signedRemainder (s.getReg r2) (s.plusSext r3 imm9)))

/-- `addi`: `X[r1] <- X[r2] + zext_14(imm14)` (R162). -/
def execAddi (r1 r2 : Reg) (imm14 : BitVec 14) (s : State) : Host.Outcome State Fault Refusal :=
  .next (s.setReg r1 (s.getReg r2 + zext imm14))

/-- `subi`: `X[r1] <- X[r2] - zext_14(imm14)` (R163). -/
def execSubi (r1 r2 : Reg) (imm14 : BitVec 14) (s : State) : Host.Outcome State Fault Refusal :=
  .next (s.setReg r1 (s.getReg r2 - zext imm14))

/-- `muli`: `X[r1] <- (X[r2] * sext_14(imm14))[63:0]` (R164). -/
def execMuli (r1 r2 : Reg) (imm14 : BitVec 14) (s : State) : Host.Outcome State Fault Refusal :=
  .next (s.setReg r1 (s.getReg r2 * sext imm14))

/-- `udivi`: `X[r2] /u zext_14(imm14)`, all ones for a divisor of 0 (R165). -/
def execUdivi (r1 r2 : Reg) (imm14 : BitVec 14) (s : State) : Host.Outcome State Fault Refusal :=
  .next (s.setReg r1 (unsignedQuotient (s.getReg r2) (zext imm14)))

/-- `idivi`: `X[r2] /s sext_14(imm14)`, all ones for a divisor of 0 (R166). -/
def execIdivi (r1 r2 : Reg) (imm14 : BitVec 14) (s : State) : Host.Outcome State Fault Refusal :=
  .next (s.setReg r1 (signedQuotient (s.getReg r2) (sext imm14)))

/-- `uremi`: `X[r2] %u zext_14(imm14)`, all ones for a divisor of 0 (R167). -/
def execUremi (r1 r2 : Reg) (imm14 : BitVec 14) (s : State) : Host.Outcome State Fault Refusal :=
  .next (s.setReg r1 (unsignedRemainder (s.getReg r2) (zext imm14)))

/-- `iremi`: `X[r2] %s sext_14(imm14)`, all ones for a divisor of 0 (R168). -/
def execIremi (r1 r2 : Reg) (imm14 : BitVec 14) (s : State) : Host.Outcome State Fault Refusal :=
  .next (s.setReg r1 (signedRemainder (s.getReg r2) (sext imm14)))

end Sys2Proof.Machine
end

