-- ==== Sys2Proof/Machine/Bitwise.lean ====
section
/-!
DEFINITION. Bitwise logic, shifts, rotates, counts, extract and deposit (44_bitwise.md); each writes only `X[r1]`.
-/
namespace Sys2Proof.Machine

/-- `and`: `X[r1] <- X[r2] & (X[r3] | zext_9(imm9))` (R171). -/
def execAnd (r1 r2 r3 : Reg) (imm9 : BitVec 9) (s : State) : Host.Outcome State Fault Refusal :=
  .next (s.setReg r1 (s.getReg r2 &&& s.orZext r3 imm9))

/-- `or`: `X[r1] <- X[r2] | (X[r3] | zext_9(imm9))` (R172). -/
def execOr (r1 r2 r3 : Reg) (imm9 : BitVec 9) (s : State) : Host.Outcome State Fault Refusal :=
  .next (s.setReg r1 (s.getReg r2 ||| s.orZext r3 imm9))

/-- `nor`: `X[r1] <- ~(X[r2] | (X[r3] | zext_9(imm9)))` (R173). -/
def execNor (r1 r2 r3 : Reg) (imm9 : BitVec 9) (s : State) : Host.Outcome State Fault Refusal :=
  .next (s.setReg r1 (~~~(s.getReg r2 ||| s.orZext r3 imm9)))

/-- `xor`: `X[r1] <- X[r2] ^ (X[r3] | zext_9(imm9))` (R174). -/
def execXor (r1 r2 r3 : Reg) (imm9 : BitVec 9) (s : State) : Host.Outcome State Fault Refusal :=
  .next (s.setReg r1 (s.getReg r2 ^^^ s.orZext r3 imm9))

/-- `andi`: `X[r1] <- X[r2] & zext_14(imm14)` (R175). -/
def execAndi (r1 r2 : Reg) (imm14 : BitVec 14) (s : State) : Host.Outcome State Fault Refusal :=
  .next (s.setReg r1 (s.getReg r2 &&& zext imm14))

/-- `ori`: `X[r1] <- X[r2] | zext_14(imm14)` (R176). -/
def execOri (r1 r2 : Reg) (imm14 : BitVec 14) (s : State) : Host.Outcome State Fault Refusal :=
  .next (s.setReg r1 (s.getReg r2 ||| zext imm14))

/-- `nori`: `X[r1] <- ~(X[r2] | zext_14(imm14))` (R177). -/
def execNori (r1 r2 : Reg) (imm14 : BitVec 14) (s : State) : Host.Outcome State Fault Refusal :=
  .next (s.setReg r1 (~~~(s.getReg r2 ||| zext imm14)))

/-- `xori`: `X[r1] <- X[r2] ^ zext_14(imm14)` (R178). -/
def execXori (r1 r2 : Reg) (imm14 : BitVec 14) (s : State) : Host.Outcome State Fault Refusal :=
  .next (s.setReg r1 (s.getReg r2 ^^^ zext imm14))

/-- `sl`: `X[r1] <- X[r2] << shamt` (R179). -/
def execSl (r1 r2 r3 : Reg) (imm9 : BitVec 9) (s : State) : Host.Outcome State Fault Refusal :=
  .next (s.setReg r1 (s.getReg r2 <<< s.shiftAmount r3 imm9))

/-- `usr`: `X[r1] <- X[r2] >>u shamt` (R180). -/
def execUsr (r1 r2 r3 : Reg) (imm9 : BitVec 9) (s : State) : Host.Outcome State Fault Refusal :=
  .next (s.setReg r1 (s.getReg r2 >>> s.shiftAmount r3 imm9))

/-- `isr`: `X[r1] <- X[r2] >>s shamt` (R181). -/
def execIsr (r1 r2 r3 : Reg) (imm9 : BitVec 9) (s : State) : Host.Outcome State Fault Refusal :=
  .next (s.setReg r1 ((s.getReg r2).sshiftRight (s.shiftAmount r3 imm9)))

/-- `si`: `X[r2]` shifted left by `lsh`, then right by `rsh`, signed if `i` (R182). -/
def execSi (r1 r2 : Reg) (lsh rsh : BitVec 6) (sgn : Bool) (s : State) : Host.Outcome State Fault Refusal :=
  .next (s.setReg r1 (shiftedLeftRight (s.getReg r2) lsh rsh sgn))

/-- `cb`: `X[r1] <- X[r2] & ~mask` (R183). -/
def execCb (r1 r2 : Reg) (lsh rsh : BitVec 6) (s : State) : Host.Outcome State Fault Refusal :=
  .next (s.setReg r1 (s.getReg r2 &&& ~~~(clearMask lsh rsh)))

/-- `ror`: `X[r2]` rotated right by `shamt` (R184). -/
def execRor (r1 r2 r3 : Reg) (imm9 : BitVec 9) (s : State) : Host.Outcome State Fault Refusal :=
  .next (s.setReg r1 (rotatedRight (s.getReg r2) (s.shiftAmount r3 imm9)))

/-- `rol`: `X[r2]` rotated left by `shamt` (R185). -/
def execRol (r1 r2 r3 : Reg) (imm9 : BitVec 9) (s : State) : Host.Outcome State Fault Refusal :=
  .next (s.setReg r1 (rotatedLeft (s.getReg r2) (s.shiftAmount r3 imm9)))

/-- `rev`: the swap stages that `set` enables (R186). -/
def execRev (r1 r2 : Reg) (sel : BitVec 6) (s : State) : Host.Outcome State Fault Refusal :=
  .next (s.setReg r1 (reversedBits (s.getReg r2) sel))

/-- `csb`: the number of set bits of `X[r2]` (R187). -/
def execCsb (r1 r2 : Reg) (s : State) : Host.Outcome State Fault Refusal :=
  .next (s.setReg r1 (BitVec.ofNat 64 (countSet (s.getReg r2) 64)))

/-- `clz`: the number of leading clear bits of `X[r2]`, 64 for 0 (R188). -/
def execClz (r1 r2 : Reg) (s : State) : Host.Outcome State Fault Refusal :=
  .next (s.setReg r1 (BitVec.ofNat 64 (countLeadingZeroes (s.getReg r2) 64)))

/-- `ctz`: the number of trailing clear bits of `X[r2]`, 64 for 0 (R189). -/
def execCtz (r1 r2 : Reg) (s : State) : Host.Outcome State Fault Refusal :=
  .next (s.setReg r1 (BitVec.ofNat 64 (countTrailingZeroes (s.getReg r2) 64)))

/-- `ext`: the bits of `X[r2]` under the mask `X[r3]`, packed (R190). -/
def execExt (r1 r2 r3 : Reg) (s : State) : Host.Outcome State Fault Refusal :=
  .next (s.setReg r1 (extractFrom (s.getReg r2) (s.getReg r3) 64))

/-- `dep`: the low bits of `X[r2]` spread under the mask `X[r3]` (R191). -/
def execDep (r1 r2 r3 : Reg) (s : State) : Host.Outcome State Fault Refusal :=
  .next (s.setReg r1 (depositFrom (s.getReg r2) (s.getReg r3) 64 0))

end Sys2Proof.Machine
end

