-- ==== Sys2Proof/Machine/Flags.lean ====
section
/-!
DEFINITION. The machine has no flags (10_state.md R34): a comparison writes exactly 1 or 0 to a general register, all 64 bits
(45_comparison.md R200). These are the relations and that result.
-/
namespace Sys2Proof.Machine

/-- 1 when the relation holds, 0 otherwise (45_comparison.md R200). -/
def truthWord (p : Bool) : Word := if p then 1 else 0

/-- `==` on bit vectors. -/
def equalTo (a b : Word) : Bool := a == b

/-- `<u`: less than as unsigned integers. -/
def lessUnsigned (a b : Word) : Bool := decide (a.toNat < b.toNat)

/-- `<s`: less than as signed integers. -/
def lessSigned (a b : Word) : Bool := decide (a.toInt < b.toInt)

/-- `<=u`: less than or equal as unsigned integers. -/
def lessEqualUnsigned (a b : Word) : Bool := decide (a.toNat ≤ b.toNat)

/-- `<=s`: less than or equal as signed integers. -/
def lessEqualSigned (a b : Word) : Bool := decide (a.toInt ≤ b.toInt)

end Sys2Proof.Machine
end

