-- ==== Sys2Proof/Machine/Comparison.lean ====
section
/-!
DEFINITION. Comparisons (45_comparison.md): `X[r1]` gets exactly 1 or 0.
-/
namespace Sys2Proof.Machine

/-- `seq`: `X[r1] <- if X[r2] = X[r3] + sext_9(imm9) then 1 else 0` (R201). -/
def execSeq (r1 r2 r3 : Reg) (imm9 : BitVec 9) (s : State) : Host.Outcome State Fault Refusal :=
  .next (s.setReg r1 (truthWord (equalTo (s.getReg r2) (s.plusSext r3 imm9))))

/-- `sult`: `X[r1] <- if X[r2] <u X[r3] + zext_9(imm9) then 1 else 0` (R202). -/
def execSult (r1 r2 r3 : Reg) (imm9 : BitVec 9) (s : State) : Host.Outcome State Fault Refusal :=
  .next (s.setReg r1 (truthWord (lessUnsigned (s.getReg r2) (s.plusZext r3 imm9))))

/-- `silt`: `X[r1] <- if X[r2] <s X[r3] + sext_9(imm9) then 1 else 0` (R203). -/
def execSilt (r1 r2 r3 : Reg) (imm9 : BitVec 9) (s : State) : Host.Outcome State Fault Refusal :=
  .next (s.setReg r1 (truthWord (lessSigned (s.getReg r2) (s.plusSext r3 imm9))))

/-- `sule`: `X[r1] <- if X[r2] <=u X[r3] + zext_9(imm9) then 1 else 0` (R204). -/
def execSule (r1 r2 r3 : Reg) (imm9 : BitVec 9) (s : State) : Host.Outcome State Fault Refusal :=
  .next (s.setReg r1 (truthWord (lessEqualUnsigned (s.getReg r2) (s.plusZext r3 imm9))))

/-- `sile`: `X[r1] <- if X[r2] <=s X[r3] + sext_9(imm9) then 1 else 0` (R205). -/
def execSile (r1 r2 r3 : Reg) (imm9 : BitVec 9) (s : State) : Host.Outcome State Fault Refusal :=
  .next (s.setReg r1 (truthWord (lessEqualSigned (s.getReg r2) (s.plusSext r3 imm9))))

/-- `seqi`: `X[r1] <- if X[r2] = sext_14(imm14) then 1 else 0` (R206). -/
def execSeqi (r1 r2 : Reg) (imm14 : BitVec 14) (s : State) : Host.Outcome State Fault Refusal :=
  .next (s.setReg r1 (truthWord (equalTo (s.getReg r2) (sext imm14))))

/-- `sulti`: `X[r1] <- if X[r2] <u zext_14(imm14) then 1 else 0` (R207). -/
def execSulti (r1 r2 : Reg) (imm14 : BitVec 14) (s : State) : Host.Outcome State Fault Refusal :=
  .next (s.setReg r1 (truthWord (lessUnsigned (s.getReg r2) (zext imm14))))

/-- `silti`: `X[r1] <- if X[r2] <s sext_14(imm14) then 1 else 0` (R208). -/
def execSilti (r1 r2 : Reg) (imm14 : BitVec 14) (s : State) : Host.Outcome State Fault Refusal :=
  .next (s.setReg r1 (truthWord (lessSigned (s.getReg r2) (sext imm14))))

/-- `sulei`: `X[r1] <- if X[r2] <=u zext_14(imm14) then 1 else 0` (R209). -/
def execSulei (r1 r2 : Reg) (imm14 : BitVec 14) (s : State) : Host.Outcome State Fault Refusal :=
  .next (s.setReg r1 (truthWord (lessEqualUnsigned (s.getReg r2) (zext imm14))))

/-- `silei`: `X[r1] <- if X[r2] <=s sext_14(imm14) then 1 else 0` (R210). -/
def execSilei (r1 r2 : Reg) (imm14 : BitVec 14) (s : State) : Host.Outcome State Fault Refusal :=
  .next (s.setReg r1 (truthWord (lessEqualSigned (s.getReg r2) (sext imm14))))

end Sys2Proof.Machine
end

