-- ==== Sys2Proof/Machine/ControlFlow.lean ====
section
/-!
DEFINITION. Branches and jumps (46_control_flow.md). `pc` is already the address of the next instruction (10_state.md R13); the
new `pc` is checked when it is fetched from (R220).
-/
namespace Sys2Proof.Machine

/-- `bz`: if `X[r1]` is 0, `pc <- pc + (sext_19(imm19) << 2)` (R221). -/
def execBz (r1 : Reg) (imm19 : BitVec 19) (s : State) : Host.Outcome State Fault Refusal :=
  .next (if s.getReg r1 = 0 then s.setPc (s.branchTarget imm19) else s)

/-- `bn`: if `X[r1]` is not 0, `pc <- pc + (sext_19(imm19) << 2)` (R222). -/
def execBn (r1 : Reg) (imm19 : BitVec 19) (s : State) : Host.Outcome State Fault Refusal :=
  .next (if s.getReg r1 ≠ 0 then s.setPc (s.branchTarget imm19) else s)

/-- `jl`: `pc <- X[r2] + (zext_14(imm14) << 2)`, the base read first, and `X[r1]` gets the old `pc` (R223). -/
def execJl (r1 r2 : Reg) (imm14 : BitVec 14) (s : State) : Host.Outcome State Fault Refusal :=
  .next ((s.setPc (s.jumpTarget r2 imm14)).setReg r1 s.pc)

/-- `jlr`: `pc <- pc + X[r2] + (zext_14(imm14) << 2)`, the operands read first, and `X[r1]` gets the old `pc` (R224).
-/
def execJlr (r1 r2 : Reg) (imm14 : BitVec 14) (s : State) : Host.Outcome State Fault Refusal :=
  .next ((s.setPc (s.relativeTarget r2 imm14)).setReg r1 s.pc)

end Sys2Proof.Machine
end

