-- ==== Sys2Proof/Machine/Loads.lean ====
section
/-!
DEFINITION. The memory loads and load-locks (40_loads.md): loads zero-extend and are allowed in both modes.
-/
namespace Sys2Proof.Machine

/-- `lw`: `X[r1] <- MemRead(X[r2] + X[r3] + (zext_9(imm9) << 3), 8)`, zero-extended (R121). -/
def execLw (r1 r2 r3 : Reg) (imm9 : BitVec 9) (s : State) : Host.Outcome State Fault Refusal :=
  s.load .word r1 r2 r3 imm9

/-- `lh`: `X[r1] <- MemRead(X[r2] + X[r3] + (zext_9(imm9) << 2), 4)`, zero-extended (R122). -/
def execLh (r1 r2 r3 : Reg) (imm9 : BitVec 9) (s : State) : Host.Outcome State Fault Refusal :=
  s.load .half r1 r2 r3 imm9

/-- `lq`: `X[r1] <- MemRead(X[r2] + X[r3] + (zext_9(imm9) << 1), 2)`, zero-extended (R123). -/
def execLq (r1 r2 r3 : Reg) (imm9 : BitVec 9) (s : State) : Host.Outcome State Fault Refusal :=
  s.load .quarter r1 r2 r3 imm9

/-- `lb`: `X[r1] <- MemRead(X[r2] + X[r3] + zext_9(imm9), 1)`, zero-extended (R124). -/
def execLb (r1 r2 r3 : Reg) (imm9 : BitVec 9) (s : State) : Host.Outcome State Fault Refusal :=
  s.load .byte r1 r2 r3 imm9

/-- `llw`: `lw` that also sets the lock state to that address and 8 bytes (R125). -/
def execLlw (r1 r2 r3 : Reg) (imm9 : BitVec 9) (s : State) : Host.Outcome State Fault Refusal :=
  s.loadLock .word r1 r2 r3 imm9

/-- `llh`: `lh` that also sets the lock state to that address and 4 bytes (R126). -/
def execLlh (r1 r2 r3 : Reg) (imm9 : BitVec 9) (s : State) : Host.Outcome State Fault Refusal :=
  s.loadLock .half r1 r2 r3 imm9

/-- `llq`: `lq` that also sets the lock state to that address and 2 bytes (R127). -/
def execLlq (r1 r2 r3 : Reg) (imm9 : BitVec 9) (s : State) : Host.Outcome State Fault Refusal :=
  s.loadLock .quarter r1 r2 r3 imm9

/-- `llb`: `lb` that also sets the lock state to that address and 1 byte (R128). -/
def execLlb (r1 r2 r3 : Reg) (imm9 : BitVec 9) (s : State) : Host.Outcome State Fault Refusal :=
  s.loadLock .byte r1 r2 r3 imm9

end Sys2Proof.Machine
end

