-- ==== Sys2Proof/Machine/MemoryEffects.lean ====
section
/-!
DEFINITION. The fence and the cache management instructions (42_memory_effects.md); none is privileged (R140).
-/
namespace Sys2Proof.Machine

/-- The cached blocks whose numbers satisfy `p` are discarded, from the d-cache if `d`, from the i-cache if `i`; memory is not
written (42_memory_effects.md R142). -/
def State.discard (s : State) (d i : Bool) (p : Nat → Bool) : State :=
  { s with
    dcache := if d then s.dcache.filter (fun blk => !p blk.number) else s.dcache
    icache := if i then s.icache.filter (fun blk => !p blk.number) else s.icache }

/-- `fence`: before the next instruction executes, the earlier loads have taken effect if `l`, the earlier stores if `s` (R141, log
entry 10). -/
def execFence (lBit sBit : Bool) (s : State) : Host.Outcome State Fault Refusal :=
  .next (s.elapse (s.lastDue fun p => if p.isStore then sBit else lBit))

/-- `cinval`: invalidates the block (`m` 0) or page (1) of the address in `X[r1]`, translated as a read, or everything
(2), and unlocks; `m` 3 raises INVALID (R142). -/
def execCinval (r1 : Reg) (dBit iBit : Bool) (m : BitVec 2) (s : State) : Host.Outcome State Fault Refusal :=
  if m = 3 then s.raised (plainInterrupt .invalid)
  else if m = 2 then .next (s.unlock.discard dBit iBit fun _ => true)
  else
    match s.translate (s.getReg r1) .read with
    | .error e => s.raised e
    | .ok pa =>
      if m = 1 then .next (s.unlock.discard dBit iBit fun number => number / 64 == pa.toNat / 4096)
      else .next (s.unlock.discard dBit iBit fun number => number == pa.toNat / 64)

/-- `cfetch`: translates the address in `X[r1]` as a read and unlocks; the fill itself is a hint, one of those the
environment may make (log entry 11) (R143). -/
def execCfetch (r1 : Reg) (_lBit _sBit _iBit : Bool) (s : State) : Host.Outcome State Fault Refusal :=
  match s.translate (s.getReg r1) .read with
  | .error e => s.raised e
  | .ok _ => .next s.unlock

end Sys2Proof.Machine
end

