-- ==== Sys2Proof/Machine/Stores.lean ====
section
/-!
DEFINITION. The memory stores and store-conditionals (41_stores.md): `r1` is the data; in a store-conditional `r2` gets the flag.
-/
namespace Sys2Proof.Machine

/-- `sw`: `MemWrite(X[r2] + X[r3] + (zext_9(imm9) << 3), 8, X[r1])` (R131). -/
def execSw (r1 r2 r3 : Reg) (imm9 : BitVec 9) (s : State) : Host.Outcome State Fault Refusal :=
  s.store .word r1 r2 r3 imm9

/-- `sh`: `MemWrite(X[r2] + X[r3] + (zext_9(imm9) << 2), 4, X[r1])` (R132). -/
def execSh (r1 r2 r3 : Reg) (imm9 : BitVec 9) (s : State) : Host.Outcome State Fault Refusal :=
  s.store .half r1 r2 r3 imm9

/-- `sq`: `MemWrite(X[r2] + X[r3] + (zext_9(imm9) << 1), 2, X[r1])` (R133). -/
def execSq (r1 r2 r3 : Reg) (imm9 : BitVec 9) (s : State) : Host.Outcome State Fault Refusal :=
  s.store .quarter r1 r2 r3 imm9

/-- `sb`: `MemWrite(X[r2] + X[r3] + zext_9(imm9), 1, X[r1])` (R134). -/
def execSb (r1 r2 r3 : Reg) (imm9 : BitVec 9) (s : State) : Host.Outcome State Fault Refusal :=
  s.store .byte r1 r2 r3 imm9

/-- `scw`: stores the low 64 bits of `X[r1]` to `X[r3] + (zext_9(imm9) << 3)` if the lock holds; `X[r2]` gets 1 or 0
(R136). -/
def execScw (r1 r2 r3 : Reg) (imm9 : BitVec 9) (s : State) : Host.Outcome State Fault Refusal :=
  s.storeConditional .word r1 r2 r3 imm9

/-- `sch`: stores the low 32 bits of `X[r1]` to `X[r3] + (zext_9(imm9) << 2)` if the lock holds; `X[r2]` gets 1 or 0
(R137). -/
def execSch (r1 r2 r3 : Reg) (imm9 : BitVec 9) (s : State) : Host.Outcome State Fault Refusal :=
  s.storeConditional .half r1 r2 r3 imm9

/-- `scq`: stores the low 16 bits of `X[r1]` to `X[r3] + (zext_9(imm9) << 1)` if the lock holds; `X[r2]` gets 1 or 0
(R138). -/
def execScq (r1 r2 r3 : Reg) (imm9 : BitVec 9) (s : State) : Host.Outcome State Fault Refusal :=
  s.storeConditional .quarter r1 r2 r3 imm9

/-- `scb`: stores the low 8 bits of `X[r1]` to `X[r3] + zext_9(imm9)` if the lock holds; `X[r2]` gets 1 or 0 (R139).
-/
def execScb (r1 r2 r3 : Reg) (imm9 : BitVec 9) (s : State) : Host.Outcome State Fault Refusal :=
  s.storeConditional .byte r1 r2 r3 imm9

end Sys2Proof.Machine
end

