-- ==== Sys2Proof/Machine/System.lean ====
section
/-!
DEFINITION. System control (47_system.md). `wait`, `iret`, `lctrl`, `sctrl` are the privileged instructions (R230).
-/
namespace Sys2Proof.Machine

/-- The translation cache entries that a store to a control register invalidates: the kernel-mode ones for `kptp`, the user-mode
ones for `uptp` (20_memory.md R67, R236). -/
def State.dropTranslations (s : State) (n : CtrlReg) : State :=
  { s with
    tcacheK := if n = ctrlKptp then [] else s.tcacheK
    tcacheU := if n = ctrlUptp then [] else s.tcacheU }

/-- `syscall`: raises SYSCALL, in either mode (R231). -/
def execSyscall (s : State) : Host.Outcome State Fault Refusal :=
  s.raised (plainInterrupt .syscall)

/-- `breakpt`: raises BREAKPT, in either mode (R232). -/
def execBreakpt (s : State) : Host.Outcome State Fault Refusal :=
  s.raised (plainInterrupt .breakpt)

/-- `wait`: pauses until an interrupt is taken; INVALID in user mode (R230) (R233). -/
def execWait (s : State) : Host.Outcome State Fault Refusal :=
  if s.statU then s.raised (plainInterrupt .invalid) else .next { s with paused := true }

/-- `spin`: a hint without architectural effect, in either mode (R234). -/
def execSpin (s : State) : Host.Outcome State Fault Refusal :=
  .next s

/-- `iret`: `stat <- intstat`, `pc <- intip`, unlock; INVALID in user mode (R230) (R237). -/
def execIret (s : State) : Host.Outcome State Fault Refusal :=
  if s.statU then s.raised (plainInterrupt .invalid) else .next s.returnFromInterrupt

/-- `lctrl`: `X[r1] <- C[imm19]`; INVALID in user mode (R230) or for a number above 23 (R235). -/
def execLctrl (r1 : Reg) (imm19 : BitVec 19) (s : State) : Host.Outcome State Fault Refusal :=
  if s.statU then s.raised (plainInterrupt .invalid)
  else
    match ctrlNumber imm19 with
    | some n => .next (s.setReg r1 (s.getCtrl n))
    | none => s.raised (plainInterrupt .invalid)

/-- `sctrl`: `C[imm19] <- X[r1]` but for the hardwired bits; a store to `kptp` or `uptp` empties that mode's
translation cache (20_memory.md R67); INVALID in user mode (R230) or for a number above 23 (R236). -/
def execSctrl (r1 : Reg) (imm19 : BitVec 19) (s : State) : Host.Outcome State Fault Refusal :=
  if s.statU then s.raised (plainInterrupt .invalid)
  else
    match ctrlNumber imm19 with
    | some n => .next ((s.setCtrl n (s.getReg r1)).dropTranslations n)
    | none => s.raised (plainInterrupt .invalid)

end Sys2Proof.Machine
end

