-- ==== Sys2Proof/Machine/Dispatch.lean ====
section
/-!
DEFINITION. One arm per instruction, each one call of its meaning. `exec` runs with `pc` already at the next instruction
(10_state.md R14).
-/
namespace Sys2Proof.Machine

/-- Every instruction by its meaning. -/
def exec (i : Instr) (s : State) : Host.Outcome State Fault Refusal :=
  match i with
  -- Memory loads (40_loads.md)
  | .lw r1 r2 r3 imm9 => Sys2Proof.Machine.execLw r1 r2 r3 imm9 s
  | .lh r1 r2 r3 imm9 => Sys2Proof.Machine.execLh r1 r2 r3 imm9 s
  | .lq r1 r2 r3 imm9 => Sys2Proof.Machine.execLq r1 r2 r3 imm9 s
  | .lb r1 r2 r3 imm9 => Sys2Proof.Machine.execLb r1 r2 r3 imm9 s
  | .llw r1 r2 r3 imm9 => Sys2Proof.Machine.execLlw r1 r2 r3 imm9 s
  | .llh r1 r2 r3 imm9 => Sys2Proof.Machine.execLlh r1 r2 r3 imm9 s
  | .llq r1 r2 r3 imm9 => Sys2Proof.Machine.execLlq r1 r2 r3 imm9 s
  | .llb r1 r2 r3 imm9 => Sys2Proof.Machine.execLlb r1 r2 r3 imm9 s
  -- Memory stores (41_stores.md)
  | .sw r1 r2 r3 imm9 => Sys2Proof.Machine.execSw r1 r2 r3 imm9 s
  | .sh r1 r2 r3 imm9 => Sys2Proof.Machine.execSh r1 r2 r3 imm9 s
  | .sq r1 r2 r3 imm9 => Sys2Proof.Machine.execSq r1 r2 r3 imm9 s
  | .sb r1 r2 r3 imm9 => Sys2Proof.Machine.execSb r1 r2 r3 imm9 s
  | .scw r1 r2 r3 imm9 => Sys2Proof.Machine.execScw r1 r2 r3 imm9 s
  | .sch r1 r2 r3 imm9 => Sys2Proof.Machine.execSch r1 r2 r3 imm9 s
  | .scq r1 r2 r3 imm9 => Sys2Proof.Machine.execScq r1 r2 r3 imm9 s
  | .scb r1 r2 r3 imm9 => Sys2Proof.Machine.execScb r1 r2 r3 imm9 s
  -- Memory effects (42_memory_effects.md)
  | .fence lBit sBit => Sys2Proof.Machine.execFence lBit sBit s
  | .cinval r1 dBit iBit m => Sys2Proof.Machine.execCinval r1 dBit iBit m s
  | .cfetch r1 lBit sBit iBit => Sys2Proof.Machine.execCfetch r1 lBit sBit iBit s
  -- Arithmetic (43_arithmetic.md)
  | .ssi r1 c sh val => Sys2Proof.Machine.execSsi r1 c sh val s
  | .add r1 r2 r3 imm9 => Sys2Proof.Machine.execAdd r1 r2 r3 imm9 s
  | .sub r1 r2 r3 imm9 => Sys2Proof.Machine.execSub r1 r2 r3 imm9 s
  | .mul r1 r2 r3 imm9 => Sys2Proof.Machine.execMul r1 r2 r3 imm9 s
  | .umulh r1 r2 r3 imm9 => Sys2Proof.Machine.execUmulh r1 r2 r3 imm9 s
  | .imulh r1 r2 r3 imm9 => Sys2Proof.Machine.execImulh r1 r2 r3 imm9 s
  | .udiv r1 r2 r3 imm9 => Sys2Proof.Machine.execUdiv r1 r2 r3 imm9 s
  | .idiv r1 r2 r3 imm9 => Sys2Proof.Machine.execIdiv r1 r2 r3 imm9 s
  | .urem r1 r2 r3 imm9 => Sys2Proof.Machine.execUrem r1 r2 r3 imm9 s
  | .irem r1 r2 r3 imm9 => Sys2Proof.Machine.execIrem r1 r2 r3 imm9 s
  | .addi r1 r2 imm14 => Sys2Proof.Machine.execAddi r1 r2 imm14 s
  | .subi r1 r2 imm14 => Sys2Proof.Machine.execSubi r1 r2 imm14 s
  | .muli r1 r2 imm14 => Sys2Proof.Machine.execMuli r1 r2 imm14 s
  | .udivi r1 r2 imm14 => Sys2Proof.Machine.execUdivi r1 r2 imm14 s
  | .idivi r1 r2 imm14 => Sys2Proof.Machine.execIdivi r1 r2 imm14 s
  | .uremi r1 r2 imm14 => Sys2Proof.Machine.execUremi r1 r2 imm14 s
  | .iremi r1 r2 imm14 => Sys2Proof.Machine.execIremi r1 r2 imm14 s
  -- Bitwise logic (44_bitwise.md)
  | .and r1 r2 r3 imm9 => Sys2Proof.Machine.execAnd r1 r2 r3 imm9 s
  | .or r1 r2 r3 imm9 => Sys2Proof.Machine.execOr r1 r2 r3 imm9 s
  | .nor r1 r2 r3 imm9 => Sys2Proof.Machine.execNor r1 r2 r3 imm9 s
  | .xor r1 r2 r3 imm9 => Sys2Proof.Machine.execXor r1 r2 r3 imm9 s
  | .andi r1 r2 imm14 => Sys2Proof.Machine.execAndi r1 r2 imm14 s
  | .ori r1 r2 imm14 => Sys2Proof.Machine.execOri r1 r2 imm14 s
  | .nori r1 r2 imm14 => Sys2Proof.Machine.execNori r1 r2 imm14 s
  | .xori r1 r2 imm14 => Sys2Proof.Machine.execXori r1 r2 imm14 s
  | .sl r1 r2 r3 imm9 => Sys2Proof.Machine.execSl r1 r2 r3 imm9 s
  | .usr r1 r2 r3 imm9 => Sys2Proof.Machine.execUsr r1 r2 r3 imm9 s
  | .isr r1 r2 r3 imm9 => Sys2Proof.Machine.execIsr r1 r2 r3 imm9 s
  | .si r1 r2 lsh rsh sgn => Sys2Proof.Machine.execSi r1 r2 lsh rsh sgn s
  | .cb r1 r2 lsh rsh => Sys2Proof.Machine.execCb r1 r2 lsh rsh s
  | .ror r1 r2 r3 imm9 => Sys2Proof.Machine.execRor r1 r2 r3 imm9 s
  | .rol r1 r2 r3 imm9 => Sys2Proof.Machine.execRol r1 r2 r3 imm9 s
  | .rev r1 r2 sel => Sys2Proof.Machine.execRev r1 r2 sel s
  | .csb r1 r2 => Sys2Proof.Machine.execCsb r1 r2 s
  | .clz r1 r2 => Sys2Proof.Machine.execClz r1 r2 s
  | .ctz r1 r2 => Sys2Proof.Machine.execCtz r1 r2 s
  | .ext r1 r2 r3 => Sys2Proof.Machine.execExt r1 r2 r3 s
  | .dep r1 r2 r3 => Sys2Proof.Machine.execDep r1 r2 r3 s
  -- Comparison (45_comparison.md)
  | .seq r1 r2 r3 imm9 => Sys2Proof.Machine.execSeq r1 r2 r3 imm9 s
  | .sult r1 r2 r3 imm9 => Sys2Proof.Machine.execSult r1 r2 r3 imm9 s
  | .silt r1 r2 r3 imm9 => Sys2Proof.Machine.execSilt r1 r2 r3 imm9 s
  | .sule r1 r2 r3 imm9 => Sys2Proof.Machine.execSule r1 r2 r3 imm9 s
  | .sile r1 r2 r3 imm9 => Sys2Proof.Machine.execSile r1 r2 r3 imm9 s
  | .seqi r1 r2 imm14 => Sys2Proof.Machine.execSeqi r1 r2 imm14 s
  | .sulti r1 r2 imm14 => Sys2Proof.Machine.execSulti r1 r2 imm14 s
  | .silti r1 r2 imm14 => Sys2Proof.Machine.execSilti r1 r2 imm14 s
  | .sulei r1 r2 imm14 => Sys2Proof.Machine.execSulei r1 r2 imm14 s
  | .silei r1 r2 imm14 => Sys2Proof.Machine.execSilei r1 r2 imm14 s
  -- Control flow (46_control_flow.md)
  | .bz r1 imm19 => Sys2Proof.Machine.execBz r1 imm19 s
  | .bn r1 imm19 => Sys2Proof.Machine.execBn r1 imm19 s
  | .jl r1 r2 imm14 => Sys2Proof.Machine.execJl r1 r2 imm14 s
  | .jlr r1 r2 imm14 => Sys2Proof.Machine.execJlr r1 r2 imm14 s
  -- System control (47_system.md)
  | .syscall => Sys2Proof.Machine.execSyscall s
  | .breakpt => Sys2Proof.Machine.execBreakpt s
  | .wait => Sys2Proof.Machine.execWait s
  | .spin => Sys2Proof.Machine.execSpin s
  | .iret => Sys2Proof.Machine.execIret s
  | .lctrl r1 imm19 => Sys2Proof.Machine.execLctrl r1 imm19 s
  | .sctrl r1 imm19 => Sys2Proof.Machine.execSctrl r1 imm19 s

end Sys2Proof.Machine
end

