-- ==== Sys2Proof/Machine/Cycle.lean ====
section
/-!
DEFINITION. The instruction cycle (10_state.md R14) after the boundary: fetch, `pc <- A + 4`, decode, execute. And the place from
which the next instruction is fetched, for putting one there.
-/
namespace Sys2Proof.Machine

/-- Decoding and executing a fetched word: `pc` moves to `A + 4` first; a word that is no instruction raises INVALID (10_state.md
R14, 30_encoding.md R104 class 1). -/
def State.executeWord (s : State) (w : InstrWord) : Host.Outcome State Fault Refusal :=
  match decodeWord w with
  | .ok ins => exec ins (s.setPc (s.pc + 4))
  | .error _ => (s.setPc (s.pc + 4)).raised (plainInterrupt .invalid)

/-- The cycle of a running processor: an interrupt of the fetch is raised with `pc` still `A` (10_state.md R14, 20_memory.md
R46). -/
def State.fetchExecute (s : State) : Host.Outcome State Fault Refusal :=
  match s.fetchWord s.pc with
  | .error e => s.raised e
  | .ok (w, s1) => s1.executeWord w

/-- The physical address the next fetch reads, `pc` itself where its translation fails. -/
def State.fetchPlace (s : State) : Word :=
  match s.translate s.pc .fetch with
  | .ok pa => pa
  | .error _ => s.pc

/-- A word stored little-endian where the next fetch reads: in memory, with no access pending and no copy of its block in the
i-cache. -/
def State.placeWord (s : State) (w : InstrWord) : State :=
  let s1 := s.performAll
  let pa := s1.fetchPlace
  { s1 with
    mem := s1.mem.writeBytes pa (w.setWidth 64) 4
    icache := cacheDrop s1.icache (pa.toNat / 64) }

/-- The processor runs, and its environment is quiet for one step. -/
def State.quieted (s : State) : State :=
  { s with
    paused := false
    env := match s.env with
      | [] => []
      | e :: rest => quietInput :: e :: rest }

end Sys2Proof.Machine
end

