-- ==== Sys2Proof/Machine/Step.lean ====
section
/-!
DEFINITION. One step of the machine (10_state.md R14), and the placing of an instruction where the next step fetches it.
-/
namespace Sys2Proof.Machine

/-- One step (10_state.md R14): the environment's events happen; then an external interrupt is taken (60_exceptions.md R261,
R262), or a paused processor stays paused, or one instruction is fetched and executed. -/
def step (s : State) : Host.Outcome State Fault Refusal :=
  if s.takesExternal then s.atBoundary.raised (plainInterrupt .externl)
  else if s.atBoundary.paused then .next s.atBoundary
  else s.atBoundary.fetchExecute

/-- The state with an instruction where `step` fetches its next one: bits 31 to 0 of `w`, those from `nbits` up 0 (log entry
20). -/
def State.withFetchWord (s : State) (nbits w : Nat) : State :=
  (s.placeWord (BitVec.ofNat 32 (w % 2 ^ nbits))).quieted

end Sys2Proof.Machine
end

