-- ==== Sys2Proof/Machine/Assembly.lean ====
section
/-!
DEFINITION. What the assembler makes of a line (30_encoding.md R106 to R108; 48_pseudo_instructions.md R240 to R246): the machine
instruction with its omitted operands and scaled immediates, and the expansion of a pseudo-instruction. A line is already taken
apart: the spec gives no grammar for its text, log entry 28. The machine itself uses nothing of this.
-/
namespace Sys2Proof
open Sys2Proof.Machine

/-- The names of the registers 0 to 31 (10_state.md R10). -/
def regNames : List String :=
  ["zr", "a0", "a1", "a2", "a3", "a4", "a5", "l0", "l1", "l2", "l3", "l4", "l5", "l6", "l7", "l8"] ++
  ["l9", "l10", "l11", "l12", "l13", "t0", "t1", "t2", "t3", "t4", "t5", "tp", "fp", "sp", "lp", "ip"]

/-- The names of the control registers 0 to 23 (10_state.md R16). -/
def ctrlNames : List String :=
  ["int0", "int1", "int2", "int3", "int4", "int5", "int6", "int7", "int8", "int9", "int10", "int11", "int12", "int13"] ++
  ["int14", "int15", "intip", "intval", "intpte", "intcause", "kptp", "uptp", "stat", "intstat"]

/-- The register of a name. -/
def regNamed (name : String) : Option Reg :=
  match regNames.findIdx? (fun x => x == name) with
  | some k => if h : k < 32 then some ⟨k, h⟩ else none
  | none => none

/-- The control register of a name. -/
def ctrlNamed (name : String) : Option CtrlReg :=
  match ctrlNames.findIdx? (fun x => x == name) with
  | some k => if h : k < 24 then some ⟨k, h⟩ else none
  | none => none

/-- An operand as it is written (R106). -/
inductive AsmOperand where
  /-- A register. -/
  | reg (r : Reg)
  /-- A control register. -/
  | ctrl (n : CtrlReg)
  /-- A number. -/
  | num (v : Int)
  /-- A symbol, by its address. -/
  | symbol (a : Word)
  /-- `[base + index + offset]`, the last two optional; the offset in bytes. -/
  | mem (base : Reg) (index : Option Reg) (offset : Option Int)
  deriving DecidableEq, Repr

/-- A line: a mnemonic with its suffixes, and the operands in the order of R108. -/
structure AsmLine where
  /-- The mnemonic, with the suffixes after dots. -/
  mnemonic : String
  /-- The operands. -/
  operands : List AsmOperand
  deriving DecidableEq, Repr

/-- The low `n` bits of a number that is in the range of some `n`-bit immediate, signed or unsigned (R107; log entry 28). -/
def immField (n : Nat) (v : Int) : Option (BitVec n) :=
  if -(2 ^ (n - 1) : Int) ≤ v ∧ v < (2 ^ n : Int) then some (BitVec.ofInt n v) else none

/-- "The assembler stores it divided by the access size" (R107). -/
def offsetField (sz : AccessSize) (offset : Option Int) : Option (BitVec 9) :=
  let v := offset.getD 0
  if v % sizeBytes sz = 0 ∧ 0 ≤ v then immField 9 (v / sizeBytes sz) else none

/-- `imm19 = (symbol - addr - 4) >> 2` (R107), for a symbol that is a multiple of 4 away and in range. -/
def branchField (addr symbol : Word) : Option (BitVec 19) :=
  let d := (symbol - addr - 4).toInt
  if d % 4 = 0 ∧ -(2 ^ 20 : Int) ≤ d ∧ d < (2 ^ 20 : Int) then some (BitVec.ofInt 19 (d / 4)) else none

/-- Loads and load-locks by name, with their sizes. -/
def loadNames : List (String × (Reg → Reg → Reg → BitVec 9 → Instr) × AccessSize) :=
  [("lw", .lw, .word), ("lh", .lh, .half), ("lq", .lq, .quarter), ("lb", .lb, .byte),
   ("llw", .llw, .word), ("llh", .llh, .half), ("llq", .llq, .quarter), ("llb", .llb, .byte)]

/-- Plain stores by name. -/
def storeNames : List (String × (Reg → Reg → Reg → BitVec 9 → Instr) × AccessSize) :=
  [("sw", .sw, .word), ("sh", .sh, .half), ("sq", .sq, .quarter), ("sb", .sb, .byte)]

/-- Store-conditionals by name. -/
def conditionalNames : List (String × (Reg → Reg → Reg → BitVec 9 → Instr) × AccessSize) :=
  [("scw", .scw, .word), ("sch", .sch, .half), ("scq", .scq, .quarter), ("scb", .scb, .byte)]

/-- The shifts and rotates, whose `r3` may be omitted. -/
def shiftNames : List (String × (Reg → Reg → Reg → BitVec 9 → Instr)) :=
  [("sl", .sl), ("usr", .usr), ("isr", .isr), ("ror", .ror), ("rol", .rol)]

/-- The Format C instructions with three registers and an optional immediate. -/
def threeRegNames : List (String × (Reg → Reg → Reg → BitVec 9 → Instr)) :=
  shiftNames ++
  [("add", .add), ("sub", .sub), ("mul", .mul), ("umulh", .umulh), ("imulh", .imulh), ("udiv", .udiv), ("idiv", .idiv),
   ("urem", .urem), ("irem", .irem), ("and", .and), ("or", .or), ("nor", .nor), ("xor", .xor), ("seq", .seq),
   ("sult", .sult), ("silt", .silt), ("sule", .sule), ("sile", .sile)]

/-- The instructions with two registers and an immediate of 14 bits. -/
def immNames : List (String × (Reg → Reg → BitVec 14 → Instr)) :=
  [("addi", .addi), ("subi", .subi), ("muli", .muli), ("udivi", .udivi), ("idivi", .idivi), ("uremi", .uremi),
   ("iremi", .iremi), ("andi", .andi), ("ori", .ori), ("nori", .nori), ("xori", .xori), ("seqi", .seqi),
   ("sulti", .sulti), ("silti", .silti), ("sulei", .sulei), ("silei", .silei), ("jl", .jl), ("jlr", .jlr)]

/-- The instructions with two registers: counts, the named reversals (44_bitwise.md R186), jumps without an immediate. -/
def twoRegNames : List (String × (Reg → Reg → Instr)) :=
  [("csb", .csb), ("clz", .clz), ("ctz", .ctz), ("rev.h", (.rev · · 0b100000)), ("rev.q", (.rev · · 0b110000)),
   ("rev.b", (.rev · · 0b111000)), ("rev.bit", (.rev · · 0b111111)), ("jl", (.jl · · 0)), ("jlr", (.jlr · · 0))]

/-- The instructions without operands (42_memory_effects.md R141, R142; 47_system.md). -/
def bareNames : List (String × Instr) :=
  [("fence", .fence true true), ("fence.s", .fence false true), ("fence.l", .fence true false),
   ("cinval.all", .cinval 0 true true 2), ("cinval.i.all", .cinval 0 false true 2), ("cinval.d.all", .cinval 0 true false 2),
   ("syscall", .syscall), ("breakpt", .breakpt), ("wait", .wait), ("spin", .spin), ("iret", .iret)]

/-- The instructions with one register (42_memory_effects.md R142, R143). -/
def oneRegNames : List (String × (Reg → Instr)) :=
  [("cinval.block", (.cinval · true true 0)), ("cinval.page", (.cinval · true true 1)),
   ("cinval.i.block", (.cinval · false true 0)), ("cinval.i.page", (.cinval · false true 1)),
   ("cinval.d.block", (.cinval · true false 0)), ("cinval.d.page", (.cinval · true false 1)),
   ("cfetch.l", (.cfetch · true false false)), ("cfetch.s", (.cfetch · false true false)),
   ("cfetch.i", (.cfetch · false false true)), ("cfetch.ls", (.cfetch · true true false)),
   ("cfetch.li", (.cfetch · true false true)), ("cfetch.si", (.cfetch · false true true)),
   ("cfetch.lsi", (.cfetch · true true true))]

/-- `ssi` and `ssi.c`: the shift is written in bits (R107). -/
def assembleSsi (name : String) (r1 : Reg) (val shift : Int) : Option Instr :=
  match (if name = "ssi" then some false else if name = "ssi.c" then some true else none), immField 16 val with
  | some c, some v => if shift % 16 = 0 ∧ 0 ≤ shift ∧ shift < 64 then some (.ssi r1 c (BitVec.ofInt 2 (shift / 16)) v) else none
  | _, _ => none

/-- `si.u`, `si.i` and `cb`: two amounts. -/
def assembleFields (name : String) (r1 r2 : Reg) (lsh rsh : Int) : Option Instr :=
  match (if 0 ≤ lsh then immField 6 lsh else none), (if 0 ≤ rsh then immField 6 rsh else none) with
  | some l, some r =>
    if name = "si.u" then some (.si r1 r2 l r false)
    else if name = "si.i" then some (.si r1 r2 l r true)
    else if name = "cb" then some (.cb r1 r2 l r)
    else none
  | _, _ => none

/-- Two registers and a number: an immediate of 14 bits, a shift with `r3` omitted, or `rev`. -/
def assembleImm (name : String) (r1 r2 : Reg) (v : Int) : Option Instr :=
  match immNames.lookup name, shiftNames.lookup name with
  | some f, _ => (immField 14 v).map (f r1 r2)
  | none, some f => (immField 9 v).map (f r1 r2 0)
  | none, none => if name = "rev" ∧ 0 ≤ v then (immField 6 v).map (.rev r1 r2) else none

/-- Three registers, without an immediate. -/
def assembleThree (name : String) (r1 r2 r3 : Reg) : Option Instr :=
  if name = "ext" then some (.ext r1 r2 r3)
  else if name = "dep" then some (.dep r1 r2 r3)
  else (threeRegNames.lookup name).map (fun f => f r1 r2 r3 0)

/-- An access to memory from its table: `f` of the data or destination register, the base, the index and the offset. -/
def assembleAccess (table : List (String × (Reg → Reg → Reg → BitVec 9 → Instr) × AccessSize)) (name : String) (r1 base : Reg)
    (index : Option Reg) (offset : Option Int) : Option Instr :=
  match table.lookup name with
  | some (f, sz) => (offsetField sz offset).map (f r1 base (index.getD 0))
  | none => none

/-- A store-conditional `scw r2, [r3 + off], r1`: its address has one register. -/
def assembleConditional (name : String) (r2 base r1 : Reg) (offset : Option Int) : Option Instr :=
  match conditionalNames.lookup name with
  | some (f, sz) => (offsetField sz offset).map (f r1 r2 base)
  | none => none

/-- `bz` and `bn` to a symbol. -/
def assembleBranch (addr : Word) (name : String) (r1 : Reg) (symbol : Word) : Option Instr :=
  if name = "bz" then (branchField addr symbol).map (.bz r1)
  else if name = "bn" then (branchField addr symbol).map (.bn r1)
  else none

/-- The machine instruction of a line at an address, if the line is one of a machine instruction (R106 to R108). -/
def assemble (addr : Word) (line : AsmLine) : Option Instr :=
  match line.operands with
  | [] => bareNames.lookup line.mnemonic
  | [.reg r1] => (oneRegNames.lookup line.mnemonic).map (fun f => f r1)
  | [.reg r1, .mem base index offset] => assembleAccess loadNames line.mnemonic r1 base index offset
  | [.mem base index offset, .reg r1] => assembleAccess storeNames line.mnemonic r1 base index offset
  | [.reg r2, .mem base none offset, .reg r1] => assembleConditional line.mnemonic r2 base r1 offset
  | [.reg r1, .num val, .num shift] => assembleSsi line.mnemonic r1 val shift
  | [.reg r1, .reg r2] => (twoRegNames.lookup line.mnemonic).map (fun f => f r1 r2)
  | [.reg r1, .reg r2, .num v] => assembleImm line.mnemonic r1 r2 v
  | [.reg r1, .reg r2, .num lsh, .num rsh] => assembleFields line.mnemonic r1 r2 lsh rsh
  | [.reg r1, .reg r2, .reg r3] => assembleThree line.mnemonic r1 r2 r3
  | [.reg r1, .reg r2, .reg r3, .num v] =>
    match threeRegNames.lookup line.mnemonic with
    | some f => (immField 9 v).map (f r1 r2 r3)
    | none => none
  | [.reg r1, .symbol a] => assembleBranch addr line.mnemonic r1 a
  | [.reg r1, .ctrl n] => if line.mnemonic = "lctrl" then some (.lctrl r1 (BitVec.ofNat 19 n.val)) else none
  | [.ctrl n, .reg r1] => if line.mnemonic = "sctrl" then some (.sctrl r1 (BitVec.ofNat 19 n.val)) else none
  | _ => none

/-- The six pseudo-instructions, with their omitted registers filled in (48_pseudo_instructions.md). -/
inductive Pseudo where
  /-- `call r1, r2, symbol` (R240). -/
  | call (r1 r2 : Reg) (symbol : Word)
  /-- `fcall r1, r2, symbol` (R241). -/
  | fcall (r1 r2 : Reg) (symbol : Word)
  /-- `li r1, val` (R242). -/
  | li (r1 : Reg) (val : Word)
  /-- `ret r1` (R243). -/
  | ret (r1 : Reg)
  /-- `nop` (R244). -/
  | nop
  /-- `mov r1, r2` (R245). -/
  | mov (r1 r2 : Reg)
  deriving DecidableEq, Repr

/-- Quarter-word `k` of a value. -/
def quarterWord (v : Word) (k : Nat) : BitVec 16 := v.extractLsb' (16 * k) 16

/-- `ssi.c` and `jlr` over a distance: the expansion of `call` (R240). -/
def callOver (r1 r2 : Reg) (distance : Word) : List Instr :=
  [.ssi r2 true 1 (quarterWord distance 1), .jlr r1 r2 (distance.extractLsb' 2 14)]

/-- The expansion at an address, as printed (R240 to R245). -/
def Pseudo.expand (addr : Word) : Pseudo → List Instr
  | .call r1 r2 symbol => callOver r1 r2 (symbol - addr)
  | .fcall r1 r2 symbol =>
    [.ssi r2 true 3 (quarterWord symbol 3), .ssi r2 false 2 (quarterWord symbol 2), .ssi r2 false 1 (quarterWord symbol 1),
     .jl r1 r2 (symbol.extractLsb' 2 14)]
  | .li r1 val =>
    [.ssi r1 true 3 (quarterWord val 3), .ssi r1 false 2 (quarterWord val 2), .ssi r1 false 1 (quarterWord val 1),
     .ssi r1 false 0 (quarterWord val 0)]
  | .ret r1 => [.jl 0 r1 0]
  | .nop => [.or 0 0 0 0]
  | .mov r1 r2 => [.or r1 r2 0 0]

/-- The expansion of `call` that lands on the symbol: with `symbol - addr - 8` in place of `symbol - addr` (R240, log entry 28). -/
def correctedCall (addr : Word) (r1 r2 : Reg) (symbol : Word) : List Instr := callOver r1 r2 (symbol - addr - 8)

/-- The pseudo-instruction of a line, its omitted registers filled in: `r2` with `r1`, both with `lp` (R240 to R245). -/
def pseudoOf (line : AsmLine) : Option Pseudo :=
  match line.mnemonic, line.operands with
  | "call", [.symbol a] => some (.call 30 30 a)
  | "call", [.reg r1, .symbol a] => some (.call r1 r1 a)
  | "call", [.reg r1, .reg r2, .symbol a] => some (.call r1 r2 a)
  | "fcall", [.symbol a] => some (.fcall 30 30 a)
  | "fcall", [.reg r1, .symbol a] => some (.fcall r1 r1 a)
  | "fcall", [.reg r1, .reg r2, .symbol a] => some (.fcall r1 r2 a)
  | "li", [.reg r1, .num v] => (immField 64 v).map (.li r1)
  | "li", [.reg r1, .symbol a] => some (.li r1 a)
  | "ret", [] => some (.ret 30)
  | "ret", [.reg r1] => some (.ret r1)
  | "nop", [] => some .nop
  | "mov", [.reg r1, .reg r2] => some (.mov r1 r2)
  | _, _ => none

/-- The machine instructions of any line at an address. -/
def assembleLine (addr : Word) (line : AsmLine) : Option (List Instr) :=
  match pseudoOf line with
  | some p => some (p.expand addr)
  | none => (assemble addr line).map (fun ins => [ins])

end Sys2Proof
end

