-- ==== Sys2Proof/Safety.lean ====
section
/-!
DEFINITION. The terms in which claims speak of states: the machine's invariant, what reset may leave, the coherence of the data
cache, the order of pending accesses, and what one instruction, access, wait or interrupt entry changes, with all that it leaves
alone.
-/
namespace Sys2Proof.Machine

/-- A copy in a cache is in memory's canonical form and lies inside its block (20_memory.md R60). -/
def CacheBlock.Sound (blk : CacheBlock) : Prop :=
  blk.copy.wf = true ∧ ∀ cell ∈ blk.copy, cell.1 / 64 = blk.number

/-- The hardwired bits of every control register are 0 (10_state.md R16). -/
def State.HardwiredZero (s : State) : Prop := ∀ n : CtrlReg, s.getCtrl n &&& ~~~(ctrlMask n) = 0

/-- Pending accesses with a common byte take effect in program order (20_memory.md R50 a): the older waits no longer. -/
def State.InOrder (s : State) : Prop :=
  s.pending.Pairwise fun p q => p.overlaps q.addr (sizeBytes q.size) = true → p.wait ≤ q.wait

/-- What every step keeps. -/
structure State.Inv (s : State) : Prop where
  /-- Memory is in its canonical form. -/
  mem : s.mem.wf = true
  /-- The hardwired bits of the control registers are 0 (10_state.md R16). -/
  hardwired : s.HardwiredZero
  /-- On a platform that performs every access in program order none is pending (20_memory.md R59). -/
  unreordered : s.platform.reorders = false → s.pending = []
  /-- Pending accesses with a common byte stay in program order (20_memory.md R50 a). -/
  inOrder : s.InOrder
  /-- A platform without a d-cache has no copies in it (20_memory.md R60). -/
  noDcache : s.platform.hasDcache = false → s.dcache = []
  /-- A platform without an i-cache has no copies in it (20_memory.md R60). -/
  noIcache : s.platform.hasIcache = false → s.icache = []
  /-- A platform without a translation cache has no entries in it (20_memory.md R67). -/
  noTcache : s.platform.hasTcache = false → s.tcacheK = [] ∧ s.tcacheU = []
  /-- The d-cache's copies are sound. -/
  dcache : ∀ blk ∈ s.dcache, blk.Sound
  /-- The i-cache's copies are sound. -/
  icache : ∀ blk ∈ s.icache, blk.Sound
  /-- Only walks that succeeded are remembered: every entry is valid (20_memory.md R67). -/
  tcacheK : ∀ t ∈ s.tcacheK, t.pte.getLsbD 0 = true
  /-- The same for user mode. -/
  tcacheU : ∀ t ∈ s.tcacheU, t.pte.getLsbD 0 = true

/-- What reset leaves (70_reset_and_hazards.md R300), for a platform whose `RESET_IP` is `resetIp`; the registers the table calls
unspecified are constrained by their hardwired bits alone. -/
structure State.IsReset (s : State) (resetIp : Word) : Prop where
  /-- `pc` is `RESET_IP`, whose bits [1:0] are 0. -/
  pc : s.pc = resetIp ∧ resetIp &&& 3 = 0
  /-- `X[0]` is 0. -/
  zero : s.getReg 0 = 0
  /-- `stat` is 0: `E`, `U` and `V` are 0. -/
  stat : s.getCtrl ctrlStat = 0
  /-- The hardwired bits are 0. -/
  hardwired : s.HardwiredZero
  /-- The lock state is unlocked. -/
  lock : s.lock.locked = false
  /-- The processor runs. -/
  running : s.paused = false
  /-- The caches and the translation cache are empty. -/
  caches : s.dcache = [] ∧ s.icache = [] ∧ s.tcacheK = [] ∧ s.tcacheU = []
  /-- No memory operation is pending. -/
  pending : s.pending = []

/-- The data cache's copies agree with memory: no store of an external agent is hidden by one (20_memory.md R57). -/
def State.Coherent (s : State) : Prop := ∀ a b, cachedByte s.dcache a = some b → b = s.memByte a

/-- An event that is not a store of an external agent (20_memory.md R57). -/
def EnvEvent.isInternal : EnvEvent → Bool
  | .extStore _ => false
  | .pass | .fillD _ | .fillI _ _ | .dropD _ | .dropI _ | .remember _ | .forget _ _ | .lpStore _ => true

/-- The event writes a byte of memory: a store of another logical processor or of an external agent. -/
def EnvEvent.writes (a : Word) : EnvEvent → Bool
  | .lpStore st | .extStore st => decide ((a - st.addr).toNat < sizeBytes st.size)
  | .pass | .fillD _ | .fillI _ _ | .dropD _ | .dropI _ | .remember _ | .forget _ _ => false

/-- No event to come writes a byte. -/
def State.Undisturbed (s : State) (a : Word) : Prop := ∀ i ∈ s.env, ∀ e ∈ i.events, e.writes a = false

/-! ### What changes and what does not -/

/-- From `s` to `t` register `r` gets `v`, unless `r` is `zr` or `ip` (10_state.md R11, R12), and nothing else changes: not `pc`,
no control register, not the lock state, no byte of memory, no pending access, nothing in the caches. -/
structure State.OnlyReg (s t : State) (r : Reg) (v : Word) : Prop where
  /-- The registers. -/
  reg : ∀ q : Reg, t.getReg q = if q = r ∧ q ≠ 0 ∧ q ≠ 31 then v else s.getReg q
  /-- Every component but the register file. -/
  rest : { t with gpr := s.gpr } = s
  /-- Every byte of memory, as loads see it. -/
  bytes : ∀ a, t.loadByte a = s.loadByte a

/-- The instruction completes, and its whole effect is to give register `r` the value `v`. -/
def Writes (ins : Instr) (s : State) (r : Reg) (v : Word) : Prop := ∃ t, exec ins s = .next t ∧ s.OnlyReg t r v

/-- The lock state is as it was, or unlocked by a store that took effect (20_memory.md R56). -/
def State.LockKeptOrUnlocked (s t : State) : Prop := t.lock = s.lock ∨ t.lock = { s.lock with locked := false }

/-- From `s` to `t` no more happened than that events to come have happened and pending accesses have taken effect: the processor
waited. What happened to memory is what `State.tick` does with each event. -/
structure State.Waited (s t : State) : Prop where
  /-- The registers, the control registers and the pause. -/
  control : t.gpr = s.gpr ∧ t.pc = s.pc ∧ t.ctrl = s.ctrl ∧ t.paused = s.paused
  /-- The platform and the delay. -/
  platform : t.platform = s.platform ∧ t.delay = s.delay
  /-- The requests for interrupts come at the same steps. -/
  requests : t.env.map EnvInput.extIrq = s.env.map EnvInput.extIrq
  /-- No new access is pending. -/
  pending : ∀ q ∈ t.pending, ∃ p ∈ s.pending, { q with wait := p.wait } = p
  /-- The lock state. -/
  lock : s.LockKeptOrUnlocked t

/-- From `s` to `t` the low bytes of `v`, as many as `sz` has, were stored at physical address `pa`, little-endian (20_memory.md
R40, R45), and nothing else changed but the lock state. -/
structure State.StoredAt (s t : State) (pa : Word) (sz : AccessSize) (v : Word) : Prop where
  /-- Every component but memory, the d-cache's copies and the lock state. -/
  rest : { t with mem := s.mem, dcache := s.dcache, lock := s.lock } = s
  /-- The stored bytes, and every other byte as before, as loads see them. -/
  bytes : ∀ a, t.loadByte a =
    if (a - pa).toNat < sizeBytes sz then v.extractLsb' (8 * (a - pa).toNat) 8 else s.loadByte a
  /-- The same of memory itself. -/
  memory : ∀ a, t.memByte a =
    if (a - pa).toNat < sizeBytes sz then v.extractLsb' (8 * (a - pa).toNat) 8 else s.memByte a
  /-- The lock state. -/
  lock : s.LockKeptOrUnlocked t

/-- From `s` to `t` an access was issued and takes effect after `k + 1` events; nothing else changed. -/
def State.Queued (s t : State) (pa : Word) (sz : AccessSize) (eff : AccessEffect) (k : Nat) : Prop :=
  t = { s with pending := s.pending ++ [{ addr := pa, size := sz, effect := eff, wait := k }] }

/-- The physical bytes of a store overlap the locked ones (20_memory.md R56 item 1). -/
def State.OverlapsLock (s : State) (pa : Word) (sz : AccessSize) : Prop :=
  overlaps s.lock.paddr (sizeBytes s.lock.width) pa (sizeBytes sz) = true

/-- From `s`, in which earlier accesses have taken effect, to `t` the interrupt of cause number `c` was entered (60_exceptions.md
R256), with the address `val` and the page table entry `pte` where the cause has them. -/
structure State.Entered (s t : State) (c : Nat) (val pte : Option Word) : Prop where
  /-- `pc` is saved with bits [1:0] forced to 0. -/
  intip : t.getCtrl ctrlIntip = s.pc &&& ~~~3
  /-- `stat` is saved; its reserved bits are 0 (10_state.md R27). -/
  intstat : t.getCtrl ctrlIntstat = s.getCtrl ctrlStat &&& 7
  /-- The cause number. -/
  intcause : t.getCtrl ctrlIntcause = BitVec.ofNat 64 c
  /-- The address, or unchanged. -/
  intval : t.getCtrl ctrlIntval = val.getD (s.getCtrl ctrlIntval)
  /-- The page table entry, or unchanged. -/
  intpte : t.getCtrl ctrlIntpte = pte.getD (s.getCtrl ctrlIntpte)
  /-- `pc` is the handler's address, the content of `int<c>`. -/
  handler : ∀ n : CtrlReg, n.val = c → t.pc = s.getCtrl n
  /-- `E` and `U` are cleared, `V` is kept. -/
  stat : t.getCtrl ctrlStat = s.getCtrl ctrlStat &&& 4
  /-- Every other control register is as before. -/
  ctrl : ∀ n : CtrlReg, n.val < 16 ∨ n = ctrlKptp ∨ n = ctrlUptp → t.getCtrl n = s.getCtrl n
  /-- The lock state is unlocked and otherwise as before. -/
  lock : t.lock = { s.lock with locked := false }
  /-- A pause is over. -/
  running : t.paused = false
  /-- Every earlier access has taken effect. -/
  complete : t.pending = []
  /-- Every other component. -/
  rest : { t with pc := s.pc, ctrl := s.ctrl, lock := s.lock, paused := s.paused } = s
  /-- Every byte of memory, as loads see it. -/
  bytes : ∀ a, t.loadByte a = s.loadByte a

/-- The instruction waits until earlier accesses have taken effect and ends by entering the interrupt of cause number `c`. -/
def Raises (ins : Instr) (s : State) (c : Nat) (val pte : Option Word) : Prop :=
  ∃ t, exec ins s = .next t ∧ s.completed.Entered t c val pte

/-! ### Address translation, by levels -/

/-- The page table of a level (20_memory.md R62): the root, and then the address in the entry of the level before. -/
def State.tableAt (s : State) (va : Word) : Nat → Word
  | 0 => if s.statU then s.getCtrl ctrlUptp else s.getCtrl ctrlKptp
  | k + 1 => s.pteAt (s.tableAt va k + 8 * ((va >>> (39 - 9 * k)) &&& 0x1FF)) &&& ~~~0xFFF

/-- The physical address of the page table entry of a level (20_memory.md R62, R63). -/
def State.entryAddr (s : State) (va : Word) (k : Nat) : Word := s.tableAt va k + 8 * ((va >>> (39 - 9 * k)) &&& 0x1FF)

/-- The page table entry of a level. -/
def State.entryAt (s : State) (va : Word) (k : Nat) : Word := s.pteAt (s.entryAddr va k)

/-- The entries of the levels below `k` can be read and are valid. -/
def State.LevelsGood (s : State) (va : Word) (k : Nat) : Prop :=
  ∀ j, j < k → s.busOk (s.entryAddr va j) .word .read = true ∧ (s.entryAt va j).getLsbD 0 = true

/-- Translation is on, the address is canonical and no cached translation stands for it, so that the walk decides. -/
def State.Walks (s : State) (va : Word) : Prop :=
  s.statV = true ∧ va.extractLsb' 48 16 = (if va.getLsbD 47 then 0xFFFF else 0) ∧ s.cachedPte va = none

/-- Translation is on, the address is canonical, and the first entry for its page in the current mode's translation cache is `pte`
(20_memory.md R67). -/
def State.Hits (s : State) (va pte : Word) : Prop :=
  s.statV = true ∧ va.extractLsb' 48 16 = (if va.getLsbD 47 then 0xFFFF else 0) ∧ s.platform.hasTcache = true ∧
  ∃ before t after, (if s.statU then s.tcacheU else s.tcacheK) = before ++ t :: after ∧ t.page = va.toNat / 4096 ∧
    t.pte = pte ∧ ∀ x ∈ before, x.page ≠ va.toNat / 4096

/-- The cause numbers of the spec's table (60_exceptions.md R252), in its order. -/
def causeTable : List (Cause × Nat) :=
  [(.externl, 0), (.breakpt, 1), (.syscall, 2), (.invalid, 3), (.busr, 4), (.busw, 5), (.busx, 6), (.accessr, 7), (.accessw, 8),
   (.accessx, 9), (.ualignr, 10), (.ualignw, 11), (.ualignx, 12), (.vatfail, 13)]

/-! ### Operands and values of memory accesses -/

/-- The address is aligned for a data access (20_memory.md R42): a multiple of the size, or, where `DATA_ALIGN` is weaker (log entry
21), one from which the access stays in its 64-byte block. -/
def State.AlignedAt (s : State) (addr : Word) (sz : AccessSize) : Prop :=
  (s.platform.dataAlign = .natural → addr.toNat % sizeBytes sz = 0) ∧
  (s.platform.dataAlign = .withinBlock → addr.toNat % 64 + sizeBytes sz ≤ 64)

/-- No pending access overlaps the bytes of an access. -/
def State.ClearAt (s : State) (pa : Word) (sz : AccessSize) : Prop :=
  ∀ p ∈ s.pending, p.overlaps pa (sizeBytes sz) = false

/-- An access takes effect with its instruction: the platform or the step's input gives it no delay, and no earlier access to its
bytes is pending. -/
def State.InTurn (s : State) (pa : Word) (sz : AccessSize) : Prop :=
  (s.platform.reorders = false ∨ s.delay = 0) ∧ s.ClearAt pa sz

/-- `v` is what the bytes at `pa` make, little-endian, extended with zeros (20_memory.md R40, R41). -/
def State.BytesAt (s : State) (pa : Word) (sz : AccessSize) (v : Word) : Prop :=
  ∀ k, k < 64 → v.getLsbD k =
    if k < 8 * sizeBytes sz then (s.loadByte (pa + BitVec.ofNat 64 (k / 8))).getLsbD (k % 8) else false

/-- The address of a load, a load-lock or a plain store: two registers, and an offset in units of the size (40_loads.md R120,
41_stores.md R130). -/
def State.offsetAddr (s : State) (sz : AccessSize) (r2 r3 : Reg) (imm9 : BitVec 9) : Word :=
  s.getReg r2 + s.getReg r3 + BitVec.ofNat 64 (imm9.toNat * sizeBytes sz)

/-- The state with the lock state that a load-lock sets (20_memory.md R54); a pending load-lock no longer holds it. -/
def State.withLock (s : State) (sz : AccessSize) (addr pa : Word) : State :=
  { s with
    lock := { locked := true, width := sz, address := addr, paddr := pa }
    pending := s.pending.map fun p => if p.effect = .loadLock then { p with effect := .load } else p }

/-- The plain loads and their sizes (20_memory.md R41). -/
def plainLoads : List ((Reg → Reg → Reg → BitVec 9 → Instr) × AccessSize) :=
  [(.lw, .word), (.lh, .half), (.lq, .quarter), (.lb, .byte)]

/-- The load-locks and their sizes. -/
def loadLocks : List ((Reg → Reg → Reg → BitVec 9 → Instr) × AccessSize) :=
  [(.llw, .word), (.llh, .half), (.llq, .quarter), (.llb, .byte)]

/-- The plain stores and their sizes. -/
def plainStores : List ((Reg → Reg → Reg → BitVec 9 → Instr) × AccessSize) :=
  [(.sw, .word), (.sh, .half), (.sq, .quarter), (.sb, .byte)]

/-- The store-conditionals and their sizes. -/
def storeConditionals : List ((Reg → Reg → Reg → BitVec 9 → Instr) × AccessSize) :=
  [(.scw, .word), (.sch, .half), (.scq, .quarter), (.scb, .byte)]

/-! ### Instructions in a row -/

/-- The state after instructions that stand in a row are executed one after the other, each with `pc` moved past it; nothing if one
stops. -/
def State.runs (s : State) : List Instr → Option State
  | [] => some s
  | ins :: rest =>
    match exec ins (s.setPc (s.pc + 4)) with
    | .next t => t.runs rest
    | .fault _ | .refused _ => none

/-! ### The decode table -/

/-- The words with this low byte are the Format A instruction of their fields `r1` and `imm19` (30_encoding.md R92). -/
def DecodesA (low : Byte) (f : Reg → BitVec 19 → Instr) : Prop :=
  ∀ w : InstrWord, lowByte w = low → decodeWord w = .ok (f (fieldR1 w) (fieldImm19 w))

/-- The words with this low byte are the Format B instruction of their fields `r1`, `r2` and `imm14` (30_encoding.md R92). -/
def DecodesB (low : Byte) (f : Reg → Reg → BitVec 14 → Instr) : Prop :=
  ∀ w : InstrWord, lowByte w = low → decodeWord w = .ok (f (fieldR1 w) (fieldR2 w) (fieldImm14 w))

/-- The words with this low byte are the Format C instruction of their fields `r1`, `r2`, `r3` and `imm9` (30_encoding.md R92). -/
def DecodesC (low : Byte) (f : Reg → Reg → Reg → BitVec 9 → Instr) : Prop :=
  ∀ w : InstrWord, lowByte w = low → decodeWord w = .ok (f (fieldR1 w) (fieldR2 w) (fieldR3 w) (fieldImm9 w))

/-- The Format C instructions among loads, stores and arithmetic, by low byte (30_encoding.md R101). -/
def tableC : List (Byte × (Reg → Reg → Reg → BitVec 9 → Instr)) :=
  [(0x12, .lw), (0x32, .lh), (0x52, .lq), (0x72, .lb), (0x92, .llw), (0xB2, .llh), (0xD2, .llq), (0xF2, .llb)] ++
  [(0x16, .sw), (0x36, .sh), (0x56, .sq), (0x76, .sb), (0x96, .scw), (0xB6, .sch), (0xD6, .scq), (0xF6, .scb)] ++
  [(0x02, .add), (0x22, .sub), (0x42, .mul), (0xC6, .umulh), (0xE6, .imulh), (0x82, .udiv), (0xA2, .idiv), (0xC2, .urem),
   (0xE2, .irem)]

/-- The Format B instructions of arithmetic, by low byte (30_encoding.md R101). -/
def tableB : List (Byte × (Reg → Reg → BitVec 14 → Instr)) :=
  [(0x01, .addi), (0x21, .subi), (0x41, .muli), (0x81, .udivi), (0xA1, .idivi), (0xC1, .uremi), (0xE1, .iremi)]

/-- The Format A instructions of memory effects and system control, by low byte, with the sub-fields of `imm19` (30_encoding.md R96,
R101). -/
def tableA : List (Byte × (Reg → BitVec 19 → Instr)) :=
  [(0x10, fun _ k => .fence (k.getLsbD 0) (k.getLsbD 1)),
   (0x30, fun r k => .cinval r (k.getLsbD 0) (k.getLsbD 1) (k.extractLsb' 2 2)),
   (0x50, fun r k => .cfetch r (k.getLsbD 0) (k.getLsbD 1) (k.getLsbD 2))] ++
  [(0x1C, fun _ _ => .syscall), (0x3C, fun _ _ => .breakpt), (0xFC, fun _ _ => .wait), (0x5C, fun _ _ => .spin),
   (0x9C, fun _ _ => .iret), (0xBC, .lctrl), (0xDC, .sctrl)]

/-- The low bytes of the 78 instructions, in numeric order (30_encoding.md R101). -/
def listedLowBytes : List Byte :=
  [0x01, 0x02, 0x05, 0x06, 0x08, 0x09, 0x0A, 0x0D, 0x0E, 0x10, 0x12, 0x16, 0x1C, 0x21, 0x22, 0x25, 0x26, 0x29, 0x2A, 0x2D] ++
  [0x2E, 0x30, 0x32, 0x36, 0x3C, 0x41, 0x42, 0x45, 0x46, 0x49, 0x4A, 0x4D, 0x4E, 0x50, 0x52, 0x56, 0x5C, 0x65, 0x66, 0x6A] ++
  [0x6D, 0x6E, 0x72, 0x76, 0x81, 0x82, 0x85, 0x86, 0x8A, 0x8D, 0x8E, 0x91, 0x92, 0x96, 0x9C, 0xA1, 0xA2, 0xA5, 0xA6, 0xB1] ++
  [0xB2, 0xB6, 0xBC, 0xC1, 0xC2, 0xC5, 0xC6, 0xD0, 0xD2, 0xD6, 0xDC, 0xE1, 0xE2, 0xE6, 0xF0, 0xF2, 0xF6, 0xFC]

/-! ### Division -/

/-- `q` and `r` are the quotient and remainder of `a` by `b` as unsigned integers; all ones for a divisor of 0 (43_arithmetic.md
R151). -/
def UnsignedDivides (a b q r : Word) : Prop :=
  (b = 0 → q = -1 ∧ r = -1) ∧ (b ≠ 0 → a.toNat = b.toNat * q.toNat + r.toNat ∧ r.toNat < b.toNat)

/-- `q` and `r` are the quotient rounded toward zero and the remainder of `a` by `b` as signed integers; all ones for a divisor of
0; -2^63 and 0 for -2^63 by -1 (43_arithmetic.md R151, log entry 16). -/
def SignedDivides (a b q r : Word) : Prop :=
  (b = 0 → q = -1 ∧ r = -1) ∧
  (b = -1 ∧ a = BitVec.intMin 64 → q = BitVec.intMin 64 ∧ r = 0) ∧
  (b ≠ 0 → ¬ (b = -1 ∧ a = BitVec.intMin 64) →
    a.toInt = b.toInt * q.toInt + r.toInt ∧ r.toInt.natAbs < b.toInt.natAbs ∧
      (r.toInt = 0 ∨ (r.toInt < 0 ↔ a.toInt < 0)))

end Sys2Proof.Machine
end

