-- ==== Sys2Proof/WellFormed.lean ====
section
/-!
DEFINITION. Which instructions have valid arguments. Every term of `Instr` can be encoded, because each operand's type is
exactly its field; what the spec calls an instruction that "exists but with invalid arguments" (30_encoding.md R104, class 2)
is a check on three of them. An instruction that fails it still decodes, and raises INVALID when it executes.
-/
namespace Sys2Proof

/-- The arguments are ones the spec calls valid (R104, class 2): `cinval` with `m` 0, 1 or 2 (R142); `lctrl` and `sctrl` with
a control register number 0 to 23 (R235, R236). "No other instruction has an invalid argument value". -/
def Instr.wellFormed : Instr → Bool
  | .cinval _ _ _ m => m != 3
  | .lctrl _ imm19 => decide (imm19.toNat ≤ 23)
  | .sctrl _ imm19 => decide (imm19.toNat ≤ 23)
  | .lw .. | .lh .. | .lq .. | .lb .. | .llw .. | .llh .. | .llq .. | .llb .. | .sw .. | .sh .. | .sq .. | .sb ..
  | .scw .. | .sch .. | .scq .. | .scb .. | .fence .. | .cfetch .. | .ssi .. | .add .. | .sub .. | .mul ..
  | .umulh .. | .imulh .. | .udiv .. | .idiv .. | .urem .. | .irem .. | .addi .. | .subi .. | .muli .. | .udivi ..
  | .idivi .. | .uremi .. | .iremi .. | .and .. | .or .. | .nor .. | .xor .. | .andi .. | .ori .. | .nori ..
  | .xori .. | .sl .. | .usr .. | .isr .. | .si .. | .cb .. | .ror .. | .rol .. | .rev .. | .csb .. | .clz ..
  | .ctz .. | .ext .. | .dep .. | .seq .. | .sult .. | .silt .. | .sule .. | .sile .. | .seqi .. | .sulti ..
  | .silti .. | .sulei .. | .silei .. | .bz .. | .bn .. | .jl .. | .jlr .. | .syscall | .breakpt | .wait | .spin
  | .iret => true

/-- `Instr.wellFormed` as a proposition. -/
abbrev WellFormed (ins : Instr) : Prop := ins.wellFormed = true

end Sys2Proof
end

