-- ==== Sys2Proof/Certificates/Slice0/Obligations.lean ====
section
/-!
DEFINITION. The statements for the provers, about the machine alone. Each docstring names the rules or sections of the spec; what
rests on a decision of the spec's own, or on a choice of the model, says so and names the log entry.
-/
open Sys2Proof Sys2Proof.Machine

/-! ### Encoding -/

/-- Decoding the encoding of an instruction gives it back, with every operand at every value (30_encoding.md R92, R96, R101). -/
def Obligations.DecodeInvertsEncode : Prop := ∀ ins : Instr, decodeWord (encode ins) = .ok ins

/-- A word is an instruction exactly when it agrees with its encoding on the bits in use: the low byte and the fields; unused
fields are ignored, which is the spec's decision D7 (log entry 15). -/
def Obligations.UnusedBitsAloneAreFree : Prop :=
  ∀ (w : InstrWord) (ins : Instr), decodeWord w = .ok ins ↔ w &&& ins.usedBits = encode ins

/-- Exactly the words whose low byte is in the decode table are instructions (30_encoding.md section 3), and each low byte of the
loads, stores, memory effects, arithmetic (but `ssi`) and system control stands for its instruction, with the fields of its format
(R92, R96, R101; the other families' statements say so for theirs). That unused fields are ignored, in `fence`, `cinval`, `cfetch`,
`syscall`, `breakpt`, `wait`, `spin` and `iret`, is the spec's decision D7 (log entry 15). -/
def Obligations.ListedLowBytesDecode : Prop :=
  (∀ w : InstrWord, (∃ ins, decodeWord w = .ok ins) ↔ lowByte w ∈ listedLowBytes) ∧
  (∀ x ∈ tableA, DecodesA x.1 x.2) ∧ (∀ x ∈ tableB, DecodesB x.1 x.2) ∧ (∀ x ∈ tableC, DecodesC x.1 x.2)

/-- A few words of each format, written out from the encoding tables: `lw a0, [a1 + 16]`, `sw [sp + 8], lp`, `scw t1, [a0], t0`,
`ssi a0, 0xBEEF, 32`, `subi sp, sp, 16`, `si.i a0, a1, 48, 56`, `bn a0` two words back, `lctrl a0, stat`, and no instruction. -/
def Obligations.SampleWordsDecode : Prop :=
  decodeWord 0x01004112 = .ok (.lw 1 2 0 2) ∧ decodeWord 0x0083BE16 = .ok (.sw 30 29 0 1) ∧
  decodeWord 0x0006D596 = .ok (.scw 21 22 1 0) ∧ decodeWord 0xBEEF8108 = .ok (.ssi 1 false 2 0xBEEF) ∧
  decodeWord 0x0043BD21 = .ok (.subi 29 29 16) ∧ decodeWord 0x78C04109 = .ok (.si 1 2 48 56 true) ∧
  decodeWord 0xFFFFC1F0 = .ok (.bn 1 0x7FFFE) ∧ decodeWord 0x0002C1BC = .ok (.lctrl 1 22) ∧
  (∀ ins, decodeWord 0x00000000 ≠ .ok ins) ∧ (∀ ins, decodeWord 0xFFFFFFFF ≠ .ok ins)

/-! ### Registers -/

/-- `zr` reads 0 and `ip` reads `pc`, and a write to either does nothing, whatever is written. -/
def Obligations.ZeroAndIpIgnoreWrites : Prop :=
  ∀ (s : State) (r : Reg) (v : Word), s.getReg 0 = 0 ∧ s.getReg 31 = s.pc ∧
    (r = 0 ∨ r = 31 → s.setReg r v = s) ∧ (r ≠ 0 → r ≠ 31 → (s.setReg r v).getReg r = v)

/-! ### Arithmetic -/

/-- `add`, `sub`, `mul` and their immediate forms: the exact result of the integers, its low 64 bits. Register forms extend `imm9`
with zeros (`mul` with its sign); immediate forms `imm14` likewise. Reduction modulo 2^64 is the spec's decision D8 (log entry
15). -/
def Obligations.SumsAndProductsAreModular : Prop :=
  ∀ (s : State) (r1 r2 r3 : Reg) (imm9 : BitVec 9) (imm14 : BitVec 14),
    Writes (.add r1 r2 r3 imm9) s r1
      (BitVec.ofInt 64 ((s.getReg r2).toNat + ((s.getReg r3).toNat + imm9.toNat))) ∧
    Writes (.sub r1 r2 r3 imm9) s r1
      (BitVec.ofInt 64 ((s.getReg r2).toNat - ((s.getReg r3).toNat + imm9.toNat))) ∧
    Writes (.mul r1 r2 r3 imm9) s r1
      (BitVec.ofInt 64 ((s.getReg r2).toInt * ((s.getReg r3).toInt + imm9.toInt))) ∧
    Writes (.addi r1 r2 imm14) s r1 (BitVec.ofInt 64 ((s.getReg r2).toNat + imm14.toNat)) ∧
    Writes (.subi r1 r2 imm14) s r1 (BitVec.ofInt 64 ((s.getReg r2).toNat - imm14.toNat)) ∧
    Writes (.muli r1 r2 imm14) s r1 (BitVec.ofInt 64 ((s.getReg r2).toInt * imm14.toInt))

/-- `umulh` and `imulh`: bits 127 to 64 of the product of the operands extended to 128 bits, with zeros and with the sign; the
right one is the wrapped sum with `imm9` (43_arithmetic.md R156, R157; the wrap is the spec's decision D8, log entry 15). -/
def Obligations.HighProductsAreUpperHalves : Prop :=
  ∀ (s : State) (r1 r2 r3 : Reg) (imm9 : BitVec 9),
    Writes (.umulh r1 r2 r3 imm9) s r1
      (((s.getReg r2).setWidth 128 * (s.getReg r3 + imm9.setWidth 64).setWidth 128).extractLsb' 64 64) ∧
    Writes (.imulh r1 r2 r3 imm9) s r1
      (((s.getReg r2).signExtend 128 * (s.getReg r3 + imm9.signExtend 64).signExtend 128).extractLsb' 64 64)

/-- `udiv`, `urem`, `udivi`, `uremi`: quotient and remainder of the division of unsigned integers, all ones for a divisor of 0. The
divisor is the wrapped sum with `imm9` (the wrap is the spec's decision D8, log entry 15), or `imm14` extended with zeros. -/
def Obligations.UnsignedDivision : Prop :=
  ∀ (s : State) (r1 r2 r3 : Reg) (imm9 : BitVec 9) (imm14 : BitVec 14),
    (∃ q r, Writes (.udiv r1 r2 r3 imm9) s r1 q ∧ Writes (.urem r1 r2 r3 imm9) s r1 r ∧
      UnsignedDivides (s.getReg r2) (s.getReg r3 + imm9.setWidth 64) q r) ∧
    (∃ q r, Writes (.udivi r1 r2 imm14) s r1 q ∧ Writes (.uremi r1 r2 imm14) s r1 r ∧
      UnsignedDivides (s.getReg r2) (imm14.setWidth 64) q r)

/-- `idiv`, `irem`, `idivi`, `iremi`: quotient rounded toward zero and remainder of the division of signed integers, all ones for a
divisor of 0. The rounding is the spec's from general knowledge, and -2^63 by -1 its decision D9 (log entry 16); the wrap of the
sum with `imm9` its decision D8 (log entry 15). -/
def Obligations.SignedDivision : Prop :=
  ∀ (s : State) (r1 r2 r3 : Reg) (imm9 : BitVec 9) (imm14 : BitVec 14),
    (∃ q r, Writes (.idiv r1 r2 r3 imm9) s r1 q ∧ Writes (.irem r1 r2 r3 imm9) s r1 r ∧
      SignedDivides (s.getReg r2) (s.getReg r3 + imm9.signExtend 64) q r) ∧
    (∃ q r, Writes (.idivi r1 r2 imm14) s r1 q ∧ Writes (.iremi r1 r2 imm14) s r1 r ∧
      SignedDivides (s.getReg r2) (imm14.signExtend 64) q r)

/-- `ssi`, low byte 0x08: bits `16 * sh` to `16 * sh + 15` become `val`; the others are kept if `c` is 0, and otherwise 0 below and the sign of
`val` above (43_arithmetic.md R152). -/
def Obligations.SsiSetsOneQuarterWord : Prop :=
  DecodesA 0x08 (fun r1 imm19 => .ssi r1 (imm19.getLsbD 0) (imm19.extractLsb' 1 2) (imm19.extractLsb' 3 16)) ∧
  ∀ (s : State) (r1 : Reg) (c : Bool) (sh : BitVec 2) (val : BitVec 16), ∃ v, Writes (.ssi r1 c sh val) s r1 v ∧
    ∀ k, k < 64 → v.getLsbD k =
      if k < 16 * sh.toNat then !c && (s.getReg r1).getLsbD k
      else if k < 16 * sh.toNat + 16 then val.getLsbD (k - 16 * sh.toNat)
      else if c then val.getLsbD 15 else (s.getReg r1).getLsbD k

/-! ### Bitwise logic -/

/-- `and`, `or`, `nor`, `xor` and their immediate forms, encoding and result, bit by bit; in the register forms the immediate is OR-ed into `r3`
(44_bitwise.md R170 to R178). -/
def Obligations.LogicIsBitByBit : Prop :=
  (DecodesC 0x06 .and ∧ DecodesC 0x26 .or ∧ DecodesC 0x46 .nor ∧ DecodesC 0x66 .xor ∧
    DecodesB 0x05 .andi ∧ DecodesB 0x25 .ori ∧ DecodesB 0x45 .nori ∧ DecodesB 0x65 .xori) ∧
  ∀ (s : State) (r1 r2 r3 : Reg) (imm9 : BitVec 9) (imm14 : BitVec 14), ∃ va vo vn vx ia io ino ix : Word,
    Writes (.and r1 r2 r3 imm9) s r1 va ∧ Writes (.or r1 r2 r3 imm9) s r1 vo ∧ Writes (.nor r1 r2 r3 imm9) s r1 vn ∧
    Writes (.xor r1 r2 r3 imm9) s r1 vx ∧ Writes (.andi r1 r2 imm14) s r1 ia ∧ Writes (.ori r1 r2 imm14) s r1 io ∧
    Writes (.nori r1 r2 imm14) s r1 ino ∧ Writes (.xori r1 r2 imm14) s r1 ix ∧
    ∀ k, k < 64 →
      let x := (s.getReg r2).getLsbD k
      let y := (s.getReg r3).getLsbD k || imm9.getLsbD k
      let z := imm14.getLsbD k
      va.getLsbD k = (x && y) ∧ vo.getLsbD k = (x || y) ∧ vn.getLsbD k = !(x || y) ∧ vx.getLsbD k = (x ^^ y) ∧
      ia.getLsbD k = (x && z) ∧ io.getLsbD k = (x || z) ∧ ino.getLsbD k = !(x || z) ∧ ix.getLsbD k = (x ^^ z)

/-- `sl`, `usr`, `isr`, `ror`, `rol`: their encoding, and where each bit of the result comes from, for the amount `n`, the sum of `r3`
and `imm9` modulo 64 (44_bitwise.md R170, R179 to R181, R184, R185). The low bytes of `usr`, `isr`, `ror`, `rol` are the spec's
decision D32 (R100, log entry 15). -/
def Obligations.ShiftsAndRotatesMoveBits : Prop :=
  (DecodesC 0x8A .sl ∧ DecodesC 0x4A .usr ∧ DecodesC 0x6A .isr ∧ DecodesC 0x0A .ror ∧ DecodesC 0x2A .rol) ∧
  ∀ (s : State) (r1 r2 r3 : Reg) (imm9 : BitVec 9), ∃ vl vu vi vr vo : Word,
    Writes (.sl r1 r2 r3 imm9) s r1 vl ∧ Writes (.usr r1 r2 r3 imm9) s r1 vu ∧ Writes (.isr r1 r2 r3 imm9) s r1 vi ∧
    Writes (.ror r1 r2 r3 imm9) s r1 vr ∧ Writes (.rol r1 r2 r3 imm9) s r1 vo ∧
    ∀ k, k < 64 →
      let n := ((s.getReg r3).toNat + imm9.toNat) % 64
      let x := s.getReg r2
      vl.getLsbD k = (decide (n ≤ k) && x.getLsbD (k - n)) ∧ vu.getLsbD k = x.getLsbD (k + n) ∧
      vi.getLsbD k = x.getLsbD (min 63 (k + n)) ∧ vr.getLsbD k = x.getLsbD ((k + n) % 64) ∧
      vo.getLsbD k = x.getLsbD ((k + 64 - n) % 64)

/-- The encoding of `si` and `cb`, low bytes 0x09 and 0x29. `si`: a field extracted, bits shifted out on the left lost, extended with
zeros or with the highest bit kept. `cb`: the bits under the mask cleared (44_bitwise.md R182, R183). That unused bits of the words
are ignored is the spec's decision D7 (R97, log entry 15). -/
def Obligations.ShiftImmediateAndClearBits : Prop :=
  DecodesB 0x09 (fun r1 r2 imm14 => .si r1 r2 (imm14.extractLsb' 0 6) (imm14.extractLsb' 6 6) (imm14.getLsbD 12)) ∧
  DecodesB 0x29 (fun r1 r2 imm14 => .cb r1 r2 (imm14.extractLsb' 0 6) (imm14.extractLsb' 6 6)) ∧
  ∀ (s : State) (r1 r2 : Reg) (lsh rsh : BitVec 6), ∃ vu vi vc : Word,
    Writes (.si r1 r2 lsh rsh false) s r1 vu ∧ Writes (.si r1 r2 lsh rsh true) s r1 vi ∧ Writes (.cb r1 r2 lsh rsh) s r1 vc ∧
    ∀ k, k < 64 →
      let x := s.getReg r2
      let shifted (j : Nat) : Bool := decide (lsh.toNat ≤ j) && x.getLsbD (j - lsh.toNat)
      vu.getLsbD k = (decide (k + rsh.toNat < 64) && shifted (k + rsh.toNat)) ∧
      vi.getLsbD k = shifted (min 63 (k + rsh.toNat)) ∧
      vc.getLsbD k = (x.getLsbD k && !(decide (lsh.toNat ≤ k + rsh.toNat) && decide (k + rsh.toNat < 64)))

/-- `rev`, low byte 0x49: bit `k` of the result is bit `k` XOR `set` of the source, so each bit of `set` swaps neighbouring groups
(44_bitwise.md R186). That unused bits of the word are ignored is the spec's decision D7 (R97, log entry 15). -/
def Obligations.RevPermutesBits : Prop :=
  DecodesB 0x49 (fun r1 r2 imm14 => .rev r1 r2 (imm14.extractLsb' 0 6)) ∧
  ∀ (s : State) (r1 r2 : Reg) (sel : BitVec 6), ∃ v, Writes (.rev r1 r2 sel) s r1 v ∧
    ∀ k, k < 64 → v.getLsbD k = (s.getReg r2).getLsbD (k ^^^ sel.toNat)

/-- The encoding of `csb`, `clz` and `ctz`. `csb`: the number of set bits. `clz`, `ctz`: the number of clear bits before the highest,
after the lowest set bit; 64 for 0 (44_bitwise.md R187 to R189). That the unused `imm14` is ignored is the spec's decision D7 (R97,
log entry 15). -/
def Obligations.CountsCountBits : Prop :=
  (DecodesB 0xC5 (fun r1 r2 _ => .csb r1 r2) ∧ DecodesB 0x85 (fun r1 r2 _ => .clz r1 r2) ∧
    DecodesB 0xA5 (fun r1 r2 _ => .ctz r1 r2)) ∧
  ∀ (s : State) (r1 r2 : Reg), ∃ n l t : Nat,
    Writes (.csb r1 r2) s r1 (BitVec.ofNat 64 n) ∧ Writes (.clz r1 r2) s r1 (BitVec.ofNat 64 l) ∧
    Writes (.ctz r1 r2) s r1 (BitVec.ofNat 64 t) ∧
    (let x := s.getReg r2
     n = (List.range 64).countP (fun k => x.getLsbD k) ∧
     (x = 0 → l = 64 ∧ t = 64) ∧
     (x ≠ 0 → l < 64 ∧ x.getLsbD (63 - l) = true ∧ (∀ k, 63 - l < k → x.getLsbD k = false) ∧
       t < 64 ∧ x.getLsbD t = true ∧ (∀ k, k < t → x.getLsbD k = false)))

/-- The encoding of `ext` and `dep`. `ext`: bit `k` of the result is the bit at the `k`-th set position of the mask, 0 beyond. `dep`:
the bit at a set position is the one numbered by the set positions below it, 0 elsewhere (44_bitwise.md R190, R191). That the
unused `imm9` is ignored is the spec's decision D7 (R97, log entry 15). -/
def Obligations.ExtractPacksDepositSpreads : Prop :=
  DecodesC 0x86 (fun r1 r2 r3 _ => .ext r1 r2 r3) ∧ DecodesC 0xA6 (fun r1 r2 r3 _ => .dep r1 r2 r3) ∧
  ∀ (s : State) (r1 r2 r3 : Reg), ∃ ve vd : Word,
    Writes (.ext r1 r2 r3) s r1 ve ∧ Writes (.dep r1 r2 r3) s r1 vd ∧
    (let x := s.getReg r2
     let mask := s.getReg r3
     ∀ k, k < 64 →
      ve.getLsbD k = (match ((List.range 64).filter fun j => mask.getLsbD j)[k]? with
        | some j => x.getLsbD j
        | none => false) ∧
      vd.getLsbD k = (mask.getLsbD k && x.getLsbD ((List.range k).countP fun j => mask.getLsbD j)))

/-- "The inverse operation": depositing what was extracted gives the masked bits back, and extracting what was deposited gives back
as many low bits as the mask has (44_bitwise.md R190, R191). -/
def Obligations.DepositAndExtractAreInverse : Prop :=
  ∀ x mask : Word, depositFrom (extractFrom x mask 64) mask 64 0 = x &&& mask ∧
    ∀ k, (extractFrom (depositFrom x mask 64 0) mask 64).getLsbD k =
      (decide (k < (List.range 64).countP fun j => mask.getLsbD j) && x.getLsbD k)

/-! ### Comparison -/

/-- The ten comparisons, their encoding and result: they write exactly 1 or 0. Register forms compare with the wrapped sum of `r3` and `imm9`, extended with zeros in
the unsigned ones and with its sign in the others; immediate forms with `imm14` extended likewise (45_comparison.md R200 to
R210). -/
def Obligations.ComparisonsWriteOneOrZero : Prop :=
  (DecodesC 0x8E .seq ∧ DecodesC 0x0E .sult ∧ DecodesC 0x2E .silt ∧ DecodesC 0x4E .sule ∧ DecodesC 0x6E .sile ∧
    DecodesB 0x8D .seqi ∧ DecodesB 0x0D .sulti ∧ DecodesB 0x2D .silti ∧ DecodesB 0x4D .sulei ∧ DecodesB 0x6D .silei) ∧
  ∀ (s : State) (r1 r2 r3 : Reg) (imm9 : BitVec 9) (imm14 : BitVec 14),
    let x := s.getReg r2
    let yu := s.getReg r3 + imm9.setWidth 64
    let ys := s.getReg r3 + imm9.signExtend 64
    Writes (.seq r1 r2 r3 imm9) s r1 (if x = ys then 1 else 0) ∧
    Writes (.sult r1 r2 r3 imm9) s r1 (if x.toNat < yu.toNat then 1 else 0) ∧
    Writes (.silt r1 r2 r3 imm9) s r1 (if x.toInt < ys.toInt then 1 else 0) ∧
    Writes (.sule r1 r2 r3 imm9) s r1 (if x.toNat ≤ yu.toNat then 1 else 0) ∧
    Writes (.sile r1 r2 r3 imm9) s r1 (if x.toInt ≤ ys.toInt then 1 else 0) ∧
    Writes (.seqi r1 r2 imm14) s r1 (if x.toInt = imm14.toInt then 1 else 0) ∧
    Writes (.sulti r1 r2 imm14) s r1 (if x.toNat < imm14.toNat then 1 else 0) ∧
    Writes (.silti r1 r2 imm14) s r1 (if x.toInt < imm14.toInt then 1 else 0) ∧
    Writes (.sulei r1 r2 imm14) s r1 (if x.toNat ≤ imm14.toNat then 1 else 0) ∧
    Writes (.silei r1 r2 imm14) s r1 (if x.toInt ≤ imm14.toInt then 1 else 0)

/-! ### Control flow -/

/-- `bz`, `bn`, low bytes 0xD0 and 0xF0: `pc` moves by `imm19` words, signed, when the register is 0, is not 0; nothing else changes (46_control_flow.md R221,
R222). `pc` is that of the next instruction (log entry 26). -/
def Obligations.BranchesTestOneRegister : Prop :=
  DecodesA 0xD0 .bz ∧ DecodesA 0xF0 .bn ∧
  ∀ (s : State) (r1 : Reg) (imm19 : BitVec 19),
    let target := s.pc + BitVec.ofInt 64 (4 * imm19.toInt)
    exec (.bz r1 imm19) s = .next { s with pc := if s.getReg r1 = 0 then target else s.pc } ∧
    exec (.bn r1 imm19) s = .next { s with pc := if s.getReg r1 = 0 then s.pc else target }

/-- `jl`, `jlr`, low bytes 0xB1 and 0x91: `pc` becomes the sum of `imm14` words and the base, with `pc` itself in `jlr`; the register gets the old `pc`
unless it is `zr` or `ip`; the base is read first; nothing else changes (46_control_flow.md R223, R224). -/
def Obligations.JumpsLinkAndJump : Prop :=
  DecodesB 0xB1 .jl ∧ DecodesB 0x91 .jlr ∧
  ∀ (s : State) (r1 r2 : Reg) (imm14 : BitVec 14),
    (∃ t, exec (.jl r1 r2 imm14) s = .next t ∧
      State.OnlyReg { s with pc := s.getReg r2 + BitVec.ofNat 64 (4 * imm14.toNat) } t r1 s.pc) ∧
    (∃ t, exec (.jlr r1 r2 imm14) s = .next t ∧
      State.OnlyReg { s with pc := s.pc + s.getReg r2 + BitVec.ofNat 64 (4 * imm14.toNat) } t r1 s.pc)

/-- A write to `ip` as a register does nothing, and only the control-flow instructions, `iret` and interrupt entry change `pc`
(10_state.md R12). -/
def Obligations.PcChangesOnlyByControlFlow : Prop :=
  (∀ (s : State) (v : Word), s.setReg 31 v = s) ∧
  ∀ (ins : Instr) (s t : State), exec ins s = .next t →
    t.pc = s.pc ∨ (∃ r k, ins = .bz r k ∨ ins = .bn r k) ∨ (∃ r q k, ins = .jl r q k ∨ ins = .jlr r q k) ∨ ins = .iret ∨
      ∃ (b : State) (c : Cause) (val pte : Option Word),
        b.pc = s.pc ∧ b.ctrl = s.ctrl ∧ b.Entered t (causeNumber c).val val pte

/-- The expansions of the pseudo-instructions, executed in a row, do what the spec says they do: `nop` nothing, `mov` copies, `ret`
jumps, `li` loads any value, `fcall` reaches any aligned symbol, `call` an aligned symbol whose distance fits 32 signed bits: the
printed expansion 8 bytes past it, the corrected one the symbol itself (48_pseudo_instructions.md; the spec derives this, log entry
28). -/
def Obligations.PseudoInstructionsTakeEffect : Prop :=
  ∀ (s : State) (r1 r2 : Reg) (v : Word),
    let past (n : Word) : State := { s with pc := s.pc + n }
    let reaches (d : Word) : Prop := d &&& 3 = 0 ∧ (d.setWidth 32).signExtend 64 = d
    s.runs (Pseudo.nop.expand s.pc) = some (past 4) ∧
    (∃ t, s.runs ((Pseudo.mov r1 r2).expand s.pc) = some t ∧ (past 4).OnlyReg t r1 ((past 4).getReg r2)) ∧
    s.runs ((Pseudo.ret r1).expand s.pc) = some { s with pc := (past 4).getReg r1 } ∧
    (∃ t, s.runs ((Pseudo.li r1 v).expand s.pc) = some t ∧ (past 16).OnlyReg t r1 v) ∧
    (r2 ≠ 0 → r2 ≠ 31 →
      (v &&& 3 = 0 → ∃ u t, s.runs ((Pseudo.fcall r1 r2 v).expand s.pc) = some t ∧
        State.OnlyReg { s with pc := v } u r2 (v &&& ~~~0xFFFF) ∧ u.OnlyReg t r1 (s.pc + 16)) ∧
      (reaches (v - s.pc) → ∃ u t, s.runs ((Pseudo.call r1 r2 v).expand s.pc) = some t ∧
        State.OnlyReg { s with pc := v + 8 } u r2 ((v - s.pc) &&& ~~~0xFFFF) ∧ u.OnlyReg t r1 (s.pc + 8)) ∧
      (reaches (v - s.pc - 8) → ∃ u t, s.runs (correctedCall s.pc r1 r2 v) = some t ∧
        State.OnlyReg { s with pc := v } u r2 ((v - s.pc - 8) &&& ~~~0xFFFF) ∧ u.OnlyReg t r1 (s.pc + 8)))

/-! ### Memory -/

/-- `lw`, `lh`, `lq`, `lb`, when the address is aligned, translates and responds: the register gets the bytes that the physical
address has where the load takes effect, little-endian, extended with zeros. A load in its turn takes effect at once and changes
nothing else; one that waits joins the pending accesses (R50, log entry 9). The wrap of the address is the spec's decision D8, the
alignment its decision D5 (log entries 15, 21). -/
def Obligations.LoadsReadLittleEndian : Prop :=
  ∀ p ∈ plainLoads, ∀ (s : State) (r1 r2 r3 : Reg) (imm9 : BitVec 9) (pa : Word),
    s.AlignedAt (s.offsetAddr p.2 r2 r3 imm9) p.2 →
    s.translate (s.offsetAddr p.2 r2 r3 imm9) .read = .ok pa → s.busOk pa p.2 .read = true →
    ∃ u t v, exec (p.1 r1 r2 r3 imm9) s = .next t ∧ u.OnlyReg t r1 v ∧
      (s.effectPoint pa (sizeBytes p.2)).BytesAt pa p.2 v ∧
      (s.waitFor pa (sizeBytes p.2) = 0 → u = s) ∧
      (∀ k, s.waitFor pa (sizeBytes p.2) = k + 1 → s.Queued u pa p.2 .load k) ∧
      (s.InTurn pa p.2 → u = s ∧ s.BytesAt pa p.2 v)

/-- `llw`, `llh`, `llq`, `llb`, when the address is aligned, translates and responds: the same load, and the lock state is locked
with the address, its translation and the size. Decisions and log entries as for the plain loads, and log entry 18. -/
def Obligations.LoadLocksReadAndLock : Prop :=
  ∀ p ∈ loadLocks, ∀ (s : State) (r1 r2 r3 : Reg) (imm9 : BitVec 9) (pa : Word),
    s.AlignedAt (s.offsetAddr p.2 r2 r3 imm9) p.2 →
    s.translate (s.offsetAddr p.2 r2 r3 imm9) .read = .ok pa → s.busOk pa p.2 .read = true →
    let l := s.withLock p.2 (s.offsetAddr p.2 r2 r3 imm9) pa
    ∃ u t v, exec (p.1 r1 r2 r3 imm9) s = .next t ∧ u.OnlyReg t r1 v ∧
      (s.effectPoint pa (sizeBytes p.2)).BytesAt pa p.2 v ∧
      (s.waitFor pa (sizeBytes p.2) = 0 → u = l) ∧
      (∀ k, s.waitFor pa (sizeBytes p.2) = k + 1 → l.Queued u pa p.2 .loadLock k) ∧
      (s.InTurn pa p.2 → u = l ∧ s.BytesAt pa p.2 v)

/-- `sw`, `sh`, `sq`, `sb`, when the address is aligned, translates and responds. A store in its turn takes effect at once: the low
bytes of the register are stored at the physical address, little-endian, every other byte reads as before, and a lock state that it
overlaps is unlocked, with the exact granule no other. One that waits joins the pending accesses, and nothing else changes (R50, log
entry 9). Where the load of the load-lock is still pending, the store comes before it and does not unlock (log entry 18). -/
def Obligations.StoresWriteLittleEndian : Prop :=
  ∀ p ∈ plainStores, ∀ (s : State) (r1 r2 r3 : Reg) (imm9 : BitVec 9) (pa : Word),
    s.AlignedAt (s.offsetAddr p.2 r2 r3 imm9) p.2 →
    s.translate (s.offsetAddr p.2 r2 r3 imm9) .write = .ok pa → s.busOk pa p.2 .write = true →
    ∃ t, exec (p.1 r1 r2 r3 imm9) s = .next t ∧
      (s.waitFor pa (sizeBytes p.2) = 0 → s.StoredAt t pa p.2 (s.getReg r1) ∧
        (s.lockPending = false → s.OverlapsLock pa p.2 → t.lock.locked = false) ∧
        (s.platform.lockGranule = .exact → ¬ s.OverlapsLock pa p.2 → t.lock = s.lock) ∧
        (s.lockPending = true → t.lock = s.lock)) ∧
      (∀ k, s.waitFor pa (sizeBytes p.2) = k + 1 → s.Queued t pa p.2 (.store (s.getReg r1)) k) ∧
      (s.InTurn pa p.2 → s.waitFor pa (sizeBytes p.2) = 0)

/-- `scw`, `sch`, `scq`, `scb`, when the address is aligned, translates and responds, and the lock state tested is locked with this
address and size: the store is made or joins the pending accesses, the lock state is unlocked, and `r2` gets 1. The lock would still
hold where the store takes effect, so no other store to the locked bytes comes between. Order and translation are the spec's
decision D17 (log entry 15). The lock tested is the present one where no earlier access to the bytes is pending, else the one when
those have taken effect; that and when the store takes effect are the model's choice (log entry 18). -/
def Obligations.StoreConditionalSucceeds : Prop :=
  ∀ p ∈ storeConditionals, ∀ (s : State) (r1 r2 r3 : Reg) (imm9 : BitVec 9) (pa : Word),
    let addr := s.getReg r3 + BitVec.ofNat 64 (imm9.toNat * sizeBytes p.2)
    let lock := (s.testPoint addr pa p.2).lock
    let wait := s.conditionalWait addr pa p.2
    s.AlignedAt addr p.2 → s.translate addr .write = .ok pa → s.busOk pa p.2 .write = true →
    lock.locked = true → lock.address = addr → lock.width = p.2 →
    ∃ u t, exec (p.1 r1 r2 r3 imm9) s = .next t ∧ u.OnlyReg t r2 1 ∧ u.lock = { s.lock with locked := false } ∧
      (wait = 0 → s.StoredAt u pa p.2 (s.getReg r1)) ∧
      (∀ k, wait = k + 1 →
        State.Queued { s with lock := { s.lock with locked := false } } u pa p.2 (.store (s.getReg r1)) k) ∧
      (s.ClearAt pa p.2 → s.testPoint addr pa p.2 = s) ∧ (s.InTurn pa p.2 → wait = 0) ∧
      (s.elapse wait).lock.locked = true

/-- The same instructions, when the address is aligned and translates, but the lock state tested is unlocked or has another address
or size: `r2` gets 0 and nothing else changes, whatever the bus would answer. Where earlier accesses to the bytes are pending and
the present lock holds, the instruction first waits for those; else the lock tested is the present one (log entry 18). -/
def Obligations.StoreConditionalFails : Prop :=
  ∀ p ∈ storeConditionals, ∀ (s : State) (r1 r2 r3 : Reg) (imm9 : BitVec 9) (pa : Word),
    let addr := s.getReg r3 + BitVec.ofNat 64 (imm9.toNat * sizeBytes p.2)
    let u := s.testPoint addr pa p.2
    s.AlignedAt addr p.2 → s.translate addr .write = .ok pa →
    ¬ (u.lock.locked = true ∧ u.lock.address = addr ∧ u.lock.width = p.2) →
    (∃ t, exec (p.1 r1 r2 r3 imm9) s = .next t ∧ u.OnlyReg t r2 0) ∧ (∃ n, u = s.elapse n) ∧
    (s.ClearAt pa p.2 ∨ ¬ (s.lock.locked = true ∧ s.lock.address = addr ∧ s.lock.width = p.2) → u = s)

/-- Where the lock holds and earlier accesses to the bytes of a store-conditional are pending, they have all taken effect where the
lock is tested, with translation off or on; and if one of them is a store over the locked bytes, after the load-lock, the
store-conditional fails: it waits, `r2` gets 0, the lock state is unlocked, and nothing else changes (20_memory.md R50 a, R56 item 1;
log entries 9, 18). -/
def Obligations.StoreConditionalAfterOverlap : Prop :=
  ∀ p ∈ storeConditionals, ∀ (s : State) (r1 r2 r3 : Reg) (imm9 : BitVec 9) (pa : Word),
    let addr := s.getReg r3 + BitVec.ofNat 64 (imm9.toNat * sizeBytes p.2)
    s.AlignedAt addr p.2 → s.translate addr .write = .ok pa → ¬ s.ClearAt pa p.2 →
    s.lock.locked = true → s.lock.address = addr → s.lock.width = p.2 →
    (s.testPoint addr pa p.2).ClearAt pa p.2 ∧
    (s.lockPending = false →
      (∃ q ∈ s.pending, q.isStore = true ∧ q.overlaps pa (sizeBytes p.2) = true ∧ s.OverlapsLock q.addr q.size) →
      ∃ n t, exec (p.1 r1 r2 r3 imm9) s = .next t ∧ (s.elapse n).OnlyReg t r2 0 ∧ t.lock.locked = false)

/-- A data access at an address that is not aligned (under the default `DATA_ALIGN`: not a multiple of its size) raises UALIGNR (10) or
UALIGNW (11) with that address, before translation, and a load-lock has already written its lock state. Natural alignment is the
spec's decision D5, the other value of the parameter the model's choice (log entry 21). -/
def Obligations.UnalignedAccessesRaise : Prop :=
  (∀ p ∈ plainLoads, ∀ (s : State) (r1 r2 r3 : Reg) (imm9 : BitVec 9),
    ¬ s.AlignedAt (s.offsetAddr p.2 r2 r3 imm9) p.2 →
    Raises (p.1 r1 r2 r3 imm9) s 10 (some (s.offsetAddr p.2 r2 r3 imm9)) none) ∧
  (∀ p ∈ loadLocks, ∀ (s : State) (r1 r2 r3 : Reg) (imm9 : BitVec 9),
    ¬ s.AlignedAt (s.offsetAddr p.2 r2 r3 imm9) p.2 →
    ∃ t, exec (p.1 r1 r2 r3 imm9) s = .next t ∧
      (s.withLock p.2 (s.offsetAddr p.2 r2 r3 imm9) s.lock.paddr).completed.Entered t 10 (some (s.offsetAddr p.2 r2 r3 imm9)) none) ∧
  (∀ p ∈ plainStores, ∀ (s : State) (r1 r2 r3 : Reg) (imm9 : BitVec 9),
    ¬ s.AlignedAt (s.offsetAddr p.2 r2 r3 imm9) p.2 →
    Raises (p.1 r1 r2 r3 imm9) s 11 (some (s.offsetAddr p.2 r2 r3 imm9)) none) ∧
  (∀ p ∈ storeConditionals, ∀ (s : State) (r1 r2 r3 : Reg) (imm9 : BitVec 9),
    let addr := s.getReg r3 + BitVec.ofNat 64 (imm9.toNat * sizeBytes p.2)
    ¬ s.AlignedAt addr p.2 → Raises (p.1 r1 r2 r3 imm9) s 11 (some addr) none)

/-- A physical access that the platform refuses raises BUSR (4) or BUSW (5) with the untranslated address and nothing is stored; a
store-conditional is refused only on its success path (60_exceptions.md R267, R268; when the bus refuses is the platform's, D18,
log entry 6). In which state a store-conditional tests its lock where earlier accesses to its bytes are pending is the model's choice
(log entry 18). -/
def Obligations.RefusedAccessesRaise : Prop :=
  (∀ p ∈ plainLoads, ∀ (s : State) (r1 r2 r3 : Reg) (imm9 : BitVec 9) (pa : Word),
    s.AlignedAt (s.offsetAddr p.2 r2 r3 imm9) p.2 →
    s.translate (s.offsetAddr p.2 r2 r3 imm9) .read = .ok pa → s.busOk pa p.2 .read = false →
    Raises (p.1 r1 r2 r3 imm9) s 4 (some (s.offsetAddr p.2 r2 r3 imm9)) none) ∧
  (∀ p ∈ loadLocks, ∀ (s : State) (r1 r2 r3 : Reg) (imm9 : BitVec 9) (pa : Word),
    s.AlignedAt (s.offsetAddr p.2 r2 r3 imm9) p.2 →
    s.translate (s.offsetAddr p.2 r2 r3 imm9) .read = .ok pa → s.busOk pa p.2 .read = false →
    ∃ t, exec (p.1 r1 r2 r3 imm9) s = .next t ∧
      (s.withLock p.2 (s.offsetAddr p.2 r2 r3 imm9) pa).completed.Entered t 4 (some (s.offsetAddr p.2 r2 r3 imm9)) none) ∧
  (∀ p ∈ plainStores, ∀ (s : State) (r1 r2 r3 : Reg) (imm9 : BitVec 9) (pa : Word),
    s.AlignedAt (s.offsetAddr p.2 r2 r3 imm9) p.2 →
    s.translate (s.offsetAddr p.2 r2 r3 imm9) .write = .ok pa → s.busOk pa p.2 .write = false →
    Raises (p.1 r1 r2 r3 imm9) s 5 (some (s.offsetAddr p.2 r2 r3 imm9)) none) ∧
  (∀ p ∈ storeConditionals, ∀ (s : State) (r1 r2 r3 : Reg) (imm9 : BitVec 9) (pa : Word),
    let addr := s.getReg r3 + BitVec.ofNat 64 (imm9.toNat * sizeBytes p.2)
    s.AlignedAt addr p.2 → s.translate addr .write = .ok pa → s.busOk pa p.2 .write = false →
    (s.testPoint addr pa p.2).lock.locked = true → (s.testPoint addr pa p.2).lock.address = addr →
    (s.testPoint addr pa p.2).lock.width = p.2 →
    Raises (p.1 r1 r2 r3 imm9) s 5 (some addr) none)

/-- A translation that fails ends the instruction by its interrupt: loads, `cinval` of a block or page and `cfetch` translate as
reads, stores and store-conditionals as writes, these on their failing path too (20_memory.md R61). -/
def Obligations.FailedTranslationsRaise : Prop :=
  ∀ (s : State) (r1 r2 r3 : Reg) (imm9 : BitVec 9) (i : Interrupt),
    (∀ p ∈ plainLoads, s.AlignedAt (s.offsetAddr p.2 r2 r3 imm9) p.2 →
      s.translate (s.offsetAddr p.2 r2 r3 imm9) .read = .error i →
      Raises (p.1 r1 r2 r3 imm9) s (causeNumber i.cause).val i.val i.pte) ∧
    (∀ p ∈ loadLocks, s.AlignedAt (s.offsetAddr p.2 r2 r3 imm9) p.2 →
      s.translate (s.offsetAddr p.2 r2 r3 imm9) .read = .error i →
      ∃ t, exec (p.1 r1 r2 r3 imm9) s = .next t ∧
        (s.withLock p.2 (s.offsetAddr p.2 r2 r3 imm9) s.lock.paddr).completed.Entered t (causeNumber i.cause).val i.val i.pte) ∧
    (∀ p ∈ plainStores, s.AlignedAt (s.offsetAddr p.2 r2 r3 imm9) p.2 →
      s.translate (s.offsetAddr p.2 r2 r3 imm9) .write = .error i →
      Raises (p.1 r1 r2 r3 imm9) s (causeNumber i.cause).val i.val i.pte) ∧
    (∀ p ∈ storeConditionals,
      s.AlignedAt (s.getReg r3 + BitVec.ofNat 64 (imm9.toNat * sizeBytes p.2)) p.2 →
      s.translate (s.getReg r3 + BitVec.ofNat 64 (imm9.toNat * sizeBytes p.2)) .write = .error i →
      Raises (p.1 r1 r2 r3 imm9) s (causeNumber i.cause).val i.val i.pte) ∧
    (s.translate (s.getReg r1) .read = .error i →
      (∀ d f : Bool, Raises (.cinval r1 d f 0) s (causeNumber i.cause).val i.val i.pte ∧
        Raises (.cinval r1 d f 1) s (causeNumber i.cause).val i.val i.pte) ∧
      ∀ l w f : Bool, Raises (.cfetch r1 l w f) s (causeNumber i.cause).val i.val i.pte)

/-- `fence` waits, and no more: its state is the one after a number of the events to come. With `s` every earlier store has then
taken effect, with `l` every earlier load. For each byte that no event to come writes, memory together with what is still pending is
as before, so with `s` memory has what the newest earlier store wrote there, or what it had. Where no event is to come, the i-cache
and the translation caches are as before, and with `s` so is each byte that loads see but for the earlier stores. Without a selected
access pending nothing changes (42_memory_effects.md R141, 20_memory.md R69). That an access of the other kind may not pass the fence
either is the literal reading, which decision D12 allows (log entry 10). -/
def Obligations.FenceDrainsStores : Prop :=
  ∀ (s : State) (l w : Bool), ∃ t, exec (.fence l w) s = .next t ∧ (∃ n, t = s.elapse n) ∧ s.Waited t ∧
    (w = true → ∀ p ∈ t.pending, p.isStore = false) ∧ (l = true → ∀ p ∈ t.pending, p.isStore = true) ∧
    (s.InOrder → ∀ a, s.Undisturbed a →
      (pendingByte t.pending a).getD (t.memByte a) = (pendingByte s.pending a).getD (s.memByte a) ∧
      (w = true → t.memByte a = (pendingByte s.pending a).getD (s.memByte a))) ∧
    ((∀ i ∈ s.env, i.events = []) → t.icache = s.icache ∧ t.tcacheK = s.tcacheK ∧ t.tcacheU = s.tcacheU ∧
      (w = true → ∀ a, t.loadByte a = (pendingByte s.pending a).getD (s.loadByte a))) ∧
    ((∀ p ∈ s.pending, if p.isStore then w = false else l = false) → t = s)

/-- `cinval` of a block (`m` 0) or page (1) whose address translates, or of everything (2): it unlocks, discards exactly the
selected blocks from the caches selected, and changes nothing else; a load of a discarded block then sees memory. Translating first
is the spec's decision D15 (log entry 15). That a fetch of a discarded block sees memory rests on log entry 11, a DESIGN CHOICE: R58
also allows a block to be loaded from a present d-cache copy, which in the model is an event that may come first. -/
def Obligations.CinvalDiscardsAndUnlocks : Prop :=
  ∀ (s : State) (r1 : Reg) (d i : Bool) (m : BitVec 2) (pa : Word), m ≠ 3 →
    (m ≠ 2 → s.translate (s.getReg r1) .read = .ok pa) →
    let hit (number : Nat) : Prop :=
      m = 2 ∨ (m = 0 ∧ number = pa.toNat / 64) ∨ (m = 1 ∧ number / 64 = pa.toNat / 4096)
    ∃ t, exec (.cinval r1 d i m) s = .next t ∧
      { t with dcache := s.dcache, icache := s.icache, lock := s.lock } = s ∧ t.lock = { s.lock with locked := false } ∧
      (∀ blk, blk ∈ t.dcache ↔ blk ∈ s.dcache ∧ ¬ (d = true ∧ hit blk.number)) ∧
      (∀ blk, blk ∈ t.icache ↔ blk ∈ s.icache ∧ ¬ (i = true ∧ hit blk.number)) ∧
      (∀ a, ¬ (d = true ∧ hit (a.toNat / 64)) → t.loadByte a = s.loadByte a) ∧
      (∀ a, d = true → hit (a.toNat / 64) → t.loadByte a = s.memByte a) ∧
      (∀ a, ¬ (i = true ∧ hit (a.toNat / 64)) → t.fetchByte a = s.fetchByte a) ∧
      (∀ a, i = true → hit (a.toNat / 64) → t.fetchByte a = s.memByte a)

/-- `cfetch` of an address that translates as a read only unlocks, whatever its flags (42_memory_effects.md R143; the fill is a hint
that the environment may follow, log entry 11; translating as a read is the spec's decision D15, log entry 15). -/
def Obligations.CfetchOnlyUnlocks : Prop :=
  ∀ (s : State) (r1 : Reg) (l w i : Bool) (pa : Word), s.translate (s.getReg r1) .read = .ok pa →
    exec (.cfetch r1 l w i) s = .next { s with lock := { s.lock with locked := false } }

/-- A store's taking effect, whoever's it is, unlocks a lock state that it overlaps, and with `block64` one whose 64-byte block it
touches; with `exact` no other is unlocked (20_memory.md R56 items 1 and 6). That a device's store unlocks with `exact` too is
the spec's decision D20 (log entry 15). A store that comes before the load of the load-lock unlocks nothing (R52, log entry 18). -/
def Obligations.StoresUnlockOverlappedLocks : Prop :=
  ∀ (s : State) (st : Store),
    let touchesBlock := overlaps (s.lock.paddr &&& ~~~63) 64 st.addr (sizeBytes st.size) = true
    ∀ t ∈ [s.takeEffect st, s.afterEvent (.lpStore st), s.afterEvent (.extStore st)],
      (s.lockPending = true → t.lock = s.lock) ∧
      (s.lockPending = false →
        (s.OverlapsLock st.addr st.size → t.lock = { s.lock with locked := false }) ∧
        (s.platform.lockGranule = .block64 → touchesBlock → t.lock = { s.lock with locked := false }) ∧
        (s.platform.lockGranule = .exact → ¬ s.OverlapsLock st.addr st.size → t.lock = s.lock) ∧
        (s.platform.lockGranule = .block64 → ¬ s.OverlapsLock st.addr st.size → ¬ touchesBlock → t.lock = s.lock))

/-- Pending accesses. Waiting changes no register. With each event the accesses due take effect in program order, so the newest store
due to a byte wins, and the others come one event nearer. An access takes effect after the earlier ones to its bytes (20_memory.md R50
a), and else with its delay, whatever it is; in its turn, at once. So a byte that this processor stored reads as its newest store wrote it, unless another agent stores there
first: delay is invisible to its owner. How accesses are delayed is the model's choice (log entry 9). -/
def Obligations.BufferIsInvisibleToItsOwner : Prop :=
  ∀ (s : State) (e : EnvEvent) (pa : Word) (sz : AccessSize),
    let due := s.pending.filter fun p => p.wait == 0
    (∀ n, s.Waited (s.elapse n)) ∧
    (∀ a, (s.tick e).loadByte a = (pendingByte due a).getD ((s.afterEvent e).loadByte a)) ∧
    (∀ a, (s.tick e).memByte a = (pendingByte due a).getD ((s.afterEvent e).memByte a)) ∧
    (s.tick e).pending = (s.pending.filter fun p => p.wait != 0).map (fun p => { p with wait := p.wait - 1 }) ∧
    (s.effectPoint pa (sizeBytes sz)).ClearAt pa sz ∧
    (s.InTurn pa sz → s.effectPoint pa (sizeBytes sz) = s) ∧
    (s.platform.reorders = true → s.delay ≤ s.waitFor pa (sizeBytes sz)) ∧
    (s.platform.reorders = true → s.ClearAt pa sz → s.waitFor pa (sizeBytes sz) = s.delay) ∧
    (s.InOrder → ∀ a b, (a - pa).toNat < sizeBytes sz → s.Undisturbed a → pendingByte s.pending a = some b →
      (s.effectPoint pa (sizeBytes sz)).loadByte a = b)

/-- The d-cache stays coherent with the stores of all processors: from a state whose copies agree with memory, a step before and
during which no external agent stores leads to one (20_memory.md R57). -/
def Obligations.DataCacheStaysCoherent : Prop :=
  ∀ s t : State, s.Coherent → (∀ i ∈ s.env, ∀ e ∈ i.events, e.isInternal = true) → step s = .next t → t.Coherent

/-! ### Translation -/

/-- The causes by kind of access and their numbers: ACCESSR (7), ACCESSW (8), ACCESSX (9) for a read, a write, a fetch, VATFAIL (13),
and the other ten of the table (60_exceptions.md R252). With translation off an address translates to itself; with it on, one whose
bits 63 to 48 differ from bit 47 raises ACCESSR, ACCESSW or ACCESSX with that address and no page table entry (20_memory.md R61, R62,
R65; that `intval` has the address and `intpte` is unchanged is the spec's decision D4, log entry 15). -/
def Obligations.TranslationOffAndNonCanonical : Prop :=
  (accessCause .read = .accessr ∧ accessCause .write = .accessw ∧ accessCause .fetch = .accessx) ∧
  (∀ x ∈ causeTable, (causeNumber x.1).val = x.2) ∧ (∀ c : Cause, ∃ n, (c, n) ∈ causeTable) ∧
  ∀ (s : State) (va : Word) (kind : Access),
    (s.statV = false → s.translate va kind = .ok va) ∧
    (s.statV = true → va.extractLsb' 48 16 ≠ (if va.getLsbD 47 then 0xFFFF else 0) →
      s.translate va kind = .error { cause := accessCause kind, val := some va, pte := none })

/-- The walk that succeeds: four entries that can be read and are valid, the last one writable for a write and executable for a
fetch, give the page it names with the offset (20_memory.md R62 to R64). An address whose final entry the translation cache of the
current mode holds is translated by that entry, without a walk, whatever memory has (R67); which entry a hit uses is log entry 12. -/
def Obligations.FourGoodLevelsTranslate : Prop :=
  ∀ (s : State) (va : Word) (kind : Access),
    (s.Walks va → s.LevelsGood va 4 →
      (kind = .write → (s.entryAt va 3).getLsbD 1 = true) → (kind = .fetch → (s.entryAt va 3).getLsbD 2 = true) →
      s.translate va kind = .ok ((s.entryAt va 3 &&& ~~~0xFFF) ||| (va &&& 0xFFF))) ∧
    (∀ pte, s.Hits va pte → (kind = .write → pte.getLsbD 1 = true) → (kind = .fetch → pte.getLsbD 2 = true) →
      s.translate va kind = .ok ((pte &&& ~~~0xFFF) ||| (va &&& 0xFFF)))

/-- The walk that fails, at its first bad level: an entry that cannot be read raises VATFAIL, one that is not valid raises the
access violation of the kind with that entry, and so does a final entry without the permission (20_memory.md R62, R65; that a
refused read is the failure is the spec's decision D18, log entry 15). An entry that the translation cache holds and that lacks the
permission raises the access violation of the kind with that entry (R67; log entry 12). -/
def Obligations.WalkFailsAtTheFirstBadLevel : Prop :=
  ∀ (s : State) (va : Word) (kind : Access),
    (∀ pte, s.Hits va pte → (kind = .write ∧ pte.getLsbD 1 = false) ∨ (kind = .fetch ∧ pte.getLsbD 2 = false) →
      s.translate va kind = .error { cause := accessCause kind, val := some va, pte := some pte }) ∧
    (s.Walks va →
      (∀ k, k < 4 → s.LevelsGood va k → s.busOk (s.entryAddr va k) .word .read = false →
        s.translate va kind = .error { cause := .vatfail, val := some va, pte := none }) ∧
      (∀ k, k < 4 → s.LevelsGood va k → s.busOk (s.entryAddr va k) .word .read = true →
        (s.entryAt va k).getLsbD 0 = false →
        s.translate va kind = .error { cause := accessCause kind, val := some va, pte := some (s.entryAt va k) }) ∧
      (s.LevelsGood va 4 →
        (kind = .write ∧ (s.entryAt va 3).getLsbD 1 = false) ∨ (kind = .fetch ∧ (s.entryAt va 3).getLsbD 2 = false) →
        s.translate va kind = .error { cause := accessCause kind, val := some va, pte := some (s.entryAt va 3) }))

/-! ### System control -/

/-- `syscall` raises SYSCALL (2) and `breakpt` raises BREAKPT (1), in either mode, recording no address (47_system.md R231,
R232). -/
def Obligations.SyscallAndBreakptRaise : Prop :=
  ∀ s : State, Raises .syscall s 2 none none ∧ Raises .breakpt s 1 none none

/-- In kernel mode `wait` pauses and does nothing else; `spin` does nothing, in either mode (47_system.md R233, R234). -/
def Obligations.WaitPausesSpinIdles : Prop :=
  ∀ s : State, (s.statU = false → exec .wait s = .next { s with paused := true }) ∧ exec .spin s = .next s

/-- In kernel mode `iret` restores `stat` from `intstat` and `pc` from `intip`, unlocks, and changes nothing else (47_system.md
R237). -/
def Obligations.IretRestores : Prop :=
  ∀ s : State, s.statU = false → ∃ t, exec .iret s = .next t ∧ t.pc = s.getCtrl ctrlIntip ∧
    (∀ n, t.getCtrl n = if n = ctrlStat then s.getCtrl ctrlIntstat &&& 7 else s.getCtrl n) ∧
    t.lock = { s.lock with locked := false } ∧ { t with pc := s.pc, ctrl := s.ctrl, lock := s.lock } = s ∧
    ∀ a, t.loadByte a = s.loadByte a

/-- In kernel mode `lctrl` of a register 0 to 23 gives its content to `r1` and changes nothing else (47_system.md R235; the
numbers are the spec's decision D23, log entry 15). -/
def Obligations.LctrlReads : Prop :=
  ∀ (s : State) (r1 : Reg) (imm19 : BitVec 19) (n : CtrlReg), s.statU = false → imm19.toNat = n.val →
    Writes (.lctrl r1 imm19) s r1 (s.getCtrl n)

/-- In kernel mode `sctrl` to a register 0 to 23 stores `r1` with the hardwired bits 0: [1:0] of `int0` to `int15` and `intip`,
[11:0] of `kptp` and `uptp`, [63:3] of `stat` and `intstat` (the last the spec's decision D10, log entry 15). A store to `kptp` or
`uptp` empties that mode's translation cache. Nothing else changes (47_system.md R236). -/
def Obligations.SctrlWrites : Prop :=
  ∀ (s : State) (r1 : Reg) (imm19 : BitVec 19) (n : CtrlReg), s.statU = false → imm19.toNat = n.val →
    ∃ t, exec (.sctrl r1 imm19) s = .next t ∧
      (∀ k, t.getCtrl k = if k ≠ n then s.getCtrl k else
        if n.val ≤ 16 then s.getReg r1 &&& ~~~3 else if n.val ≤ 19 then s.getReg r1
        else if n.val ≤ 21 then s.getReg r1 &&& ~~~0xFFF else s.getReg r1 &&& 7) ∧
      t.tcacheK = (if n = ctrlKptp then [] else s.tcacheK) ∧ t.tcacheU = (if n = ctrlUptp then [] else s.tcacheU) ∧
      { t with ctrl := s.ctrl, tcacheK := s.tcacheK, tcacheU := s.tcacheU } = s ∧ ∀ a, t.loadByte a = s.loadByte a

/-- In user mode `wait`, `iret`, `lctrl`, `sctrl` raise INVALID (3) and do nothing else, whatever their operands (47_system.md
R230). -/
def Obligations.PrivilegedInUserModeRaise : Prop :=
  ∀ (s : State) (r1 : Reg) (imm19 : BitVec 19), s.statU = true →
    Raises .wait s 3 none none ∧ Raises .iret s 3 none none ∧ Raises (.lctrl r1 imm19) s 3 none none ∧
    Raises (.sctrl r1 imm19) s 3 none none

/-- An instruction with invalid arguments raises INVALID in either mode: `cinval` with `m` 3, `lctrl` and `sctrl` of a number above
23 (30_encoding.md R104 class 2). -/
def Obligations.IllFormedRaise : Prop :=
  ∀ (s : State) (ins : Instr), ¬ WellFormed ins → Raises ins s 3 none none

/-! ### Interrupts -/

/-- Interrupt entry (60_exceptions.md R256), from the state in which earlier accesses have taken effect: what it saves, where it goes,
what it clears, and that all else is as before. What `pc` is saved, which handler, `intval` for which causes, and `V` kept are the
spec's decisions D1, D3, D4, D31 (log entry 15). That state has the registers of the one in which the interrupt is raised. -/
def Obligations.InterruptEntry : Prop :=
  ∀ (s : State) (i : Interrupt),
    s.completed.Entered (s.enterInterrupt i) (causeNumber i.cause).val i.val i.pte ∧
    s.completed.gpr = s.gpr ∧ s.completed.pc = s.pc ∧ s.completed.ctrl = s.ctrl ∧ (s.pending = [] → s.completed = s)

/-- Interrupt entry completes every earlier access: afterwards none is pending, and each byte of memory that no event to come writes
has what the newest earlier store to it wrote, or what it had (60_exceptions.md R259). -/
def Obligations.EntryCompletesEarlierStores : Prop :=
  ∀ (s : State) (i : Interrupt), (s.enterInterrupt i).pending = [] ∧
    (s.InOrder → ∀ a, s.Undisturbed a → (s.enterInterrupt i).memByte a = (pendingByte s.pending a).getD (s.memByte a))

/-- A request at the boundary with `E` 1 is taken in place of the instruction, from a pause too, with `pc` that of the instruction
not executed; with `E` 0 or without a request a paused processor stays as it is. The boundary's events change no register, neither
`pc` nor a control register, nor the pause or the platform, and a lock state only by unlocking it; one input is used up
(60_exceptions.md R261, R262: the spec's decisions D2, D16, log entries 2, 14, 15). -/
def Obligations.ExternalInterruptsAtBoundaries : Prop :=
  ∀ s : State,
    (s.atBoundary.gpr = s.gpr ∧ s.atBoundary.pc = s.pc ∧ s.atBoundary.ctrl = s.ctrl ∧ s.atBoundary.paused = s.paused ∧
      s.atBoundary.platform = s.platform ∧ s.LockKeptOrUnlocked s.atBoundary ∧ s.atBoundary.env = s.env.tail) ∧
    (s.input.extIrq = true → s.statE = true → ∃ t, step s = .next t ∧ s.atBoundary.completed.Entered t 0 none none) ∧
    (s.input.extIrq = false ∨ s.statE = false → s.paused = true → step s = .next s.atBoundary)

/-! ### The step -/

/-- A running processor that takes no external interrupt runs the instruction its word decodes to, with `pc` moved past it
(10_state.md R14; that `pc` moves first is the spec's decision D1, log entries 15, 26). -/
def Obligations.StepRunsTheDecodedInstruction : Prop :=
  ∀ (s b : State) (w : InstrWord) (ins : Instr), s.takesExternal = false → s.atBoundary.paused = false →
    s.atBoundary.fetchWord s.atBoundary.pc = .ok (w, b) → decodeWord w = .ok ins →
    step s = exec ins { b with pc := s.atBoundary.pc + 4 }

/-- The word fetched: its four bytes at the physical address, the lowest address first, all of one state, where the address is a
multiple of 4, translates as a fetch and responds (20_memory.md R40, R43, R46; that all are of one point is the spec's decision D13,
log entry 15). Without an i-cache that state is one in which earlier stores to them have taken effect, so that each byte that no
event to come writes is what the newest of them wrote, or what memory had (R69, log entry 9); with one, or without such stores, it is
the state as it is. -/
def Obligations.FetchReadsFourBytes : Prop :=
  ∀ (s : State) (addr pa : Word), addr &&& 3 = 0 → s.translate addr .fetch = .ok pa → s.busOk pa .half .fetch = true →
    ∃ b, s.fetchWord addr =
        .ok (wordOfBytes (b.fetchByte pa) (b.fetchByte (pa + 1)) (b.fetchByte (pa + 2)) (b.fetchByte (pa + 3)), b) ∧
      (∃ n, b = s.elapse n) ∧ s.Waited b ∧ (s.platform.hasIcache = true → b = s) ∧
      (s.platform.hasIcache = false → (∀ p ∈ b.pending, p.isStore = true → p.overlaps pa 4 = false) ∧
        (s.InOrder → ∀ a, (a - pa).toNat < 4 → s.Undisturbed a →
          b.fetchByte a = (pendingByte s.pending a).getD (s.memByte a))) ∧
      ((∀ p ∈ s.pending, p.isStore = true → p.overlaps pa 4 = false) → b = s)

/-- A word that is no instruction raises INVALID (3) in either mode, with `intip` the address after it (30_encoding.md R104 class
1, 60_exceptions.md R266; that address is the spec's decision D1, log entry 15). -/
def Obligations.NoInstructionRaises : Prop :=
  ∀ (s b : State) (w : InstrWord), s.takesExternal = false → s.atBoundary.paused = false →
    s.atBoundary.fetchWord s.atBoundary.pc = .ok (w, b) → lowByte w ∉ listedLowBytes →
    ∃ t, step s = .next t ∧
      (State.completed { b with pc := s.atBoundary.pc + 4 }).Entered t 3 none none

/-- A fetch that fails raises with `pc` still the address: UALIGNX (12) where bits [1:0] are not 0, before anything else; the
translation's interrupt; BUSX (6) where the platform refuses (20_memory.md R46, 60_exceptions.md R269, R272, R275; the saved `pc`
is the spec's decision D1, log entry 15). -/
def Obligations.FailedFetchesRaise : Prop :=
  ∀ s : State, s.takesExternal = false → s.atBoundary.paused = false →
    let b := s.atBoundary
    (b.pc &&& 3 ≠ 0 → ∃ t, step s = .next t ∧ b.completed.Entered t 12 (some b.pc) none) ∧
    (∀ i, b.pc &&& 3 = 0 → b.translate b.pc .fetch = .error i →
      ∃ t, step s = .next t ∧ b.completed.Entered t (causeNumber i.cause).val i.val i.pte) ∧
    (∀ pa, b.pc &&& 3 = 0 → b.translate b.pc .fetch = .ok pa → b.busOk pa .half .fetch = false →
      ∃ t, step s = .next t ∧ b.completed.Entered t 6 (some b.pc) none)

/-- No state stops the machine: every step gives a next state, with the platform as it was and one input used up, so that the
requests for interrupts to come are those of the later inputs (60_exceptions.md R250, R251; log entries 2, 27). -/
def Obligations.EveryStepGoesOn : Prop :=
  ∀ s : State, ∃ t, step s = .next t ∧ t.platform = s.platform ∧
    t.env.map EnvInput.extIrq = s.env.tail.map EnvInput.extIrq

/-- In user mode a step changes no control register, so does not leave user mode, unless it enters an interrupt ("User to kernel:
only by an interrupt", 60_exceptions.md R281). -/
def Obligations.UserModeKeepsControlRegisters : Prop :=
  ∀ s t : State, s.statU = true → step s = .next t →
    (t.ctrl = s.ctrl ∧ t.statU = true) ∨
    ∃ (b : State) (c : Cause) (val pte : Option Word), b.ctrl = s.ctrl ∧ b.Entered t (causeNumber c).val val pte

/-- Only a load-lock locks: a lock state locked after a step was locked before it, or the step ran a load-lock (10_state.md R20,
20_memory.md R54). -/
def Obligations.OnlyLoadLocksLock : Prop :=
  ∀ s t : State, step s = .next t → t.lock.locked = true →
    s.lock.locked = true ∨
    ∃ w b, s.atBoundary.fetchWord s.atBoundary.pc = .ok (w, b) ∧
      ∃ p ∈ loadLocks, ∃ r1 r2 r3 imm9, decodeWord w = .ok (p.1 r1 r2 r3 imm9)

/-! ### The invariant and reset -/

/-- Every step keeps the invariant, from every state that has it: canonical memory and cache copies, hardwired bits 0 (10_state.md
R16), units that the platform lacks empty, pending accesses to the same bytes in program order (20_memory.md R50 a). -/
def Obligations.EveryStepKeepsTheInvariant : Prop := ∀ s t : State, s.Inv → step s = .next t → t.Inv

/-- The reset state has the invariant. -/
def Obligations.ResetHasTheInvariant : Prop := State.reset.Inv

/-- The reset state is one that the reset table allows, at `RESET_IP` 0x1000. All values at reset are the spec's decision D11 (log
entry 15); that address and the values of the unspecified registers are the model's choice (log entries 3, 4). -/
def Obligations.ResetIsAllowed : Prop := State.reset.IsReset Config.resetIp
end

