-- ==== Sys2Proof/Laws/Decode.lean ====
section
/-!
SUPPORT. The fields of a word that an encoder of one format made, read back.
-/
namespace Sys2Proof

/-! ### A word of each format as a number -/

theorem toNat_formatA (low : Byte) (r1 : Reg) (imm19 : BitVec 19) :
    (formatA low r1 imm19).toNat = low.toNat + 2 ^ 8 * r1.val + 2 ^ 13 * imm19.toNat := by
  show BitVec.toNat (w := 19 + 5 + 8) (imm19 ++ (BitVec.ofFin r1 : BitVec 5) ++ low) = _
  have := low.isLt; have := r1.isLt
  simp only [BitVec.toNat_append, BitVec.toNat_ofFin]
  rw [← Nat.shiftLeft_add_eq_or_of_lt (by omega), ← Nat.shiftLeft_add_eq_or_of_lt (by omega)]
  simp only [Nat.shiftLeft_eq]
  omega

theorem toNat_formatB (low : Byte) (r1 r2 : Reg) (imm14 : BitVec 14) :
    (formatB low r1 r2 imm14).toNat = low.toNat + 2 ^ 8 * r1.val + 2 ^ 13 * r2.val + 2 ^ 18 * imm14.toNat := by
  show BitVec.toNat (w := 14 + 5 + 5 + 8) (imm14 ++ (BitVec.ofFin r2 : BitVec 5) ++ (BitVec.ofFin r1 : BitVec 5) ++ low) = _
  have := low.isLt; have := r1.isLt; have := r2.isLt
  simp only [BitVec.toNat_append, BitVec.toNat_ofFin]
  rw [← Nat.shiftLeft_add_eq_or_of_lt (by omega), ← Nat.shiftLeft_add_eq_or_of_lt (by omega),
    ← Nat.shiftLeft_add_eq_or_of_lt (by omega)]
  simp only [Nat.shiftLeft_eq]
  omega

theorem toNat_formatC (low : Byte) (r1 r2 r3 : Reg) (imm9 : BitVec 9) :
    (formatC low r1 r2 r3 imm9).toNat =
      low.toNat + 2 ^ 8 * r1.val + 2 ^ 13 * r2.val + 2 ^ 18 * r3.val + 2 ^ 23 * imm9.toNat := by
  show BitVec.toNat (w := 9 + 5 + 5 + 5 + 8) (imm9 ++ (BitVec.ofFin r3 : BitVec 5) ++ (BitVec.ofFin r2 : BitVec 5) ++
    (BitVec.ofFin r1 : BitVec 5) ++ low) = _
  have := low.isLt; have := r1.isLt; have := r2.isLt; have := r3.isLt
  simp only [BitVec.toNat_append, BitVec.toNat_ofFin]
  rw [← Nat.shiftLeft_add_eq_or_of_lt (by omega), ← Nat.shiftLeft_add_eq_or_of_lt (by omega),
    ← Nat.shiftLeft_add_eq_or_of_lt (by omega), ← Nat.shiftLeft_add_eq_or_of_lt (by omega)]
  simp only [Nat.shiftLeft_eq]
  omega

/-! ### The low byte -/

theorem lowByte_formatA (low : Byte) (r1 : Reg) (imm19 : BitVec 19) : lowByte (formatA low r1 imm19) = low := by
  apply BitVec.eq_of_toNat_eq
  have := low.isLt
  simp only [lowByte, BitVec.extractLsb'_toNat, toNat_formatA, Nat.shiftRight_zero]
  omega

theorem lowByte_formatB (low : Byte) (r1 r2 : Reg) (imm14 : BitVec 14) : lowByte (formatB low r1 r2 imm14) = low := by
  apply BitVec.eq_of_toNat_eq
  have := low.isLt
  simp only [lowByte, BitVec.extractLsb'_toNat, toNat_formatB, Nat.shiftRight_zero]
  omega

theorem lowByte_formatC (low : Byte) (r1 r2 r3 : Reg) (imm9 : BitVec 9) :
    lowByte (formatC low r1 r2 r3 imm9) = low := by
  apply BitVec.eq_of_toNat_eq
  have := low.isLt
  simp only [lowByte, BitVec.extractLsb'_toNat, toNat_formatC, Nat.shiftRight_zero]
  omega

/-! ### The fields -/

theorem fieldR1_formatA (low : Byte) (r1 : Reg) (imm19 : BitVec 19) : fieldR1 (formatA low r1 imm19) = r1 := by
  apply Fin.ext
  have := low.isLt; have := r1.isLt
  simp only [fieldR1, BitVec.val_toFin, BitVec.extractLsb'_toNat, toNat_formatA, Nat.shiftRight_eq_div_pow]
  omega

theorem fieldR1_formatB (low : Byte) (r1 r2 : Reg) (imm14 : BitVec 14) : fieldR1 (formatB low r1 r2 imm14) = r1 := by
  apply Fin.ext
  have := low.isLt; have := r1.isLt
  simp only [fieldR1, BitVec.val_toFin, BitVec.extractLsb'_toNat, toNat_formatB, Nat.shiftRight_eq_div_pow]
  omega

theorem fieldR2_formatB (low : Byte) (r1 r2 : Reg) (imm14 : BitVec 14) : fieldR2 (formatB low r1 r2 imm14) = r2 := by
  apply Fin.ext
  have := low.isLt; have := r1.isLt; have := r2.isLt
  simp only [fieldR2, BitVec.val_toFin, BitVec.extractLsb'_toNat, toNat_formatB, Nat.shiftRight_eq_div_pow]
  omega

theorem fieldR1_formatC (low : Byte) (r1 r2 r3 : Reg) (imm9 : BitVec 9) :
    fieldR1 (formatC low r1 r2 r3 imm9) = r1 := by
  apply Fin.ext
  have := low.isLt; have := r1.isLt
  simp only [fieldR1, BitVec.val_toFin, BitVec.extractLsb'_toNat, toNat_formatC, Nat.shiftRight_eq_div_pow]
  omega

theorem fieldR2_formatC (low : Byte) (r1 r2 r3 : Reg) (imm9 : BitVec 9) :
    fieldR2 (formatC low r1 r2 r3 imm9) = r2 := by
  apply Fin.ext
  have := low.isLt; have := r1.isLt; have := r2.isLt
  simp only [fieldR2, BitVec.val_toFin, BitVec.extractLsb'_toNat, toNat_formatC, Nat.shiftRight_eq_div_pow]
  omega

theorem fieldR3_formatC (low : Byte) (r1 r2 r3 : Reg) (imm9 : BitVec 9) :
    fieldR3 (formatC low r1 r2 r3 imm9) = r3 := by
  apply Fin.ext
  have := low.isLt; have := r1.isLt; have := r2.isLt; have := r3.isLt
  simp only [fieldR3, BitVec.val_toFin, BitVec.extractLsb'_toNat, toNat_formatC, Nat.shiftRight_eq_div_pow]
  omega

/-! ### The immediates, whole and in part -/

theorem fieldImm9_formatC (low : Byte) (r1 r2 r3 : Reg) (imm9 : BitVec 9) :
    fieldImm9 (formatC low r1 r2 r3 imm9) = imm9 := by
  apply BitVec.eq_of_toNat_eq
  have := low.isLt; have := r1.isLt; have := r2.isLt; have := r3.isLt; have := imm9.isLt
  simp only [fieldImm9, BitVec.extractLsb'_toNat, toNat_formatC, Nat.shiftRight_eq_div_pow]
  omega

theorem fieldImm14_formatB (low : Byte) (r1 r2 : Reg) (imm14 : BitVec 14) :
    fieldImm14 (formatB low r1 r2 imm14) = imm14 := by
  apply BitVec.eq_of_toNat_eq
  have := low.isLt; have := r1.isLt; have := r2.isLt; have := imm14.isLt
  simp only [fieldImm14, BitVec.extractLsb'_toNat, toNat_formatB, Nat.shiftRight_eq_div_pow]
  omega

theorem fieldImm19_formatA (low : Byte) (r1 : Reg) (imm19 : BitVec 19) : fieldImm19 (formatA low r1 imm19) = imm19 := by
  apply BitVec.eq_of_toNat_eq
  have := low.isLt; have := r1.isLt; have := imm19.isLt
  simp only [fieldImm19, BitVec.extractLsb'_toNat, toNat_formatA, Nat.shiftRight_eq_div_pow]
  omega

/-- Bit `13 + k` of a Format A word is bit `k` of its immediate. -/
theorem getLsbD_formatA (low : Byte) (r1 : Reg) (imm19 : BitVec 19) (k : Nat) :
    (formatA low r1 imm19).getLsbD (13 + k) = imm19.getLsbD k := by
  have h := fieldImm19_formatA low r1 imm19
  by_cases hk : k < 19
  · simpa [fieldImm19, hk] using congrArg (fun v => v.getLsbD k) h
  · rw [BitVec.getLsbD_of_ge _ _ (by omega), BitVec.getLsbD_of_ge _ _ (by omega)]

/-- Bit `18 + k` of a Format B word is bit `k` of its immediate. -/
theorem getLsbD_formatB (low : Byte) (r1 r2 : Reg) (imm14 : BitVec 14) (k : Nat) :
    (formatB low r1 r2 imm14).getLsbD (18 + k) = imm14.getLsbD k := by
  have h := fieldImm14_formatB low r1 r2 imm14
  by_cases hk : k < 14
  · simpa [fieldImm14, hk] using congrArg (fun v => v.getLsbD k) h
  · rw [BitVec.getLsbD_of_ge _ _ (by omega), BitVec.getLsbD_of_ge _ _ (by omega)]

/-- Bits of a Format A word from `13 + k` up are bits of its immediate from `k` up. -/
theorem extract_formatA (low : Byte) (r1 : Reg) (imm19 : BitVec 19) (k n : Nat) :
    (formatA low r1 imm19).extractLsb' (13 + k) n = imm19.extractLsb' k n := by
  apply BitVec.eq_of_getLsbD_eq
  intro j hj
  simp only [BitVec.getLsbD_extractLsb', hj, decide_true, Bool.true_and, Nat.add_assoc, getLsbD_formatA]

/-- Bits of a Format B word from `18 + k` up are bits of its immediate from `k` up. -/
theorem extract_formatB (low : Byte) (r1 r2 : Reg) (imm14 : BitVec 14) (k n : Nat) :
    (formatB low r1 r2 imm14).extractLsb' (18 + k) n = imm14.extractLsb' k n := by
  apply BitVec.eq_of_getLsbD_eq
  intro j hj
  simp only [BitVec.getLsbD_extractLsb', hj, decide_true, Bool.true_and, Nat.add_assoc, getLsbD_formatB]

/-! ### One equation per row of the decode table -/

theorem decodeWord_lw {w : InstrWord} (h : lowByte w = 0x12#8) :
    decodeWord w = .ok (.lw (fieldR1 w) (fieldR2 w) (fieldR3 w) (fieldImm9 w)) := by
  unfold decodeWord; rw [h]; rfl

theorem decodeWord_lh {w : InstrWord} (h : lowByte w = 0x32#8) :
    decodeWord w = .ok (.lh (fieldR1 w) (fieldR2 w) (fieldR3 w) (fieldImm9 w)) := by
  unfold decodeWord; rw [h]; rfl

theorem decodeWord_lq {w : InstrWord} (h : lowByte w = 0x52#8) :
    decodeWord w = .ok (.lq (fieldR1 w) (fieldR2 w) (fieldR3 w) (fieldImm9 w)) := by
  unfold decodeWord; rw [h]; rfl

theorem decodeWord_lb {w : InstrWord} (h : lowByte w = 0x72#8) :
    decodeWord w = .ok (.lb (fieldR1 w) (fieldR2 w) (fieldR3 w) (fieldImm9 w)) := by
  unfold decodeWord; rw [h]; rfl

theorem decodeWord_llw {w : InstrWord} (h : lowByte w = 0x92#8) :
    decodeWord w = .ok (.llw (fieldR1 w) (fieldR2 w) (fieldR3 w) (fieldImm9 w)) := by
  unfold decodeWord; rw [h]; rfl

theorem decodeWord_llh {w : InstrWord} (h : lowByte w = 0xB2#8) :
    decodeWord w = .ok (.llh (fieldR1 w) (fieldR2 w) (fieldR3 w) (fieldImm9 w)) := by
  unfold decodeWord; rw [h]; rfl

theorem decodeWord_llq {w : InstrWord} (h : lowByte w = 0xD2#8) :
    decodeWord w = .ok (.llq (fieldR1 w) (fieldR2 w) (fieldR3 w) (fieldImm9 w)) := by
  unfold decodeWord; rw [h]; rfl

theorem decodeWord_llb {w : InstrWord} (h : lowByte w = 0xF2#8) :
    decodeWord w = .ok (.llb (fieldR1 w) (fieldR2 w) (fieldR3 w) (fieldImm9 w)) := by
  unfold decodeWord; rw [h]; rfl

theorem decodeWord_sw {w : InstrWord} (h : lowByte w = 0x16#8) :
    decodeWord w = .ok (.sw (fieldR1 w) (fieldR2 w) (fieldR3 w) (fieldImm9 w)) := by
  unfold decodeWord; rw [h]; rfl

theorem decodeWord_sh {w : InstrWord} (h : lowByte w = 0x36#8) :
    decodeWord w = .ok (.sh (fieldR1 w) (fieldR2 w) (fieldR3 w) (fieldImm9 w)) := by
  unfold decodeWord; rw [h]; rfl

theorem decodeWord_sq {w : InstrWord} (h : lowByte w = 0x56#8) :
    decodeWord w = .ok (.sq (fieldR1 w) (fieldR2 w) (fieldR3 w) (fieldImm9 w)) := by
  unfold decodeWord; rw [h]; rfl

theorem decodeWord_sb {w : InstrWord} (h : lowByte w = 0x76#8) :
    decodeWord w = .ok (.sb (fieldR1 w) (fieldR2 w) (fieldR3 w) (fieldImm9 w)) := by
  unfold decodeWord; rw [h]; rfl

theorem decodeWord_scw {w : InstrWord} (h : lowByte w = 0x96#8) :
    decodeWord w = .ok (.scw (fieldR1 w) (fieldR2 w) (fieldR3 w) (fieldImm9 w)) := by
  unfold decodeWord; rw [h]; rfl

theorem decodeWord_sch {w : InstrWord} (h : lowByte w = 0xB6#8) :
    decodeWord w = .ok (.sch (fieldR1 w) (fieldR2 w) (fieldR3 w) (fieldImm9 w)) := by
  unfold decodeWord; rw [h]; rfl

theorem decodeWord_scq {w : InstrWord} (h : lowByte w = 0xD6#8) :
    decodeWord w = .ok (.scq (fieldR1 w) (fieldR2 w) (fieldR3 w) (fieldImm9 w)) := by
  unfold decodeWord; rw [h]; rfl

theorem decodeWord_scb {w : InstrWord} (h : lowByte w = 0xF6#8) :
    decodeWord w = .ok (.scb (fieldR1 w) (fieldR2 w) (fieldR3 w) (fieldImm9 w)) := by
  unfold decodeWord; rw [h]; rfl

theorem decodeWord_fence {w : InstrWord} (h : lowByte w = 0x10#8) :
    decodeWord w = .ok (.fence (w.getLsbD 13) (w.getLsbD 14)) := by
  unfold decodeWord; rw [h]; rfl

theorem decodeWord_cinval {w : InstrWord} (h : lowByte w = 0x30#8) :
    decodeWord w = .ok (.cinval (fieldR1 w) (w.getLsbD 13) (w.getLsbD 14) (w.extractLsb' 15 2)) := by
  unfold decodeWord; rw [h]; rfl

theorem decodeWord_cfetch {w : InstrWord} (h : lowByte w = 0x50#8) :
    decodeWord w = .ok (.cfetch (fieldR1 w) (w.getLsbD 13) (w.getLsbD 14) (w.getLsbD 15)) := by
  unfold decodeWord; rw [h]; rfl

theorem decodeWord_ssi {w : InstrWord} (h : lowByte w = 0x08#8) :
    decodeWord w = .ok (.ssi (fieldR1 w) (w.getLsbD 13) (w.extractLsb' 14 2) (w.extractLsb' 16 16)) := by
  unfold decodeWord; rw [h]; rfl

theorem decodeWord_add {w : InstrWord} (h : lowByte w = 0x02#8) :
    decodeWord w = .ok (.add (fieldR1 w) (fieldR2 w) (fieldR3 w) (fieldImm9 w)) := by
  unfold decodeWord; rw [h]; rfl

theorem decodeWord_sub {w : InstrWord} (h : lowByte w = 0x22#8) :
    decodeWord w = .ok (.sub (fieldR1 w) (fieldR2 w) (fieldR3 w) (fieldImm9 w)) := by
  unfold decodeWord; rw [h]; rfl

theorem decodeWord_mul {w : InstrWord} (h : lowByte w = 0x42#8) :
    decodeWord w = .ok (.mul (fieldR1 w) (fieldR2 w) (fieldR3 w) (fieldImm9 w)) := by
  unfold decodeWord; rw [h]; rfl

theorem decodeWord_umulh {w : InstrWord} (h : lowByte w = 0xC6#8) :
    decodeWord w = .ok (.umulh (fieldR1 w) (fieldR2 w) (fieldR3 w) (fieldImm9 w)) := by
  unfold decodeWord; rw [h]; rfl

theorem decodeWord_imulh {w : InstrWord} (h : lowByte w = 0xE6#8) :
    decodeWord w = .ok (.imulh (fieldR1 w) (fieldR2 w) (fieldR3 w) (fieldImm9 w)) := by
  unfold decodeWord; rw [h]; rfl

theorem decodeWord_udiv {w : InstrWord} (h : lowByte w = 0x82#8) :
    decodeWord w = .ok (.udiv (fieldR1 w) (fieldR2 w) (fieldR3 w) (fieldImm9 w)) := by
  unfold decodeWord; rw [h]; rfl

theorem decodeWord_idiv {w : InstrWord} (h : lowByte w = 0xA2#8) :
    decodeWord w = .ok (.idiv (fieldR1 w) (fieldR2 w) (fieldR3 w) (fieldImm9 w)) := by
  unfold decodeWord; rw [h]; rfl

theorem decodeWord_urem {w : InstrWord} (h : lowByte w = 0xC2#8) :
    decodeWord w = .ok (.urem (fieldR1 w) (fieldR2 w) (fieldR3 w) (fieldImm9 w)) := by
  unfold decodeWord; rw [h]; rfl

theorem decodeWord_irem {w : InstrWord} (h : lowByte w = 0xE2#8) :
    decodeWord w = .ok (.irem (fieldR1 w) (fieldR2 w) (fieldR3 w) (fieldImm9 w)) := by
  unfold decodeWord; rw [h]; rfl

theorem decodeWord_addi {w : InstrWord} (h : lowByte w = 0x01#8) :
    decodeWord w = .ok (.addi (fieldR1 w) (fieldR2 w) (fieldImm14 w)) := by
  unfold decodeWord; rw [h]; rfl

theorem decodeWord_subi {w : InstrWord} (h : lowByte w = 0x21#8) :
    decodeWord w = .ok (.subi (fieldR1 w) (fieldR2 w) (fieldImm14 w)) := by
  unfold decodeWord; rw [h]; rfl

theorem decodeWord_muli {w : InstrWord} (h : lowByte w = 0x41#8) :
    decodeWord w = .ok (.muli (fieldR1 w) (fieldR2 w) (fieldImm14 w)) := by
  unfold decodeWord; rw [h]; rfl

theorem decodeWord_udivi {w : InstrWord} (h : lowByte w = 0x81#8) :
    decodeWord w = .ok (.udivi (fieldR1 w) (fieldR2 w) (fieldImm14 w)) := by
  unfold decodeWord; rw [h]; rfl

theorem decodeWord_idivi {w : InstrWord} (h : lowByte w = 0xA1#8) :
    decodeWord w = .ok (.idivi (fieldR1 w) (fieldR2 w) (fieldImm14 w)) := by
  unfold decodeWord; rw [h]; rfl

theorem decodeWord_uremi {w : InstrWord} (h : lowByte w = 0xC1#8) :
    decodeWord w = .ok (.uremi (fieldR1 w) (fieldR2 w) (fieldImm14 w)) := by
  unfold decodeWord; rw [h]; rfl

theorem decodeWord_iremi {w : InstrWord} (h : lowByte w = 0xE1#8) :
    decodeWord w = .ok (.iremi (fieldR1 w) (fieldR2 w) (fieldImm14 w)) := by
  unfold decodeWord; rw [h]; rfl

theorem decodeWord_and {w : InstrWord} (h : lowByte w = 0x06#8) :
    decodeWord w = .ok (.and (fieldR1 w) (fieldR2 w) (fieldR3 w) (fieldImm9 w)) := by
  unfold decodeWord; rw [h]; rfl

theorem decodeWord_or {w : InstrWord} (h : lowByte w = 0x26#8) :
    decodeWord w = .ok (.or (fieldR1 w) (fieldR2 w) (fieldR3 w) (fieldImm9 w)) := by
  unfold decodeWord; rw [h]; rfl

theorem decodeWord_nor {w : InstrWord} (h : lowByte w = 0x46#8) :
    decodeWord w = .ok (.nor (fieldR1 w) (fieldR2 w) (fieldR3 w) (fieldImm9 w)) := by
  unfold decodeWord; rw [h]; rfl

theorem decodeWord_xor {w : InstrWord} (h : lowByte w = 0x66#8) :
    decodeWord w = .ok (.xor (fieldR1 w) (fieldR2 w) (fieldR3 w) (fieldImm9 w)) := by
  unfold decodeWord; rw [h]; rfl

theorem decodeWord_andi {w : InstrWord} (h : lowByte w = 0x05#8) :
    decodeWord w = .ok (.andi (fieldR1 w) (fieldR2 w) (fieldImm14 w)) := by
  unfold decodeWord; rw [h]; rfl

theorem decodeWord_ori {w : InstrWord} (h : lowByte w = 0x25#8) :
    decodeWord w = .ok (.ori (fieldR1 w) (fieldR2 w) (fieldImm14 w)) := by
  unfold decodeWord; rw [h]; rfl

theorem decodeWord_nori {w : InstrWord} (h : lowByte w = 0x45#8) :
    decodeWord w = .ok (.nori (fieldR1 w) (fieldR2 w) (fieldImm14 w)) := by
  unfold decodeWord; rw [h]; rfl

theorem decodeWord_xori {w : InstrWord} (h : lowByte w = 0x65#8) :
    decodeWord w = .ok (.xori (fieldR1 w) (fieldR2 w) (fieldImm14 w)) := by
  unfold decodeWord; rw [h]; rfl

theorem decodeWord_sl {w : InstrWord} (h : lowByte w = 0x8A#8) :
    decodeWord w = .ok (.sl (fieldR1 w) (fieldR2 w) (fieldR3 w) (fieldImm9 w)) := by
  unfold decodeWord; rw [h]; rfl

theorem decodeWord_usr {w : InstrWord} (h : lowByte w = 0x4A#8) :
    decodeWord w = .ok (.usr (fieldR1 w) (fieldR2 w) (fieldR3 w) (fieldImm9 w)) := by
  unfold decodeWord; rw [h]; rfl

theorem decodeWord_isr {w : InstrWord} (h : lowByte w = 0x6A#8) :
    decodeWord w = .ok (.isr (fieldR1 w) (fieldR2 w) (fieldR3 w) (fieldImm9 w)) := by
  unfold decodeWord; rw [h]; rfl

theorem decodeWord_si {w : InstrWord} (h : lowByte w = 0x09#8) :
    decodeWord w = .ok (.si (fieldR1 w) (fieldR2 w) (w.extractLsb' 18 6) (w.extractLsb' 24 6) (w.getLsbD 30)) := by
  unfold decodeWord; rw [h]; rfl

theorem decodeWord_cb {w : InstrWord} (h : lowByte w = 0x29#8) :
    decodeWord w = .ok (.cb (fieldR1 w) (fieldR2 w) (w.extractLsb' 18 6) (w.extractLsb' 24 6)) := by
  unfold decodeWord; rw [h]; rfl

theorem decodeWord_ror {w : InstrWord} (h : lowByte w = 0x0A#8) :
    decodeWord w = .ok (.ror (fieldR1 w) (fieldR2 w) (fieldR3 w) (fieldImm9 w)) := by
  unfold decodeWord; rw [h]; rfl

theorem decodeWord_rol {w : InstrWord} (h : lowByte w = 0x2A#8) :
    decodeWord w = .ok (.rol (fieldR1 w) (fieldR2 w) (fieldR3 w) (fieldImm9 w)) := by
  unfold decodeWord; rw [h]; rfl

theorem decodeWord_rev {w : InstrWord} (h : lowByte w = 0x49#8) :
    decodeWord w = .ok (.rev (fieldR1 w) (fieldR2 w) (w.extractLsb' 18 6)) := by
  unfold decodeWord; rw [h]; rfl

theorem decodeWord_csb {w : InstrWord} (h : lowByte w = 0xC5#8) :
    decodeWord w = .ok (.csb (fieldR1 w) (fieldR2 w)) := by
  unfold decodeWord; rw [h]; rfl

theorem decodeWord_clz {w : InstrWord} (h : lowByte w = 0x85#8) :
    decodeWord w = .ok (.clz (fieldR1 w) (fieldR2 w)) := by
  unfold decodeWord; rw [h]; rfl

theorem decodeWord_ctz {w : InstrWord} (h : lowByte w = 0xA5#8) :
    decodeWord w = .ok (.ctz (fieldR1 w) (fieldR2 w)) := by
  unfold decodeWord; rw [h]; rfl

theorem decodeWord_ext {w : InstrWord} (h : lowByte w = 0x86#8) :
    decodeWord w = .ok (.ext (fieldR1 w) (fieldR2 w) (fieldR3 w)) := by
  unfold decodeWord; rw [h]; rfl

theorem decodeWord_dep {w : InstrWord} (h : lowByte w = 0xA6#8) :
    decodeWord w = .ok (.dep (fieldR1 w) (fieldR2 w) (fieldR3 w)) := by
  unfold decodeWord; rw [h]; rfl

theorem decodeWord_seq {w : InstrWord} (h : lowByte w = 0x8E#8) :
    decodeWord w = .ok (.seq (fieldR1 w) (fieldR2 w) (fieldR3 w) (fieldImm9 w)) := by
  unfold decodeWord; rw [h]; rfl

theorem decodeWord_sult {w : InstrWord} (h : lowByte w = 0x0E#8) :
    decodeWord w = .ok (.sult (fieldR1 w) (fieldR2 w) (fieldR3 w) (fieldImm9 w)) := by
  unfold decodeWord; rw [h]; rfl

theorem decodeWord_silt {w : InstrWord} (h : lowByte w = 0x2E#8) :
    decodeWord w = .ok (.silt (fieldR1 w) (fieldR2 w) (fieldR3 w) (fieldImm9 w)) := by
  unfold decodeWord; rw [h]; rfl

theorem decodeWord_sule {w : InstrWord} (h : lowByte w = 0x4E#8) :
    decodeWord w = .ok (.sule (fieldR1 w) (fieldR2 w) (fieldR3 w) (fieldImm9 w)) := by
  unfold decodeWord; rw [h]; rfl

theorem decodeWord_sile {w : InstrWord} (h : lowByte w = 0x6E#8) :
    decodeWord w = .ok (.sile (fieldR1 w) (fieldR2 w) (fieldR3 w) (fieldImm9 w)) := by
  unfold decodeWord; rw [h]; rfl

theorem decodeWord_seqi {w : InstrWord} (h : lowByte w = 0x8D#8) :
    decodeWord w = .ok (.seqi (fieldR1 w) (fieldR2 w) (fieldImm14 w)) := by
  unfold decodeWord; rw [h]; rfl

theorem decodeWord_sulti {w : InstrWord} (h : lowByte w = 0x0D#8) :
    decodeWord w = .ok (.sulti (fieldR1 w) (fieldR2 w) (fieldImm14 w)) := by
  unfold decodeWord; rw [h]; rfl

theorem decodeWord_silti {w : InstrWord} (h : lowByte w = 0x2D#8) :
    decodeWord w = .ok (.silti (fieldR1 w) (fieldR2 w) (fieldImm14 w)) := by
  unfold decodeWord; rw [h]; rfl

theorem decodeWord_sulei {w : InstrWord} (h : lowByte w = 0x4D#8) :
    decodeWord w = .ok (.sulei (fieldR1 w) (fieldR2 w) (fieldImm14 w)) := by
  unfold decodeWord; rw [h]; rfl

theorem decodeWord_silei {w : InstrWord} (h : lowByte w = 0x6D#8) :
    decodeWord w = .ok (.silei (fieldR1 w) (fieldR2 w) (fieldImm14 w)) := by
  unfold decodeWord; rw [h]; rfl

theorem decodeWord_bz {w : InstrWord} (h : lowByte w = 0xD0#8) :
    decodeWord w = .ok (.bz (fieldR1 w) (fieldImm19 w)) := by
  unfold decodeWord; rw [h]; rfl

theorem decodeWord_bn {w : InstrWord} (h : lowByte w = 0xF0#8) :
    decodeWord w = .ok (.bn (fieldR1 w) (fieldImm19 w)) := by
  unfold decodeWord; rw [h]; rfl

theorem decodeWord_jl {w : InstrWord} (h : lowByte w = 0xB1#8) :
    decodeWord w = .ok (.jl (fieldR1 w) (fieldR2 w) (fieldImm14 w)) := by
  unfold decodeWord; rw [h]; rfl

theorem decodeWord_jlr {w : InstrWord} (h : lowByte w = 0x91#8) :
    decodeWord w = .ok (.jlr (fieldR1 w) (fieldR2 w) (fieldImm14 w)) := by
  unfold decodeWord; rw [h]; rfl

theorem decodeWord_syscall {w : InstrWord} (h : lowByte w = 0x1C#8) : decodeWord w = .ok .syscall := by
  unfold decodeWord; rw [h]; rfl

theorem decodeWord_breakpt {w : InstrWord} (h : lowByte w = 0x3C#8) : decodeWord w = .ok .breakpt := by
  unfold decodeWord; rw [h]; rfl

theorem decodeWord_wait {w : InstrWord} (h : lowByte w = 0xFC#8) : decodeWord w = .ok .wait := by
  unfold decodeWord; rw [h]; rfl

theorem decodeWord_spin {w : InstrWord} (h : lowByte w = 0x5C#8) : decodeWord w = .ok .spin := by
  unfold decodeWord; rw [h]; rfl

theorem decodeWord_iret {w : InstrWord} (h : lowByte w = 0x9C#8) : decodeWord w = .ok .iret := by
  unfold decodeWord; rw [h]; rfl

theorem decodeWord_lctrl {w : InstrWord} (h : lowByte w = 0xBC#8) :
    decodeWord w = .ok (.lctrl (fieldR1 w) (fieldImm19 w)) := by
  unfold decodeWord; rw [h]; rfl

theorem decodeWord_sctrl {w : InstrWord} (h : lowByte w = 0xDC#8) :
    decodeWord w = .ok (.sctrl (fieldR1 w) (fieldImm19 w)) := by
  unfold decodeWord; rw [h]; rfl

end Sys2Proof
end

