-- ==== Sys2Proof/Laws/Memory.lean ====
section
/-!
SUPPORT. Memory as data: a read after a write, the canonical form, and the same for a cache's copies.
-/
namespace Sys2Proof.Machine

/-! ### A read after a write -/

theorem Memory.read_remove (m : Memory) (x y : Nat) :
    (m.remove x).read y = if y = x then 0 else m.read y := by
  induction m with
  | nil => simp [Memory.remove, Memory.read]
  | cons cell rest ih =>
    obtain ⟨a, b⟩ := cell
    by_cases h : a = x
    · subst h
      simp only [Memory.remove, if_true, ih, Memory.read]
      split <;> rfl
    · simp only [Memory.remove, if_neg h, Memory.read, ih]
      by_cases hy : y = a
      · subst hy; simp [h]
      · simp [hy]

theorem Memory.ne_of_mem_remove (m : Memory) (x : Nat) : ∀ cell ∈ m.remove x, cell.1 ≠ x := by
  induction m with
  | nil => simp [Memory.remove]
  | cons cell rest ih =>
    simp only [Memory.remove]
    split
    · exact ih
    · rename_i h
      intro c hc
      rcases List.mem_cons.1 hc with rfl | hc
      · exact h
      · exact ih c hc

theorem Memory.read_insert (m : Memory) (x y : Nat) (v : Byte) (h : ∀ cell ∈ m, cell.1 ≠ x) :
    (m.insert x v).read y = if y = x then v else m.read y := by
  induction m with
  | nil => simp [Memory.insert, Memory.read]
  | cons cell rest ih =>
    obtain ⟨a, b⟩ := cell
    have hax : a ≠ x := h (a, b) (by simp)
    simp only [Memory.insert]
    split
    · simp [Memory.read]
    · simp only [Memory.read, ih fun c hc => h c (by simp [hc])]
      by_cases hy : y = a
      · subst hy; simp [hax]
      · simp [hy]

/-- A read after a write gives the byte written there, and elsewhere what it gave before: for every list, canonical or not. -/
theorem Memory.read_write (m : Memory) (x y : Nat) (v : Byte) :
    (m.write x v).read y = if y = x then v else m.read y := by
  unfold Memory.write
  split
  · rename_i h; rw [Memory.read_remove, h]
  · rw [Memory.read_insert _ _ _ _ (Memory.ne_of_mem_remove m x), Memory.read_remove]
    split <;> rfl

/-! ### The canonical form -/

theorem Memory.wfFrom_mono {lo lo' : Nat} (h : lo' ≤ lo) : ∀ {m : Memory}, m.wfFrom lo = true → m.wfFrom lo' = true
  | [], _ => rfl
  | (a, b) :: rest, hw => by
    simp only [Memory.wfFrom, Bool.and_eq_true, decide_eq_true_eq] at hw ⊢
    exact ⟨⟨⟨by omega, hw.1.1.2⟩, hw.1.2⟩, hw.2⟩

theorem Memory.wfFrom_remove (m : Memory) (x lo : Nat) (h : m.wfFrom lo = true) : (m.remove x).wfFrom lo = true := by
  induction m generalizing lo with
  | nil => rfl
  | cons cell rest ih =>
    obtain ⟨a, b⟩ := cell
    simp only [Memory.wfFrom, Bool.and_eq_true, decide_eq_true_eq] at h
    simp only [Memory.remove]
    split
    · exact Memory.wfFrom_mono (by omega) (ih _ h.2)
    · simp only [Memory.wfFrom, Bool.and_eq_true, decide_eq_true_eq]
      exact ⟨h.1, ih _ h.2⟩

theorem Memory.wfFrom_insert (m : Memory) (x lo : Nat) (v : Byte) (hx : lo ≤ x) (hlt : x < 2 ^ 64) (hv : v ≠ 0)
    (hne : ∀ cell ∈ m, cell.1 ≠ x) (h : m.wfFrom lo = true) : (m.insert x v).wfFrom lo = true := by
  induction m generalizing lo with
  | nil => simp only [Memory.insert, Memory.wfFrom, Bool.and_eq_true, decide_eq_true_eq]; exact ⟨⟨⟨hx, hlt⟩, hv⟩, trivial⟩
  | cons cell rest ih =>
    obtain ⟨a, b⟩ := cell
    have hax : a ≠ x := hne (a, b) (by simp)
    simp only [Memory.wfFrom, Bool.and_eq_true, decide_eq_true_eq] at h
    simp only [Memory.insert]
    split
    · simp only [Memory.wfFrom, Bool.and_eq_true, decide_eq_true_eq]
      exact ⟨⟨⟨hx, hlt⟩, hv⟩, ⟨⟨by omega, h.1.1.2⟩, h.1.2⟩, h.2⟩
    · simp only [Memory.wfFrom, Bool.and_eq_true, decide_eq_true_eq]
      exact ⟨h.1, ih _ (by omega) (fun c hc => hne c (by simp [hc])) h.2⟩

/-- A write keeps the canonical form. -/
theorem Memory.wf_write (m : Memory) (x : Nat) (v : Byte) (hx : x < 2 ^ 64) (h : m.wf = true) :
    (m.write x v).wf = true := by
  unfold Memory.write Memory.wf
  split
  · exact Memory.wfFrom_remove m x 0 h
  · rename_i hv
    exact Memory.wfFrom_insert _ x 0 v (by omega) hx hv (Memory.ne_of_mem_remove m x) (Memory.wfFrom_remove m x 0 h)

/-- Writing several bytes keeps the canonical form. -/
theorem Memory.wf_writeBytes (m : Memory) (pa v : Word) (n : Nat) (h : m.wf = true) :
    (m.writeBytes pa v n).wf = true := by
  induction n with
  | zero => exact h
  | succ n ih => exact Memory.wf_write _ _ _ (BitVec.isLt _) ih

/-- A block taken from a canonical memory is canonical. -/
theorem Memory.wfFrom_filter (m : Memory) (p : Host.Cell → Bool) (lo : Nat) (h : m.wfFrom lo = true) :
    Memory.wfFrom lo (m.filter p) = true := by
  induction m generalizing lo with
  | nil => rfl
  | cons cell rest ih =>
    obtain ⟨a, b⟩ := cell
    simp only [Memory.wfFrom, Bool.and_eq_true, decide_eq_true_eq] at h
    simp only [List.filter_cons]
    split
    · simp only [Memory.wfFrom, Bool.and_eq_true, decide_eq_true_eq]
      exact ⟨h.1, ih _ h.2⟩
    · exact Memory.wfFrom_mono (by omega) (ih _ h.2)

/-- `blockOf` of a canonical memory is canonical. -/
theorem wf_blockOf (m : Memory) (number : Nat) (h : m.wf = true) : (blockOf m number).wf = true :=
  Memory.wfFrom_filter m _ 0 h

/-- A write at one address lists no address that was not listed, but for that one. -/
theorem Memory.mem_write (m : Memory) (x : Nat) (v : Byte) (cell : Host.Cell) (h : cell ∈ m.write x v) :
    cell.1 = x ∨ cell ∈ m := by
  have hr : ∀ (m : Memory), cell ∈ m.remove x → cell ∈ m := by
    intro m
    induction m with
    | nil => simp [Memory.remove]
    | cons c rest ih =>
      simp only [Memory.remove]
      split
      · intro hc; exact List.mem_cons_of_mem _ (ih hc)
      · intro hc
        rcases List.mem_cons.1 hc with rfl | hc
        · simp
        · exact List.mem_cons_of_mem _ (ih hc)
  have hi : ∀ (m : Memory), cell ∈ m.insert x v → cell.1 = x ∨ cell ∈ m := by
    intro m
    induction m with
    | nil => simp +contextual [Memory.insert]
    | cons c rest ih =>
      simp only [Memory.insert]
      split
      · intro hc
        rcases List.mem_cons.1 hc with rfl | hc
        · exact .inl rfl
        · exact .inr hc
      · intro hc
        rcases List.mem_cons.1 hc with rfl | hc
        · exact .inr (by simp)
        · exact (ih hc).imp id (List.mem_cons_of_mem _)
  unfold Memory.write at h
  split at h
  · exact .inr (hr m h)
  · exact (hi _ h).imp id (hr m)

/-! ### Several bytes -/

/-- Address `pa + n` is not among the first `n` bytes from `pa`. -/
theorem sub_add_ofNat (pa : Word) (n : Nat) (hn : n < 2 ^ 64) : (pa + BitVec.ofNat 64 n - pa).toNat = n := by
  rw [BitVec.add_comm, BitVec.add_sub_cancel, BitVec.toNat_ofNat, Nat.mod_eq_of_lt hn]

/-- An address is `pa + n` exactly when its distance from `pa` is `n`. -/
theorem eq_add_ofNat_iff (a pa : Word) (n : Nat) (hn : n < 2 ^ 64) :
    a = pa + BitVec.ofNat 64 n ↔ (a - pa).toNat = n := by
  constructor
  · rintro rfl; exact sub_add_ofNat pa n hn
  · intro h
    have : a - pa = BitVec.ofNat 64 n := by rw [← h, BitVec.ofNat_toNat, BitVec.setWidth_eq]
    rw [← this, BitVec.add_comm, BitVec.sub_add_cancel]

/-- A read after a write of several bytes: the byte of the value where the write went, and elsewhere what it was. -/
theorem Memory.read_writeBytes (m : Memory) (pa v a : Word) (n : Nat) (hn : n < 2 ^ 64) :
    (m.writeBytes pa v n).read a.toNat =
      if (a - pa).toNat < n then byteOf v (a - pa).toNat else m.read a.toNat := by
  induction n with
  | zero => simp [Memory.writeBytes]
  | succ n ih =>
    simp only [Memory.writeBytes, Memory.read_write, BitVec.toNat_inj, eq_add_ofNat_iff a pa n (by omega),
      ih (by omega)]
    generalize (a - pa).toNat = d
    by_cases h : d = n
    · simp [h]
    · have : d < n ↔ d < n + 1 := by omega
      simp [h, this]

/-- The stored byte of a store, as a read of memory sees it. -/
theorem Memory.read_store (m : Memory) (st : Store) (a : Word) :
    (m.writeBytes st.addr st.value (sizeBytes st.size)).read a.toNat =
      (st.byteAt a).getD (m.read a.toNat) := by
  rw [Memory.read_writeBytes _ _ _ _ _ (by cases st.size <;> decide)]
  unfold Store.byteAt
  split <;> rfl

/-! ### Caches -/

theorem cachedByte_nil (a : Word) : cachedByte [] a = none := rfl

theorem cachedByte_cons (blk : CacheBlock) (rest : List CacheBlock) (a : Word) :
    cachedByte (blk :: rest) a =
      if blk.number = a.toNat / 64 then some (blk.copy.read a.toNat) else cachedByte rest a := by
  unfold cachedByte
  by_cases h : blk.number = a.toNat / 64
  · simp [h]
  · have hf : (blk.number == a.toNat / 64) = false := by simp [h]
    simp only [List.find?_cons, hf, if_neg h]

theorem cachedByte_cachePut (c : List CacheBlock) (x a : Word) (b : Byte) :
    cachedByte (cachePut c x b) a =
      if a = x then (cachedByte c a).map fun _ => b else cachedByte c a := by
  induction c with
  | nil => simp [cachePut, cachedByte_nil]
  | cons blk rest ih =>
    simp only [cachePut, List.map_cons] at ih ⊢
    rw [cachedByte_cons, cachedByte_cons, ih]
    by_cases ha : a = x
    · subst ha
      by_cases hn : blk.number = a.toNat / 64
      · simp [hn, Memory.read_write]
      · simp [hn]
    · have hne : a.toNat ≠ x.toNat := fun h => ha (BitVec.eq_of_toNat_eq h)
      by_cases hx : blk.number = x.toNat / 64
      · simp only [hx, if_true, Memory.read_write, if_neg hne, if_neg ha]
      · simp [hx, ha]

theorem cachedByte_cachePutBytes (c : List CacheBlock) (pa v a : Word) (n : Nat) (hn : n < 2 ^ 64) :
    cachedByte (cachePutBytes c pa v n) a =
      if (a - pa).toNat < n then (cachedByte c a).map fun _ => byteOf v (a - pa).toNat else cachedByte c a := by
  induction n with
  | zero => simp [cachePutBytes]
  | succ n ih =>
    simp only [cachePutBytes, cachedByte_cachePut, eq_add_ofNat_iff a pa n (by omega), ih (by omega)]
    generalize (a - pa).toNat = d
    by_cases h : d = n
    · simp [h]
    · have : d < n ↔ d < n + 1 := by omega
      simp [h, this]

/-- The stored byte of a store, as a cached copy shows it. -/
theorem cachedByte_store (c : List CacheBlock) (st : Store) (a : Word) :
    cachedByte (cachePutBytes c st.addr st.value (sizeBytes st.size)) a =
      (cachedByte c a).map fun b => (st.byteAt a).getD b := by
  rw [cachedByte_cachePutBytes _ _ _ _ _ (by cases st.size <;> decide)]
  unfold Store.byteAt
  split
  · rfl
  · simp

/-- Discarding by block number hides exactly the blocks discarded. -/
theorem cachedByte_filter (c : List CacheBlock) (p : Nat → Bool) (a : Word) :
    cachedByte (c.filter fun blk => !p blk.number) a = if p (a.toNat / 64) then none else cachedByte c a := by
  induction c with
  | nil => simp [cachedByte]
  | cons blk rest ih =>
    rw [List.filter_cons, cachedByte_cons]
    by_cases hn : blk.number = a.toNat / 64
    · by_cases hp : p (a.toNat / 64) = true
      · simpa [hn, hp] using ih
      · simp [hn, hp, cachedByte_cons]
    · split
      · rw [cachedByte_cons, if_neg hn, ih]
      · rw [ih]

theorem cachedByte_cacheDrop (c : List CacheBlock) (number : Nat) (a : Word) :
    cachedByte (cacheDrop c number) a = if a.toNat / 64 = number then none else cachedByte c a := by
  have h := cachedByte_filter c (fun k => k == number) a
  simpa [cacheDrop, bne] using h

/-- A block filled from memory shows memory's bytes. -/
theorem read_blockOf (m : Memory) (number x : Nat) (h : x / 64 = number) : (blockOf m number).read x = m.read x := by
  subst h
  induction m with
  | nil => rfl
  | cons cell rest ih =>
    obtain ⟨a, b⟩ := cell
    simp only [blockOf, List.filter_cons] at ih ⊢
    by_cases hx : x = a
    · subst hx; simp [Memory.read]
    · split
      · simp only [Memory.read, if_neg hx]; exact ih
      · simp only [Memory.read, if_neg hx]; exact ih

end Sys2Proof.Machine
end

