-- ==== Sys2Proof/Laws/State.lean ====
section
/-!
SUPPORT. One lemma per field of the state and per update of it, so that no proof unfolds a record update. Fields that an
update leaves alone come first in each group.
-/
namespace Sys2Proof.Machine

/-! ### `State.setPc` -/

@[simp] theorem State.setPc_gpr (s : State) (v : Word) : (s.setPc v).gpr = s.gpr := rfl
@[simp] theorem State.setPc_pc (s : State) (v : Word) : (s.setPc v).pc = v := rfl
@[simp] theorem State.setPc_ctrl (s : State) (v : Word) : (s.setPc v).ctrl = s.ctrl := rfl
@[simp] theorem State.setPc_lock (s : State) (v : Word) : (s.setPc v).lock = s.lock := rfl
@[simp] theorem State.setPc_paused (s : State) (v : Word) : (s.setPc v).paused = s.paused := rfl
@[simp] theorem State.setPc_mem (s : State) (v : Word) : (s.setPc v).mem = s.mem := rfl
@[simp] theorem State.setPc_pending (s : State) (v : Word) : (s.setPc v).pending = s.pending := rfl
@[simp] theorem State.setPc_dcache (s : State) (v : Word) : (s.setPc v).dcache = s.dcache := rfl
@[simp] theorem State.setPc_icache (s : State) (v : Word) : (s.setPc v).icache = s.icache := rfl
@[simp] theorem State.setPc_tcacheK (s : State) (v : Word) : (s.setPc v).tcacheK = s.tcacheK := rfl
@[simp] theorem State.setPc_tcacheU (s : State) (v : Word) : (s.setPc v).tcacheU = s.tcacheU := rfl
@[simp] theorem State.setPc_platform (s : State) (v : Word) : (s.setPc v).platform = s.platform := rfl
@[simp] theorem State.setPc_delay (s : State) (v : Word) : (s.setPc v).delay = s.delay := rfl
@[simp] theorem State.setPc_env (s : State) (v : Word) : (s.setPc v).env = s.env := rfl

/-! ### `State.setCtrl` -/

@[simp] theorem State.setCtrl_gpr (s : State) (n : CtrlReg) (v : Word) : (s.setCtrl n v).gpr = s.gpr := rfl
@[simp] theorem State.setCtrl_pc (s : State) (n : CtrlReg) (v : Word) : (s.setCtrl n v).pc = s.pc := rfl
@[simp] theorem State.setCtrl_ctrl (s : State) (n : CtrlReg) (v : Word) :
    (s.setCtrl n v).ctrl = s.ctrl.set n (v &&& ctrlMask n) := rfl
@[simp] theorem State.setCtrl_lock (s : State) (n : CtrlReg) (v : Word) : (s.setCtrl n v).lock = s.lock := rfl
@[simp] theorem State.setCtrl_paused (s : State) (n : CtrlReg) (v : Word) : (s.setCtrl n v).paused = s.paused := rfl
@[simp] theorem State.setCtrl_mem (s : State) (n : CtrlReg) (v : Word) : (s.setCtrl n v).mem = s.mem := rfl
@[simp] theorem State.setCtrl_pending (s : State) (n : CtrlReg) (v : Word) : (s.setCtrl n v).pending = s.pending := rfl
@[simp] theorem State.setCtrl_dcache (s : State) (n : CtrlReg) (v : Word) : (s.setCtrl n v).dcache = s.dcache := rfl
@[simp] theorem State.setCtrl_icache (s : State) (n : CtrlReg) (v : Word) : (s.setCtrl n v).icache = s.icache := rfl
@[simp] theorem State.setCtrl_tcacheK (s : State) (n : CtrlReg) (v : Word) : (s.setCtrl n v).tcacheK = s.tcacheK := rfl
@[simp] theorem State.setCtrl_tcacheU (s : State) (n : CtrlReg) (v : Word) : (s.setCtrl n v).tcacheU = s.tcacheU := rfl
@[simp] theorem State.setCtrl_platform (s : State) (n : CtrlReg) (v : Word) :
    (s.setCtrl n v).platform = s.platform := rfl
@[simp] theorem State.setCtrl_delay (s : State) (n : CtrlReg) (v : Word) : (s.setCtrl n v).delay = s.delay := rfl
@[simp] theorem State.setCtrl_env (s : State) (n : CtrlReg) (v : Word) : (s.setCtrl n v).env = s.env := rfl

/-! ### `State.unlock` -/

@[simp] theorem State.unlock_gpr (s : State) : (s.unlock).gpr = s.gpr := rfl
@[simp] theorem State.unlock_pc (s : State) : (s.unlock).pc = s.pc := rfl
@[simp] theorem State.unlock_ctrl (s : State) : (s.unlock).ctrl = s.ctrl := rfl
@[simp] theorem State.unlock_lock (s : State) : (s.unlock).lock = { s.lock with locked := false } := rfl
@[simp] theorem State.unlock_paused (s : State) : (s.unlock).paused = s.paused := rfl
@[simp] theorem State.unlock_mem (s : State) : (s.unlock).mem = s.mem := rfl
@[simp] theorem State.unlock_pending (s : State) : (s.unlock).pending = s.pending := rfl
@[simp] theorem State.unlock_dcache (s : State) : (s.unlock).dcache = s.dcache := rfl
@[simp] theorem State.unlock_icache (s : State) : (s.unlock).icache = s.icache := rfl
@[simp] theorem State.unlock_tcacheK (s : State) : (s.unlock).tcacheK = s.tcacheK := rfl
@[simp] theorem State.unlock_tcacheU (s : State) : (s.unlock).tcacheU = s.tcacheU := rfl
@[simp] theorem State.unlock_platform (s : State) : (s.unlock).platform = s.platform := rfl
@[simp] theorem State.unlock_delay (s : State) : (s.unlock).delay = s.delay := rfl
@[simp] theorem State.unlock_env (s : State) : (s.unlock).env = s.env := rfl

/-! ### `State.lockOn` -/

@[simp] theorem State.lockOn_gpr (s : State) (addr : Word) (sz : AccessSize) (pa : Word) :
    (s.lockOn addr sz pa).gpr = s.gpr := rfl
@[simp] theorem State.lockOn_pc (s : State) (addr : Word) (sz : AccessSize) (pa : Word) :
    (s.lockOn addr sz pa).pc = s.pc := rfl
@[simp] theorem State.lockOn_ctrl (s : State) (addr : Word) (sz : AccessSize) (pa : Word) :
    (s.lockOn addr sz pa).ctrl = s.ctrl := rfl
@[simp] theorem State.lockOn_lock (s : State) (addr : Word) (sz : AccessSize) (pa : Word) :
    (s.lockOn addr sz pa).lock = { locked := true, width := sz, address := addr, paddr := pa } := rfl
@[simp] theorem State.lockOn_paused (s : State) (addr : Word) (sz : AccessSize) (pa : Word) :
    (s.lockOn addr sz pa).paused = s.paused := rfl
@[simp] theorem State.lockOn_mem (s : State) (addr : Word) (sz : AccessSize) (pa : Word) :
    (s.lockOn addr sz pa).mem = s.mem := rfl
@[simp] theorem State.lockOn_pending (s : State) (addr : Word) (sz : AccessSize) (pa : Word) :
    (s.lockOn addr sz pa).pending = s.pending.map Pending.plain := rfl
@[simp] theorem State.lockOn_dcache (s : State) (addr : Word) (sz : AccessSize) (pa : Word) :
    (s.lockOn addr sz pa).dcache = s.dcache := rfl
@[simp] theorem State.lockOn_icache (s : State) (addr : Word) (sz : AccessSize) (pa : Word) :
    (s.lockOn addr sz pa).icache = s.icache := rfl
@[simp] theorem State.lockOn_tcacheK (s : State) (addr : Word) (sz : AccessSize) (pa : Word) :
    (s.lockOn addr sz pa).tcacheK = s.tcacheK := rfl
@[simp] theorem State.lockOn_tcacheU (s : State) (addr : Word) (sz : AccessSize) (pa : Word) :
    (s.lockOn addr sz pa).tcacheU = s.tcacheU := rfl
@[simp] theorem State.lockOn_platform (s : State) (addr : Word) (sz : AccessSize) (pa : Word) :
    (s.lockOn addr sz pa).platform = s.platform := rfl
@[simp] theorem State.lockOn_delay (s : State) (addr : Word) (sz : AccessSize) (pa : Word) :
    (s.lockOn addr sz pa).delay = s.delay := rfl
@[simp] theorem State.lockOn_env (s : State) (addr : Word) (sz : AccessSize) (pa : Word) :
    (s.lockOn addr sz pa).env = s.env := rfl

/-! ### `State.takeEffect` -/

@[simp] theorem State.takeEffect_gpr (s : State) (st : Store) : (s.takeEffect st).gpr = s.gpr := rfl
@[simp] theorem State.takeEffect_pc (s : State) (st : Store) : (s.takeEffect st).pc = s.pc := rfl
@[simp] theorem State.takeEffect_ctrl (s : State) (st : Store) : (s.takeEffect st).ctrl = s.ctrl := rfl
@[simp] theorem State.takeEffect_lock (s : State) (st : Store) : (s.takeEffect st).lock = s.lockAfter st := rfl
@[simp] theorem State.takeEffect_paused (s : State) (st : Store) : (s.takeEffect st).paused = s.paused := rfl
@[simp] theorem State.takeEffect_mem (s : State) (st : Store) :
    (s.takeEffect st).mem = s.mem.writeBytes st.addr st.value (sizeBytes st.size) := rfl
@[simp] theorem State.takeEffect_pending (s : State) (st : Store) : (s.takeEffect st).pending = s.pending := rfl
@[simp] theorem State.takeEffect_dcache (s : State) (st : Store) :
    (s.takeEffect st).dcache = cachePutBytes s.dcache st.addr st.value (sizeBytes st.size) := rfl
@[simp] theorem State.takeEffect_icache (s : State) (st : Store) : (s.takeEffect st).icache = s.icache := rfl
@[simp] theorem State.takeEffect_tcacheK (s : State) (st : Store) : (s.takeEffect st).tcacheK = s.tcacheK := rfl
@[simp] theorem State.takeEffect_tcacheU (s : State) (st : Store) : (s.takeEffect st).tcacheU = s.tcacheU := rfl
@[simp] theorem State.takeEffect_platform (s : State) (st : Store) : (s.takeEffect st).platform = s.platform := rfl
@[simp] theorem State.takeEffect_delay (s : State) (st : Store) : (s.takeEffect st).delay = s.delay := rfl
@[simp] theorem State.takeEffect_env (s : State) (st : Store) : (s.takeEffect st).env = s.env := rfl

/-! ### `State.setReg` -/

@[simp] theorem State.setReg_pc (s : State) (r : Reg) (v : Word) : (s.setReg r v).pc = s.pc := by
  unfold State.setReg; split
  · rfl
  · split <;> rfl
@[simp] theorem State.setReg_ctrl (s : State) (r : Reg) (v : Word) : (s.setReg r v).ctrl = s.ctrl := by
  unfold State.setReg; split
  · rfl
  · split <;> rfl
@[simp] theorem State.setReg_lock (s : State) (r : Reg) (v : Word) : (s.setReg r v).lock = s.lock := by
  unfold State.setReg; split
  · rfl
  · split <;> rfl
@[simp] theorem State.setReg_paused (s : State) (r : Reg) (v : Word) : (s.setReg r v).paused = s.paused := by
  unfold State.setReg; split
  · rfl
  · split <;> rfl
@[simp] theorem State.setReg_mem (s : State) (r : Reg) (v : Word) : (s.setReg r v).mem = s.mem := by
  unfold State.setReg; split
  · rfl
  · split <;> rfl
@[simp] theorem State.setReg_pending (s : State) (r : Reg) (v : Word) : (s.setReg r v).pending = s.pending := by
  unfold State.setReg; split
  · rfl
  · split <;> rfl
@[simp] theorem State.setReg_dcache (s : State) (r : Reg) (v : Word) : (s.setReg r v).dcache = s.dcache := by
  unfold State.setReg; split
  · rfl
  · split <;> rfl
@[simp] theorem State.setReg_icache (s : State) (r : Reg) (v : Word) : (s.setReg r v).icache = s.icache := by
  unfold State.setReg; split
  · rfl
  · split <;> rfl
@[simp] theorem State.setReg_tcacheK (s : State) (r : Reg) (v : Word) : (s.setReg r v).tcacheK = s.tcacheK := by
  unfold State.setReg; split
  · rfl
  · split <;> rfl
@[simp] theorem State.setReg_tcacheU (s : State) (r : Reg) (v : Word) : (s.setReg r v).tcacheU = s.tcacheU := by
  unfold State.setReg; split
  · rfl
  · split <;> rfl
@[simp] theorem State.setReg_platform (s : State) (r : Reg) (v : Word) : (s.setReg r v).platform = s.platform := by
  unfold State.setReg; split
  · rfl
  · split <;> rfl
@[simp] theorem State.setReg_delay (s : State) (r : Reg) (v : Word) : (s.setReg r v).delay = s.delay := by
  unfold State.setReg; split
  · rfl
  · split <;> rfl
@[simp] theorem State.setReg_env (s : State) (r : Reg) (v : Word) : (s.setReg r v).env = s.env := by
  unfold State.setReg; split
  · rfl
  · split <;> rfl

/-! ### `State.returnFromInterrupt` -/

@[simp] theorem State.returnFromInterrupt_gpr (s : State) : (s.returnFromInterrupt).gpr = s.gpr := rfl
@[simp] theorem State.returnFromInterrupt_pc (s : State) : (s.returnFromInterrupt).pc = s.getCtrl ctrlIntip := rfl
@[simp] theorem State.returnFromInterrupt_ctrl (s : State) :
    (s.returnFromInterrupt).ctrl = s.ctrl.set ctrlStat (s.getCtrl ctrlIntstat &&& ctrlMask ctrlStat) := rfl
@[simp] theorem State.returnFromInterrupt_lock (s : State) :
    (s.returnFromInterrupt).lock = { s.lock with locked := false } := rfl
@[simp] theorem State.returnFromInterrupt_paused (s : State) : (s.returnFromInterrupt).paused = s.paused := rfl
@[simp] theorem State.returnFromInterrupt_mem (s : State) : (s.returnFromInterrupt).mem = s.mem := rfl
@[simp] theorem State.returnFromInterrupt_pending (s : State) : (s.returnFromInterrupt).pending = s.pending := rfl
@[simp] theorem State.returnFromInterrupt_dcache (s : State) : (s.returnFromInterrupt).dcache = s.dcache := rfl
@[simp] theorem State.returnFromInterrupt_icache (s : State) : (s.returnFromInterrupt).icache = s.icache := rfl
@[simp] theorem State.returnFromInterrupt_tcacheK (s : State) : (s.returnFromInterrupt).tcacheK = s.tcacheK := rfl
@[simp] theorem State.returnFromInterrupt_tcacheU (s : State) : (s.returnFromInterrupt).tcacheU = s.tcacheU := rfl
@[simp] theorem State.returnFromInterrupt_platform (s : State) : (s.returnFromInterrupt).platform = s.platform := rfl
@[simp] theorem State.returnFromInterrupt_delay (s : State) : (s.returnFromInterrupt).delay = s.delay := rfl
@[simp] theorem State.returnFromInterrupt_env (s : State) : (s.returnFromInterrupt).env = s.env := rfl

/-! ### `State.dropTranslations` -/

@[simp] theorem State.dropTranslations_gpr (s : State) (n : CtrlReg) : (s.dropTranslations n).gpr = s.gpr := rfl
@[simp] theorem State.dropTranslations_pc (s : State) (n : CtrlReg) : (s.dropTranslations n).pc = s.pc := rfl
@[simp] theorem State.dropTranslations_ctrl (s : State) (n : CtrlReg) : (s.dropTranslations n).ctrl = s.ctrl := rfl
@[simp] theorem State.dropTranslations_lock (s : State) (n : CtrlReg) : (s.dropTranslations n).lock = s.lock := rfl
@[simp] theorem State.dropTranslations_paused (s : State) (n : CtrlReg) :
    (s.dropTranslations n).paused = s.paused := rfl
@[simp] theorem State.dropTranslations_mem (s : State) (n : CtrlReg) : (s.dropTranslations n).mem = s.mem := rfl
@[simp] theorem State.dropTranslations_pending (s : State) (n : CtrlReg) :
    (s.dropTranslations n).pending = s.pending := rfl
@[simp] theorem State.dropTranslations_dcache (s : State) (n : CtrlReg) :
    (s.dropTranslations n).dcache = s.dcache := rfl
@[simp] theorem State.dropTranslations_icache (s : State) (n : CtrlReg) :
    (s.dropTranslations n).icache = s.icache := rfl
@[simp] theorem State.dropTranslations_tcacheK (s : State) (n : CtrlReg) :
    (s.dropTranslations n).tcacheK = (if n = ctrlKptp then [] else s.tcacheK) := rfl
@[simp] theorem State.dropTranslations_tcacheU (s : State) (n : CtrlReg) :
    (s.dropTranslations n).tcacheU = (if n = ctrlUptp then [] else s.tcacheU) := rfl
@[simp] theorem State.dropTranslations_platform (s : State) (n : CtrlReg) :
    (s.dropTranslations n).platform = s.platform := rfl
@[simp] theorem State.dropTranslations_delay (s : State) (n : CtrlReg) : (s.dropTranslations n).delay = s.delay := rfl
@[simp] theorem State.dropTranslations_env (s : State) (n : CtrlReg) : (s.dropTranslations n).env = s.env := rfl

/-! ### `State.discard` -/

@[simp] theorem State.discard_gpr (s : State) (d i : Bool) (p : Nat → Bool) : (s.discard d i p).gpr = s.gpr := rfl
@[simp] theorem State.discard_pc (s : State) (d i : Bool) (p : Nat → Bool) : (s.discard d i p).pc = s.pc := rfl
@[simp] theorem State.discard_ctrl (s : State) (d i : Bool) (p : Nat → Bool) : (s.discard d i p).ctrl = s.ctrl := rfl
@[simp] theorem State.discard_lock (s : State) (d i : Bool) (p : Nat → Bool) : (s.discard d i p).lock = s.lock := rfl
@[simp] theorem State.discard_paused (s : State) (d i : Bool) (p : Nat → Bool) :
    (s.discard d i p).paused = s.paused := rfl
@[simp] theorem State.discard_mem (s : State) (d i : Bool) (p : Nat → Bool) : (s.discard d i p).mem = s.mem := rfl
@[simp] theorem State.discard_pending (s : State) (d i : Bool) (p : Nat → Bool) :
    (s.discard d i p).pending = s.pending := rfl
@[simp] theorem State.discard_dcache (s : State) (d i : Bool) (p : Nat → Bool) :
    (s.discard d i p).dcache = (if d then s.dcache.filter (fun blk => !p blk.number) else s.dcache) := rfl
@[simp] theorem State.discard_icache (s : State) (d i : Bool) (p : Nat → Bool) :
    (s.discard d i p).icache = (if i then s.icache.filter (fun blk => !p blk.number) else s.icache) := rfl
@[simp] theorem State.discard_tcacheK (s : State) (d i : Bool) (p : Nat → Bool) :
    (s.discard d i p).tcacheK = s.tcacheK := rfl
@[simp] theorem State.discard_tcacheU (s : State) (d i : Bool) (p : Nat → Bool) :
    (s.discard d i p).tcacheU = s.tcacheU := rfl
@[simp] theorem State.discard_platform (s : State) (d i : Bool) (p : Nat → Bool) :
    (s.discard d i p).platform = s.platform := rfl
@[simp] theorem State.discard_delay (s : State) (d i : Bool) (p : Nat → Bool) : (s.discard d i p).delay = s.delay := rfl
@[simp] theorem State.discard_env (s : State) (d i : Bool) (p : Nat → Bool) : (s.discard d i p).env = s.env := rfl

/-! ### Accesses that take effect: the fields they leave alone -/

@[simp] theorem State.performed_gpr (s : State) (p : Pending) : (s.performed p).gpr = s.gpr := by
  unfold State.performed; split <;> rfl
@[simp] theorem State.performed_pc (s : State) (p : Pending) : (s.performed p).pc = s.pc := by
  unfold State.performed; split <;> rfl
@[simp] theorem State.performed_ctrl (s : State) (p : Pending) : (s.performed p).ctrl = s.ctrl := by
  unfold State.performed; split <;> rfl
@[simp] theorem State.performed_paused (s : State) (p : Pending) : (s.performed p).paused = s.paused := by
  unfold State.performed; split <;> rfl
@[simp] theorem State.performed_icache (s : State) (p : Pending) : (s.performed p).icache = s.icache := by
  unfold State.performed; split <;> rfl
@[simp] theorem State.performed_tcacheK (s : State) (p : Pending) : (s.performed p).tcacheK = s.tcacheK := by
  unfold State.performed; split <;> rfl
@[simp] theorem State.performed_tcacheU (s : State) (p : Pending) : (s.performed p).tcacheU = s.tcacheU := by
  unfold State.performed; split <;> rfl
@[simp] theorem State.performed_platform (s : State) (p : Pending) : (s.performed p).platform = s.platform := by
  unfold State.performed; split <;> rfl
@[simp] theorem State.performed_delay (s : State) (p : Pending) : (s.performed p).delay = s.delay := by
  unfold State.performed; split <;> rfl
@[simp] theorem State.performed_env (s : State) (p : Pending) : (s.performed p).env = s.env := by
  unfold State.performed; split <;> rfl
@[simp] theorem State.performed_pending (s : State) (p : Pending) : (s.performed p).pending = s.pending := by
  unfold State.performed; split <;> rfl

@[simp] theorem State.performDue_gpr (due : Pending → Bool) (l kept : List Pending) (s : State) :
    (State.performDue due kept l s).gpr = s.gpr := by
  induction l generalizing kept s with
  | nil => rfl
  | cons p rest ih => unfold State.performDue; split <;> simp [ih]
@[simp] theorem State.performDue_pc (due : Pending → Bool) (l kept : List Pending) (s : State) :
    (State.performDue due kept l s).pc = s.pc := by
  induction l generalizing kept s with
  | nil => rfl
  | cons p rest ih => unfold State.performDue; split <;> simp [ih]
@[simp] theorem State.performDue_ctrl (due : Pending → Bool) (l kept : List Pending) (s : State) :
    (State.performDue due kept l s).ctrl = s.ctrl := by
  induction l generalizing kept s with
  | nil => rfl
  | cons p rest ih => unfold State.performDue; split <;> simp [ih]
@[simp] theorem State.performDue_paused (due : Pending → Bool) (l kept : List Pending) (s : State) :
    (State.performDue due kept l s).paused = s.paused := by
  induction l generalizing kept s with
  | nil => rfl
  | cons p rest ih => unfold State.performDue; split <;> simp [ih]
@[simp] theorem State.performDue_icache (due : Pending → Bool) (l kept : List Pending) (s : State) :
    (State.performDue due kept l s).icache = s.icache := by
  induction l generalizing kept s with
  | nil => rfl
  | cons p rest ih => unfold State.performDue; split <;> simp [ih]
@[simp] theorem State.performDue_tcacheK (due : Pending → Bool) (l kept : List Pending) (s : State) :
    (State.performDue due kept l s).tcacheK = s.tcacheK := by
  induction l generalizing kept s with
  | nil => rfl
  | cons p rest ih => unfold State.performDue; split <;> simp [ih]
@[simp] theorem State.performDue_tcacheU (due : Pending → Bool) (l kept : List Pending) (s : State) :
    (State.performDue due kept l s).tcacheU = s.tcacheU := by
  induction l generalizing kept s with
  | nil => rfl
  | cons p rest ih => unfold State.performDue; split <;> simp [ih]
@[simp] theorem State.performDue_platform (due : Pending → Bool) (l kept : List Pending) (s : State) :
    (State.performDue due kept l s).platform = s.platform := by
  induction l generalizing kept s with
  | nil => rfl
  | cons p rest ih => unfold State.performDue; split <;> simp [ih]
@[simp] theorem State.performDue_delay (due : Pending → Bool) (l kept : List Pending) (s : State) :
    (State.performDue due kept l s).delay = s.delay := by
  induction l generalizing kept s with
  | nil => rfl
  | cons p rest ih => unfold State.performDue; split <;> simp [ih]
@[simp] theorem State.performDue_env (due : Pending → Bool) (l kept : List Pending) (s : State) :
    (State.performDue due kept l s).env = s.env := by
  induction l generalizing kept s with
  | nil => rfl
  | cons p rest ih => unfold State.performDue; split <;> simp [ih]

@[simp] theorem State.comeDue_gpr (s : State) : s.comeDue.gpr = s.gpr := by simp [State.comeDue]
@[simp] theorem State.comeDue_pc (s : State) : s.comeDue.pc = s.pc := by simp [State.comeDue]
@[simp] theorem State.comeDue_ctrl (s : State) : s.comeDue.ctrl = s.ctrl := by simp [State.comeDue]
@[simp] theorem State.comeDue_paused (s : State) : s.comeDue.paused = s.paused := by simp [State.comeDue]
@[simp] theorem State.comeDue_icache (s : State) : s.comeDue.icache = s.icache := by simp [State.comeDue]
@[simp] theorem State.comeDue_tcacheK (s : State) : s.comeDue.tcacheK = s.tcacheK := by simp [State.comeDue]
@[simp] theorem State.comeDue_tcacheU (s : State) : s.comeDue.tcacheU = s.tcacheU := by simp [State.comeDue]
@[simp] theorem State.comeDue_platform (s : State) : s.comeDue.platform = s.platform := by simp [State.comeDue]
@[simp] theorem State.comeDue_delay (s : State) : s.comeDue.delay = s.delay := by simp [State.comeDue]
@[simp] theorem State.comeDue_env (s : State) : s.comeDue.env = s.env := by simp [State.comeDue]

@[simp] theorem State.performAll_gpr (s : State) : s.performAll.gpr = s.gpr := by simp [State.performAll]
@[simp] theorem State.performAll_pc (s : State) : s.performAll.pc = s.pc := by simp [State.performAll]
@[simp] theorem State.performAll_ctrl (s : State) : s.performAll.ctrl = s.ctrl := by simp [State.performAll]
@[simp] theorem State.performAll_paused (s : State) : s.performAll.paused = s.paused := by simp [State.performAll]
@[simp] theorem State.performAll_icache (s : State) : s.performAll.icache = s.icache := by simp [State.performAll]
@[simp] theorem State.performAll_tcacheK (s : State) : s.performAll.tcacheK = s.tcacheK := by simp [State.performAll]
@[simp] theorem State.performAll_tcacheU (s : State) : s.performAll.tcacheU = s.tcacheU := by simp [State.performAll]
@[simp] theorem State.performAll_platform (s : State) : s.performAll.platform = s.platform := by simp [State.performAll]
@[simp] theorem State.performAll_delay (s : State) : s.performAll.delay = s.delay := by simp [State.performAll]
@[simp] theorem State.performAll_env (s : State) : s.performAll.env = s.env := by simp [State.performAll]

@[simp] theorem State.issueAfter_gpr (s : State) (n : Nat) (pa : Word) (sz : AccessSize) (eff : AccessEffect) :
    (s.issueAfter n pa sz eff).gpr = s.gpr := by unfold State.issueAfter; split <;> simp
@[simp] theorem State.issue_gpr (s : State) (pa : Word) (sz : AccessSize) (eff : AccessEffect) :
    (s.issue pa sz eff).gpr = s.gpr := by simp [State.issue]
@[simp] theorem State.issueAfter_pc (s : State) (n : Nat) (pa : Word) (sz : AccessSize) (eff : AccessEffect) :
    (s.issueAfter n pa sz eff).pc = s.pc := by unfold State.issueAfter; split <;> simp
@[simp] theorem State.issue_pc (s : State) (pa : Word) (sz : AccessSize) (eff : AccessEffect) :
    (s.issue pa sz eff).pc = s.pc := by simp [State.issue]
@[simp] theorem State.issueAfter_ctrl (s : State) (n : Nat) (pa : Word) (sz : AccessSize) (eff : AccessEffect) :
    (s.issueAfter n pa sz eff).ctrl = s.ctrl := by unfold State.issueAfter; split <;> simp
@[simp] theorem State.issue_ctrl (s : State) (pa : Word) (sz : AccessSize) (eff : AccessEffect) :
    (s.issue pa sz eff).ctrl = s.ctrl := by simp [State.issue]
@[simp] theorem State.issueAfter_paused (s : State) (n : Nat) (pa : Word) (sz : AccessSize) (eff : AccessEffect) :
    (s.issueAfter n pa sz eff).paused = s.paused := by unfold State.issueAfter; split <;> simp
@[simp] theorem State.issue_paused (s : State) (pa : Word) (sz : AccessSize) (eff : AccessEffect) :
    (s.issue pa sz eff).paused = s.paused := by simp [State.issue]
@[simp] theorem State.issueAfter_icache (s : State) (n : Nat) (pa : Word) (sz : AccessSize) (eff : AccessEffect) :
    (s.issueAfter n pa sz eff).icache = s.icache := by unfold State.issueAfter; split <;> simp
@[simp] theorem State.issue_icache (s : State) (pa : Word) (sz : AccessSize) (eff : AccessEffect) :
    (s.issue pa sz eff).icache = s.icache := by simp [State.issue]
@[simp] theorem State.issueAfter_tcacheK (s : State) (n : Nat) (pa : Word) (sz : AccessSize) (eff : AccessEffect) :
    (s.issueAfter n pa sz eff).tcacheK = s.tcacheK := by unfold State.issueAfter; split <;> simp
@[simp] theorem State.issue_tcacheK (s : State) (pa : Word) (sz : AccessSize) (eff : AccessEffect) :
    (s.issue pa sz eff).tcacheK = s.tcacheK := by simp [State.issue]
@[simp] theorem State.issueAfter_tcacheU (s : State) (n : Nat) (pa : Word) (sz : AccessSize) (eff : AccessEffect) :
    (s.issueAfter n pa sz eff).tcacheU = s.tcacheU := by unfold State.issueAfter; split <;> simp
@[simp] theorem State.issue_tcacheU (s : State) (pa : Word) (sz : AccessSize) (eff : AccessEffect) :
    (s.issue pa sz eff).tcacheU = s.tcacheU := by simp [State.issue]
@[simp] theorem State.issueAfter_platform (s : State) (n : Nat) (pa : Word) (sz : AccessSize) (eff : AccessEffect) :
    (s.issueAfter n pa sz eff).platform = s.platform := by unfold State.issueAfter; split <;> simp
@[simp] theorem State.issue_platform (s : State) (pa : Word) (sz : AccessSize) (eff : AccessEffect) :
    (s.issue pa sz eff).platform = s.platform := by simp [State.issue]
@[simp] theorem State.issueAfter_delay (s : State) (n : Nat) (pa : Word) (sz : AccessSize) (eff : AccessEffect) :
    (s.issueAfter n pa sz eff).delay = s.delay := by unfold State.issueAfter; split <;> simp
@[simp] theorem State.issue_delay (s : State) (pa : Word) (sz : AccessSize) (eff : AccessEffect) :
    (s.issue pa sz eff).delay = s.delay := by simp [State.issue]
@[simp] theorem State.issueAfter_env (s : State) (n : Nat) (pa : Word) (sz : AccessSize) (eff : AccessEffect) :
    (s.issueAfter n pa sz eff).env = s.env := by unfold State.issueAfter; split <;> simp
@[simp] theorem State.issue_env (s : State) (pa : Word) (sz : AccessSize) (eff : AccessEffect) :
    (s.issue pa sz eff).env = s.env := by simp [State.issue]

/-! ### Events and waiting: the fields they leave alone -/

@[simp] theorem State.afterEvent_gpr (s : State) (e : EnvEvent) : (s.afterEvent e).gpr = s.gpr := by
  cases e <;> simp only [State.afterEvent, State.takeEffect_gpr] <;> repeat' split
  all_goals rfl
@[simp] theorem State.afterEvent_pc (s : State) (e : EnvEvent) : (s.afterEvent e).pc = s.pc := by
  cases e <;> simp only [State.afterEvent, State.takeEffect_pc] <;> repeat' split
  all_goals rfl
@[simp] theorem State.afterEvent_ctrl (s : State) (e : EnvEvent) : (s.afterEvent e).ctrl = s.ctrl := by
  cases e <;> simp only [State.afterEvent, State.takeEffect_ctrl] <;> repeat' split
  all_goals rfl
@[simp] theorem State.afterEvent_paused (s : State) (e : EnvEvent) : (s.afterEvent e).paused = s.paused := by
  cases e <;> simp only [State.afterEvent, State.takeEffect_paused] <;> repeat' split
  all_goals rfl
@[simp] theorem State.afterEvent_platform (s : State) (e : EnvEvent) : (s.afterEvent e).platform = s.platform := by
  cases e <;> simp only [State.afterEvent, State.takeEffect_platform] <;> repeat' split
  all_goals rfl
@[simp] theorem State.afterEvent_delay (s : State) (e : EnvEvent) : (s.afterEvent e).delay = s.delay := by
  cases e <;> simp only [State.afterEvent, State.takeEffect_delay] <;> repeat' split
  all_goals rfl
@[simp] theorem State.afterEvent_env (s : State) (e : EnvEvent) : (s.afterEvent e).env = s.env := by
  cases e <;> simp only [State.afterEvent, State.takeEffect_env] <;> repeat' split
  all_goals rfl
@[simp] theorem State.afterEvent_pending (s : State) (e : EnvEvent) : (s.afterEvent e).pending = s.pending := by
  cases e <;> simp only [State.afterEvent, State.takeEffect_pending] <;> repeat' split
  all_goals rfl

@[simp] theorem State.tick_gpr (s : State) (e : EnvEvent) : (s.tick e).gpr = s.gpr := by simp [State.tick]
@[simp] theorem State.tick_pc (s : State) (e : EnvEvent) : (s.tick e).pc = s.pc := by simp [State.tick]
@[simp] theorem State.tick_ctrl (s : State) (e : EnvEvent) : (s.tick e).ctrl = s.ctrl := by simp [State.tick]
@[simp] theorem State.tick_paused (s : State) (e : EnvEvent) : (s.tick e).paused = s.paused := by simp [State.tick]
@[simp] theorem State.tick_platform (s : State) (e : EnvEvent) : (s.tick e).platform = s.platform := by simp [State.tick]
@[simp] theorem State.tick_delay (s : State) (e : EnvEvent) : (s.tick e).delay = s.delay := by simp [State.tick]
@[simp] theorem State.tick_env (s : State) (e : EnvEvent) : (s.tick e).env = s.env := by simp [State.tick]

@[simp] theorem State.ticks_gpr (l : List EnvEvent) (s : State) : (s.ticks l).gpr = s.gpr := by
  induction l generalizing s with
  | nil => rfl
  | cons e rest ih => simp [State.ticks, ih]
@[simp] theorem State.ticks_pc (l : List EnvEvent) (s : State) : (s.ticks l).pc = s.pc := by
  induction l generalizing s with
  | nil => rfl
  | cons e rest ih => simp [State.ticks, ih]
@[simp] theorem State.ticks_ctrl (l : List EnvEvent) (s : State) : (s.ticks l).ctrl = s.ctrl := by
  induction l generalizing s with
  | nil => rfl
  | cons e rest ih => simp [State.ticks, ih]
@[simp] theorem State.ticks_paused (l : List EnvEvent) (s : State) : (s.ticks l).paused = s.paused := by
  induction l generalizing s with
  | nil => rfl
  | cons e rest ih => simp [State.ticks, ih]
@[simp] theorem State.ticks_platform (l : List EnvEvent) (s : State) : (s.ticks l).platform = s.platform := by
  induction l generalizing s with
  | nil => rfl
  | cons e rest ih => simp [State.ticks, ih]
@[simp] theorem State.ticks_delay (l : List EnvEvent) (s : State) : (s.ticks l).delay = s.delay := by
  induction l generalizing s with
  | nil => rfl
  | cons e rest ih => simp [State.ticks, ih]
@[simp] theorem State.ticks_env (l : List EnvEvent) (s : State) : (s.ticks l).env = s.env := by
  induction l generalizing s with
  | nil => rfl
  | cons e rest ih => simp [State.ticks, ih]

@[simp] theorem State.elapse_gpr (s : State) (n : Nat) : (s.elapse n).gpr = s.gpr := by
  induction n generalizing s with
  | zero => rfl
  | succ n ih => unfold State.elapse; split <;> simp [ih]
@[simp] theorem State.elapse_pc (s : State) (n : Nat) : (s.elapse n).pc = s.pc := by
  induction n generalizing s with
  | zero => rfl
  | succ n ih => unfold State.elapse; split <;> simp [ih]
@[simp] theorem State.elapse_ctrl (s : State) (n : Nat) : (s.elapse n).ctrl = s.ctrl := by
  induction n generalizing s with
  | zero => rfl
  | succ n ih => unfold State.elapse; split <;> simp [ih]
@[simp] theorem State.elapse_paused (s : State) (n : Nat) : (s.elapse n).paused = s.paused := by
  induction n generalizing s with
  | zero => rfl
  | succ n ih => unfold State.elapse; split <;> simp [ih]
@[simp] theorem State.elapse_platform (s : State) (n : Nat) : (s.elapse n).platform = s.platform := by
  induction n generalizing s with
  | zero => rfl
  | succ n ih => unfold State.elapse; split <;> simp [ih]
@[simp] theorem State.elapse_delay (s : State) (n : Nat) : (s.elapse n).delay = s.delay := by
  induction n generalizing s with
  | zero => rfl
  | succ n ih => unfold State.elapse; split <;> simp [ih]

@[simp] theorem State.completed_gpr (s : State) : s.completed.gpr = s.gpr := by simp [State.completed]
@[simp] theorem State.completed_pc (s : State) : s.completed.pc = s.pc := by simp [State.completed]
@[simp] theorem State.completed_ctrl (s : State) : s.completed.ctrl = s.ctrl := by simp [State.completed]
@[simp] theorem State.completed_paused (s : State) : s.completed.paused = s.paused := by simp [State.completed]
@[simp] theorem State.completed_platform (s : State) : s.completed.platform = s.platform := by simp [State.completed]
@[simp] theorem State.completed_delay (s : State) : s.completed.delay = s.delay := by simp [State.completed]

@[simp] theorem State.effectPoint_gpr (s : State) (pa : Word) (n : Nat) : (s.effectPoint pa n).gpr = s.gpr := by simp [State.effectPoint]
@[simp] theorem State.effectPoint_pc (s : State) (pa : Word) (n : Nat) : (s.effectPoint pa n).pc = s.pc := by simp [State.effectPoint]
@[simp] theorem State.effectPoint_ctrl (s : State) (pa : Word) (n : Nat) : (s.effectPoint pa n).ctrl = s.ctrl := by simp [State.effectPoint]
@[simp] theorem State.effectPoint_paused (s : State) (pa : Word) (n : Nat) : (s.effectPoint pa n).paused = s.paused := by simp [State.effectPoint]
@[simp] theorem State.effectPoint_platform (s : State) (pa : Word) (n : Nat) : (s.effectPoint pa n).platform = s.platform := by simp [State.effectPoint]
@[simp] theorem State.effectPoint_delay (s : State) (pa : Word) (n : Nat) : (s.effectPoint pa n).delay = s.delay := by simp [State.effectPoint]

@[simp] theorem State.fetchPoint_gpr (s : State) (pa : Word) : (s.fetchPoint pa).gpr = s.gpr := by
  unfold State.fetchPoint; split <;> simp
@[simp] theorem State.fetchPoint_pc (s : State) (pa : Word) : (s.fetchPoint pa).pc = s.pc := by
  unfold State.fetchPoint; split <;> simp
@[simp] theorem State.fetchPoint_ctrl (s : State) (pa : Word) : (s.fetchPoint pa).ctrl = s.ctrl := by
  unfold State.fetchPoint; split <;> simp
@[simp] theorem State.fetchPoint_paused (s : State) (pa : Word) : (s.fetchPoint pa).paused = s.paused := by
  unfold State.fetchPoint; split <;> simp
@[simp] theorem State.fetchPoint_platform (s : State) (pa : Word) : (s.fetchPoint pa).platform = s.platform := by
  unfold State.fetchPoint; split <;> simp
@[simp] theorem State.fetchPoint_delay (s : State) (pa : Word) : (s.fetchPoint pa).delay = s.delay := by
  unfold State.fetchPoint; split <;> simp

@[simp] theorem State.testPoint_gpr (s : State) (addr pa : Word) (sz : AccessSize) : (s.testPoint addr pa sz).gpr = s.gpr := by
  unfold State.testPoint; split <;> simp
@[simp] theorem State.testPoint_pc (s : State) (addr pa : Word) (sz : AccessSize) : (s.testPoint addr pa sz).pc = s.pc := by
  unfold State.testPoint; split <;> simp
@[simp] theorem State.testPoint_ctrl (s : State) (addr pa : Word) (sz : AccessSize) : (s.testPoint addr pa sz).ctrl = s.ctrl := by
  unfold State.testPoint; split <;> simp
@[simp] theorem State.testPoint_paused (s : State) (addr pa : Word) (sz : AccessSize) : (s.testPoint addr pa sz).paused = s.paused := by
  unfold State.testPoint; split <;> simp
@[simp] theorem State.testPoint_platform (s : State) (addr pa : Word) (sz : AccessSize) : (s.testPoint addr pa sz).platform = s.platform := by
  unfold State.testPoint; split <;> simp
@[simp] theorem State.testPoint_delay (s : State) (addr pa : Word) (sz : AccessSize) : (s.testPoint addr pa sz).delay = s.delay := by
  unfold State.testPoint; split <;> simp

@[simp] theorem State.atBoundary_gpr (s : State) : s.atBoundary.gpr = s.gpr := by
  unfold State.atBoundary; simp only []; split <;> simp
@[simp] theorem State.atBoundary_pc (s : State) : s.atBoundary.pc = s.pc := by
  unfold State.atBoundary; simp only []; split <;> simp
@[simp] theorem State.atBoundary_ctrl (s : State) : s.atBoundary.ctrl = s.ctrl := by
  unfold State.atBoundary; simp only []; split <;> simp
@[simp] theorem State.atBoundary_paused (s : State) : s.atBoundary.paused = s.paused := by
  unfold State.atBoundary; simp only []; split <;> simp
@[simp] theorem State.atBoundary_platform (s : State) : s.atBoundary.platform = s.platform := by
  unfold State.atBoundary; simp only []; split <;> simp
@[simp] theorem State.atBoundary_delay (s : State) : s.atBoundary.delay = s.input.delay := by
  unfold State.atBoundary; simp only []; split <;> simp
@[simp] theorem State.atBoundary_env (s : State) : s.atBoundary.env = s.env.tail := by
  unfold State.atBoundary; simp only []; split <;> simp

/-! ### Recording in the control registers -/

@[simp] theorem State.recordAddress_gpr (s : State) (a : Option Word) : (s.recordAddress a).gpr = s.gpr := by cases a <;> rfl
@[simp] theorem State.recordAddress_pc (s : State) (a : Option Word) : (s.recordAddress a).pc = s.pc := by cases a <;> rfl
@[simp] theorem State.recordAddress_lock (s : State) (a : Option Word) : (s.recordAddress a).lock = s.lock := by cases a <;> rfl
@[simp] theorem State.recordAddress_paused (s : State) (a : Option Word) : (s.recordAddress a).paused = s.paused := by cases a <;> rfl
@[simp] theorem State.recordAddress_mem (s : State) (a : Option Word) : (s.recordAddress a).mem = s.mem := by cases a <;> rfl
@[simp] theorem State.recordAddress_pending (s : State) (a : Option Word) : (s.recordAddress a).pending = s.pending := by cases a <;> rfl
@[simp] theorem State.recordAddress_dcache (s : State) (a : Option Word) : (s.recordAddress a).dcache = s.dcache := by cases a <;> rfl
@[simp] theorem State.recordAddress_icache (s : State) (a : Option Word) : (s.recordAddress a).icache = s.icache := by cases a <;> rfl
@[simp] theorem State.recordAddress_tcacheK (s : State) (a : Option Word) : (s.recordAddress a).tcacheK = s.tcacheK := by cases a <;> rfl
@[simp] theorem State.recordAddress_tcacheU (s : State) (a : Option Word) : (s.recordAddress a).tcacheU = s.tcacheU := by cases a <;> rfl
@[simp] theorem State.recordAddress_platform (s : State) (a : Option Word) : (s.recordAddress a).platform = s.platform := by cases a <;> rfl
@[simp] theorem State.recordAddress_delay (s : State) (a : Option Word) : (s.recordAddress a).delay = s.delay := by cases a <;> rfl
@[simp] theorem State.recordAddress_env (s : State) (a : Option Word) : (s.recordAddress a).env = s.env := by cases a <;> rfl
@[simp] theorem State.recordPte_gpr (s : State) (p : Option Word) : (s.recordPte p).gpr = s.gpr := by cases p <;> rfl
@[simp] theorem State.recordPte_pc (s : State) (p : Option Word) : (s.recordPte p).pc = s.pc := by cases p <;> rfl
@[simp] theorem State.recordPte_lock (s : State) (p : Option Word) : (s.recordPte p).lock = s.lock := by cases p <;> rfl
@[simp] theorem State.recordPte_paused (s : State) (p : Option Word) : (s.recordPte p).paused = s.paused := by cases p <;> rfl
@[simp] theorem State.recordPte_mem (s : State) (p : Option Word) : (s.recordPte p).mem = s.mem := by cases p <;> rfl
@[simp] theorem State.recordPte_pending (s : State) (p : Option Word) : (s.recordPte p).pending = s.pending := by cases p <;> rfl
@[simp] theorem State.recordPte_dcache (s : State) (p : Option Word) : (s.recordPte p).dcache = s.dcache := by cases p <;> rfl
@[simp] theorem State.recordPte_icache (s : State) (p : Option Word) : (s.recordPte p).icache = s.icache := by cases p <;> rfl
@[simp] theorem State.recordPte_tcacheK (s : State) (p : Option Word) : (s.recordPte p).tcacheK = s.tcacheK := by cases p <;> rfl
@[simp] theorem State.recordPte_tcacheU (s : State) (p : Option Word) : (s.recordPte p).tcacheU = s.tcacheU := by cases p <;> rfl
@[simp] theorem State.recordPte_platform (s : State) (p : Option Word) : (s.recordPte p).platform = s.platform := by cases p <;> rfl
@[simp] theorem State.recordPte_delay (s : State) (p : Option Word) : (s.recordPte p).delay = s.delay := by cases p <;> rfl
@[simp] theorem State.recordPte_env (s : State) (p : Option Word) : (s.recordPte p).env = s.env := by cases p <;> rfl

end Sys2Proof.Machine
end

