-- ==== Sys2Proof/Laws/Ops.lean ====
section
/-!
SUPPORT. What each shared operation can do, said once: registers, control registers, the bytes a load sees, the accesses, the
interrupts. Pending accesses and waiting are in Laws/Pending.lean.
-/
namespace Sys2Proof.Machine

/-! ### Registers -/

theorem State.getReg_zero (s : State) : s.getReg 0 = 0 := rfl

theorem State.getReg_ip (s : State) : s.getReg 31 = s.pc := rfl

/-- Reading a register after writing one. -/
theorem State.getReg_setReg (s : State) (r q : Reg) (v : Word) :
    (s.setReg r v).getReg q = if q = r ∧ q ≠ 0 ∧ q ≠ 31 then v else s.getReg q := by
  have hr : r.val < 32 := r.isLt
  have hq : q.val < 32 := q.isLt
  have h0 : q = 0 ↔ q.val = 0 := Fin.ext_iff
  have h31 : q = 31 ↔ q.val = 31 := Fin.ext_iff
  have he : q = r ↔ q.val = r.val := Fin.ext_iff
  simp only [ne_eq, h0, h31, he]
  unfold State.getReg
  by_cases hq0 : q.val = 0
  · simp [hq0]
  · by_cases hq1 : q.val - 1 < 30
    · simp only [hq0, if_false, hq1, dif_pos]
      unfold State.setReg
      by_cases hr0 : r.val = 0
      · have : q.val ≠ r.val := by omega
        simp [hr0, hq0]
      · by_cases hr1 : r.val - 1 < 30
        · simp only [hr0, if_false, hr1, dif_pos, Vector.getElem_set]
          have hs : r.val - 1 = q.val - 1 ↔ q.val = r.val := by omega
          have h3 : q.val ≠ 31 := by omega
          simp [hs, h3]
        · have : q.val ≠ r.val := by omega
          simp [hr0, hr1, this]
    · have h3 : q.val = 31 := by omega
      simp [h3]

theorem State.getReg_congr {s t : State} (hg : t.gpr = s.gpr) (hp : t.pc = s.pc) (q : Reg) : t.getReg q = s.getReg q := by
  unfold State.getReg; rw [hg, hp]

theorem State.getReg_setPc (s : State) (v : Word) (q : Reg) (h : q ≠ 31) : (s.setPc v).getReg q = s.getReg q := by
  have hq : q.val ≠ 31 := fun hh => h (Fin.ext hh)
  have := q.isLt
  unfold State.getReg
  by_cases h0 : q.val = 0
  · simp [h0]
  · have h1 : q.val - 1 < 30 := by omega
    simp [h0, h1]

/-! ### Control registers -/

/-- Reading a control register after writing one. -/
theorem State.getCtrl_setCtrl (s : State) (n k : CtrlReg) (v : Word) :
    (s.setCtrl n v).getCtrl k = if k = n then v &&& ctrlMask n else s.getCtrl k := by
  have he : k = n ↔ n.val = k.val := by rw [Fin.ext_iff]; exact eq_comm
  simp only [State.getCtrl, State.setCtrl, he, Fin.getElem_fin, Vector.getElem_set]

theorem State.getCtrl_congr {s t : State} (h : t.ctrl = s.ctrl) (n : CtrlReg) : t.getCtrl n = s.getCtrl n := by
  unfold State.getCtrl; rw [h]

@[simp] theorem State.getCtrl_setPc (s : State) (v : Word) (n : CtrlReg) : (s.setPc v).getCtrl n = s.getCtrl n := rfl

@[simp] theorem State.getCtrl_unlock (s : State) (n : CtrlReg) : s.unlock.getCtrl n = s.getCtrl n := rfl

@[simp] theorem State.getCtrl_setReg (s : State) (r : Reg) (v : Word) (n : CtrlReg) :
    (s.setReg r v).getCtrl n = s.getCtrl n := State.getCtrl_congr (by simp) n

@[simp] theorem State.getCtrl_elapse (s : State) (k : Nat) (n : CtrlReg) : (s.elapse k).getCtrl n = s.getCtrl n :=
  State.getCtrl_congr (by simp) n

@[simp] theorem State.getCtrl_completed (s : State) (n : CtrlReg) : s.completed.getCtrl n = s.getCtrl n :=
  State.getCtrl_congr (by simp) n

/-- The bits that a control register keeps are exactly those of its mask. -/
theorem ctrlMask_idem (v : Word) (n : CtrlReg) : (v &&& ctrlMask n) &&& ~~~(ctrlMask n) = 0 := by
  rw [BitVec.and_assoc, show ctrlMask n &&& ~~~(ctrlMask n) = 0 by ext i; simp]; simp

/-! ### The byte a load sees -/

theorem State.loadByte_eq (s : State) (a : Word) :
    s.loadByte a = (if s.platform.hasDcache then cachedByte s.dcache a else none).getD (s.memByte a) := by
  unfold State.loadByte
  cases (if s.platform.hasDcache then cachedByte s.dcache a else none) <;> rfl

theorem State.fetchByte_eq (s : State) (a : Word) :
    s.fetchByte a = (if s.platform.hasIcache then cachedByte s.icache a else none).getD (s.memByte a) := by
  unfold State.fetchByte
  cases (if s.platform.hasIcache then cachedByte s.icache a else none) <;> rfl

theorem State.memByte_congr {s t : State} (hm : t.mem = s.mem) (a : Word) : t.memByte a = s.memByte a := by
  unfold State.memByte; rw [hm]

/-- A load sees the same bytes in two states that agree on the d-cache, memory and the platform. -/
theorem State.loadByte_congr {s t : State} (hm : t.mem = s.mem) (hd : t.dcache = s.dcache) (hp : t.platform = s.platform)
    (a : Word) : t.loadByte a = s.loadByte a := by
  rw [State.loadByte_eq, State.loadByte_eq, State.memByte_congr hm, hd, hp]

theorem State.memByte_takeEffect (s : State) (st : Store) (a : Word) :
    (s.takeEffect st).memByte a = (st.byteAt a).getD (s.memByte a) := by
  unfold State.memByte; rw [State.takeEffect_mem, Memory.read_store]

theorem State.loadByte_takeEffect (s : State) (st : Store) (a : Word) :
    (s.takeEffect st).loadByte a = (st.byteAt a).getD (s.loadByte a) := by
  rw [State.loadByte_eq, State.loadByte_eq, State.memByte_takeEffect, State.takeEffect_platform, State.takeEffect_dcache,
    cachedByte_store]
  cases s.platform.hasDcache <;> cases st.byteAt a <;> cases cachedByte s.dcache a <;> rfl

/-- A store that takes effect leaves the lock state as it was, or unlocks it. -/
theorem State.lockAfter_cases (s : State) (st : Store) :
    s.lockAfter st = s.lock ∨ s.lockAfter st = { s.lock with locked := false } := by
  unfold State.lockAfter; split <;> simp

/-! ### The accesses -/

theorem assemble_congr {f g : Word → Byte} (h : ∀ a, f a = g a) (pa : Word) (n : Nat) : assemble f pa n = assemble g pa n := by
  rw [funext h]

/-- The bits of a value assembled from bytes, little-endian. -/
theorem getLsbD_assemble (f : Word → Byte) (pa : Word) (n k : Nat) (hk : k < 64) :
    (assemble f pa n).getLsbD k =
      if k < 8 * n then (f (pa + BitVec.ofNat 64 (k / 8))).getLsbD (k % 8) else false := by
  induction n with
  | zero => simp [assemble]
  | succ n ih =>
    simp only [assemble, BitVec.getLsbD_or, ih, BitVec.getLsbD_shiftLeft, zext, BitVec.getLsbD_setWidth, hk,
      decide_true, Bool.true_and]
    by_cases h : k < 8 * n
    · have : k < 8 * (n + 1) := by omega
      simp [h, this]
    · by_cases h' : k < 8 * (n + 1)
      · have hd : k / 8 = n := by omega
        have hm : k - 8 * n = k % 8 := by omega
        have : k - 8 * n < 64 := by omega
        simp [h, h', hd, hm]
        omega
      · have : 8 ≤ k - 8 * n := by omega
        simp [h, h', BitVec.getLsbD_of_ge _ _ this]

/-- A data address is aligned as `DATA_ALIGN` says. -/
theorem State.aligned_data {s : State} {addr : Word} {sz : AccessSize} {kind : Access} (hk : kind ≠ .fetch) :
    s.aligned addr sz kind = true ↔
      match s.platform.dataAlign with
      | .natural => addr.toNat % sizeBytes sz = 0
      | .withinBlock => addr.toNat % 64 + sizeBytes sz ≤ 64 := by
  unfold State.aligned
  cases kind <;> cases s.platform.dataAlign <;> simp_all

theorem State.aligned_fetch {s : State} {addr : Word} : s.aligned addr .half .fetch = true ↔ addr.toNat % 4 = 0 := by
  unfold State.aligned; cases s.platform.dataAlign <;> simp [sizeBytes]

theorem State.accessAddr_eq_ok {s : State} {addr pa : Word} {sz : AccessSize} {kind : Access} :
    s.accessAddr addr sz kind = .ok pa ↔ s.aligned addr sz kind = true ∧ s.translate addr kind = .ok pa := by
  unfold State.accessAddr; split <;> simp_all

/-- A data read that passes its three checks. -/
theorem State.memRead_ok {s : State} {addr pa : Word} {sz : AccessSize} (ha : s.aligned addr sz .read = true)
    (ht : s.translate addr .read = .ok pa) (hb : s.busOk pa sz .read = true) :
    s.memRead addr sz =
      .ok ((s.effectPoint pa (sizeBytes sz)).loadValue pa (sizeBytes sz), s.issue pa sz .load) := by
  unfold State.memRead
  rw [State.accessAddr_eq_ok.2 ⟨ha, ht⟩]
  simp only [hb, if_true]

/-- A data write that passes its three checks. -/
theorem State.memWrite_ok {s : State} {addr pa v : Word} {sz : AccessSize} (ha : s.aligned addr sz .write = true)
    (ht : s.translate addr .write = .ok pa) (hb : s.busOk pa sz .write = true) :
    s.memWrite addr sz v = .ok (s.issue pa sz (.store v)) := by
  unfold State.memWrite
  rw [State.accessAddr_eq_ok.2 ⟨ha, ht⟩]
  simp only [hb, if_true]

/-- A fetch that passes its three checks. -/
theorem State.fetchWord_ok {s : State} {addr pa : Word} (ha : s.aligned addr .half .fetch = true)
    (ht : s.translate addr .fetch = .ok pa) (hb : s.busOk pa .half .fetch = true) :
    s.fetchWord addr = .ok ((assemble (s.fetchPoint pa).fetchByte pa 4).setWidth 32, s.fetchPoint pa) := by
  unfold State.fetchWord
  rw [State.accessAddr_eq_ok.2 ⟨ha, ht⟩]
  simp only [hb, if_true]

/-- What a fetch that succeeds gives: a word of the bytes at the point at which it reads. -/
theorem State.fetchWord_eq_ok {s b : State} {addr : Word} {w : InstrWord} (h : s.fetchWord addr = .ok (w, b)) :
    ∃ pa, s.translate addr .fetch = .ok pa ∧ b = s.fetchPoint pa ∧ w = (assemble b.fetchByte pa 4).setWidth 32 := by
  unfold State.fetchWord at h
  cases ha : s.accessAddr addr .half .fetch with
  | error e => simp [ha] at h
  | ok pa =>
    simp only [ha] at h
    split at h
    · cases h; exact ⟨pa, (State.accessAddr_eq_ok.1 ha).2, rfl, rfl⟩
    · cases h

/-- With translation off an address is its own translation. -/
theorem State.translate_off {s : State} (h : s.statV = false) (va : Word) (kind : Access) : s.translate va kind = .ok va := by
  unfold State.translate; simp [h]

/-- An access answered by a bus region lies inside it, so its bytes do not wrap around. -/
theorem State.busOk_region {s : State} {pa : Word} {sz : AccessSize} {kind : Access} (h : s.busOk pa sz kind = true) :
    ∃ r ∈ s.platform.bus, r.base ≤ pa.toNat ∧ pa.toNat + sizeBytes sz ≤ r.base + r.size := by
  unfold State.busOk at h
  obtain ⟨r, hr, h⟩ := List.any_eq_true.1 h
  unfold BusRegion.answers at h
  simp only [Bool.and_eq_true, decide_eq_true_eq] at h
  exact ⟨r, hr, h.1.2, h.2⟩

/-! ### Interrupts: the fields entry leaves alone -/

@[simp] theorem State.enterInterrupt_gpr (s : State) (i : Interrupt) : (s.enterInterrupt i).gpr = s.gpr := by
  simp [State.enterInterrupt]

@[simp] theorem State.enterInterrupt_paused (s : State) (i : Interrupt) : (s.enterInterrupt i).paused = false := rfl

@[simp] theorem State.enterInterrupt_mem (s : State) (i : Interrupt) : (s.enterInterrupt i).mem = s.completed.mem := by
  simp [State.enterInterrupt]

@[simp] theorem State.enterInterrupt_dcache (s : State) (i : Interrupt) :
    (s.enterInterrupt i).dcache = s.completed.dcache := by simp [State.enterInterrupt]

@[simp] theorem State.enterInterrupt_lock (s : State) (i : Interrupt) :
    (s.enterInterrupt i).lock = { s.completed.lock with locked := false } := by simp [State.enterInterrupt]

@[simp] theorem State.enterInterrupt_icache (s : State) (i : Interrupt) : (s.enterInterrupt i).icache = s.completed.icache := by
  simp [State.enterInterrupt]

@[simp] theorem State.enterInterrupt_tcacheK (s : State) (i : Interrupt) : (s.enterInterrupt i).tcacheK = s.completed.tcacheK := by
  simp [State.enterInterrupt]

@[simp] theorem State.enterInterrupt_tcacheU (s : State) (i : Interrupt) : (s.enterInterrupt i).tcacheU = s.completed.tcacheU := by
  simp [State.enterInterrupt]

@[simp] theorem State.enterInterrupt_platform (s : State) (i : Interrupt) :
    (s.enterInterrupt i).platform = s.platform := by simp [State.enterInterrupt]

@[simp] theorem State.enterInterrupt_delay (s : State) (i : Interrupt) : (s.enterInterrupt i).delay = s.delay := by
  simp [State.enterInterrupt]

@[simp] theorem State.enterInterrupt_env (s : State) (i : Interrupt) : (s.enterInterrupt i).env = s.completed.env := by
  simp [State.enterInterrupt]

/-- Recording an address writes `intval` whole, and only where there is one. -/
theorem State.getCtrl_recordAddress (s : State) (a : Option Word) (k : CtrlReg) :
    (s.recordAddress a).getCtrl k = if k = ctrlIntval then a.getD (s.getCtrl k) else s.getCtrl k := by
  cases a with
  | none => simp [State.recordAddress]
  | some a =>
    simp only [State.recordAddress, State.getCtrl_setCtrl]
    rw [show a &&& ctrlMask ctrlIntval = a from BitVec.and_allOnes (w := 64)]
    rfl

/-- Recording a page table entry writes `intpte` whole, and only where there is one. -/
theorem State.getCtrl_recordPte (s : State) (p : Option Word) (k : CtrlReg) :
    (s.recordPte p).getCtrl k = if k = ctrlIntpte then p.getD (s.getCtrl k) else s.getCtrl k := by
  cases p with
  | none => simp [State.recordPte]
  | some p =>
    simp only [State.recordPte, State.getCtrl_setCtrl]
    rw [show p &&& ctrlMask ctrlIntpte = p from BitVec.and_allOnes (w := 64)]
    rfl

end Sys2Proof.Machine
end

