-- ==== Sys2Proof/Laws/Pending.lean ====
section
/-!
SUPPORT. Pending accesses: what taking effect, an event and waiting can do, said once; which accesses a wait completes; and that
accesses to the same bytes stay in program order.
-/
namespace Sys2Proof.Machine

/-! ### Bytes and overlap -/

theorem overlaps_comm (a b : Word) (n m : Nat) : overlaps a n b m = overlaps b m a n := Bool.or_comm _ _

/-- Two accesses with a byte in common overlap. -/
theorem overlaps_of_mem {a b x : Word} {n m : Nat} (ha : (x - a).toNat < n) (hb : (x - b).toNat < m) :
    overlaps a n b m = true := by
  unfold overlaps
  simp only [Bool.or_eq_true, decide_eq_true_eq]
  by_cases h : (x - b).toNat ≤ (x - a).toNat
  · left
    have : b - a = (x - a) - (x - b) := by bv_omega
    rw [this, BitVec.toNat_sub_of_le (BitVec.le_def.2 h)]; omega
  · right
    have : a - b = (x - b) - (x - a) := by bv_omega
    rw [this, BitVec.toNat_sub_of_le (BitVec.le_def.2 (by omega))]; omega

/-- The byte that an access writes lies in the access. -/
theorem Pending.lt_of_byteAt {p : Pending} {a : Word} {b : Byte} (h : p.byteAt a = some b) :
    (a - p.addr).toNat < sizeBytes p.size := by
  unfold Pending.byteAt at h
  split at h
  · unfold Store.byteAt at h
    split at h
    · assumption
    · cases h
  · cases h
  · cases h

@[simp] theorem Pending.byteAt_wait (p : Pending) (n : Nat) (a : Word) : ({ p with wait := n } : Pending).byteAt a = p.byteAt a := rfl

@[simp] theorem Pending.overlaps_wait (p : Pending) (n : Nat) (a : Word) (m : Nat) :
    ({ p with wait := n } : Pending).overlaps a m = p.overlaps a m := rfl

@[simp] theorem Pending.isStore_wait (p : Pending) (n : Nat) : ({ p with wait := n } : Pending).isStore = p.isStore := rfl

@[simp] theorem Pending.plain_wait (p : Pending) : p.plain.wait = p.wait := rfl

@[simp] theorem Pending.plain_overlaps (p : Pending) (a : Word) (n : Nat) : p.plain.overlaps a n = p.overlaps a n := rfl

theorem Pending.plain_eq (p : Pending) : p.plain = if p.effect = .loadLock then { p with effect := .load } else p := by
  unfold Pending.plain; split <;> rfl

theorem State.lockOn_eq_withLock (s : State) (addr : Word) (sz : AccessSize) (pa : Word) :
    s.lockOn addr sz pa = s.withLock sz addr pa := by
  unfold State.lockOn State.withLock
  rw [show Pending.plain = fun p : Pending => if p.effect = .loadLock then { p with effect := .load } else p from
    funext Pending.plain_eq]

theorem pendingByte_cons (p : Pending) (rest : List Pending) (a : Word) :
    pendingByte (p :: rest) a = (pendingByte rest a).or (p.byteAt a) := by
  simp only [pendingByte]; cases pendingByte rest a <;> rfl

/-- The newest store wins: the later part of a list hides the earlier. -/
theorem pendingByte_append (l k : List Pending) (a : Word) :
    pendingByte (l ++ k) a = (pendingByte k a).or (pendingByte l a) := by
  induction l with
  | nil => simp [pendingByte]
  | cons p rest ih => simp only [List.cons_append, pendingByte_cons, ih, Option.or_assoc]

theorem pendingByte_eq_none {l : List Pending} {a : Word} : pendingByte l a = none ↔ ∀ p ∈ l, p.byteAt a = none := by
  induction l with
  | nil => simp [pendingByte]
  | cons p rest ih => simp [pendingByte_cons, ih, and_comm]

/-! ### Accesses that take effect -/

theorem State.memByte_performed (s : State) (p : Pending) (a : Word) :
    (s.performed p).memByte a = (p.byteAt a).getD (s.memByte a) := by
  unfold State.performed Pending.byteAt
  split
  · exact State.memByte_takeEffect _ _ _
  · rfl
  · rfl

theorem State.loadByte_performed (s : State) (p : Pending) (a : Word) :
    (s.performed p).loadByte a = (p.byteAt a).getD (s.loadByte a) := by
  unfold State.performed Pending.byteAt
  split
  · exact State.loadByte_takeEffect _ _ _
  · rfl
  · rfl

/-- What each access's taking effect keeps, with the pending list as it may be, is kept where all that are due take effect. -/
theorem State.performDue_induction {P : State → Prop} (hq : ∀ s l, P s → P { s with pending := l })
    (hp : ∀ s p, P s → P (s.performed p)) (due : Pending → Bool) (l : List Pending) :
    ∀ kept s, P s → P (State.performDue due kept l s) := by
  induction l with
  | nil => exact fun kept s h => hq _ _ h
  | cons p rest ih =>
    intro kept s h
    unfold State.performDue
    split
    · exact ih _ _ (hp _ _ (hq _ _ h))
    · exact ih _ _ h

theorem State.performDue_pending (due : Pending → Bool) (l kept : List Pending) (s : State) :
    (State.performDue due kept l s).pending =
      kept ++ (l.filter fun p => !due p).map fun p => { p with wait := p.wait - 1 } := by
  induction l generalizing kept s with
  | nil => simp [State.performDue]
  | cons p rest ih =>
    unfold State.performDue
    cases h : due p <;> simp [ih, h]

theorem State.performDue_memByte (due : Pending → Bool) (l kept : List Pending) (s : State) (a : Word) :
    (State.performDue due kept l s).memByte a = (pendingByte (l.filter due) a).getD (s.memByte a) := by
  induction l generalizing kept s with
  | nil => rfl
  | cons p rest ih =>
    unfold State.performDue
    cases h : due p
    · simp [ih, h]
    · simp only [h, if_true, ih, List.filter_cons, pendingByte_cons, State.memByte_performed]
      cases pendingByte (rest.filter due) a <;> cases p.byteAt a <;> rfl

theorem State.performDue_loadByte (due : Pending → Bool) (l kept : List Pending) (s : State) (a : Word) :
    (State.performDue due kept l s).loadByte a = (pendingByte (l.filter due) a).getD (s.loadByte a) := by
  induction l generalizing kept s with
  | nil => rfl
  | cons p rest ih =>
    unfold State.performDue
    cases h : due p
    · simp [ih, h]
    · simp only [h, if_true, ih, List.filter_cons, pendingByte_cons, State.loadByte_performed]
      have hl : ({ s with pending := kept ++ rest } : State).loadByte a = s.loadByte a := State.loadByte_congr rfl rfl rfl a
      rw [hl]
      cases pendingByte (rest.filter due) a <;> cases p.byteAt a <;> rfl

@[simp] theorem State.performAll_pending (s : State) : s.performAll.pending = [] := by
  unfold State.performAll; rw [State.performDue_pending]; simp

theorem State.comeDue_pending (s : State) :
    s.comeDue.pending = (s.pending.filter fun p => p.wait != 0).map fun p => { p with wait := p.wait - 1 } :=
  State.performDue_pending _ _ _ _

theorem State.tick_pending (s : State) (e : EnvEvent) :
    (s.tick e).pending = (s.pending.filter fun p => p.wait != 0).map fun p => { p with wait := p.wait - 1 } := by
  unfold State.tick; rw [State.comeDue_pending, State.afterEvent_pending]

/-- With nothing pending nothing takes effect. -/
theorem State.performAll_of_nil {s : State} (h : s.pending = []) : s.performAll = s := by
  unfold State.performAll; rw [h]; unfold State.performDue; rw [← h]

/-! ### The lock state through pending accesses -/

theorem State.LockKeptOrUnlocked.refl (s : State) : s.LockKeptOrUnlocked s := .inl rfl

theorem State.LockKeptOrUnlocked.trans {s t u : State} (h : s.LockKeptOrUnlocked t) (k : t.LockKeptOrUnlocked u) :
    s.LockKeptOrUnlocked u := by
  unfold State.LockKeptOrUnlocked at *
  rcases h with h | h <;> rcases k with k | k <;> simp [k, h]

theorem State.performed_lock (s : State) (p : Pending) : s.LockKeptOrUnlocked (s.performed p) := by
  unfold State.performed State.LockKeptOrUnlocked
  split
  · exact State.lockAfter_cases _ _
  · exact .inl rfl
  · exact .inl rfl

theorem State.performDue_lock (due : Pending → Bool) (l kept : List Pending) (s : State) :
    s.LockKeptOrUnlocked (State.performDue due kept l s) :=
  State.performDue_induction (P := fun t => s.LockKeptOrUnlocked t) (fun _ _ h => h)
    (fun t p h => h.trans (State.performed_lock t p)) due l kept s (.refl s)

theorem State.afterEvent_lock (s : State) (e : EnvEvent) : s.LockKeptOrUnlocked (s.afterEvent e) := by
  cases e <;> simp only [State.afterEvent] <;> repeat' split
  all_goals first | exact State.lockAfter_cases _ _ | exact .inl rfl

/-! ### Waiting -/

theorem lastDue_foldr (sel : Pending → Bool) (l : List Pending) (p : Pending) (hp : p ∈ l) (hs : sel p = true) :
    p.wait + 1 ≤ l.foldr (fun p n => if sel p then max (p.wait + 1) n else n) 0 := by
  induction l with
  | nil => cases hp
  | cons q rest ih =>
    simp only [List.foldr_cons]
    rcases List.mem_cons.1 hp with rfl | hp
    · simp only [hs, if_true]; omega
    · have := ih hp; split <;> omega

/-- A selected access has taken effect after `lastDue` events. -/
theorem State.wait_lt_lastDue {s : State} {sel : Pending → Bool} {p : Pending} (hp : p ∈ s.pending) (hs : sel p = true) :
    p.wait < s.lastDue sel := lastDue_foldr sel s.pending p hp hs

/-- Without a selected access there is nothing to wait for. -/
theorem State.lastDue_eq_zero {s : State} {sel : Pending → Bool} (h : ∀ p ∈ s.pending, sel p = false) : s.lastDue sel = 0 := by
  unfold State.lastDue
  revert h
  induction s.pending with
  | nil => exact fun _ => rfl
  | cons q rest ih =>
    intro h
    simp only [List.foldr_cons, h q (by simp), Bool.false_eq_true, if_false]
    exact ih fun p hp => h p (by simp [hp])

/-- A property that a change of the pending list and of the inputs to come, each access's taking effect and each event to come keep,
is kept by waiting. -/
theorem State.elapse_induction {P : State → Prop} (n : Nat) : ∀ s,
    (∀ s e rest, nextEvent s.env = some (e, rest) → P s → P ({ s with env := rest }.tick e)) →
    (∀ s, P s → P s.performAll) → P s → P (s.elapse n) := by
  induction n with
  | zero => exact fun s _ _ h => h
  | succ n ih =>
    intro s ht ha h
    unfold State.elapse
    split
    · rename_i e rest he
      exact ih _ ht ha (ht _ _ _ he h)
    · exact ha _ h

/-- What is pending after `n` events was pending before, for more than `n` events, and is that much nearer. -/
theorem State.elapse_pending (n : Nat) : ∀ (s : State), ∀ q ∈ (s.elapse n).pending,
    ∃ p ∈ s.pending, n ≤ p.wait ∧ q = { p with wait := p.wait - n } := by
  induction n with
  | zero => exact fun s q hq => ⟨q, hq, Nat.zero_le _, rfl⟩
  | succ n ih =>
    intro s q hq
    unfold State.elapse at hq
    split at hq
    · rename_i e rest he
      obtain ⟨p, hp, hn, rfl⟩ := ih _ q hq
      rw [State.tick_pending] at hp
      simp only [List.mem_map, List.mem_filter, bne_iff_ne, ne_eq] at hp
      obtain ⟨p', ⟨hp', h0⟩, rfl⟩ := hp
      simp only at hn ⊢
      exact ⟨p', hp', by omega, by simp; omega⟩
    · simp at hq

/-- After waiting for the selected accesses none of them is pending. -/
theorem State.elapse_lastDue (s : State) (sel : Pending → Bool) (hw : ∀ p n, sel { p with wait := n } = sel p) :
    ∀ q ∈ (s.elapse (s.lastDue sel)).pending, sel q = false := by
  intro q hq
  obtain ⟨p, hp, hn, rfl⟩ := State.elapse_pending _ _ q hq
  rw [hw]
  by_contra h
  have := State.wait_lt_lastDue hp (by simpa using h)
  omega

/-- An access with a longer delay is behind a shorter wait. -/
theorem State.elapse_clear (s : State) (sel : Pending → Bool) (hw : ∀ p n, sel { p with wait := n } = sel p) (n : Nat)
    (h : s.lastDue sel ≤ n) : ∀ q ∈ (s.elapse n).pending, sel q = false := by
  intro q hq
  obtain ⟨p, hp, hn, rfl⟩ := State.elapse_pending _ _ q hq
  rw [hw]
  by_contra hc
  have := State.wait_lt_lastDue hp (by simpa using hc)
  omega

@[simp] theorem State.completed_pending (s : State) : s.completed.pending = [] := by
  rw [List.eq_nil_iff_forall_not_mem]
  intro q hq
  have := State.elapse_lastDue s (fun _ => true) (fun _ _ => rfl) q hq
  cases this

theorem State.completed_of_nil {s : State} (h : s.pending = []) : s.completed = s := by
  unfold State.completed; rw [State.lastDue_eq_zero (by simp [h])]; rfl

@[simp] theorem State.enterInterrupt_pending (s : State) (i : Interrupt) : (s.enterInterrupt i).pending = [] := by
  simp [State.enterInterrupt]

/-- Taking the first event leaves the requests at their steps, and its step's inputs and the later ones a part of what they were. -/
theorem nextEvent_spec {l : List EnvInput} {e : EnvEvent} {rest : List EnvInput} (h : nextEvent l = some (e, rest)) :
    rest.map EnvInput.extIrq = l.map EnvInput.extIrq ∧ (∃ i ∈ l, e ∈ i.events) ∧
      ∀ i ∈ rest, ∀ e' ∈ i.events, ∃ j ∈ l, e' ∈ j.events := by
  induction l generalizing rest with
  | nil => cases h
  | cons i l ih =>
    unfold nextEvent at h
    cases he : i.events with
    | cons e0 es =>
      simp only [he, Option.some.injEq, Prod.mk.injEq] at h
      obtain ⟨rfl, rfl⟩ := h
      refine ⟨by simp, ⟨i, by simp, by simp [he]⟩, ?_⟩
      intro j hj e' he'
      rcases List.mem_cons.1 hj with rfl | hj
      · exact ⟨i, by simp, by simp only at he'; simp [he, he']⟩
      · exact ⟨j, by simp [hj], he'⟩
    | nil =>
      simp only [he] at h
      cases hn : nextEvent l with
      | none => simp [hn] at h
      | some x =>
        obtain ⟨e1, r1⟩ := x
        simp only [hn, Option.some.injEq, Prod.mk.injEq] at h
        obtain ⟨rfl, rfl⟩ := h
        obtain ⟨h1, ⟨j, hj, hje⟩, h3⟩ := ih hn
        refine ⟨by simp [h1], ⟨j, by simp [hj], hje⟩, ?_⟩
        intro k hk e' he'
        rcases List.mem_cons.1 hk with rfl | hk
        · exact ⟨k, by simp, he'⟩
        · obtain ⟨j', hj', h'⟩ := h3 k hk e' he'
          exact ⟨j', by simp [hj'], h'⟩

/-! ### What waiting can do -/

theorem State.Waited.refl (s : State) : s.Waited s := ⟨by simp, by simp, rfl, fun q hq => ⟨q, hq, rfl⟩, .inl rfl⟩

theorem State.Waited.trans {s t u : State} (h : s.Waited t) (k : t.Waited u) : s.Waited u where
  control := by
    obtain ⟨a, b, c, d⟩ := h.control
    obtain ⟨a', b', c', d'⟩ := k.control
    exact ⟨a'.trans a, b'.trans b, c'.trans c, d'.trans d⟩
  platform := ⟨k.platform.1.trans h.platform.1, k.platform.2.trans h.platform.2⟩
  requests := k.requests.trans h.requests
  pending := by
    intro q hq
    obtain ⟨p, hp, hpq⟩ := k.pending q hq
    obtain ⟨p', hp', hpq'⟩ := h.pending p hp
    exact ⟨p', hp', by rw [← hpq', ← hpq]⟩
  lock := h.lock.trans k.lock

/-- An event does no more than waiting for it may do. -/
theorem State.Waited.tick (s : State) (e : EnvEvent) : s.Waited (s.tick e) where
  control := by simp
  platform := by simp
  requests := by simp
  pending := by
    intro q hq
    rw [State.tick_pending] at hq
    simp only [List.mem_map, List.mem_filter] at hq
    obtain ⟨p, ⟨hp, _⟩, rfl⟩ := hq
    exact ⟨p, hp, rfl⟩
  lock := (State.afterEvent_lock s e).trans (State.performDue_lock _ _ _ _)

theorem State.Waited.performAll (s : State) : s.Waited s.performAll :=
  ⟨by simp, by simp, by simp, by simp, State.performDue_lock _ _ _ _⟩

/-- Where events to come have happened, no more than waiting happened. -/
theorem State.Waited.elapse (n : Nat) : ∀ s : State, s.Waited (s.elapse n) := by
  induction n with
  | zero => exact .refl
  | succ n ih =>
    intro s
    unfold State.elapse
    split
    · rename_i e rest he
      have h : s.Waited { s with env := rest } :=
        ⟨by simp, by simp, (nextEvent_spec he).1, fun q hq => ⟨q, hq, rfl⟩, .inl rfl⟩
      exact h.trans ((State.Waited.tick _ e).trans (ih _))
    · exact .performAll s

theorem State.Waited.completed (s : State) : s.Waited s.completed := .elapse _ s

theorem State.Waited.fetchPoint (s : State) (pa : Word) : s.Waited (s.fetchPoint pa) := by
  unfold State.fetchPoint; split
  · exact .refl s
  · exact .elapse _ s

/-! ### Issuing -/

/-- What issuing an access can do: it takes effect at once, or it joins the pending ones behind its wait. -/
theorem State.issueAfter_cases (s : State) (n : Nat) (pa : Word) (sz : AccessSize) (eff : AccessEffect) :
    (n = 0 ∧ s.issueAfter n pa sz eff = s.performed { addr := pa, size := sz, effect := eff, wait := 0 }) ∨
    ∃ k, n = k + 1 ∧ s.Queued (s.issueAfter n pa sz eff) pa sz eff k := by
  cases n with
  | zero => exact .inl ⟨rfl, rfl⟩
  | succ k => exact .inr ⟨k, rfl, rfl⟩

theorem State.overlapWait_le_waitFor (s : State) (pa : Word) (n : Nat) : s.overlapWait pa n ≤ s.waitFor pa n :=
  Nat.le_max_right _ _

/-- Without an earlier access to its bytes an access waits for none. -/
theorem State.ClearAt.overlapWait {s : State} {pa : Word} {sz : AccessSize} (h : s.ClearAt pa sz) :
    s.overlapWait pa (sizeBytes sz) = 0 := State.lastDue_eq_zero h

/-- An access in its turn waits for nothing. -/
theorem State.InTurn.waitFor {s : State} {pa : Word} {sz : AccessSize} (h : s.InTurn pa sz) :
    s.waitFor pa (sizeBytes sz) = 0 := by
  unfold State.waitFor
  rw [h.2.overlapWait]
  rcases h.1 with h | h <;> simp [h]

/-- The store of a store-conditional waits for the earlier accesses to its bytes, and no longer than a plain store would. -/
theorem State.conditionalWait_bounds (s : State) (addr pa : Word) (sz : AccessSize) :
    s.overlapWait pa (sizeBytes sz) ≤ s.conditionalWait addr pa sz ∧
      s.conditionalWait addr pa sz ≤ s.waitFor pa (sizeBytes sz) := by
  have := s.overlapWait_le_waitFor pa (sizeBytes sz)
  unfold State.conditionalWait; split <;> omega

/-- A store-conditional tests the lock in the state as it is, or in one in which earlier accesses have taken effect. -/
theorem State.testPoint_cases (s : State) (addr pa : Word) (sz : AccessSize) :
    s.testPoint addr pa sz = s ∨ s.testPoint addr pa sz = s.elapse (s.overlapWait pa (sizeBytes sz)) := by
  unfold State.testPoint; split <;> simp

/-- Without an earlier access to its bytes a store-conditional tests the lock in the state as it is. -/
theorem State.ClearAt.testPoint {s : State} {pa : Word} {sz : AccessSize} (h : s.ClearAt pa sz) (addr : Word) :
    s.testPoint addr pa sz = s := by
  unfold State.testPoint; rw [h.overlapWait]; split <;> rfl

theorem State.Waited.testPoint (s : State) (addr pa : Word) (sz : AccessSize) : s.Waited (s.testPoint addr pa sz) := by
  rcases s.testPoint_cases addr pa sz with h | h <;> rw [h]
  · exact .refl s
  · exact .elapse _ s

/-! ### Program order -/

/-- Pending accesses to the same bytes are still in order after an event. -/
theorem State.InOrder.tick {s : State} (h : s.InOrder) (e : EnvEvent) : (s.tick e).InOrder := by
  unfold State.InOrder at *
  rw [State.tick_pending]
  refine List.Pairwise.map _ ?_ (h.filter _)
  intro p q hpq ho
  have := hpq ho
  simp only; omega

theorem State.InOrder.elapse {s : State} (h : s.InOrder) (n : Nat) : (s.elapse n).InOrder :=
  State.elapse_induction (P := State.InOrder) n s (fun s e rest _ h => State.InOrder.tick (s := { s with env := rest }) h e)
    (fun s _ => by unfold State.InOrder; simp) h

/-- An access that waits for the earlier ones to its bytes joins behind them. -/
theorem State.InOrder.issueAfter {s : State} (h : s.InOrder) {n : Nat} {pa : Word} {sz : AccessSize}
    (hn : s.overlapWait pa (sizeBytes sz) ≤ n) (eff : AccessEffect) : (s.issueAfter n pa sz eff).InOrder := by
  rcases State.issueAfter_cases s n pa sz eff with ⟨_, he⟩ | ⟨k, hk, hq⟩
  · rw [he]; unfold State.InOrder; rw [State.performed_pending]; exact h
  · rw [hq]
    unfold State.InOrder
    refine List.pairwise_append.2 ⟨h, List.pairwise_singleton _ _, ?_⟩
    intro p hp q hq ho
    cases List.mem_singleton.1 hq
    have := State.wait_lt_lastDue (sel := fun p => p.overlaps pa (sizeBytes sz)) hp ho
    unfold State.overlapWait at hn
    simp only
    omega

theorem State.InOrder.issue {s : State} (h : s.InOrder) (pa : Word) (sz : AccessSize) (eff : AccessEffect) :
    (s.issue pa sz eff).InOrder := h.issueAfter (s.overlapWait_le_waitFor pa _) eff

/-- Where accesses to the same bytes are in order, the newest store to a byte is among those that are not due, if one is. -/
theorem pendingByte_due {l : List Pending} (a : Word)
    (h : l.Pairwise fun p q => p.overlaps q.addr (sizeBytes q.size) = true → p.wait ≤ q.wait) :
    pendingByte l a = (pendingByte (l.filter fun p => p.wait != 0) a).or (pendingByte (l.filter fun p => p.wait == 0) a) := by
  induction l with
  | nil => rfl
  | cons p rest ih =>
    have hp := (List.pairwise_cons.1 h).1
    rw [pendingByte_cons, ih (List.pairwise_cons.1 h).2]
    cases h0 : p.wait == 0
    · have h1 : (p.wait != 0) = true := by simpa using h0
      simp only [List.filter_cons, h0, h1, if_true, Bool.false_eq_true, if_false, pendingByte_cons]
      cases hb : p.byteAt a with
      | none => simp
      | some b =>
        have : pendingByte (rest.filter fun p => p.wait == 0) a = none := by
          rw [pendingByte_eq_none]
          intro q hq
          obtain ⟨hq, hq0⟩ := List.mem_filter.1 hq
          by_contra hc
          obtain ⟨b', hb'⟩ := Option.ne_none_iff_exists'.1 hc
          have := hp q hq (overlaps_of_mem (Pending.lt_of_byteAt hb) (Pending.lt_of_byteAt hb'))
          simp at h0 hq0
          omega
        rw [this]; simp
    · have h1 : (p.wait != 0) = false := by simpa using h0
      simp only [List.filter_cons, h0, h1, if_true, Bool.false_eq_true, if_false, pendingByte_cons, Option.or_assoc]

theorem pendingByte_map_wait (l : List Pending) (f : Pending → Nat) (a : Word) :
    pendingByte (l.map fun p => { p with wait := f p }) a = pendingByte l a := by
  induction l with
  | nil => rfl
  | cons p rest ih => simp [pendingByte_cons, ih]

/-! ### The newest store to a byte -/

theorem EnvEvent.byteAt_of_writes {st : Store} {a : Word} (h : ¬ (a - st.addr).toNat < sizeBytes st.size) :
    st.byteAt a = none := by unfold Store.byteAt; rw [if_neg h]

/-- An event that does not write a byte leaves it as it is in memory. -/
theorem State.memByte_afterEvent {s : State} {e : EnvEvent} {a : Word} (h : e.writes a = false) :
    (s.afterEvent e).memByte a = s.memByte a := by
  cases e <;> simp only [EnvEvent.writes, decide_eq_false_iff_not] at h <;> simp only [State.afterEvent]
  case lpStore st => rw [State.memByte_takeEffect, EnvEvent.byteAt_of_writes h]; rfl
  case extStore st => unfold State.memByte; simp only; rw [Memory.read_store, EnvEvent.byteAt_of_writes h]; rfl
  all_goals repeat' split
  all_goals rfl

/-- An event that does not write a byte leaves it as loads see it where the d-cache agrees with memory. -/
theorem State.loadByte_afterEvent {s : State} {e : EnvEvent} {a : Word} {b : Byte} (h : e.writes a = false)
    (hm : s.memByte a = b) (hl : s.loadByte a = b) : (s.afterEvent e).loadByte a = b := by
  rw [State.loadByte_eq] at hl ⊢
  rw [State.memByte_afterEvent h, hm, State.afterEvent_platform]
  rw [hm] at hl
  cases hd : s.platform.hasDcache
  · simp
  simp only [hd, if_true] at hl ⊢
  cases e <;> simp only [EnvEvent.writes, decide_eq_false_iff_not] at h <;> simp only [State.afterEvent]
  case lpStore st =>
    rw [State.takeEffect_dcache, cachedByte_store, EnvEvent.byteAt_of_writes h]
    cases hc : cachedByte s.dcache a <;> simp_all
  case fillD n =>
    simp only [hd, if_true, cachedByte_cons, cachedByte_cacheDrop]
    by_cases hn : n = a.toNat / 64
    · rw [if_pos hn, read_blockOf _ _ _ hn.symm]; exact hm
    · rw [if_neg hn, if_neg (fun h => hn h.symm)]; exact hl
  case dropD n =>
    rw [cachedByte_cacheDrop]
    split <;> simp_all
  all_goals repeat' split
  all_goals exact hl

theorem State.Undisturbed.next {s : State} {a : Word} (h : s.Undisturbed a) {e : EnvEvent} {rest : List EnvInput}
    (he : nextEvent s.env = some (e, rest)) : e.writes a = false ∧ State.Undisturbed { s with env := rest } a := by
  obtain ⟨_, ⟨i, hi, hie⟩, h3⟩ := nextEvent_spec he
  refine ⟨h i hi e hie, fun j hj e' he' => ?_⟩
  obtain ⟨k, hk, hke⟩ := h3 j hj e' he'
  exact h k hk e' hke

/-- The byte that memory will have once everything pending has taken effect: no event that leaves the byte alone changes it. -/
theorem State.newest_tick {s : State} {e : EnvEvent} {a : Word} (ho : s.InOrder) (h : e.writes a = false) :
    (pendingByte (s.tick e).pending a).getD ((s.tick e).memByte a) = (pendingByte s.pending a).getD (s.memByte a) := by
  rw [State.tick_pending, pendingByte_map_wait]
  unfold State.tick State.comeDue
  rw [State.performDue_memByte, State.memByte_afterEvent h, State.afterEvent_pending, pendingByte_due a ho]
  cases pendingByte (s.pending.filter fun p => p.wait != 0) a <;> rfl

/-- The same through a wait. -/
theorem State.newest_elapse {a : Word} (n : Nat) : ∀ s : State, s.InOrder → s.Undisturbed a →
    (pendingByte (s.elapse n).pending a).getD ((s.elapse n).memByte a) = (pendingByte s.pending a).getD (s.memByte a) := by
  induction n with
  | zero => exact fun s _ _ => rfl
  | succ n ih =>
    intro s ho hu
    unfold State.elapse
    split
    · rename_i e rest he
      obtain ⟨hw, hu'⟩ := hu.next he
      have ho' : State.InOrder { s with env := rest } := ho
      have hu'' : (({ s with env := rest } : State).tick e).Undisturbed a := by
        unfold State.Undisturbed; rw [State.tick_env]; exact hu'
      rw [ih _ (ho'.tick e) hu'']
      exact State.newest_tick ho' hw
    · rw [State.performAll_pending]
      unfold State.performAll
      rw [State.performDue_memByte]
      simp [pendingByte]

end Sys2Proof.Machine
end

