-- ==== Sys2Proof/Laws/Exec.lean ====
section
/-!
SUPPORT. What an instruction can do, said once: every instruction has one of the effects below, so a claim about all of them is
a case for each.
-/
namespace Sys2Proof.Machine

/-- The state in which an interrupt is raised: a load-lock has written its lock state or not. -/
inductive RaisedFrom (s : State) : State → Prop where
  | as_is : RaisedFrom s s
  | locked (addr : Word) (sz : AccessSize) (pa : Word) : RaisedFrom s (s.lockOn addr sz pa)

/-- The effects of instructions on a state. -/
inductive ExecEffect (s : State) : Instr → State → Prop where
  /-- No effect: `spin`, a branch not taken. -/
  | none (ins : Instr) : ExecEffect s ins s
  /-- One register written: arithmetic, logic, comparison, `lctrl`. -/
  | write (ins : Instr) (r : Reg) (v : Word) : ExecEffect s ins (s.setReg r v)
  /-- `bz` taken. -/
  | bz (r : Reg) (k : BitVec 19) (v : Word) : ExecEffect s (.bz r k) (s.setPc v)
  /-- `bn` taken. -/
  | bn (r : Reg) (k : BitVec 19) (v : Word) : ExecEffect s (.bn r k) (s.setPc v)
  /-- `jl`. -/
  | jl (r q : Reg) (k : BitVec 14) (v w : Word) : ExecEffect s (.jl r q k) ((s.setPc v).setReg r w)
  /-- `jlr`. -/
  | jlr (r q : Reg) (k : BitVec 14) (v w : Word) : ExecEffect s (.jlr r q k) ((s.setPc v).setReg r w)
  /-- A plain load. -/
  | load (ins : Instr) (pa : Word) (sz : AccessSize) (r : Reg) (v : Word) : ExecEffect s ins ((s.issue pa sz .load).setReg r v)
  /-- A load-lock. -/
  | loadLock (p : (Reg → Reg → Reg → BitVec 9 → Instr) × AccessSize) (hp : p ∈ loadLocks) (r1 r2 r3 : Reg)
      (imm9 : BitVec 9) (pa addr v : Word) :
      ExecEffect s (p.1 r1 r2 r3 imm9) (((s.lockOn addr p.2 pa).issue pa p.2 .loadLock).setReg r1 v)
  /-- A plain store. -/
  | store (ins : Instr) (pa : Word) (sz : AccessSize) (v : Word) : ExecEffect s ins (s.issue pa sz (.store v))
  /-- A store-conditional that succeeds. -/
  | storeConditional (ins : Instr) (n : Nat) (pa : Word) (sz : AccessSize)
      (hn : s.overlapWait pa (sizeBytes sz) ≤ n ∧ n ≤ s.waitFor pa (sizeBytes sz)) (x : Word) (r : Reg) (v : Word) :
      ExecEffect s ins ((s.issueAfter n pa sz (.store x)).unlock.setReg r v)
  /-- A store-conditional that fails. -/
  | waitWrite (ins : Instr) (n : Nat) (r : Reg) (v : Word) : ExecEffect s ins ((s.elapse n).setReg r v)
  /-- `fence`. -/
  | wait (ins : Instr) (n : Nat) : ExecEffect s ins (s.elapse n)
  /-- `cfetch`. -/
  | unlock (ins : Instr) : ExecEffect s ins s.unlock
  /-- `cinval`. -/
  | discard (ins : Instr) (d i : Bool) (p : Nat → Bool) : ExecEffect s ins (s.unlock.discard d i p)
  /-- `wait`, in kernel mode. -/
  | pause (ins : Instr) (hk : s.statU = false) : ExecEffect s ins { s with paused := true }
  /-- `iret`, in kernel mode. -/
  | iret (hk : s.statU = false) : ExecEffect s .iret s.returnFromInterrupt
  /-- `sctrl`, in kernel mode. -/
  | sctrl (ins : Instr) (hk : s.statU = false) (n : CtrlReg) (v : Word) :
      ExecEffect s ins ((s.setCtrl n v).dropTranslations n)
  /-- An interrupt. -/
  | interrupt (ins : Instr) (b : State) (hb : RaisedFrom s b) (i : Interrupt) : ExecEffect s ins (b.enterInterrupt i)

theorem ExecEffect.of_raised {s b : State} {ins : Instr} (hb : RaisedFrom s b) (i : Interrupt) :
    ∃ t, b.raised i = .next t ∧ ExecEffect s ins t := ⟨_, rfl, .interrupt ins b hb i⟩

theorem State.load_effect (s : State) (ins : Instr) (sz : AccessSize) (r1 r2 r3 : Reg) (imm9 : BitVec 9) :
    ∃ t, s.load sz r1 r2 r3 imm9 = .next t ∧ ExecEffect s ins t := by
  unfold State.load State.memRead
  cases s.accessAddr (s.indexedAddr sz r2 r3 imm9) sz .read with
  | error i => exact ExecEffect.of_raised .as_is i
  | ok pa =>
    by_cases hb : s.busOk pa sz .read = true
    · simp only [hb, if_true]; exact ⟨_, rfl, .load ins pa sz r1 _⟩
    · simp only [hb]; exact ExecEffect.of_raised .as_is _

theorem State.loadLock_effect (s : State) (p : (Reg → Reg → Reg → BitVec 9 → Instr) × AccessSize) (hp : p ∈ loadLocks)
    (r1 r2 r3 : Reg) (imm9 : BitVec 9) :
    ∃ t, s.loadLock p.2 r1 r2 r3 imm9 = .next t ∧ ExecEffect s (p.1 r1 r2 r3 imm9) t := by
  unfold State.loadLock
  simp only []
  cases s.accessAddr (s.indexedAddr p.2 r2 r3 imm9) p.2 .read with
  | error i => exact ExecEffect.of_raised (.locked _ _ _) i
  | ok pa =>
    by_cases hb : s.busOk pa p.2 .read = true
    · simp only [hb, if_true]; exact ⟨_, rfl, .loadLock p hp r1 r2 r3 imm9 pa _ _⟩
    · simp only [hb]; exact ExecEffect.of_raised (.locked _ _ _) _

theorem State.store_effect (s : State) (ins : Instr) (sz : AccessSize) (r1 r2 r3 : Reg) (imm9 : BitVec 9) :
    ∃ t, s.store sz r1 r2 r3 imm9 = .next t ∧ ExecEffect s ins t := by
  unfold State.store State.memWrite
  cases s.accessAddr (s.indexedAddr sz r2 r3 imm9) sz .write with
  | error i => exact ExecEffect.of_raised .as_is i
  | ok pa =>
    by_cases hb : s.busOk pa sz .write = true
    · simp only [hb, if_true]; exact ⟨_, rfl, .store ins pa sz _⟩
    · simp only [hb]; exact ExecEffect.of_raised .as_is _

theorem State.storeConditional_effect (s : State) (ins : Instr) (sz : AccessSize) (r1 r2 r3 : Reg) (imm9 : BitVec 9) :
    ∃ t, s.storeConditional sz r1 r2 r3 imm9 = .next t ∧ ExecEffect s ins t := by
  unfold State.storeConditional
  simp only []
  cases s.accessAddr (s.conditionalAddr sz r3 imm9) sz .write with
  | error i => exact ExecEffect.of_raised .as_is i
  | ok pa =>
    simp only []
    split
    · split
      · exact ⟨_, rfl, .storeConditional ins _ pa sz (s.conditionalWait_bounds _ pa sz) _ r2 1⟩
      · exact ExecEffect.of_raised .as_is _
    · refine ⟨_, rfl, ?_⟩
      rcases s.testPoint_cases (s.conditionalAddr sz r3 imm9) pa sz with h | h <;> rw [h]
      · exact .waitWrite ins 0 r2 0
      · exact .waitWrite ins _ r2 0

/-- Every instruction answers a next state, by one of the effects. -/
theorem exec_effect (ins : Instr) (s : State) : ∃ t, exec ins s = .next t ∧ ExecEffect s ins t := by
  cases ins
  case lw r1 r2 r3 imm9 => exact s.load_effect _ .word r1 r2 r3 imm9
  case lh r1 r2 r3 imm9 => exact s.load_effect _ .half r1 r2 r3 imm9
  case lq r1 r2 r3 imm9 => exact s.load_effect _ .quarter r1 r2 r3 imm9
  case lb r1 r2 r3 imm9 => exact s.load_effect _ .byte r1 r2 r3 imm9
  case llw r1 r2 r3 imm9 => exact s.loadLock_effect (.llw, .word) (by simp [loadLocks]) r1 r2 r3 imm9
  case llh r1 r2 r3 imm9 => exact s.loadLock_effect (.llh, .half) (by simp [loadLocks]) r1 r2 r3 imm9
  case llq r1 r2 r3 imm9 => exact s.loadLock_effect (.llq, .quarter) (by simp [loadLocks]) r1 r2 r3 imm9
  case llb r1 r2 r3 imm9 => exact s.loadLock_effect (.llb, .byte) (by simp [loadLocks]) r1 r2 r3 imm9
  case sw r1 r2 r3 imm9 => exact s.store_effect _ .word r1 r2 r3 imm9
  case sh r1 r2 r3 imm9 => exact s.store_effect _ .half r1 r2 r3 imm9
  case sq r1 r2 r3 imm9 => exact s.store_effect _ .quarter r1 r2 r3 imm9
  case sb r1 r2 r3 imm9 => exact s.store_effect _ .byte r1 r2 r3 imm9
  case scw r1 r2 r3 imm9 => exact s.storeConditional_effect _ .word r1 r2 r3 imm9
  case sch r1 r2 r3 imm9 => exact s.storeConditional_effect _ .half r1 r2 r3 imm9
  case scq r1 r2 r3 imm9 => exact s.storeConditional_effect _ .quarter r1 r2 r3 imm9
  case scb r1 r2 r3 imm9 => exact s.storeConditional_effect _ .byte r1 r2 r3 imm9
  case fence l b => exact ⟨_, rfl, .wait _ _⟩
  case cinval r1 d i m =>
    simp only [exec, execCinval]
    split
    · exact ExecEffect.of_raised .as_is _
    · split
      · exact ⟨_, rfl, .discard _ _ _ _⟩
      · split
        · exact ExecEffect.of_raised .as_is _
        · split <;> exact ⟨_, rfl, .discard _ _ _ _⟩
  case cfetch r1 l b i =>
    simp only [exec, execCfetch]
    split
    · exact ExecEffect.of_raised .as_is _
    · exact ⟨_, rfl, .unlock _⟩
  case bz r k =>
    simp only [exec, execBz]
    split
    · exact ⟨_, rfl, .bz _ _ _⟩
    · exact ⟨_, rfl, .none _⟩
  case bn r k =>
    simp only [exec, execBn]
    split
    · exact ⟨_, rfl, .bn _ _ _⟩
    · exact ⟨_, rfl, .none _⟩
  case jl r q k => exact ⟨_, rfl, .jl _ _ _ _ _⟩
  case jlr r q k => exact ⟨_, rfl, .jlr _ _ _ _ _⟩
  case syscall => exact ExecEffect.of_raised .as_is _
  case breakpt => exact ExecEffect.of_raised .as_is _
  case spin => exact ⟨_, rfl, .none _⟩
  case wait =>
    cases hk : s.statU <;> simp only [exec, execWait, hk]
    · exact ⟨_, rfl, .pause _ hk⟩
    · exact ExecEffect.of_raised .as_is _
  case iret =>
    cases hk : s.statU <;> simp only [exec, execIret, hk]
    · exact ⟨_, rfl, .iret hk⟩
    · exact ExecEffect.of_raised .as_is _
  case lctrl r1 imm19 =>
    cases hk : s.statU <;> simp only [exec, execLctrl, hk]
    · cases ctrlNumber imm19 with
      | none => exact ExecEffect.of_raised .as_is _
      | some n => exact ⟨_, rfl, .write _ _ _⟩
    · exact ExecEffect.of_raised .as_is _
  case sctrl r1 imm19 =>
    cases hk : s.statU <;> simp only [exec, execSctrl, hk]
    · cases ctrlNumber imm19 with
      | none => exact ExecEffect.of_raised .as_is _
      | some n => exact ⟨_, rfl, .sctrl _ hk _ _⟩
    · exact ExecEffect.of_raised .as_is _
  all_goals exact ⟨_, rfl, .write _ _ _⟩

/-- The effect of an instruction that answered a next state. -/
theorem effect_of_exec {ins : Instr} {s t : State} (h : exec ins s = .next t) : ExecEffect s ins t := by
  obtain ⟨t', h', he⟩ := exec_effect ins s
  rw [h] at h'
  injection h' with h'
  exact h' ▸ he

/-- What one step can do: the boundary's events, and then an external interrupt, a pause that goes on, an interrupt of the fetch,
INVALID for a word that is no instruction, or the instruction decoded, in the state in which the word was fetched. -/
theorem step_cases (s : State) :
    (s.takesExternal = true ∧ step s = .next (s.atBoundary.enterInterrupt (plainInterrupt .externl))) ∨
    (s.takesExternal = false ∧ s.atBoundary.paused = true ∧ step s = .next s.atBoundary) ∨
    (s.takesExternal = false ∧ s.atBoundary.paused = false ∧
      ((∃ e, s.atBoundary.fetchWord s.atBoundary.pc = .error e ∧ step s = .next (s.atBoundary.enterInterrupt e)) ∨
       (∃ w b e, s.atBoundary.fetchWord s.atBoundary.pc = .ok (w, b) ∧ decodeWord w = .error e ∧
          step s = .next ((b.setPc (b.pc + 4)).enterInterrupt (plainInterrupt .invalid))) ∨
       (∃ w b ins, s.atBoundary.fetchWord s.atBoundary.pc = .ok (w, b) ∧ decodeWord w = .ok ins ∧
          step s = exec ins (b.setPc (b.pc + 4))))) := by
  unfold step State.fetchExecute
  cases h1 : s.takesExternal
  · cases h2 : s.atBoundary.paused
    · right; right
      refine ⟨rfl, rfl, ?_⟩
      cases h3 : s.atBoundary.fetchWord s.atBoundary.pc with
      | error e => exact .inl ⟨e, rfl, rfl⟩
      | ok x =>
        obtain ⟨w, b⟩ := x
        cases h4 : decodeWord w with
        | error e => exact .inr (.inl ⟨w, b, e, rfl, h4, by simp [State.executeWord, h4]; rfl⟩)
        | ok ins => exact .inr (.inr ⟨w, b, ins, rfl, h4, by simp [State.executeWord, h4]⟩)
    · exact .inr (.inl ⟨rfl, rfl, rfl⟩)
  · exact .inl ⟨rfl, rfl⟩

end Sys2Proof.Machine
end

