-- ==== Sys2Proof/Laws/PerInstr.lean ====
section
/-!
SUPPORT. The family of statements made for every instruction by name: its encoding is 0 outside the bits that the instruction
uses (30_encoding.md R97: "Assemblers write 0").
-/
namespace Sys2Proof.Laws

/-- The word of the instruction has every unused bit 0. -/
def UnusedBitsZero.Statement (i : Instr) : Prop := encode i &&& i.usedBits = encode i

/-- A word below `2 ^ k` is not changed by the mask of the low `k` bits. -/
theorem and_lowMask (w m : InstrWord) (k : Nat) (hm : m.toNat = 2 ^ k - 1) (hw : w.toNat < 2 ^ k) : w &&& m = w := by
  apply BitVec.eq_of_toNat_eq
  rw [BitVec.toNat_and, hm, Nat.and_two_pow_sub_one_eq_mod, Nat.mod_eq_of_lt hw]

/-! ### The bounds of the split immediates -/

theorem immBound_cinval (d i : Bool) (m : BitVec 2) : BitVec.toNat (w := 19) (0#15 ++ m ++ flagBit i ++ flagBit d) < 2 ^ 4 := by
  revert d i m; decide

theorem immBound_cfetch (l s i : Bool) : BitVec.toNat (w := 19) (0#16 ++ flagBit i ++ flagBit s ++ flagBit l) < 2 ^ 3 := by
  revert l s i; decide

theorem immBound_cb (lsh rsh : BitVec 6) : BitVec.toNat (w := 14) (0#2 ++ rsh ++ lsh) < 2 ^ 12 := by
  show BitVec.toNat (w := 2 + 6 + 6) (0#2 ++ rsh ++ lsh) < _
  have := lsh.isLt; have := rsh.isLt
  rw [BitVec.toNat_append, BitVec.toNat_append, ← Nat.shiftLeft_add_eq_or_of_lt (by omega),
    ← Nat.shiftLeft_add_eq_or_of_lt (by omega)]
  simp only [Nat.shiftLeft_eq, BitVec.toNat_ofNat]
  omega

theorem immBound_si (lsh rsh : BitVec 6) (i : Bool) :
    BitVec.toNat (w := 14) (0#1 ++ flagBit i ++ rsh ++ lsh) < 2 ^ 13 := by
  show BitVec.toNat (w := 1 + 1 + 6 + 6) (0#1 ++ flagBit i ++ rsh ++ lsh) < _
  have := lsh.isLt; have := rsh.isLt; have := (flagBit i).isLt
  rw [BitVec.toNat_append, BitVec.toNat_append, BitVec.toNat_append, ← Nat.shiftLeft_add_eq_or_of_lt (by omega),
    ← Nat.shiftLeft_add_eq_or_of_lt (by omega), ← Nat.shiftLeft_add_eq_or_of_lt (by omega)]
  simp only [Nat.shiftLeft_eq, BitVec.toNat_ofNat]
  omega

theorem immBound_rev (set : BitVec 6) : BitVec.toNat (w := 14) (0#8 ++ set) < 2 ^ 6 := by
  show BitVec.toNat (w := 8 + 6) (0#8 ++ set) < _
  have := set.isLt
  rw [BitVec.toNat_append, ← Nat.shiftLeft_add_eq_or_of_lt (by omega)]
  simp only [Nat.shiftLeft_eq, BitVec.toNat_ofNat]
  omega

/-! ### One lemma per instruction -/

theorem UnusedBitsZero.lw (r1 r2 r3 : Reg) (imm9 : BitVec 9) : UnusedBitsZero.Statement (.lw r1 r2 r3 imm9) := by
  exact BitVec.and_allOnes

theorem UnusedBitsZero.lh (r1 r2 r3 : Reg) (imm9 : BitVec 9) : UnusedBitsZero.Statement (.lh r1 r2 r3 imm9) := by
  exact BitVec.and_allOnes

theorem UnusedBitsZero.lq (r1 r2 r3 : Reg) (imm9 : BitVec 9) : UnusedBitsZero.Statement (.lq r1 r2 r3 imm9) := by
  exact BitVec.and_allOnes

theorem UnusedBitsZero.lb (r1 r2 r3 : Reg) (imm9 : BitVec 9) : UnusedBitsZero.Statement (.lb r1 r2 r3 imm9) := by
  exact BitVec.and_allOnes

theorem UnusedBitsZero.llw (r1 r2 r3 : Reg) (imm9 : BitVec 9) : UnusedBitsZero.Statement (.llw r1 r2 r3 imm9) := by
  exact BitVec.and_allOnes

theorem UnusedBitsZero.llh (r1 r2 r3 : Reg) (imm9 : BitVec 9) : UnusedBitsZero.Statement (.llh r1 r2 r3 imm9) := by
  exact BitVec.and_allOnes

theorem UnusedBitsZero.llq (r1 r2 r3 : Reg) (imm9 : BitVec 9) : UnusedBitsZero.Statement (.llq r1 r2 r3 imm9) := by
  exact BitVec.and_allOnes

theorem UnusedBitsZero.llb (r1 r2 r3 : Reg) (imm9 : BitVec 9) : UnusedBitsZero.Statement (.llb r1 r2 r3 imm9) := by
  exact BitVec.and_allOnes

theorem UnusedBitsZero.sw (r1 r2 r3 : Reg) (imm9 : BitVec 9) : UnusedBitsZero.Statement (.sw r1 r2 r3 imm9) := by
  exact BitVec.and_allOnes

theorem UnusedBitsZero.sh (r1 r2 r3 : Reg) (imm9 : BitVec 9) : UnusedBitsZero.Statement (.sh r1 r2 r3 imm9) := by
  exact BitVec.and_allOnes

theorem UnusedBitsZero.sq (r1 r2 r3 : Reg) (imm9 : BitVec 9) : UnusedBitsZero.Statement (.sq r1 r2 r3 imm9) := by
  exact BitVec.and_allOnes

theorem UnusedBitsZero.sb (r1 r2 r3 : Reg) (imm9 : BitVec 9) : UnusedBitsZero.Statement (.sb r1 r2 r3 imm9) := by
  exact BitVec.and_allOnes

theorem UnusedBitsZero.scw (r1 r2 r3 : Reg) (imm9 : BitVec 9) : UnusedBitsZero.Statement (.scw r1 r2 r3 imm9) := by
  exact BitVec.and_allOnes

theorem UnusedBitsZero.sch (r1 r2 r3 : Reg) (imm9 : BitVec 9) : UnusedBitsZero.Statement (.sch r1 r2 r3 imm9) := by
  exact BitVec.and_allOnes

theorem UnusedBitsZero.scq (r1 r2 r3 : Reg) (imm9 : BitVec 9) : UnusedBitsZero.Statement (.scq r1 r2 r3 imm9) := by
  exact BitVec.and_allOnes

theorem UnusedBitsZero.scb (r1 r2 r3 : Reg) (imm9 : BitVec 9) : UnusedBitsZero.Statement (.scb r1 r2 r3 imm9) := by
  exact BitVec.and_allOnes

theorem UnusedBitsZero.fence (l s : Bool) : UnusedBitsZero.Statement (.fence l s) := by
  revert l s; unfold UnusedBitsZero.Statement; decide

theorem UnusedBitsZero.cinval (r1 : Reg) (d i : Bool) (m : BitVec 2) : UnusedBitsZero.Statement (.cinval r1 d i m) := by
  refine and_lowMask _ _ 17 rfl ?_
  show (formatA 0x30#8 r1 (0#15 ++ m ++ flagBit i ++ flagBit d)).toNat < _
  rw [toNat_formatA]
  have h := immBound_cinval d i m
  have := r1.isLt
  omega

theorem UnusedBitsZero.cfetch (r1 : Reg) (l s i : Bool) : UnusedBitsZero.Statement (.cfetch r1 l s i) := by
  refine and_lowMask _ _ 16 rfl ?_
  show (formatA 0x50#8 r1 (0#16 ++ flagBit i ++ flagBit s ++ flagBit l)).toNat < _
  rw [toNat_formatA]
  have h := immBound_cfetch l s i
  have := r1.isLt
  omega

theorem UnusedBitsZero.ssi (r1 : Reg) (c : Bool) (sh : BitVec 2) (val : BitVec 16) :
    UnusedBitsZero.Statement (.ssi r1 c sh val) := by
  exact BitVec.and_allOnes

theorem UnusedBitsZero.add (r1 r2 r3 : Reg) (imm9 : BitVec 9) : UnusedBitsZero.Statement (.add r1 r2 r3 imm9) := by
  exact BitVec.and_allOnes

theorem UnusedBitsZero.sub (r1 r2 r3 : Reg) (imm9 : BitVec 9) : UnusedBitsZero.Statement (.sub r1 r2 r3 imm9) := by
  exact BitVec.and_allOnes

theorem UnusedBitsZero.mul (r1 r2 r3 : Reg) (imm9 : BitVec 9) : UnusedBitsZero.Statement (.mul r1 r2 r3 imm9) := by
  exact BitVec.and_allOnes

theorem UnusedBitsZero.umulh (r1 r2 r3 : Reg) (imm9 : BitVec 9) : UnusedBitsZero.Statement (.umulh r1 r2 r3 imm9) := by
  exact BitVec.and_allOnes

theorem UnusedBitsZero.imulh (r1 r2 r3 : Reg) (imm9 : BitVec 9) : UnusedBitsZero.Statement (.imulh r1 r2 r3 imm9) := by
  exact BitVec.and_allOnes

theorem UnusedBitsZero.udiv (r1 r2 r3 : Reg) (imm9 : BitVec 9) : UnusedBitsZero.Statement (.udiv r1 r2 r3 imm9) := by
  exact BitVec.and_allOnes

theorem UnusedBitsZero.idiv (r1 r2 r3 : Reg) (imm9 : BitVec 9) : UnusedBitsZero.Statement (.idiv r1 r2 r3 imm9) := by
  exact BitVec.and_allOnes

theorem UnusedBitsZero.urem (r1 r2 r3 : Reg) (imm9 : BitVec 9) : UnusedBitsZero.Statement (.urem r1 r2 r3 imm9) := by
  exact BitVec.and_allOnes

theorem UnusedBitsZero.irem (r1 r2 r3 : Reg) (imm9 : BitVec 9) : UnusedBitsZero.Statement (.irem r1 r2 r3 imm9) := by
  exact BitVec.and_allOnes

theorem UnusedBitsZero.addi (r1 r2 : Reg) (imm14 : BitVec 14) : UnusedBitsZero.Statement (.addi r1 r2 imm14) := by
  exact BitVec.and_allOnes

theorem UnusedBitsZero.subi (r1 r2 : Reg) (imm14 : BitVec 14) : UnusedBitsZero.Statement (.subi r1 r2 imm14) := by
  exact BitVec.and_allOnes

theorem UnusedBitsZero.muli (r1 r2 : Reg) (imm14 : BitVec 14) : UnusedBitsZero.Statement (.muli r1 r2 imm14) := by
  exact BitVec.and_allOnes

theorem UnusedBitsZero.udivi (r1 r2 : Reg) (imm14 : BitVec 14) : UnusedBitsZero.Statement (.udivi r1 r2 imm14) := by
  exact BitVec.and_allOnes

theorem UnusedBitsZero.idivi (r1 r2 : Reg) (imm14 : BitVec 14) : UnusedBitsZero.Statement (.idivi r1 r2 imm14) := by
  exact BitVec.and_allOnes

theorem UnusedBitsZero.uremi (r1 r2 : Reg) (imm14 : BitVec 14) : UnusedBitsZero.Statement (.uremi r1 r2 imm14) := by
  exact BitVec.and_allOnes

theorem UnusedBitsZero.iremi (r1 r2 : Reg) (imm14 : BitVec 14) : UnusedBitsZero.Statement (.iremi r1 r2 imm14) := by
  exact BitVec.and_allOnes

theorem UnusedBitsZero.and (r1 r2 r3 : Reg) (imm9 : BitVec 9) : UnusedBitsZero.Statement (.and r1 r2 r3 imm9) := by
  exact BitVec.and_allOnes

theorem UnusedBitsZero.or (r1 r2 r3 : Reg) (imm9 : BitVec 9) : UnusedBitsZero.Statement (.or r1 r2 r3 imm9) := by
  exact BitVec.and_allOnes

theorem UnusedBitsZero.nor (r1 r2 r3 : Reg) (imm9 : BitVec 9) : UnusedBitsZero.Statement (.nor r1 r2 r3 imm9) := by
  exact BitVec.and_allOnes

theorem UnusedBitsZero.xor (r1 r2 r3 : Reg) (imm9 : BitVec 9) : UnusedBitsZero.Statement (.xor r1 r2 r3 imm9) := by
  exact BitVec.and_allOnes

theorem UnusedBitsZero.andi (r1 r2 : Reg) (imm14 : BitVec 14) : UnusedBitsZero.Statement (.andi r1 r2 imm14) := by
  exact BitVec.and_allOnes

theorem UnusedBitsZero.ori (r1 r2 : Reg) (imm14 : BitVec 14) : UnusedBitsZero.Statement (.ori r1 r2 imm14) := by
  exact BitVec.and_allOnes

theorem UnusedBitsZero.nori (r1 r2 : Reg) (imm14 : BitVec 14) : UnusedBitsZero.Statement (.nori r1 r2 imm14) := by
  exact BitVec.and_allOnes

theorem UnusedBitsZero.xori (r1 r2 : Reg) (imm14 : BitVec 14) : UnusedBitsZero.Statement (.xori r1 r2 imm14) := by
  exact BitVec.and_allOnes

theorem UnusedBitsZero.sl (r1 r2 r3 : Reg) (imm9 : BitVec 9) : UnusedBitsZero.Statement (.sl r1 r2 r3 imm9) := by
  exact BitVec.and_allOnes

theorem UnusedBitsZero.usr (r1 r2 r3 : Reg) (imm9 : BitVec 9) : UnusedBitsZero.Statement (.usr r1 r2 r3 imm9) := by
  exact BitVec.and_allOnes

theorem UnusedBitsZero.isr (r1 r2 r3 : Reg) (imm9 : BitVec 9) : UnusedBitsZero.Statement (.isr r1 r2 r3 imm9) := by
  exact BitVec.and_allOnes

theorem UnusedBitsZero.si (r1 r2 : Reg) (lsh rsh : BitVec 6) (i : Bool) :
    UnusedBitsZero.Statement (.si r1 r2 lsh rsh i) := by
  refine and_lowMask _ _ 31 rfl ?_
  show (formatB 0x09#8 r1 r2 (0#1 ++ flagBit i ++ rsh ++ lsh)).toNat < _
  rw [toNat_formatB]
  have h := immBound_si lsh rsh i
  have := r1.isLt; have := r2.isLt
  omega

theorem UnusedBitsZero.cb (r1 r2 : Reg) (lsh rsh : BitVec 6) : UnusedBitsZero.Statement (.cb r1 r2 lsh rsh) := by
  refine and_lowMask _ _ 30 rfl ?_
  show (formatB 0x29#8 r1 r2 (0#2 ++ rsh ++ lsh)).toNat < _
  rw [toNat_formatB]
  have h := immBound_cb lsh rsh
  have := r1.isLt; have := r2.isLt
  omega

theorem UnusedBitsZero.ror (r1 r2 r3 : Reg) (imm9 : BitVec 9) : UnusedBitsZero.Statement (.ror r1 r2 r3 imm9) := by
  exact BitVec.and_allOnes

theorem UnusedBitsZero.rol (r1 r2 r3 : Reg) (imm9 : BitVec 9) : UnusedBitsZero.Statement (.rol r1 r2 r3 imm9) := by
  exact BitVec.and_allOnes

theorem UnusedBitsZero.rev (r1 r2 : Reg) (set : BitVec 6) : UnusedBitsZero.Statement (.rev r1 r2 set) := by
  refine and_lowMask _ _ 24 rfl ?_
  show (formatB 0x49#8 r1 r2 (0#8 ++ set)).toNat < _
  rw [toNat_formatB]
  have h := immBound_rev set
  have := r1.isLt; have := r2.isLt
  omega

theorem UnusedBitsZero.csb (r1 r2 : Reg) : UnusedBitsZero.Statement (.csb r1 r2) := by
  refine and_lowMask _ _ 18 rfl ?_
  show (formatB 0xC5#8 r1 r2 0).toNat < _
  rw [toNat_formatB]
  have := r1.isLt; have := r2.isLt
  rw [show BitVec.toNat (0 : BitVec 14) = 0 from rfl]
  simp only [BitVec.toNat_ofNat]
  omega

theorem UnusedBitsZero.clz (r1 r2 : Reg) : UnusedBitsZero.Statement (.clz r1 r2) := by
  refine and_lowMask _ _ 18 rfl ?_
  show (formatB 0x85#8 r1 r2 0).toNat < _
  rw [toNat_formatB]
  have := r1.isLt; have := r2.isLt
  rw [show BitVec.toNat (0 : BitVec 14) = 0 from rfl]
  simp only [BitVec.toNat_ofNat]
  omega

theorem UnusedBitsZero.ctz (r1 r2 : Reg) : UnusedBitsZero.Statement (.ctz r1 r2) := by
  refine and_lowMask _ _ 18 rfl ?_
  show (formatB 0xA5#8 r1 r2 0).toNat < _
  rw [toNat_formatB]
  have := r1.isLt; have := r2.isLt
  rw [show BitVec.toNat (0 : BitVec 14) = 0 from rfl]
  simp only [BitVec.toNat_ofNat]
  omega

theorem UnusedBitsZero.ext (r1 r2 r3 : Reg) : UnusedBitsZero.Statement (.ext r1 r2 r3) := by
  refine and_lowMask _ _ 23 rfl ?_
  show (formatC 0x86#8 r1 r2 r3 0).toNat < _
  rw [toNat_formatC]
  have := r1.isLt; have := r2.isLt; have := r3.isLt
  rw [show BitVec.toNat (0 : BitVec 9) = 0 from rfl]
  simp only [BitVec.toNat_ofNat]
  omega

theorem UnusedBitsZero.dep (r1 r2 r3 : Reg) : UnusedBitsZero.Statement (.dep r1 r2 r3) := by
  refine and_lowMask _ _ 23 rfl ?_
  show (formatC 0xA6#8 r1 r2 r3 0).toNat < _
  rw [toNat_formatC]
  have := r1.isLt; have := r2.isLt; have := r3.isLt
  rw [show BitVec.toNat (0 : BitVec 9) = 0 from rfl]
  simp only [BitVec.toNat_ofNat]
  omega

theorem UnusedBitsZero.seq (r1 r2 r3 : Reg) (imm9 : BitVec 9) : UnusedBitsZero.Statement (.seq r1 r2 r3 imm9) := by
  exact BitVec.and_allOnes

theorem UnusedBitsZero.sult (r1 r2 r3 : Reg) (imm9 : BitVec 9) : UnusedBitsZero.Statement (.sult r1 r2 r3 imm9) := by
  exact BitVec.and_allOnes

theorem UnusedBitsZero.silt (r1 r2 r3 : Reg) (imm9 : BitVec 9) : UnusedBitsZero.Statement (.silt r1 r2 r3 imm9) := by
  exact BitVec.and_allOnes

theorem UnusedBitsZero.sule (r1 r2 r3 : Reg) (imm9 : BitVec 9) : UnusedBitsZero.Statement (.sule r1 r2 r3 imm9) := by
  exact BitVec.and_allOnes

theorem UnusedBitsZero.sile (r1 r2 r3 : Reg) (imm9 : BitVec 9) : UnusedBitsZero.Statement (.sile r1 r2 r3 imm9) := by
  exact BitVec.and_allOnes

theorem UnusedBitsZero.seqi (r1 r2 : Reg) (imm14 : BitVec 14) : UnusedBitsZero.Statement (.seqi r1 r2 imm14) := by
  exact BitVec.and_allOnes

theorem UnusedBitsZero.sulti (r1 r2 : Reg) (imm14 : BitVec 14) : UnusedBitsZero.Statement (.sulti r1 r2 imm14) := by
  exact BitVec.and_allOnes

theorem UnusedBitsZero.silti (r1 r2 : Reg) (imm14 : BitVec 14) : UnusedBitsZero.Statement (.silti r1 r2 imm14) := by
  exact BitVec.and_allOnes

theorem UnusedBitsZero.sulei (r1 r2 : Reg) (imm14 : BitVec 14) : UnusedBitsZero.Statement (.sulei r1 r2 imm14) := by
  exact BitVec.and_allOnes

theorem UnusedBitsZero.silei (r1 r2 : Reg) (imm14 : BitVec 14) : UnusedBitsZero.Statement (.silei r1 r2 imm14) := by
  exact BitVec.and_allOnes

theorem UnusedBitsZero.bz (r1 : Reg) (imm19 : BitVec 19) : UnusedBitsZero.Statement (.bz r1 imm19) := by
  exact BitVec.and_allOnes

theorem UnusedBitsZero.bn (r1 : Reg) (imm19 : BitVec 19) : UnusedBitsZero.Statement (.bn r1 imm19) := by
  exact BitVec.and_allOnes

theorem UnusedBitsZero.jl (r1 r2 : Reg) (imm14 : BitVec 14) : UnusedBitsZero.Statement (.jl r1 r2 imm14) := by
  exact BitVec.and_allOnes

theorem UnusedBitsZero.jlr (r1 r2 : Reg) (imm14 : BitVec 14) : UnusedBitsZero.Statement (.jlr r1 r2 imm14) := by
  exact BitVec.and_allOnes

theorem UnusedBitsZero.syscall : UnusedBitsZero.Statement .syscall := by
  unfold UnusedBitsZero.Statement; decide

theorem UnusedBitsZero.breakpt : UnusedBitsZero.Statement .breakpt := by
  unfold UnusedBitsZero.Statement; decide

theorem UnusedBitsZero.wait : UnusedBitsZero.Statement .wait := by
  unfold UnusedBitsZero.Statement; decide

theorem UnusedBitsZero.spin : UnusedBitsZero.Statement .spin := by
  unfold UnusedBitsZero.Statement; decide

theorem UnusedBitsZero.iret : UnusedBitsZero.Statement .iret := by
  unfold UnusedBitsZero.Statement; decide

theorem UnusedBitsZero.lctrl (r1 : Reg) (imm19 : BitVec 19) : UnusedBitsZero.Statement (.lctrl r1 imm19) := by
  exact BitVec.and_allOnes

theorem UnusedBitsZero.sctrl (r1 : Reg) (imm19 : BitVec 19) : UnusedBitsZero.Statement (.sctrl r1 imm19) := by
  exact BitVec.and_allOnes

end Sys2Proof.Laws
end

