-- ==== Sys2Proof/Tests/Slice0.lean ====
section
/-!
SUPPORT. Tests. Expected results come from the spec: words from 95_test_vectors.md section 2.3 and the tables of 30_encoding.md,
steps from the vectors of 95, 96 and 97 (each test names its vector). Then the witnesses: for each statement with hypotheses, a
concrete state and operands that meet them together.
-/
namespace Sys2Proof.Tests
open Sys2Proof.Machine

/-! ### Well-formedness: an ill-formed term for each check -/

theorem test_cinval_m3_ill_formed : ¬ WellFormed (.cinval 1 true true 3) ∧ WellFormed (.cinval 1 true true 2) := by decide
theorem test_lctrl_24_ill_formed : ¬ WellFormed (.lctrl 1 24) ∧ WellFormed (.lctrl 1 23) := by decide
theorem test_sctrl_24_ill_formed : ¬ WellFormed (.sctrl 1 24) ∧ WellFormed (.sctrl 1 23) := by decide

/-! ### Decoding: every constructor from a word written out from the spec's encoding (95_test_vectors.md section 2.3) -/

/-- The instruction that a word decodes to. -/
def decoded (w : InstrWord) : Option Instr := (decodeWord w).toOption

theorem test_decode_loads :
    decoded 0xFF8C4112 = some (.lw 1 2 3 511) ∧ decoded 0xFF804132 = some (.lh 1 2 0 511) ∧
    decoded 0xFF8C4152 = some (.lq 1 2 3 511) ∧ decoded 0x000C4172 = some (.lb 1 2 3 0) ∧
    decoded 0xFF8C4192 = some (.llw 1 2 3 511) ∧ decoded 0xFF8041B2 = some (.llh 1 2 0 511) ∧
    decoded 0xFF8C41D2 = some (.llq 1 2 3 511) ∧ decoded 0x000C41F2 = some (.llb 1 2 3 0) := by decide

theorem test_decode_stores :
    decoded 0xFF8C4116 = some (.sw 1 2 3 511) ∧ decoded 0xFF804136 = some (.sh 1 2 0 511) ∧
    decoded 0xFF8C4156 = some (.sq 1 2 3 511) ∧ decoded 0x000C4176 = some (.sb 1 2 3 0) ∧
    decoded 0xFF8C4196 = some (.scw 1 2 3 511) ∧ decoded 0xFF8C41B6 = some (.sch 1 2 3 511) ∧
    decoded 0xFF8C41D6 = some (.scq 1 2 3 511) ∧ decoded 0x000C41F6 = some (.scb 1 2 3 0) := by decide

theorem test_decode_memory_effects :
    decoded 0x00002010 = some (.fence true false) ∧ decoded 0x00004010 = some (.fence false true) ∧
    decoded 0x00002130 = some (.cinval 1 true false 0) ∧ decoded 0x0000C130 = some (.cinval 1 false true 1) ∧
    decoded 0x00016030 = some (.cinval 0 true true 2) ∧ decoded 0x00002150 = some (.cfetch 1 true false false) ∧
    decoded 0x0000C150 = some (.cfetch 1 false true true) := by decide

theorem test_decode_arithmetic :
    decoded 0xFFFF8108 = some (.ssi 1 false 2 0xFFFF) ∧ decoded 0xFFFF6108 = some (.ssi 1 true 1 0xFFFF) ∧
    decoded 0xFF8C4102 = some (.add 1 2 3 511) ∧ decoded 0xFF8C4122 = some (.sub 1 2 3 511) ∧
    decoded 0x7F8C4142 = some (.mul 1 2 3 255) ∧ decoded 0xFF8C41C6 = some (.umulh 1 2 3 511) ∧
    decoded 0x000C41E6 = some (.imulh 1 2 3 0) ∧ decoded 0xFF8C4182 = some (.udiv 1 2 3 511) ∧
    decoded 0x800C41A2 = some (.idiv 1 2 3 256) ∧ decoded 0xFF8C41C2 = some (.urem 1 2 3 511) ∧
    decoded 0x7F8C41E2 = some (.irem 1 2 3 255) ∧ decoded 0xFFFC4101 = some (.addi 1 2 16383) ∧
    decoded 0xFFFC4121 = some (.subi 1 2 16383) ∧ decoded 0x7FFC4141 = some (.muli 1 2 8191) ∧
    decoded 0xFFFC4181 = some (.udivi 1 2 16383) ∧ decoded 0x800041A1 = some (.idivi 1 2 8192) ∧
    decoded 0xFFFC41C1 = some (.uremi 1 2 16383) ∧ decoded 0x7FFC41E1 = some (.iremi 1 2 8191) := by decide

theorem test_decode_bitwise :
    decoded 0xFF8C4106 = some (.and 1 2 3 511) ∧ decoded 0xFF8C4126 = some (.or 1 2 3 511) ∧
    decoded 0xFF8C4146 = some (.nor 1 2 3 511) ∧ decoded 0xFF8C4166 = some (.xor 1 2 3 511) ∧
    decoded 0xFFFC4105 = some (.andi 1 2 16383) ∧ decoded 0xFFFC4125 = some (.ori 1 2 16383) ∧
    decoded 0xFFFC4145 = some (.nori 1 2 16383) ∧ decoded 0xFFFC4165 = some (.xori 1 2 16383) ∧
    decoded 0x1F8C418A = some (.sl 1 2 3 63) ∧ decoded 0x1F80414A = some (.usr 1 2 0 63) ∧
    decoded 0x000C416A = some (.isr 1 2 3 0) ∧ decoded 0x3FFC4109 = some (.si 1 2 63 63 false) ∧
    decoded 0x78E04109 = some (.si 1 2 56 56 true) ∧ decoded 0x30E04129 = some (.cb 1 2 56 48) ∧
    decoded 0x1F8C410A = some (.ror 1 2 3 63) ∧ decoded 0x1F80412A = some (.rol 1 2 0 63) ∧
    decoded 0x00C04149 = some (.rev 1 2 0b110000) ∧ decoded 0x000041C5 = some (.csb 1 2) ∧
    decoded 0x00004185 = some (.clz 1 2) ∧ decoded 0x000041A5 = some (.ctz 1 2) ∧
    decoded 0x000C4186 = some (.ext 1 2 3) ∧ decoded 0x000C41A6 = some (.dep 1 2 3) := by decide

theorem test_decode_comparison :
    decoded 0xFF8C418E = some (.seq 1 2 3 511) ∧ decoded 0xFF8C410E = some (.sult 1 2 3 511) ∧
    decoded 0x800C412E = some (.silt 1 2 3 256) ∧ decoded 0xFF8C414E = some (.sule 1 2 3 511) ∧
    decoded 0x808C416E = some (.sile 1 2 3 257) ∧ decoded 0x8000418D = some (.seqi 1 2 8192) ∧
    decoded 0xFFFC410D = some (.sulti 1 2 16383) ∧ decoded 0x7FFC412D = some (.silti 1 2 8191) ∧
    decoded 0xFFFC414D = some (.sulei 1 2 16383) ∧ decoded 0x8000416D = some (.silei 1 2 8192) := by decide

theorem test_decode_control_flow :
    decoded 0xFFFF61D0 = some (.bz 1 0x7FFFB) ∧ decoded 0x000061F0 = some (.bn 1 3) ∧
    decoded 0x7FFC41B1 = some (.jl 1 2 8191) ∧ decoded 0x80004191 = some (.jlr 1 2 8192) := by decide

theorem test_decode_system :
    decoded 0x0000001C = some .syscall ∧ decoded 0x0000003C = some .breakpt ∧ decoded 0x000000FC = some .wait ∧
    decoded 0x0000005C = some .spin ∧ decoded 0x0000009C = some .iret ∧ decoded 0x0002C1BC = some (.lctrl 1 22) ∧
    decoded 0x000281DC = some (.sctrl 1 20) := by decide

/-- Words that are no instruction are rejected by name, and so are too few bytes (E1 to E4 of 97_test_vectors_system.md). -/
theorem test_decode_rejects : decodeWord 0 = .error (.noInstruction 0) ∧ decodeWord 0xFFFFFFFF = .error (.noFormat 0xFF) ∧
    decodeWord 0x7C = .error (.noInstruction 0x7C) ∧ decodeBytes [0x12, 0x41] = .error (.tooShort 2) :=
  ⟨rfl, rfl, rfl, rfl⟩

/-- Unused bits are ignored (Y23 and Y32 of 97_test_vectors_system.md), and the opcode table's words reach the decoder. -/
theorem test_decode_table_word : decoded 0xFFFFFFFC = some .wait ∧ decoded 0xFFFFFF1C = some .syscall ∧
    decodeTableWord 32 0x000C4102 = some (.add 1 2 3 0) ∧ decodeTableWord 8 0x1C = some .syscall := by decide

/-! ### One step: helpers -/

/-- The handlers of 95_test_vectors.md section 1: `int<c>` is 0x8000 + 0x100 * c for c = 0 to 13. -/
def handlers : Vector Word 24 :=
  #v[0x8000, 0x8100, 0x8200, 0x8300, 0x8400, 0x8500, 0x8600, 0x8700, 0x8800, 0x8900, 0x8A00, 0x8B00, 0x8C00, 0x8D00,
     0, 0, 0, 0, 0, 0, 0, 0, 0, 0]

/-- Bytes stored from an address up, the lowest byte of `v` first. -/
def withBytes (s : State) (a : Word) (n : Nat) (v : Word) : State := { s with mem := s.mem.writeBytes a v n }

/-- The start state of 95_test_vectors.md section 1, with a word at 0x1000 and some registers. -/
def start (w : InstrWord) (regs : List (Reg × Word)) : State :=
  regs.foldl (fun t x => t.setReg x.1 x.2)
    { State.reset with ctrl := handlers, mem := Memory.writeBytes [] 0x1000 (w.setWidth 64) 4 }

/-- The lock state locked at an address, translation off. -/
def locked (s : State) (a : Word) (sz : AccessSize) : State := s.withLock sz a a

/-- An external interrupt requested at the coming step. -/
def requested (s : State) : State := { s with env := [{ events := [], delay := 0, extIrq := true }] }

/-- On a platform that reorders accesses: the delay of the coming step's access, and the events after that step. -/
def weak (s : State) (delay : Nat) (events : List EnvEvent) : State :=
  { s with
    platform := { s.platform with reorders := true }
    env := [{ events := [], delay := delay, extIrq := false }, { events := events, delay := 0, extIrq := false }] }

/-- The page tables and control registers of 97_test_vectors_system.md section 4. -/
def paged (s : State) : State :=
  let entries : List (Word × Word) :=
    [(0x10000, 0x14001), (0x14000, 0x15001), (0x15000, 0x16001), (0x16008, 0x1005), (0x10008, 0x11001), (0x10808, 0x11001),
     (0x11010, 0x12001), (0x12018, 0x13001), (0x13020, 0x20003), (0x18000, 0x14001)]
  let t := entries.foldl (fun u x => withBytes u x.1 4 x.2) s
  (((t.setCtrl ctrlKptp 0x10000).setCtrl ctrlUptp 0x18000).setCtrl ctrlStat 4).setCtrl ctrlIntpte 0x77

/-- What one step gives, seen through `f`; nothing if it stops. -/
def after {α : Type} (s : State) (f : State → α) : Option α :=
  match step s with
  | .next t => some (f t)
  | .fault _ | .refused _ => none

/-! ### Loads (95_test_vectors.md section 3.1) -/

/-- L1: lw a0, [a1]. -/
theorem test_lw_little_endian : after (withBytes (start 0x00004112 [(2, 0x2000)]) 0x2000 8 0xFF22334455667788)
    (fun t => (t.pc, t.getReg 1)) = some (0x1004, 0xFF22334455667788) := by decide

/-- L2: lh a0, [a1 + 4]. -/
theorem test_lh_zero_extends : after (withBytes (start 0x00804132 [(2, 0x2000)]) 0x2000 8 0xFF22334455667788)
    (fun t => (t.pc, t.getReg 1)) = some (0x1004, 0xFF223344) := by decide

/-- L8: lh a0, [ip + zr]. -/
theorem test_lh_reads_ip_plus_4 : after (withBytes (start 0x0003E132 []) 0x1004 4 0xDEADBEEF)
    (fun t => (t.pc, t.getReg 1)) = some (0x1004, 0xDEADBEEF) := by decide

/-- L3: lq a0, [a1 + a2 + 2]. -/
theorem test_lq_scales_by_2 : after (withBytes (start 0x008C4152 [(2, 0x2000), (3, 4)]) 0x2000 8 0xFF22334455667788)
    (fun t => (t.pc, t.getReg 1)) = some (0x1004, 0xFF22) := by decide

/-- L4: lb a0, [a1 + 7]. -/
theorem test_lb_zero_extends : after (withBytes (start 0x03804172 [(2, 0x2000)]) 0x2000 8 0xFF22334455667788)
    (fun t => (t.pc, t.getReg 1)) = some (0x1004, 0xFF) := by decide

/-- L9: lb a0, [a1 + a2]. -/
theorem test_lb_address_wraps : after (withBytes (start 0x000C4172 [(2, 0xFFFFFFFFFFFFFFFF), (3, 0x2001)]) 0x2000 1 0xAB)
    (fun t => (t.pc, t.getReg 1)) = some (0x1004, 0xAB) := by decide

/-- L15: llw a0, [a1 + 8]. -/
theorem test_llw_locks : after (withBytes (start 0x00804192 [(2, 0x1FF8)]) 0x2000 8 0xFF22334455667788)
    (fun t => (t.getReg 1, t.lock.width)) = some (0xFF22334455667788, .word) := by decide

/-- L19: llw a0, [a1]. -/
theorem test_llw_unaligned : after (locked (start 0x00004192 [(2, 0x2004)]) 0x3000 .word)
    (fun t => (t.getCtrl 17, t.lock.locked)) = some (0x2004, false) := by decide

/-- L16: llh a0, [a1 + 4]. -/
theorem test_llh_locks_anew : after (locked (withBytes (start 0x008041B2 [(2, 0x2000)]) 0x2000 8 0xFF22334455667788) 0x3000 .word)
    (fun t => (t.getReg 1, t.lock.address, t.lock.width)) = some (0xFF223344, 0x2004, .half) := by decide

/-- L17: llq a0, [a1 + 2]. -/
theorem test_llq_locks : after (withBytes (start 0x008041D2 [(2, 0x2000)]) 0x2000 8 0xFF22334455667788)
    (fun t => (t.getReg 1, t.lock.width)) = some (0x5566, .quarter) := by decide

/-- L18: llb a0, [a1 + 1]. -/
theorem test_llb_locks : after (withBytes (start 0x008041F2 [(2, 0x2000)]) 0x2000 8 0xFF22334455667788)
    (fun t => (t.getReg 1, t.lock.width)) = some (0x77, .byte) := by decide

/-! ### Stores (95_test_vectors.md section 3.2) -/

/-- S1: sw [a1], a0. -/
theorem test_sw_little_endian : after (start 0x00004116 [(1, 0x1122334455667788), (2, 0x2000)])
    (fun t => (t.pc, t.loadValue 0x2000 8)) = some (0x1004, 0x1122334455667788) := by decide

/-- S2: sh [a1 + 4], a0. -/
theorem test_sh_low_half : after (start 0x00804136 [(1, 0x1122334455667788), (2, 0x2000)])
    (fun t => (t.pc, t.loadValue 0x2004 4)) = some (0x1004, 0x55667788) := by decide

/-- S3: sq [a1 + a2 + 2], a0. -/
theorem test_sq_low_quarter : after (start 0x008C4156 [(1, 0x1122334455667788), (2, 0x2000), (3, 4)])
    (fun t => (t.pc, t.loadValue 0x2006 2)) = some (0x1004, 0x7788) := by decide

/-- S4: sb [a1 + 511], a0. -/
theorem test_sb_low_byte : after (start 0xFF804176 [(1, 0x1122334455667788), (2, 0x2000)])
    (fun t => (t.pc, t.loadValue 0x21FF 1)) = some (0x1004, 0x88) := by decide

/-- S9: sb [a1], a0. -/
theorem test_sb_unlocks_overlapped_lock : after (locked (start 0x00004176 [(1, 0xEE), (2, 0x2003)]) 0x2000 .half)
    (fun t => (t.loadValue 0x2003 1, t.lock.locked)) = some (0xEE, false) := by decide

/-- S20: scw a0, [a2], a0. -/
theorem test_scw_stores_before_flag : after (locked (start 0x000C2196 [(1, 7), (3, 0x2000)]) 0x2000 .word)
    (fun t => (t.loadValue 0x2000 8, t.getReg 1)) = some (7, 1) := by decide

/-- S15: scw a1, [a2], a0. -/
theorem test_scw_unlocked_fails : after (start 0x000C4196 [(1, 7), (2, 0x99), (3, 0x2000)])
    (fun t => (t.pc, t.getReg 2)) = some (0x1004, 0) := by decide

/-- S12: sch a1, [a2 + 4], a0. -/
theorem test_sch_succeeds : after (locked (start 0x008C41B6 [(1, 0x1122334455667788), (3, 0x2000)]) 0x2004 .half)
    (fun t => (t.loadValue 0x2004 4, t.getReg 2)) = some (0x55667788, 1) := by decide

/-- S16: sch a1, [a2], a0. -/
theorem test_sch_other_width_fails : after (locked (start 0x000C41B6 [(1, 7), (2, 0x99), (3, 0x2000)]) 0x2000 .word)
    (fun t => (t.getReg 2, t.lock.width)) = some (0, .word) := by decide

/-- S13: scq a1, [a2 + 2], a0. -/
theorem test_scq_succeeds : after (locked (start 0x008C41D6 [(1, 0x1122334455667788), (3, 0x2000)]) 0x2002 .quarter)
    (fun t => (t.loadValue 0x2002 2, t.getReg 2)) = some (0x7788, 1) := by decide

/-- S14: scb a1, [a2 + 1], a0. -/
theorem test_scb_succeeds : after (locked (start 0x008C41F6 [(1, 0x1122334455667788), (3, 0x2000)]) 0x2001 .byte)
    (fun t => (t.loadValue 0x2001 1, t.getReg 2)) = some (0x88, 1) := by decide

/-! ### Memory effects (95_test_vectors.md section 3.3) -/

/-- M1: fence.s. -/
theorem test_fence_keeps_lock : after (locked (start 0x00004010 []) 0x2000 .word)
    (fun t => (t.pc, t.lock.locked)) = some (0x1004, true) := by decide

/-- M3: cinval.block a0. -/
theorem test_cinval_block_unlocks : after (locked (start 0x00006130 [(1, 0x2010)]) 0x2000 .word)
    (fun t => (t.pc, t.lock.locked)) = some (0x1004, false) := by decide

/-- M5: cinval m=3. -/
theorem test_cinval_m3_invalid : after (locked (start 0x0001E130 [(1, 0x2010)]) 0x2000 .word)
    (fun t => (t.getCtrl 16, t.lock.locked)) = some (0x1004, false) := by decide

/-- M6: cfetch.l a0. -/
theorem test_cfetch_unlocks : after (locked (start 0x00002150 [(1, 0x2010)]) 0x2000 .word)
    (fun t => (t.pc, t.lock.locked)) = some (0x1004, false) := by decide

/-- M7: cfetch.l a0. -/
theorem test_cfetch_no_access : after (start 0x00002150 [(1, 0x7FFFFFFFFFFFFFF8)])
    (fun t => t.pc) = some 0x1004 := by decide

/-! ### Arithmetic (96_test_vectors_alu.md section 1) -/

/-- A47: ssi a0, 0xABCD, 32. -/
theorem test_ssi_keeps_other_quarters : after (start 0xABCD8108 [(1, 0x1111222233334444)])
    (fun t => (t.pc, t.getReg 1)) = some (0x1004, 0x1111ABCD33334444) := by decide

/-- A50: ssi.c a0, 0xABCD, 16. -/
theorem test_ssi_clear_sign_extends : after (start 0xABCD6108 [(1, 0x1111222233334444)])
    (fun t => (t.pc, t.getReg 1)) = some (0x1004, 0xFFFFFFFFABCD0000) := by decide

/-- A1: add a0, a1, a2. -/
theorem test_add_wraps : after (start 0x000C4102 [(2, 0xFFFFFFFFFFFFFFFF), (3, 1)])
    (fun t => (t.pc, t.getReg 1)) = some (0x1004, 0) := by decide

/-- A2: add a0, a1, a2, 511. -/
theorem test_add_zero_extends : after (start 0xFF8C4102 [(2, 1), (3, 2)])
    (fun t => (t.pc, t.getReg 1)) = some (0x1004, 0x202) := by decide

/-- A6: sub a0, a1, a2. -/
theorem test_sub_wraps : after (start 0x000C4122 [(2, 0), (3, 1)])
    (fun t => (t.pc, t.getReg 1)) = some (0x1004, 0xFFFFFFFFFFFFFFFF) := by decide

/-- A7: sub a0, a1, a2, 3. -/
theorem test_sub_subtracts_immediate : after (start 0x018C4122 [(2, 0xA), (3, 2)])
    (fun t => (t.pc, t.getReg 1)) = some (0x1004, 5) := by decide

/-- A9: mul a0, a1, a2. -/
theorem test_mul_minus_ones : after (start 0x000C4142 [(2, 0xFFFFFFFFFFFFFFFF), (3, 0xFFFFFFFFFFFFFFFF)])
    (fun t => (t.pc, t.getReg 1)) = some (0x1004, 1) := by decide

/-- A10: mul a0, a1, a2, -1. -/
theorem test_mul_sign_extends : after (start 0xFF8C4142 [(2, 7), (3, 0)])
    (fun t => (t.pc, t.getReg 1)) = some (0x1004, 0xFFFFFFFFFFFFFFF9) := by decide

/-- A12: umulh a0, a1, a2. -/
theorem test_umulh_all_ones : after (start 0x000C41C6 [(2, 0xFFFFFFFFFFFFFFFF), (3, 0xFFFFFFFFFFFFFFFF)])
    (fun t => (t.pc, t.getReg 1)) = some (0x1004, 0xFFFFFFFFFFFFFFFE) := by decide

/-- A13: umulh a0, a1, a2. -/
theorem test_umulh_two_to_64 : after (start 0x000C41C6 [(2, 0x100000000), (3, 0x100000000)])
    (fun t => (t.pc, t.getReg 1)) = some (0x1004, 1) := by decide

/-- A15: imulh a0, a1, a2. -/
theorem test_imulh_negative : after (start 0x000C41E6 [(2, 0x8000000000000000), (3, 2)])
    (fun t => (t.pc, t.getReg 1)) = some (0x1004, 0xFFFFFFFFFFFFFFFF) := by decide

/-- A14: imulh a0, a1, a2. -/
theorem test_imulh_minus_ones : after (start 0x000C41E6 [(2, 0xFFFFFFFFFFFFFFFF), (3, 0xFFFFFFFFFFFFFFFF)])
    (fun t => (t.pc, t.getReg 1)) = some (0x1004, 0) := by decide

/-- A17: udiv a0, a1, a2. -/
theorem test_udiv_floor : after (start 0x000C4182 [(2, 0x64), (3, 7)])
    (fun t => (t.pc, t.getReg 1)) = some (0x1004, 0xE) := by decide

/-- A19: udiv a0, a1, a2, 1. -/
theorem test_udiv_wrapped_zero : after (start 0x008C4182 [(2, 0x64), (3, 0xFFFFFFFFFFFFFFFF)])
    (fun t => (t.pc, t.getReg 1)) = some (0x1004, 0xFFFFFFFFFFFFFFFF) := by decide

/-- A21: idiv a0, a1, a2. -/
theorem test_idiv_toward_zero : after (start 0x000C41A2 [(2, 0xFFFFFFFFFFFFFFF9), (3, 2)])
    (fun t => (t.pc, t.getReg 1)) = some (0x1004, 0xFFFFFFFFFFFFFFFD) := by decide

/-- A25: idiv a0, a1, a2. -/
theorem test_idiv_overflow : after (start 0x000C41A2 [(2, 0x8000000000000000), (3, 0xFFFFFFFFFFFFFFFF)])
    (fun t => (t.pc, t.getReg 1)) = some (0x1004, 0x8000000000000000) := by decide

/-- A26: urem a0, a1, a2. -/
theorem test_urem : after (start 0x000C41C2 [(2, 0x64), (3, 7)])
    (fun t => (t.pc, t.getReg 1)) = some (0x1004, 2) := by decide

/-- A27: urem a0, a1, a2. -/
theorem test_urem_by_zero : after (start 0x000C41C2 [(2, 0x64), (3, 0)])
    (fun t => (t.pc, t.getReg 1)) = some (0x1004, 0xFFFFFFFFFFFFFFFF) := by decide

/-- A28: irem a0, a1, a2. -/
theorem test_irem_sign_of_dividend : after (start 0x000C41E2 [(2, 0xFFFFFFFFFFFFFFF9), (3, 2)])
    (fun t => (t.pc, t.getReg 1)) = some (0x1004, 0xFFFFFFFFFFFFFFFF) := by decide

/-- A31: irem a0, a1, a2. -/
theorem test_irem_overflow : after (start 0x000C41E2 [(2, 0x8000000000000000), (3, 0xFFFFFFFFFFFFFFFF)])
    (fun t => (t.pc, t.getReg 1)) = some (0x1004, 0) := by decide

/-- A32: addi a0, a1, 16383. -/
theorem test_addi_zero_extends : after (start 0xFFFC4101 [(2, 1)])
    (fun t => (t.pc, t.getReg 1)) = some (0x1004, 0x4000) := by decide

/-- A33: subi a0, a1, 16383. -/
theorem test_subi_zero_extends : after (start 0xFFFC4121 [(2, 0)])
    (fun t => (t.pc, t.getReg 1)) = some (0x1004, 0xFFFFFFFFFFFFC001) := by decide

/-- A35: muli a0, a1, -8192. -/
theorem test_muli_sign_extends : after (start 0x80004141 [(2, 3)])
    (fun t => (t.pc, t.getReg 1)) = some (0x1004, 0xFFFFFFFFFFFFA000) := by decide

/-- A36: muli a0, a1, 8191. -/
theorem test_muli_largest : after (start 0x7FFC4141 [(2, 0xFFFFFFFFFFFFFFFF)])
    (fun t => (t.pc, t.getReg 1)) = some (0x1004, 0xFFFFFFFFFFFFE001) := by decide

/-- A37: udivi a0, a1, 0. -/
theorem test_udivi_by_zero : after (start 0x00004181 [(2, 5)])
    (fun t => (t.pc, t.getReg 1)) = some (0x1004, 0xFFFFFFFFFFFFFFFF) := by decide

/-- A38: udivi a0, a1, 16383. -/
theorem test_udivi_zero_extends : after (start 0xFFFC4181 [(2, 0xFFFFFFFFFFFFFFFF)])
    (fun t => (t.pc, t.getReg 1)) = some (0x1004, 0x4001000400100) := by decide

/-- A39: idivi a0, a1, -2. -/
theorem test_idivi_toward_zero : after (start 0xFFF841A1 [(2, 7)])
    (fun t => (t.pc, t.getReg 1)) = some (0x1004, 0xFFFFFFFFFFFFFFFD) := by decide

/-- A40: idivi a0, a1, -1. -/
theorem test_idivi_overflow : after (start 0xFFFC41A1 [(2, 0x8000000000000000)])
    (fun t => (t.pc, t.getReg 1)) = some (0x1004, 0x8000000000000000) := by decide

/-- A41: uremi a0, a1, 10. -/
theorem test_uremi : after (start 0x002841C1 [(2, 0xFFFFFFFFFFFFFFFF)])
    (fun t => (t.pc, t.getReg 1)) = some (0x1004, 5) := by decide

/-- A42: uremi a0, a1, 0. -/
theorem test_uremi_by_zero : after (start 0x000041C1 [(2, 5)])
    (fun t => (t.pc, t.getReg 1)) = some (0x1004, 0xFFFFFFFFFFFFFFFF) := by decide

/-- A43: iremi a0, a1, -8192. -/
theorem test_iremi_sign_extends : after (start 0x800041E1 [(2, 0xFFFFFFFFFFFFDFFF)])
    (fun t => (t.pc, t.getReg 1)) = some (0x1004, 0xFFFFFFFFFFFFFFFF) := by decide

/-- A44: iremi a0, a1, 0. -/
theorem test_iremi_by_zero : after (start 0x000041E1 [(2, 5)])
    (fun t => (t.pc, t.getReg 1)) = some (0x1004, 0xFFFFFFFFFFFFFFFF) := by decide

/-! ### Bitwise (96_test_vectors_alu.md section 2) -/

/-- B2: and a0, a1, a2, 0xFF. -/
theorem test_and_immediate_ored_first : after (start 0x7F8C4106 [(2, 0xF0F0F0F00F0F0F0F), (3, 0xFF00FF00FF00FF00)])
    (fun t => (t.pc, t.getReg 1)) = some (0x1004, 0xF000F0000F000F0F) := by decide

/-- B4: or a0, a1, a2. -/
theorem test_or : after (start 0x000C4126 [(2, 0xF0F0F0F00F0F0F0F), (3, 0xFF00FF00FF00FF00)])
    (fun t => (t.pc, t.getReg 1)) = some (0x1004, 0xFFF0FFF0FF0FFF0F) := by decide

/-- B7: nor a0, a1, a2. -/
theorem test_nor : after (start 0x000C4146 [(2, 0xF0F0F0F00F0F0F0F), (3, 0xFF00FF00FF00FF00)])
    (fun t => (t.pc, t.getReg 1)) = some (0x1004, 0xF000F00F000F0) := by decide

/-- B9: xor a0, a1, a2. -/
theorem test_xor : after (start 0x000C4166 [(2, 0xF0F0F0F00F0F0F0F), (3, 0xFF00FF00FF00FF00)])
    (fun t => (t.pc, t.getReg 1)) = some (0x1004, 0xFF00FF0F00FF00F) := by decide

/-- B11: andi a0, a1, 16383. -/
theorem test_andi_zero_extends : after (start 0xFFFC4105 [(2, 0xFFFFFFFFFFFFFFFF)])
    (fun t => (t.pc, t.getReg 1)) = some (0x1004, 0x3FFF) := by decide

/-- B12: ori a0, a1, 0x2000. -/
theorem test_ori_bit_13 : after (start 0x80004125 [(2, 0)])
    (fun t => (t.pc, t.getReg 1)) = some (0x1004, 0x2000) := by decide

/-- B13: nori a0, a1, 0. -/
theorem test_nori : after (start 0x00004145 [(2, 0xFFFFFFFF)])
    (fun t => (t.pc, t.getReg 1)) = some (0x1004, 0xFFFFFFFF00000000) := by decide

/-- B14: xori a0, a1, 16383. -/
theorem test_xori_zero_extends : after (start 0xFFFC4165 [(2, 0xFFFFFFFFFFFFFFFF)])
    (fun t => (t.pc, t.getReg 1)) = some (0x1004, 0xFFFFFFFFFFFFC000) := by decide

/-- B16: sl a0, a1, a2. -/
theorem test_sl_modulo_64 : after (start 0x000C418A [(2, 0x8000000000000001), (3, 0x40)])
    (fun t => (t.pc, t.getReg 1)) = some (0x1004, 0x8000000000000001) := by decide

/-- B17: sl a0, a1, a2, 60. -/
theorem test_sl_sum_of_amounts : after (start 0x1E0C418A [(2, 0x8000000000000001), (3, 5)])
    (fun t => (t.pc, t.getReg 1)) = some (0x1004, 2) := by decide

/-- B19: usr a0, a1, a2. -/
theorem test_usr : after (start 0x000C414A [(2, 0x8000000000000001), (3, 1)])
    (fun t => (t.pc, t.getReg 1)) = some (0x1004, 0x4000000000000000) := by decide

/-- B21: isr a0, a1, a2. -/
theorem test_isr_copies_sign : after (start 0x000C416A [(2, 0x8000000000000001), (3, 1)])
    (fun t => (t.pc, t.getReg 1)) = some (0x1004, 0xC000000000000000) := by decide

/-- B23: isr a0, a1, 63. -/
theorem test_isr_positive : after (start 0x1F80416A [(2, 0x7FFFFFFFFFFFFFFF)])
    (fun t => (t.pc, t.getReg 1)) = some (0x1004, 0) := by decide

/-- B29: si.u a0, a1, 56, 56. -/
theorem test_si_unsigned : after (start 0x38E04109 [(2, 0x123456789ABCDEF)])
    (fun t => (t.pc, t.getReg 1)) = some (0x1004, 0xEF) := by decide

/-- B30: si.i a0, a1, 56, 56. -/
theorem test_si_signed : after (start 0x78E04109 [(2, 0x123456789ABCDEF)])
    (fun t => (t.pc, t.getReg 1)) = some (0x1004, 0xFFFFFFFFFFFFFFEF) := by decide

/-- B37: cb a0, a1, 56, 48. -/
theorem test_cb_middle : after (start 0x30E04129 [(2, 0xFFFFFFFFFFFFFFFF)])
    (fun t => (t.pc, t.getReg 1)) = some (0x1004, 0xFFFFFFFFFFFF00FF) := by decide

/-- B35: cb a0, a1, 63, 63. -/
theorem test_cb_extremes : after (start 0x3FFC4129 [(2, 0xFFFFFFFFFFFFFFFF)])
    (fun t => (t.pc, t.getReg 1)) = some (0x1004, 0xFFFFFFFFFFFFFFFE) := by decide

/-- B26: ror a0, a1, 4. -/
theorem test_ror : after (start 0x0200410A [(2, 0x123456789ABCDEF)])
    (fun t => (t.pc, t.getReg 1)) = some (0x1004, 0xF0123456789ABCDE) := by decide

/-- B25: ror a0, a1, a2. -/
theorem test_ror_by_zero : after (start 0x000C410A [(2, 0x8000000000000001), (3, 0)])
    (fun t => (t.pc, t.getReg 1)) = some (0x1004, 0x8000000000000001) := by decide

/-- B28: rol a0, a1, a2, 4. -/
theorem test_rol : after (start 0x020C412A [(2, 0x123456789ABCDEF), (3, 0x40)])
    (fun t => (t.pc, t.getReg 1)) = some (0x1004, 0x123456789ABCDEF0) := by decide

/-- B27: rol a0, a1, a2. -/
theorem test_rol_wraps_bit : after (start 0x000C412A [(2, 0x8000000000000001), (3, 1)])
    (fun t => (t.pc, t.getReg 1)) = some (0x1004, 3) := by decide

/-- B43: rev.bit a0, a1. -/
theorem test_rev_all : after (start 0x00FC4149 [(2, 0x123456789ABCDEF)])
    (fun t => (t.pc, t.getReg 1)) = some (0x1004, 0xF7B3D591E6A2C480) := by decide

/-- B46: rev a0, a1, 0b000001. -/
theorem test_rev_neighbours : after (start 0x00044149 [(2, 0x123456789ABCDEF)])
    (fun t => (t.pc, t.getReg 1)) = some (0x1004, 0x2138A9B4657CEDF) := by decide

/-- B49: csb a0, a1. -/
theorem test_csb : after (start 0x000041C5 [(2, 0x123456789ABCDEF)])
    (fun t => (t.pc, t.getReg 1)) = some (0x1004, 0x20) := by decide

/-- B50: clz a0, a1. -/
theorem test_clz_zero : after (start 0x00004185 [(2, 0)])
    (fun t => (t.pc, t.getReg 1)) = some (0x1004, 0x40) := by decide

/-- B53: clz a0, a1. -/
theorem test_clz : after (start 0x00004185 [(2, 0xFFFF00000000)])
    (fun t => (t.pc, t.getReg 1)) = some (0x1004, 0x10) := by decide

/-- B54: ctz a0, a1. -/
theorem test_ctz_zero : after (start 0x000041A5 [(2, 0)])
    (fun t => (t.pc, t.getReg 1)) = some (0x1004, 0x40) := by decide

/-- B57: ctz a0, a1. -/
theorem test_ctz : after (start 0x000041A5 [(2, 0xFFFF00000000)])
    (fun t => (t.pc, t.getReg 1)) = some (0x1004, 0x20) := by decide

/-- B58: ext a0, a1, a2. -/
theorem test_ext : after (start 0x000C4186 [(2, 0x123456789ABCDEF), (3, 0xFF00FF00)])
    (fun t => (t.pc, t.getReg 1)) = some (0x1004, 0x89CD) := by decide

/-- B61: ext a0, a1, a2. -/
theorem test_ext_outer_bits : after (start 0x000C4186 [(2, 0x123456789ABCDEF), (3, 0x8000000000000001)])
    (fun t => (t.pc, t.getReg 1)) = some (0x1004, 1) := by decide

/-- B62: dep a0, a1, a2. -/
theorem test_dep : after (start 0x000C41A6 [(2, 0xABCD), (3, 0xFF00FF00)])
    (fun t => (t.pc, t.getReg 1)) = some (0x1004, 0xAB00CD00) := by decide

/-- B65: dep a0, a1, a2. -/
theorem test_dep_outer_bits : after (start 0x000C41A6 [(2, 2), (3, 0x8000000000000001)])
    (fun t => (t.pc, t.getReg 1)) = some (0x1004, 0x8000000000000000) := by decide

/-! ### Comparison (96_test_vectors_alu.md section 3) -/

/-- C3: seq a0, a1, a2, -1. -/
theorem test_seq_sign_extends : after (start 0xFF8C418E [(2, 4), (3, 5)])
    (fun t => (t.pc, t.getReg 1)) = some (0x1004, 1) := by decide

/-- C4: seq a0, a1, a2, 1. -/
theorem test_seq_sum_wraps : after (start 0x008C418E [(2, 0), (3, 0xFFFFFFFFFFFFFFFF)])
    (fun t => (t.pc, t.getReg 1)) = some (0x1004, 1) := by decide

/-- C8: sult a0, a1, a2, 511. -/
theorem test_sult_zero_extends : after (start 0xFF8C410E [(2, 0x1FF), (3, 1)])
    (fun t => (t.pc, t.getReg 1)) = some (0x1004, 1) := by decide

/-- C9: sult a0, a1, a2, 1. -/
theorem test_sult_sum_wraps : after (start 0x008C410E [(1, 0x55), (2, 5), (3, 0xFFFFFFFFFFFFFFFF)])
    (fun t => (t.pc, t.getReg 1)) = some (0x1004, 0) := by decide

/-- C12: silt a0, a1, a2. -/
theorem test_silt_extremes : after (start 0x000C412E [(2, 0x8000000000000000), (3, 0x7FFFFFFFFFFFFFFF)])
    (fun t => (t.pc, t.getReg 1)) = some (0x1004, 1) := by decide

/-- C13: silt a0, a1, a2, 1. -/
theorem test_silt_sum_wraps : after (start 0x008C412E [(1, 0x55), (2, 0), (3, 0x7FFFFFFFFFFFFFFF)])
    (fun t => (t.pc, t.getReg 1)) = some (0x1004, 0) := by decide

/-- C15: sule a0, a1, a2. -/
theorem test_sule_equal : after (start 0x000C414E [(2, 5), (3, 5)])
    (fun t => (t.pc, t.getReg 1)) = some (0x1004, 1) := by decide

/-- C16: sule a0, a1, a2. -/
theorem test_sule_greater : after (start 0x000C414E [(1, 0x55), (2, 0xFFFFFFFFFFFFFFFF), (3, 0)])
    (fun t => (t.pc, t.getReg 1)) = some (0x1004, 0) := by decide

/-- C18: sile a0, a1, a2. -/
theorem test_sile : after (start 0x000C416E [(2, 0xFFFFFFFFFFFFFFFF), (3, 0)])
    (fun t => (t.pc, t.getReg 1)) = some (0x1004, 1) := by decide

/-- C19: sile a0, a1, a2. -/
theorem test_sile_extremes : after (start 0x000C416E [(1, 0x55), (2, 0x7FFFFFFFFFFFFFFF), (3, 0x8000000000000000)])
    (fun t => (t.pc, t.getReg 1)) = some (0x1004, 0) := by decide

/-- C21: seqi a0, a1, -1. -/
theorem test_seqi_sign_extends : after (start 0xFFFC418D [(2, 0xFFFFFFFFFFFFFFFF)])
    (fun t => (t.pc, t.getReg 1)) = some (0x1004, 1) := by decide

/-- C23: seqi a0, a1, -8192. -/
theorem test_seqi_minus_8192 : after (start 0x8000418D [(1, 0x55), (2, 0x2000)])
    (fun t => (t.pc, t.getReg 1)) = some (0x1004, 0) := by decide

/-- C24: sulti a0, a1, 16383. -/
theorem test_sulti_zero_extends : after (start 0xFFFC410D [(2, 0x3FFE)])
    (fun t => (t.pc, t.getReg 1)) = some (0x1004, 1) := by decide

/-- C26: sulti a0, a1, 16383. -/
theorem test_sulti_large : after (start 0xFFFC410D [(1, 0x55), (2, 0xFFFFFFFFFFFFFFFF)])
    (fun t => (t.pc, t.getReg 1)) = some (0x1004, 0) := by decide

/-- C27: silti a0, a1, -8192. -/
theorem test_silti_sign_extends : after (start 0x8000412D [(2, 0xFFFFFFFFFFFFDFFF)])
    (fun t => (t.pc, t.getReg 1)) = some (0x1004, 1) := by decide

/-- C29: silti a0, a1, 0. -/
theorem test_silti_most_negative : after (start 0x0000412D [(2, 0x8000000000000000)])
    (fun t => (t.pc, t.getReg 1)) = some (0x1004, 1) := by decide

/-- C30: sulei a0, a1, 16383. -/
theorem test_sulei_equal : after (start 0xFFFC414D [(2, 0x3FFF)])
    (fun t => (t.pc, t.getReg 1)) = some (0x1004, 1) := by decide

/-- C31: sulei a0, a1, 0. -/
theorem test_sulei_greater : after (start 0x0000414D [(1, 0x55), (2, 1)])
    (fun t => (t.pc, t.getReg 1)) = some (0x1004, 0) := by decide

/-- C32: silei a0, a1, -1. -/
theorem test_silei_equal : after (start 0xFFFC416D [(2, 0xFFFFFFFFFFFFFFFF)])
    (fun t => (t.pc, t.getReg 1)) = some (0x1004, 1) := by decide

/-- C33: silei a0, a1, -1. -/
theorem test_silei_greater : after (start 0xFFFC416D [(1, 0x55), (2, 0)])
    (fun t => (t.pc, t.getReg 1)) = some (0x1004, 0) := by decide

/-! ### Control flow (97_test_vectors_system.md section 1) -/

/-- F3: bz a0, 0x0FF0. -/
theorem test_bz_backwards : after (start 0xFFFF61D0 [(1, 0)])
    (fun t => t.pc) = some 0xFF0 := by decide

/-- F9: bz ip, 0x1010. -/
theorem test_bz_ip_not_taken : after (start 0x00007FD0 [])
    (fun t => t.pc) = some 0x1004 := by decide

/-- F10: bn a0, 0x1010. -/
theorem test_bn_tests_all_bits : after (start 0x000061F0 [(1, 0x8000000000000000)])
    (fun t => t.pc) = some 0x1010 := by decide

/-- F11: bn a0, 0x1010. -/
theorem test_bn_not_taken : after (start 0x000061F0 [(1, 0)])
    (fun t => t.pc) = some 0x1004 := by decide

/-- F16: jl lp, lp, 4. -/
theorem test_jl_reads_base_first : after (start 0x0013DEB1 [(30, 0x5000)])
    (fun t => (t.pc, t.getReg 30)) = some (0x5010, 0x1004) := by decide

/-- F18: jl ip, a0, 0. -/
theorem test_jl_link_to_ip_ignored : after (start 0x00003FB1 [(1, 0x5000)])
    (fun t => t.pc) = some 0x5000 := by decide

/-- F25: jlr lp, a0, 0. -/
theorem test_jlr_negative_base : after (start 0x00003E91 [(1, 0xFFFFFFFFFFFFFEFC)])
    (fun t => (t.pc, t.getReg 30)) = some (0xF00, 0x1004) := by decide

/-- F27: jlr lp, lp, 1. -/
theorem test_jlr_reads_base_first : after (start 0x0007DE91 [(30, 0x10)])
    (fun t => (t.pc, t.getReg 30)) = some (0x1018, 0x1004) := by decide

/-! ### System (97_test_vectors_system.md section 2) -/

/-- Y30: syscall. -/
theorem test_syscall_from_user : after (locked ((start 0x0000001C []).setCtrl 22 3) 0x2000 .word)
    (fun t => (t.getCtrl 23, t.lock.locked)) = some (3, false) := by decide

/-- Y32: syscall with all unused bits set. -/
theorem test_syscall_unused_bits : after (start 0xFFFFFF1C [])
    (fun t => (t.pc, t.getCtrl 16)) = some (0x8200, 0x1004) := by decide

/-- Y31: breakpt. -/
theorem test_breakpt : after ((start 0x0000003C []).setCtrl 22 1)
    (fun t => (t.pc, t.getCtrl 16)) = some (0x8100, 0x1004) := by decide

/-- Y21: wait. -/
theorem test_wait_pauses : after (start 0x000000FC [])
    (fun t => (t.pc, t.paused)) = some (0x1004, true) := by decide

/-- Y22: wait. -/
theorem test_wait_user_invalid : after ((start 0x000000FC []).setCtrl 22 2)
    (fun t => (t.pc, t.getCtrl 16)) = some (0x8300, 0x1004) := by decide

/-- Y24: spin. -/
theorem test_spin_keeps_lock : after (locked (start 0x0000005C []) 0x2000 .word)
    (fun t => (t.pc, t.lock.locked)) = some (0x1004, true) := by decide

/-- Y26: iret. -/
theorem test_iret_to_user : after (locked (((start 0x0000009C []).setCtrl 16 0x4000).setCtrl 23 3) 0x2000 .word)
    (fun t => (t.pc, t.getCtrl 22)) = some (0x4000, 3) := by decide

/-- Y28: iret. -/
theorem test_iret_user_invalid : after (((start 0x0000009C []).setCtrl 16 0x4000).setCtrl 22 3)
    (fun t => (t.pc, t.getCtrl 16)) = some (0x8300, 0x1004) := by decide

/-- Y2: lctrl a0, int3. -/
theorem test_lctrl : after (start 0x000061BC [])
    (fun t => (t.pc, t.getReg 1)) = some (0x1004, 0x8300) := by decide

/-- Y3: lctrl a0, imm19=24. -/
theorem test_lctrl_24_invalid : after (start 0x000301BC [])
    (fun t => (t.pc, t.getCtrl 16)) = some (0x8300, 0x1004) := by decide

/-- Y7: sctrl stat, a0. -/
theorem test_sctrl_stat_mask : after (start 0x0002C1DC [(1, 0xFFFFFFFFFFFFFFFF)])
    (fun t => (t.pc, t.getCtrl 22)) = some (0x1004, 7) := by decide

/-- Y12: sctrl kptp, a0. -/
theorem test_sctrl_kptp_mask : after (start 0x000281DC [(1, 0xFFFFFFFFFFFFFFFF)])
    (fun t => (t.pc, t.getCtrl 20)) = some (0x1004, 0xFFFFFFFFFFFFF000) := by decide

/-! ### Decode faults, fetch faults, external interrupts (97_test_vectors_system.md section 3) -/

/-- E1: (word 0x00000000). -/
theorem test_zero_word_invalid : after ((start 0x00000000 []).setCtrl 17 0x77)
    (fun t => (t.pc, t.getCtrl 16)) = some (0x8300, 0x1004) := by decide

/-- E5: (fetch). -/
theorem test_fetch_outside_ram : after ({ start 0 [] with pc := 0x100000 })
    (fun t => (t.pc, t.getCtrl 17)) = some (0x8600, 0x100000) := by decide

/-- E6: (fetch). -/
theorem test_fetch_unaligned : after ({ start 0 [] with pc := 0x1002 })
    (fun t => (t.pc, t.getCtrl 17)) = some (0x8C00, 0x1002) := by decide

/-- E7: add a0, a1, a2. -/
theorem test_external_before_fetch : after (requested (locked (((start 0x000C4102 [(2, 1), (3, 2)]).setCtrl 19 3).setCtrl 22 1) 0x2000 .word))
    (fun t => (t.getCtrl 16, t.getReg 1)) = some (0x1000, 0) := by decide

/-- E8: add a0, a1, a2. -/
theorem test_external_masked : after (requested ((start 0x000C4102 [(2, 1), (3, 2)]).setCtrl 22 0))
    (fun t => (t.pc, t.getReg 1)) = some (0x1004, 3) := by decide

/-- E9: (idle). -/
theorem test_external_ends_pause : after (requested ({ { ((start 0 []).setCtrl 19 3).setCtrl 22 1 with pc := 0x1004 } with paused := true }))
    (fun t => (t.getCtrl 23, t.paused)) = some (1, false) := by decide

/-! ### Address translation (97_test_vectors_system.md section 4) -/

/-- T1: lw a0, [a1]. -/
theorem test_walk_lower_half : after (withBytes (paged (start 0x00004112 [(2, 0x8080604568)])) 0x20568 8 0x123456789ABCDEF)
    (fun t => (t.pc, t.getReg 1)) = some (0x1004, 0x123456789ABCDEF) := by decide

/-- T4: sw [a1], a0. -/
theorem test_walk_no_w : after (withBytes (paged (start 0x00004116 [(1, 1), (2, 0x8080604568)])) 0x13020 8 0x20005)
    (fun t => (t.pc, t.getCtrl 18)) = some (0x8800, 0x20005) := by decide

/-- T9: lw a0, [a1]. -/
theorem test_walk_bus_fault : after (withBytes (paged (start 0x00004112 [(2, 0x8080604568)])) 0x12018 8 0x7FFFF001)
    (fun t => (t.pc, t.getCtrl 19)) = some (0x8D00, 0xD) := by decide

/-- T10: (fetch). -/
theorem test_walk_fetch_no_x : after (withBytes (paged (start 0 [])) 0x16008 8 0x1003)
    (fun t => (t.getCtrl 16, t.getCtrl 18)) = some (0x1000, 0x1003) := by decide

/-- T11: lw a0, [a1]. -/
theorem test_walk_user_root : after (((paged (start 0x00004112 [(2, 0x8080604568)])).setCtrl 21 0x18000).setCtrl 22 6)
    (fun t => (t.pc, t.getCtrl 18)) = some (0x8700, 0) := by decide

/-- T14: llw a0, [a1]. -/
theorem test_walk_lock_paddr : after (withBytes (paged (start 0x00004192 [(2, 0x8080604568)])) 0x20568 8 0x123456789ABCDEF)
    (fun t => (t.lock.address, t.lock.paddr)) = some (0x8080604568, 0x20568) := by decide

/-! ### Ordering and alignment (20_memory.md R42, R50, R52, R56, R69; the expected values are worked out by hand from these rules) -/

/-- R50: `lw a0, [a1]` takes effect after a store of another processor that comes after its instruction. -/
theorem test_load_takes_effect_late : after (weak (start 0x00004112 [(2, 0x2000)]) 1 [.lpStore ⟨0x2000, .word, 5⟩])
    (fun t => (t.getReg 1, t.memByte 0x2000)) = some (5, 0) := by decide

/-- R50 a: `lb a0, [a1]` behind a pending store to the same byte reads what the store writes. -/
theorem test_load_sees_own_pending_store : after
    { weak (start 0x00004172 [(2, 0x2001)]) 0 [.pass, .pass] with pending := [⟨0x2000, .half, .store 0xAABBCCDD, 1⟩] }
    (fun t => (t.getReg 1, t.memByte 0x2001)) = some (0xCC, 0) := by decide

/-- R50: `sw [a1], a0` with a delay of 2 has not reached memory after its instruction. -/
theorem test_store_takes_effect_late : after (weak (start 0x00004116 [(1, 7), (2, 0x2000)]) 2 [.pass, .pass])
    (fun t => (t.memByte 0x2000, t.pending.map Pending.wait)) = some (0, [1]) := by decide

/-- R55, R52: `scw a1, [a2], a0` with a delay and another processor's store to the locked bytes still to come: the lock holds, so it
succeeds, and its store is not delayed past the other. -/
theorem test_scw_not_delayed_past_other_store : after
    (weak (locked (start 0x000C4196 [(1, 7), (2, 9), (3, 0x2000)]) 0x2000 .word) 1 [.lpStore ⟨0x2004, .byte, 5⟩])
    (fun t => (t.getReg 2, t.memByte 0x2000, t.pending.length, t.lock.locked)) = some (1, 7, 0, false) := by decide

/-- R50 a, R56 item 1: `scw a1, [a2], a0` after this processor's own store to the locked bytes, still pending: it fails, and the lock
state is unlocked. -/
theorem test_scw_after_own_pending_store : after
    { weak (locked (start 0x000C4196 [(1, 7), (2, 9), (3, 0x2000)]) 0x2000 .word) 0 [.pass, .pass] with
      pending := [⟨0x2004, .byte, .store 5, 1⟩] }
    (fun t => (t.getReg 2, t.memByte 0x2004, t.pending.length, t.lock.locked)) = some (0, 5, 0, false) := by decide

/-- R52, R56: `scw a1, [a2], a0` with a delay, undisturbed: it succeeds, unlocks, and its store is pending. -/
theorem test_scw_late_succeeds : after (weak (locked (start 0x000C4196 [(1, 7), (3, 0x2000)]) 0x2000 .word) 1 [.pass])
    (fun t => (t.getReg 2, t.lock.locked, t.pending.length)) = some (1, false, 1) := by decide

/-- R52, R54: a store of another processor that comes before a pending load-lock does not unlock; one after it does. -/
theorem test_llw_pending_not_unlocked :
    after { weak (locked (start 0x0000005C []) 0x2000 .word) 0 [.pass] with
      pending := [⟨0x2000, .word, .loadLock, 1⟩], env := [⟨[.lpStore ⟨0x2000, .byte, 5⟩], 0, false⟩, ⟨[.pass], 0, false⟩] }
      (fun t => t.lock.locked) = some true ∧
    after { weak (locked (start 0x0000005C []) 0x2000 .word) 0 [.pass] with
      pending := [⟨0x2000, .word, .loadLock, 0⟩],
      env := [⟨[.pass, .lpStore ⟨0x2000, .byte, 5⟩], 0, false⟩, ⟨[.pass], 0, false⟩] }
      (fun t => t.lock.locked) = some false := by decide

/-- R51, R141: `fence.s` completes a pending store, and `fence.l` does not. -/
theorem test_fence_completes_stores :
    after { weak (start 0x00004010 []) 0 [.pass, .pass] with pending := [⟨0x2000, .byte, .store 0xAB, 1⟩] }
      (fun t => (t.memByte 0x2000, t.pending)) = some (0xAB, []) ∧
    after { weak (start 0x00002010 []) 0 [.pass, .pass] with pending := [⟨0x2000, .byte, .store 0xAB, 1⟩] }
      (fun t => (t.memByte 0x2000, t.pending.length)) = some (0, 1) := by decide

/-- R69: without an i-cache the fetch of `add` sees the pending store that makes it `sub` (low byte 0x22). -/
theorem test_fetch_sees_pending_store : after
    { weak (start 0x000C4102 [(2, 5), (3, 3)]) 0 [.pass, .pass] with pending := [⟨0x1000, .byte, .store 0x22, 1⟩] }
    (fun t => (t.getReg 1, t.pending)) = some (2, []) := by decide

/-- R42: `lh a0, [a1]` at 0x2001 raises UALIGNR with natural alignment. -/
theorem test_lh_unaligned : after (start 0x00004132 [(2, 0x2001)]) (fun t => (t.pc, t.getCtrl 17)) = some (0x8A00, 0x2001) := by
  decide

/-- `DATA_ALIGN` other than natural (log entry 21): the same `lh` loads; at 0x203D it leaves its block and raises. -/
theorem test_lh_within_block :
    after { withBytes (start 0x00004132 [(2, 0x2001)]) 0x2001 4 0xAABBCCDD with
      platform := { Config.resetPlatform with dataAlign := .withinBlock } } (fun t => t.getReg 1) = some 0xAABBCCDD ∧
    after { start 0x00004132 [(2, 0x203D)] with
      platform := { Config.resetPlatform with dataAlign := .withinBlock } } (fun t => t.getCtrl 17) = some 0x203D := by decide


/-! ### The assembler: lines of 95_test_vectors.md sections 2.3 and 2.5, with their words -/

/-- The words of a line at 0x1000. -/
def wordsOf (mnemonic : String) (operands : List AsmOperand) : Option (List InstrWord) :=
  (assembleLine 0x1000 ⟨mnemonic, operands⟩).map (fun l => l.map encode)

theorem test_assemble_names : regNamed "a0" = some 1 ∧ regNamed "l13" = some 20 ∧ regNamed "sp" = some 29 ∧
    regNamed "10" = none ∧ ctrlNamed "int15" = some 15 ∧ ctrlNamed "intstat" = some 23 := by decide

theorem test_assemble_memory :
    wordsOf "lw" [.reg 1, .mem 2 (some 3) (some 4088)] = some [0xFF8C4112] ∧
    wordsOf "lh" [.reg 1, .mem 2 none (some 2044)] = some [0xFF804132] ∧ wordsOf "lb" [.reg 1, .mem 2 none none] = some [0x00004172] ∧
    wordsOf "sq" [.mem 2 (some 3) (some 1022), .reg 1] = some [0xFF8C4156] ∧
    wordsOf "sch" [.reg 2, .mem 3 none (some 2044), .reg 1] = some [0xFF8C41B6] ∧
    wordsOf "lw" [.reg 1, .mem 2 none (some 4)] = none ∧ wordsOf "lb" [.reg 1, .mem 2 none (some 512)] = none := by decide

theorem test_assemble_effects : wordsOf "fence.s" [] = some [0x00004010] ∧ wordsOf "cinval.page" [.reg 1] = some [0x0000E130] ∧
    wordsOf "cinval.all" [] = some [0x00016030] ∧ wordsOf "cfetch.si" [.reg 1] = some [0x0000C150] := by decide

theorem test_assemble_immediates :
    wordsOf "ssi.c" [.reg 1, .num 0xFFFF, .num 32] = some [0xFFFFA108] ∧ wordsOf "add" [.reg 1, .reg 2, .reg 3, .num 511] = some [0xFF8C4102] ∧
    wordsOf "mul" [.reg 1, .reg 2, .reg 3, .num (-256)] = some [0x800C4142] ∧ wordsOf "muli" [.reg 1, .reg 2, .num (-8192)] = some [0x80004141] ∧
    wordsOf "sl" [.reg 1, .reg 2, .num 63] = some [0x1F80418A] ∧ wordsOf "sl" [.reg 1, .reg 2, .reg 3] = some [0x000C418A] ∧
    wordsOf "si.i" [.reg 1, .reg 2, .num 63, .num 63] = some [0x7FFC4109] ∧ wordsOf "rev.q" [.reg 1, .reg 2] = some [0x00C04149] ∧
    wordsOf "ext" [.reg 1, .reg 2, .reg 3] = some [0x000C4186] ∧ wordsOf "seq" [.reg 1, .reg 2, .reg 3, .num 511] = some [0xFF8C418E] ∧
    wordsOf "addi" [.reg 1, .reg 2, .num 16384] = none := by decide

/-- F1 and F3 of 97_test_vectors_system.md, and lines of 95. -/
theorem test_assemble_control : wordsOf "bz" [.reg 1, .symbol 0x1010] = some [0x000061D0] ∧
    wordsOf "bz" [.reg 1, .symbol 0xFF0] = some [0xFFFF61D0] ∧ wordsOf "jl" [.reg 1, .reg 2] = some [0x000041B1] ∧
    wordsOf "jlr" [.reg 1, .reg 2, .num (-8192)] = some [0x80004191] ∧ wordsOf "syscall" [] = some [0x0000001C] ∧
    wordsOf "lctrl" [.reg 1, .ctrl 0] = some [0x000001BC] ∧ wordsOf "sctrl" [.ctrl 0, .reg 1] = some [0x000001DC] := by decide

theorem test_assemble_pseudo :
    wordsOf "call" [.symbol 0x12340] = some [0x00017E08, 0x1343DE91] ∧ wordsOf "call" [.symbol 0xF00] = some [0xFFFF7E08, 0xFF03DE91] ∧
    wordsOf "fcall" [.symbol 0xFFFF800000123458] = some [0xFFFFFE08, 0x80009E08, 0x00125E08, 0x345BDEB1] ∧
    wordsOf "li" [.reg 1, .num 0x123456789ABCDEF0] = some [0x1234E108, 0x56788108, 0x9ABC4108, 0xDEF00108] ∧
    wordsOf "ret" [] = some [0x0003C0B1] ∧ wordsOf "nop" [] = some [0x00000026] ∧
    wordsOf "mov" [.reg 1, .reg 2] = some [0x00004126] := by decide

/-- The effect of `call 0x12340` at 0x1000: `lp` 0x1008, `pc` 0x12348. -/
theorem test_call_lands_past_the_symbol :
    ((start 0 []).runs ((Pseudo.call 30 30 0x12340).expand 0x1000)).map (fun t => (t.pc, t.getReg 30)) = some (0x12348, 0x1008) := by
  decide

/-- A symbol above and one below, and one that `fcall` reaches. -/
theorem wit_PseudoInstructionsTakeEffect : (30 : Reg) ≠ 0 ∧ (30 : Reg) ≠ 31 ∧ (0xFFFF800000123458 : Word) &&& 3 = 0 ∧
    (0x12340 - (start 0 []).pc) &&& 3 = 0 ∧ ((0x12340 - (start 0 []).pc).setWidth 32).signExtend 64 = 0x12340 - (start 0 []).pc ∧
    (0xF00 - (start 0 []).pc - 8) &&& 3 = 0 ∧
    ((0xF00 - (start 0 []).pc - 8).setWidth 32).signExtend 64 = 0xF00 - (start 0 []).pc - 8 := by decide

/-! ### Witnesses: registers and arithmetic -/

theorem wit_ZeroAndIpIgnoreWrites : (0 : Reg) = 0 ∧ (31 : Reg) = 31 ∧ (1 : Reg) ≠ 0 ∧ (30 : Reg) ≠ 31 := by decide

/-- Both clauses for both forms; the register form also with a sum that wraps to 0. -/
theorem wit_UnsignedDivision : (5 : Word) + (0#9).setWidth 64 ≠ 0 ∧ (0xFFFFFFFFFFFFFFFF : Word) + (1#9).setWidth 64 = 0 ∧
    (0#14).setWidth 64 = (0 : Word) ∧ (16383#14).setWidth 64 ≠ (0 : Word) := by decide

/-- The three clauses: divisor 0, -2^63 by -1, and a divisor at the edge of `imm9`. -/
theorem wit_SignedDivision : (1 : Word) + (511#9).signExtend 64 = 0 ∧
    (0 : Word) + (511#9).signExtend 64 = -1 ∧ (0x8000000000000000 : Word) = BitVec.intMin 64 ∧
    (0 : Word) + (256#9).signExtend 64 ≠ 0 ∧ ¬ ((0 : Word) + (256#9).signExtend 64 = -1 ∧ (7 : Word) = BitVec.intMin 64) := by
  decide

/-- The bit positions that the statements bit by bit speak of. -/
theorem wit_bit_positions : (0 : Nat) < 64 ∧ (63 : Nat) < 64 := by decide

theorem wit_CountsCountBits : (start 0 []).getReg 2 = 0 ∧ (start 0 [(2, 0x8000000000000000)]).getReg 2 ≠ 0 := by decide

/-! ### Witnesses: memory -/

/-- A state with data for the memory instructions; translation off. -/
def busy : State := start 0 [(1, 0x1122334455667788), (2, 0x2000), (3, 8)]

/-- The same on a platform that reorders accesses and has caches, with a store to 0x2008 pending for one event, that block in both
caches, and two events to come. -/
def cachedBusy : State :=
  { busy with
    platform :=
      { busy.platform with
        reorders := true, hasDcache := true, hasIcache := true, hasTcache := true }
    pending := [{ addr := 0x2008, size := .byte, effect := .store 0xAB, wait := 1 }]
    dcache := [{ number := 0x80, copy := [] }]
    icache := [{ number := 0x80, copy := [(0x2000, 7)] }]
    env := [{ events := [.pass], delay := 0, extIrq := false }, { events := [.pass], delay := 0, extIrq := false }] }

/-- A lock over `a1 + 8`, with translation on, and a store of this processor over it pending. -/
def overlapped : State :=
  { locked (paged (start 0 [(1, 7), (2, 0x8080604568)])) 0x8080604570 .word with
    lock := { locked := true, width := .word, address := 0x8080604570, paddr := 0x20570 }
    platform := { Config.resetPlatform with reorders := true }
    pending := [{ addr := 0x20574, size := .byte, effect := .store 1, wait := 0 }]
    env := [{ events := [.pass], delay := 0, extIrq := false }] }

/-- `lw` at the last word of RAM and `lb` at its last byte, in their turn. -/
theorem wit_LoadsReadLittleEndian :
    (Instr.lw, AccessSize.word) ∈ plainLoads ∧ (Instr.lb, AccessSize.byte) ∈ plainLoads ∧
    (start 0 [(2, 0xFFFF8)]).AlignedAt ((start 0 [(2, 0xFFFF8)]).offsetAddr .word 2 0 0) .word ∧
    (start 0 [(2, 0xFFFF8)]).translate ((start 0 [(2, 0xFFFF8)]).offsetAddr .word 2 0 0) .read = .ok 0xFFFF8 ∧
    (start 0 [(2, 0xFFFF8)]).busOk 0xFFFF8 .word .read = true ∧ (start 0 [(2, 0xFFFF8)]).InTurn 0xFFFF8 .word ∧
    (start 0 [(2, 0xFFE00)]).AlignedAt ((start 0 [(2, 0xFFE00)]).offsetAddr .byte 2 0 511) .byte ∧
    (start 0 [(2, 0xFFE00)]).translate ((start 0 [(2, 0xFFE00)]).offsetAddr .byte 2 0 511) .read = .ok 0xFFFFF ∧
    (start 0 [(2, 0xFFE00)]).busOk 0xFFFFF .byte .read = true ∧ (start 0 [(2, 0xFFE00)]).InTurn 0xFFFFF .byte :=
  ⟨by simp [plainLoads], by simp [plainLoads], by unfold State.AlignedAt; decide, rfl, rfl, ⟨.inl rfl, List.forall_mem_nil _⟩,
    by unfold State.AlignedAt; decide, rfl, rfl, ⟨.inl rfl, List.forall_mem_nil _⟩⟩

/-- A load of a byte whose store is still pending, which waits for it; and one beside it, in its turn. -/
theorem wit_LoadsReadLittleEndian_pending : cachedBusy.AlignedAt (cachedBusy.offsetAddr .byte 2 3 0) .byte ∧
    cachedBusy.translate (cachedBusy.offsetAddr .byte 2 3 0) .read = .ok 0x2008 ∧
    cachedBusy.busOk 0x2008 .byte .read = true ∧ cachedBusy.waitFor 0x2008 (sizeBytes .byte) = 1 + 1 ∧
    cachedBusy.waitFor 0x2009 (sizeBytes .byte) = 0 ∧ cachedBusy.InTurn 0x2009 .byte :=
  ⟨by unfold State.AlignedAt; decide, rfl, rfl, by decide, by decide, .inr rfl, by unfold State.ClearAt; decide⟩

/-- `llh` through the page tables, at the highest offset of `imm9`, in its turn; and one that waits. -/
theorem wit_LoadLocksReadAndLock : (Instr.llh, AccessSize.half) ∈ loadLocks ∧
    (paged (start 0 [(2, 0x8080604004)])).AlignedAt ((paged (start 0 [(2, 0x8080604004)])).offsetAddr .half 2 0 511) .half ∧
    (paged (start 0 [(2, 0x8080604004)])).translate
      ((paged (start 0 [(2, 0x8080604004)])).offsetAddr .half 2 0 511) .read = .ok 0x20800 ∧
    (paged (start 0 [(2, 0x8080604004)])).busOk 0x20800 .half .read = true ∧
    (paged (start 0 [(2, 0x8080604004)])).InTurn 0x20800 .half ∧
    (paged (start 0 [(2, 0x8080604004)])).waitFor 0x20800 (sizeBytes .half) = 0 ∧
    cachedBusy.waitFor 0x2008 (sizeBytes .half) = 1 + 1 :=
  ⟨by simp [loadLocks], by unfold State.AlignedAt; decide, rfl, rfl, ⟨.inl rfl, List.forall_mem_nil _⟩, by decide, by decide⟩

/-- `sb` over a lock and beside it, in its turn; `sq` that waits; and a store before a pending load-lock. -/
theorem wit_StoresWriteLittleEndian : (Instr.sb, AccessSize.byte) ∈ plainStores ∧
    busy.AlignedAt (busy.offsetAddr .byte 2 0 3) .byte ∧
    busy.translate (busy.offsetAddr .byte 2 0 3) .write = .ok 0x2003 ∧ busy.busOk 0x2003 .byte .write = true ∧
    busy.waitFor 0x2003 (sizeBytes .byte) = 0 ∧ busy.InTurn 0x2003 .byte ∧ busy.lockPending = false ∧
    (locked busy 0x2000 .half).OverlapsLock 0x2003 .byte ∧
    busy.platform.lockGranule = .exact ∧ ¬ (locked busy 0x2004 .half).OverlapsLock 0x2003 .byte ∧
    (Instr.sq, AccessSize.quarter) ∈ plainStores ∧ cachedBusy.AlignedAt (cachedBusy.offsetAddr .quarter 2 3 0) .quarter ∧
    cachedBusy.translate (cachedBusy.offsetAddr .quarter 2 3 0) .write = .ok 0x2008 ∧
    cachedBusy.busOk 0x2008 .quarter .write = true ∧ cachedBusy.waitFor 0x2008 (sizeBytes .quarter) = 1 + 1 ∧
    ({ busy with pending := [⟨0x2000, .word, .loadLock, 0⟩] } : State).lockPending = true ∧
    ({ busy with pending := [⟨0x2000, .word, .loadLock, 0⟩] } : State).waitFor 0x2008 (sizeBytes .byte) = 0 :=
  ⟨by simp [plainStores], by unfold State.AlignedAt; decide, rfl, rfl, by decide, ⟨.inl rfl, List.forall_mem_nil _⟩, rfl,
    by simp [State.OverlapsLock]; decide, rfl, by simp [State.OverlapsLock]; decide, by simp [plainStores],
    by unfold State.AlignedAt; decide, rfl, rfl, by decide, by decide, by decide⟩

/-- A lock over 0x2008, held. -/
def locked8 : State := locked busy 0x2008 .word

/-- With a load of its bytes pending. -/
def locked8Waiting : State := { locked8 with pending := [⟨0x2008, .word, .load, 0⟩] }

/-- With a delay. -/
def locked8Late : State := { weak locked8 0 [.pass] with delay := 1 }

/-- With a delay, and a store of another processor to the locked bytes to come. -/
def locked8Contended : State := { weak locked8 0 [.lpStore ⟨0x2008, .byte, 5⟩] with delay := 1 }

/-- `scw` with the lock held: in its turn; behind a pending load; with a delay, which a store of another processor takes away. -/
theorem wit_StoreConditionalSucceeds : (Instr.scw, AccessSize.word) ∈ storeConditionals ∧
    (∀ s ∈ [locked8, locked8Waiting, locked8Late, locked8Contended],
      s.getReg 2 + BitVec.ofNat 64 ((1#9).toNat * sizeBytes .word) = 0x2008 ∧ s.AlignedAt 0x2008 .word ∧
      s.translate 0x2008 .write = .ok 0x2008 ∧ s.busOk 0x2008 .word .write = true ∧
      (s.testPoint 0x2008 0x2008 .word).lock.locked = true ∧ (s.testPoint 0x2008 0x2008 .word).lock.address = 0x2008 ∧
      (s.testPoint 0x2008 0x2008 .word).lock.width = .word) ∧
    locked8.InTurn 0x2008 .word ∧ locked8Late.ClearAt 0x2008 .word ∧ locked8.conditionalWait 0x2008 0x2008 .word = 0 ∧
    locked8Waiting.conditionalWait 0x2008 0x2008 .word = 0 + 1 ∧ locked8Late.conditionalWait 0x2008 0x2008 .word = 0 + 1 ∧
    locked8Contended.conditionalWait 0x2008 0x2008 .word = 0 := by
  refine ⟨by simp [storeConditionals], ?_, ⟨.inl rfl, List.forall_mem_nil _⟩, List.forall_mem_nil _, by decide, by decide,
    by decide, by decide⟩
  unfold State.AlignedAt; decide

/-- `sch` without a lock, with one elsewhere, with one of another size; and behind a pending store over its lock. -/
theorem wit_StoreConditionalFails : (Instr.sch, AccessSize.half) ∈ storeConditionals ∧
    busy.AlignedAt (busy.getReg 2 + BitVec.ofNat 64 ((511#9).toNat * sizeBytes .half)) .half ∧
    busy.translate (busy.getReg 2 + BitVec.ofNat 64 ((511#9).toNat * sizeBytes .half)) .write = .ok 0x27FC ∧
    (busy.testPoint 0x27FC 0x27FC .half).lock.locked = false ∧ busy.ClearAt 0x27FC .half ∧
    ((locked busy 0x27F8 .half).testPoint 0x27FC 0x27FC .half).lock.address ≠ 0x27FC ∧
    ((locked busy 0x27FC .word).testPoint 0x27FC 0x27FC .half).lock.width ≠ .half ∧
    (overlapped.testPoint 0x8080604570 0x20570 .word).lock.locked = false :=
  ⟨by simp [storeConditionals], by unfold State.AlignedAt; decide, rfl, rfl, List.forall_mem_nil _, by decide, by decide,
    by decide⟩

/-- A store-conditional behind a pending store to its bytes, with translation on; the store is over the lock, which holds. -/
theorem wit_StoreConditionalAfterOverlap : (Instr.scw, AccessSize.word) ∈ storeConditionals ∧ overlapped.statV = true ∧
    overlapped.getReg 2 + BitVec.ofNat 64 ((1#9).toNat * sizeBytes .word) = 0x8080604570 ∧
    overlapped.AlignedAt 0x8080604570 .word ∧ overlapped.translate 0x8080604570 .write = .ok 0x20570 ∧
    ¬ overlapped.ClearAt 0x20570 .word ∧ overlapped.lock.locked = true ∧ overlapped.lock.address = 0x8080604570 ∧
    overlapped.lock.width = .word ∧ overlapped.lockPending = false ∧
    ∃ q ∈ overlapped.pending, q.isStore = true ∧ q.overlaps 0x20570 (sizeBytes .word) = true ∧
      overlapped.OverlapsLock q.addr q.size :=
  ⟨by simp [storeConditionals], by decide, by decide, by unfold State.AlignedAt; decide, by decide,
    by unfold State.ClearAt; decide, rfl, rfl, rfl, by decide, _, List.mem_singleton.mpr rfl, by decide, by decide,
    by unfold State.OverlapsLock; decide⟩

/-- Each size that has an alignment, one above a multiple, with natural alignment; and a word that leaves its block, with the other. -/
theorem wit_UnalignedAccessesRaise :
    ¬ (start 0 [(2, 1)]).AlignedAt ((start 0 [(2, 1)]).offsetAddr .quarter 2 0 511) .quarter ∧
    ¬ (start 0 [(2, 2)]).AlignedAt ((start 0 [(2, 2)]).offsetAddr .half 2 0 511) .half ∧
    ¬ (start 0 [(2, 4)]).AlignedAt ((start 0 [(2, 4)]).offsetAddr .word 2 0 511) .word ∧
    ¬ (start 0 [(3, 7)]).AlignedAt ((start 0 [(3, 7)]).getReg 3 + BitVec.ofNat 64 ((0#9).toNat * sizeBytes .word)) .word ∧
    ¬ ({ busy with platform := { Config.resetPlatform with dataAlign := .withinBlock } } : State).AlignedAt 0x2039 .word ∧
    ({ busy with platform := { Config.resetPlatform with dataAlign := .withinBlock } } : State).AlignedAt 0x2035 .word := by
  unfold State.AlignedAt; decide

/-- The first address above RAM: a load, a load-lock, a store; and a store-conditional whose lock holds there. -/
theorem wit_RefusedAccessesRaise :
    (start 0 [(2, 0x100000)]).AlignedAt ((start 0 [(2, 0x100000)]).offsetAddr .byte 2 0 0) .byte ∧
    (start 0 [(2, 0x100000)]).translate ((start 0 [(2, 0x100000)]).offsetAddr .byte 2 0 0) .read = .ok 0x100000 ∧
    (start 0 [(2, 0x100000)]).busOk 0x100000 .byte .read = false ∧
    (start 0 [(2, 0x100000)]).translate ((start 0 [(2, 0x100000)]).offsetAddr .byte 2 0 0) .write = .ok 0x100000 ∧
    (start 0 [(2, 0x100000)]).busOk 0x100000 .byte .write = false ∧
    ((locked (start 0 [(2, 0x100000)]) 0x100000 .byte).testPoint 0x100000 0x100000 .byte).lock.locked = true ∧
    ((locked (start 0 [(2, 0x100000)]) 0x100000 .byte).testPoint 0x100000 0x100000 .byte).lock.width = .byte ∧
    ((locked (start 0 [(2, 0x100000)]) 0x100000 .byte).testPoint 0x100000 0x100000 .byte).lock.address =
      (start 0 [(2, 0x100000)]).getReg 2 + BitVec.ofNat 64 ((0#9).toNat * sizeBytes .byte) :=
  ⟨by unfold State.AlignedAt; decide, rfl, rfl, rfl, rfl, rfl, rfl, rfl⟩

/-- An address that is not canonical, at a register and offset for each form (T7 of 97_test_vectors_system.md). -/
theorem wit_FailedTranslationsRaise :
    (paged (start 0 [(1, 0x800000000000)])).AlignedAt ((paged (start 0 [(1, 0x800000000000)])).offsetAddr .word 1 0 0) .word ∧
    (paged (start 0 [(1, 0x800000000000)])).translate ((paged (start 0 [(1, 0x800000000000)])).offsetAddr .word 1 0 0) .read =
      .error (addressInterrupt .accessr 0x800000000000) ∧
    (paged (start 0 [(1, 0x800000000000)])).translate ((paged (start 0 [(1, 0x800000000000)])).offsetAddr .word 1 0 0) .write =
      .error (addressInterrupt .accessw 0x800000000000) ∧
    (paged (start 0 [(1, 0x800000000000)])).translate
      ((paged (start 0 [(1, 0x800000000000)])).getReg 1 + BitVec.ofNat 64 ((0#9).toNat * sizeBytes .word)) .write =
      .error (addressInterrupt .accessw 0x800000000000) ∧
    (paged (start 0 [(1, 0x800000000000)])).translate ((paged (start 0 [(1, 0x800000000000)])).getReg 1) .read =
      .error (addressInterrupt .accessr 0x800000000000) :=
  ⟨by unfold State.AlignedAt; decide, rfl, rfl, rfl, rfl⟩

/-- A pending store; its bytes, a byte that an event to come writes, and no event to come. -/
theorem wit_FenceDrainsStores_EntryCompletesEarlierStores : cachedBusy.InOrder ∧ cachedBusy.Undisturbed 0x2008 ∧
    pendingByte cachedBusy.pending 0x2008 = some 0xAB ∧
    ¬ ({ cachedBusy with env := [⟨[.lpStore ⟨0x2000, .byte, 1⟩], 0, false⟩] } : State).Undisturbed 0x2000 ∧
    (∀ p ∈ cachedBusy.pending, if p.isStore then false = false else true = false) ∧
    ∀ i ∈ ({ cachedBusy with env := [⟨[], 0, false⟩] } : State).env, i.events = [] :=
  ⟨by unfold State.InOrder; decide, by unfold State.Undisturbed; decide, rfl, by unfold State.Undisturbed; decide, by decide,
    by decide⟩

/-- A byte with a pending store in the bytes of an access, and an access beside it in its turn. -/
theorem wit_BufferIsInvisibleToItsOwner : cachedBusy.InOrder ∧ ((0x2008 : Word) - 0x2001).toNat < sizeBytes .word ∧
    cachedBusy.Undisturbed 0x2008 ∧ pendingByte cachedBusy.pending 0x2008 = some 0xAB ∧ cachedBusy.InTurn 0x2009 .byte ∧
    cachedBusy.platform.reorders = true :=
  ⟨by unfold State.InOrder; decide, by decide, by unfold State.Undisturbed; decide, rfl,
    ⟨.inr rfl, by unfold State.ClearAt; decide⟩, rfl⟩

/-- The three forms of `cinval`, on a cached block and its page. -/
theorem wit_CinvalDiscardsAndUnlocks : (0 : BitVec 2) ≠ 3 ∧ (1 : BitVec 2) ≠ 3 ∧ (2 : BitVec 2) ≠ 3 ∧
    cachedBusy.translate (cachedBusy.getReg 2) .read = .ok 0x2000 ∧ (0x2000 : Word).toNat / 64 = 0x80 ∧
    0x80 / 64 = (0x2000 : Word).toNat / 4096 ∧ cachedBusy.icache ≠ [] ∧ cachedBusy.dcache ≠ [] :=
  ⟨by decide, by decide, by decide, rfl, rfl, rfl, by decide, by decide⟩

/-- The page of virtual 0x8080604000 is physical 0x20000. -/
theorem wit_CfetchOnlyUnlocks :
    (paged (start 0 [(1, 0x8080604568)])).translate ((paged (start 0 [(1, 0x8080604568)])).getReg 1) .read = .ok 0x20568 := by decide

/-- A store over the locked half-word, one beside it in its 64-byte block, and one in the next block; both granules. -/
theorem wit_StoresUnlockOverlappedLocks :
    (locked busy 0x2004 .half).OverlapsLock 0x2007 .byte ∧ ¬ (locked busy 0x2004 .half).OverlapsLock 0x2008 .word ∧
    overlaps ((0x2004 : Word) &&& ~~~63) 64 0x2038 (sizeBytes .word) = true ∧
    overlaps ((0x2004 : Word) &&& ~~~63) 64 0x2040 (sizeBytes .word) = false ∧
    (locked busy 0x2004 .half).platform.lockGranule = .exact ∧
    ({ busy.platform with lockGranule := .block64 } : Platform).lockGranule = .block64 ∧
    (locked busy 0x2004 .half).lockPending = false ∧
    ({ busy with pending := [⟨0x2000, .word, .loadLock, 0⟩] } : State).lockPending = true :=
  ⟨by simp [State.OverlapsLock]; decide, by simp [State.OverlapsLock]; decide, by decide, by decide, rfl, rfl, rfl, rfl⟩

/-- A state with a copy in the d-cache that agrees with memory, before a step at whose boundary a block is filled. -/
theorem wit_DataCacheStaysCoherent :
    State.Coherent { cachedBusy with env := [⟨[.fillD 0x40], 0, false⟩] } ∧
    (∀ i ∈ ({ cachedBusy with env := [⟨[.fillD 0x40], 0, false⟩] } : State).env, ∀ e ∈ i.events, e.isInternal = true) ∧
    ∃ t, step { cachedBusy with env := [⟨[.fillD 0x40], 0, false⟩] } = .next t := by
  refine ⟨?_, by decide, _, rfl⟩
  intro a b h
  have hn : a.toNat / 64 = 0x80 := by
    by_contra hn
    have : (0x80 == a.toNat / 64) = false := by simpa using fun h' => hn h'.symm
    simp [cachedByte, cachedBusy, List.find?, this] at h
  have hb : b = 0 := by
    simp [cachedByte, cachedBusy, hn, Memory.read] at h
    exact h.symm
  subst hb
  have hlo : 0x2000 ≤ a.toNat := by omega
  show (0 : Byte) = Memory.read _ a.toNat
  have hm : cachedBusy.mem = [] := by decide
  simp [hm, Memory.read]

/-! ### Witnesses: translation -/

/-- Off; on with an address just above the lower half, and one just below the upper half. -/
theorem wit_TranslationOffAndNonCanonical : busy.statV = false ∧ (paged busy).statV = true ∧
    (0x0000800000000000 : Word).extractLsb' 48 16 ≠ (if (0x0000800000000000 : Word).getLsbD 47 then 0xFFFF else 0) ∧
    (0xFFFF7FFFFFFFFFFF : Word).extractLsb' 48 16 ≠ (if (0xFFFF7FFFFFFFFFFF : Word).getLsbD 47 then 0xFFFF else 0) := by
  decide

/-- A platform with a translation cache whose entry for the page of VA is `pte`, behind one for another page; in user mode, where
`user`. -/
def remembering (user : Bool) (pte : Word) : State :=
  { (paged busy).setCtrl ctrlStat (if user then 6 else 4) with
    platform := { Config.resetPlatform with hasTcache := true }
    tcacheK := if user then [] else [{ page := 5, pte := 0x7003 }, { page := 0x8080604, pte := pte }]
    tcacheU := if user then [{ page := 0x8080604, pte := pte }, { page := 0x8080604, pte := 0x9007 }] else [] }

/-- A hit with each permission, in kernel and in user mode; hits that lack `w`, lack `x`. -/
theorem wit_cachedTranslations : (remembering false 0x7003).Hits 0x8080604568 0x7003 ∧
    (remembering true 0x7005).Hits 0x8080604568 0x7005 ∧ (0x7003 : Word).getLsbD 1 = true ∧ (0x7003 : Word).getLsbD 2 = false ∧
    (0x7005 : Word).getLsbD 1 = false ∧ (0x7005 : Word).getLsbD 2 = true :=
  ⟨⟨by decide, by decide, rfl, [{ page := 5, pte := 0x7003 }], { page := 0x8080604, pte := 0x7003 }, [], rfl, by decide, rfl,
      by decide⟩,
    ⟨by decide, by decide, rfl, [], { page := 0x8080604, pte := 0x7005 }, [{ page := 0x8080604, pte := 0x9007 }], rfl, by decide,
      rfl, by decide⟩, by decide, by decide, by decide, by decide⟩

/-- The tables of 97_test_vectors_system.md section 4 with entry addresses of VA, one of them replaced. -/
def walking (entry : Word) (v : Word) : State := withBytes (paged busy) entry 4 v

/-- VA of 97_test_vectors_system.md for a read and a write, and the code page for a fetch. -/
theorem wit_FourGoodLevelsTranslate :
    (paged busy).Walks 0x8080604568 ∧ (paged busy).LevelsGood 0x8080604568 4 ∧
    ((paged busy).entryAt 0x8080604568 3).getLsbD 1 = true ∧
    (paged busy).Walks 0x1FFF ∧ (paged busy).LevelsGood 0x1FFF 4 ∧ ((paged busy).entryAt 0x1FFF 3).getLsbD 2 = true := by
  refine ⟨⟨by decide, by decide, rfl⟩, ?_, by decide, ⟨by decide, by decide, rfl⟩, ?_, by decide⟩ <;>
    · intro j hj
      match j with
      | 0 | 1 | 2 | 3 => exact ⟨by decide, by decide⟩
      | n + 4 => omega

/-- At each level an entry that cannot be read (the table above names an address outside RAM) or is not valid; and a final entry
without `w`, without `x`. -/
theorem wit_WalkFailsAtTheFirstBadLevel :
    ((paged busy).setCtrl ctrlKptp 0x100000).Walks 0x8080604568 ∧ (walking 0x12018 0x7FFFF001).Walks 0x8080604568 ∧
    (walking 0x10008 0x11000).Walks 0x8080604568 ∧ (walking 0x13020 0x20006).Walks 0x8080604568 ∧
    (walking 0x13020 0x20001).Walks 0x8080604568 ∧
    ((paged busy).setCtrl ctrlKptp 0x100000).LevelsGood 0x8080604568 0 ∧
    ((paged busy).setCtrl ctrlKptp 0x100000).busOk
      (((paged busy).setCtrl ctrlKptp 0x100000).entryAddr 0x8080604568 0) .word .read = false ∧
    (walking 0x12018 0x7FFFF001).LevelsGood 0x8080604568 3 ∧
    (walking 0x12018 0x7FFFF001).busOk ((walking 0x12018 0x7FFFF001).entryAddr 0x8080604568 3) .word .read = false ∧
    (walking 0x10008 0x11000).LevelsGood 0x8080604568 0 ∧
    ((walking 0x10008 0x11000).entryAt 0x8080604568 0).getLsbD 0 = false ∧
    (walking 0x13020 0x20006).LevelsGood 0x8080604568 3 ∧
    ((walking 0x13020 0x20006).entryAt 0x8080604568 3).getLsbD 0 = false ∧
    (walking 0x13020 0x20001).LevelsGood 0x8080604568 4 ∧
    ((walking 0x13020 0x20001).entryAt 0x8080604568 3).getLsbD 1 = false ∧
    ((walking 0x13020 0x20001).entryAt 0x8080604568 3).getLsbD 2 = false := by
  refine ⟨⟨by decide, by decide, rfl⟩, ⟨by decide, by decide, rfl⟩, ⟨by decide, by decide, rfl⟩, ⟨by decide, by decide, rfl⟩,
    ⟨by decide, by decide, rfl⟩, ?_, by decide, ?_, by decide, ?_, by decide, ?_, by decide, ?_, by decide, by decide⟩ <;>
    · intro j hj
      match j with
      | 0 | 1 | 2 | 3 => first | omega | exact ⟨by decide, by decide⟩
      | n + 4 => omega

/-! ### Witnesses: system control, interrupts, the step -/

/-- Kernel mode and user mode. -/
theorem wit_WaitPausesSpinIdles_IretRestores_PrivilegedInUserModeRaise : busy.statU = false ∧ (busy.setCtrl ctrlStat 2).statU = true := by decide

/-- The lowest and the highest control register number. -/
theorem wit_LctrlReads : busy.statU = false ∧ (0#19).toNat = (0 : CtrlReg).val ∧ (23#19).toNat = (23 : CtrlReg).val := by decide

/-- A number in each class: the edges of `int0` to `intip`, the full registers, the roots, `stat` and `intstat`. -/
theorem wit_SctrlWrites : busy.statU = false ∧ (16#19).toNat = ctrlIntip.val ∧ (17#19).toNat = ctrlIntval.val ∧
    (19#19).toNat = ctrlIntcause.val ∧ (20#19).toNat = ctrlKptp.val ∧ (21#19).toNat = ctrlUptp.val ∧
    (22#19).toNat = ctrlStat.val ∧ (23#19).toNat = ctrlIntstat.val := by decide

theorem wit_IllFormedRaise : ¬ WellFormed (.cinval 1 true true 3) ∧ ¬ WellFormed (.sctrl 1 24) := by decide

theorem wit_PcChangesOnlyByControlFlow : ∃ t, exec (.jl 30 2 4) busy = .next t := ⟨_, rfl⟩

/-- An enabled request, while running and while paused; then a pause without a request, and with `E` 0. -/
theorem wit_ExternalInterruptsAtBoundaries :
    (requested (busy.setCtrl ctrlStat 1)).input.extIrq = true ∧ (requested (busy.setCtrl ctrlStat 1)).statE = true ∧
    (requested { busy.setCtrl ctrlStat 1 with paused := true }).statE = true ∧
    ({ busy with paused := true } : State).input.extIrq = false ∧
    (requested { busy with paused := true }).statE = false ∧ (requested { busy with paused := true }).paused = true := by decide

/-- `add a0, a1, a2` at 0x1000, and the same word placed by `withFetchWord` after reset. -/
theorem wit_StepRunsTheDecodedInstruction :
    (start 0x000C4102 []).takesExternal = false ∧ (start 0x000C4102 []).atBoundary.paused = false ∧
    (start 0x000C4102 []).atBoundary.fetchWord (start 0x000C4102 []).atBoundary.pc =
      .ok (0x000C4102, (start 0x000C4102 []).atBoundary) ∧
    decodeWord 0x000C4102 = .ok (.add 1 2 3 0) ∧
    (State.reset.withFetchWord 32 0x000C4102).fetchWord 0x1000 =
      .ok (0x000C4102, State.reset.withFetchWord 32 0x000C4102) := ⟨rfl, rfl, rfl, rfl, rfl⟩

/-- The last word of RAM; a platform with an i-cache, and without one a store over the word, on a byte that no event to come writes,
and none. -/
theorem wit_FetchReadsFourBytes : (0xFFFFC : Word) &&& 3 = 0 ∧ busy.translate 0xFFFFC .fetch = .ok 0xFFFFC ∧
    busy.busOk 0xFFFFC .half .fetch = true ∧ cachedBusy.platform.hasIcache = true ∧ busy.platform.hasIcache = false ∧
    (∀ p ∈ cachedBusy.pending, p.isStore = true → p.overlaps 0xFFFFC 4 = false) ∧
    overlapped.platform.hasIcache = false ∧ overlapped.InOrder ∧ overlapped.Undisturbed 0x20574 ∧
    pendingByte overlapped.pending 0x20574 = some 1 ∧ ((0x20577 : Word) - 0x20574).toNat < 4 ∧
    ∃ p ∈ overlapped.pending, p.isStore = true ∧ p.overlaps 0x20574 4 = true :=
  ⟨by decide, rfl, rfl, rfl, rfl, by decide, rfl, by unfold State.InOrder; decide, by unfold State.Undisturbed; decide, rfl,
    by decide, _, List.mem_singleton.mpr rfl, by decide, by decide⟩

theorem wit_NoInstructionRaises : (start 0x7C []).takesExternal = false ∧ (start 0x7C []).atBoundary.paused = false ∧
    (start 0x7C []).atBoundary.fetchWord (start 0x7C []).atBoundary.pc = .ok (0x7C, (start 0x7C []).atBoundary) ∧ lowByte 0x7C ∉ listedLowBytes :=
  ⟨rfl, rfl, rfl, by decide⟩

/-- The three failures: E5, E6 and T10 of 97_test_vectors_system.md. -/
theorem wit_FailedFetchesRaise :
    ({ busy with pc := 0x1002 } : State).takesExternal = false ∧
    ({ busy with pc := 0x1002 } : State).atBoundary.paused = false ∧
    ({ busy with pc := 0x1002 } : State).atBoundary.pc &&& 3 ≠ 0 ∧
    (walking 0x16008 0x1003).atBoundary.pc &&& 3 = 0 ∧
    (walking 0x16008 0x1003).atBoundary.translate (walking 0x16008 0x1003).atBoundary.pc .fetch =
      .error (pteInterrupt .accessx 0x1000 0x1003) ∧
    ({ busy with pc := 0x100000 } : State).atBoundary.pc &&& 3 = 0 ∧
    ({ busy with pc := 0x100000 } : State).atBoundary.translate 0x100000 .fetch = .ok 0x100000 ∧
    ({ busy with pc := 0x100000 } : State).atBoundary.busOk 0x100000 .half .fetch = false :=
  ⟨rfl, rfl, by decide, by decide, rfl, by decide, rfl, rfl⟩

/-- In user mode: a step that runs `spin`, and one that enters an interrupt. -/
theorem wit_UserModeKeepsControlRegisters :
    ((start 0x5C []).setCtrl ctrlStat 2).statU = true ∧ (∃ t, step ((start 0x5C []).setCtrl ctrlStat 2) = .next t) ∧
    ((start 0x1C []).setCtrl ctrlStat 2).statU = true ∧ ∃ t, step ((start 0x1C []).setCtrl ctrlStat 2) = .next t :=
  ⟨by decide, ⟨_, rfl⟩, by decide, _, rfl⟩

/-- A step that runs `llb`, and one that runs `spin` under a lock. -/
theorem wit_OnlyLoadLocksLock :
    after (start 0x000041F2 [(2, 0x2000)]) (fun t => t.lock.locked) = some true ∧
    after (locked (start 0x5C []) 0x2000 .word) (fun t => t.lock.locked) = some true := by decide

/-- A state with memory, two pending accesses to the same bytes, a cached block and a cached translation. -/
def rich : State :=
  { cachedBusy with
    mem := [(0x1000, 0x5C), (0x2001, 9)]
    pending := [{ addr := 0x2008, size := .byte, effect := .store 0xAB, wait := 1 },
      { addr := 0x2008, size := .word, effect := .load, wait := 1 }]
    dcache := [{ number := 0x80, copy := [(0x2001, 9)] }]
    tcacheK := [{ page := 5, pte := 0x7003 }] }

theorem wit_EveryStepKeepsTheInvariant : rich.Inv ∧ ∃ t, step rich = .next t := by
  refine ⟨⟨by decide, by unfold State.HardwiredZero; decide, fun h => ?_, by unfold State.InOrder; decide,
    fun h => ?_, fun h => ?_, fun h => ?_, ?_, ?_, ?_, ?_⟩, _, rfl⟩
  · exact absurd h (by decide)
  · exact absurd h (by decide)
  · exact absurd h (by decide)
  · exact absurd h (by decide)
  · intro blk hb
    cases List.mem_singleton.mp hb
    exact ⟨by decide, by decide⟩
  · intro blk hb
    cases List.mem_singleton.mp hb
    exact ⟨by decide, by decide⟩
  · intro t ht
    cases List.mem_singleton.mp ht
    decide
  · intro t ht
    cases ht

end Sys2Proof.Tests
end

section
/-!
PROOFS. `pc` and control flow (10_state.md R12): what interrupt entry does to the control registers and to `pc`, and that an
instruction which does not enter an interrupt changes `pc` only as control flow does.
-/
namespace Sys2Proof.Machine

/-! ### Interrupt entry, register by register -/

/-- A state that interrupt entry has completed, with the registers it saves written and `pc` not yet moved. -/
def State.saved (s : State) (i : Interrupt) : State :=
  ((((s.completed.setCtrl ctrlIntip s.pc).setCtrl ctrlIntstat (s.getCtrl ctrlStat)).setCtrl ctrlIntcause
    (BitVec.ofNat 64 (causeNumber i.cause).val)).recordAddress i.val).recordPte i.pte

/-- Reading a control register once interrupt entry has saved (60_exceptions.md R256). -/
theorem State.getCtrl_saved (s : State) (i : Interrupt) (k : CtrlReg) :
    (s.saved i).getCtrl k =
      if k = ctrlIntpte then i.pte.getD (s.getCtrl k)
      else if k = ctrlIntval then i.val.getD (s.getCtrl k)
      else if k = ctrlIntcause then BitVec.ofNat 64 (causeNumber i.cause).val
      else if k = ctrlIntstat then s.getCtrl ctrlStat &&& 7
      else if k = ctrlIntip then s.pc &&& ~~~3
      else s.getCtrl k := by
  have hcause (v : Word) : v &&& ctrlMask ctrlIntcause = v := BitVec.and_allOnes (w := 64)
  have hip : ctrlMask ctrlIntip = ~~~3 := by decide
  have hstat : ctrlMask ctrlIntstat = 7 := by decide
  simp only [State.saved, State.getCtrl_recordPte, State.getCtrl_recordAddress, State.getCtrl_setCtrl, State.getCtrl_completed,
    hcause, hip, hstat]
  by_cases hpte : k = ctrlIntpte
  · subst hpte; rfl
  · by_cases hval : k = ctrlIntval
    · subst hval; rfl
    · simp only [hpte, hval, if_false]

theorem State.saved_only_ctrl (s : State) (i : Interrupt) : ∃ c, s.saved i = { s.completed with ctrl := c } := by
  unfold State.saved
  cases i.val <;> cases i.pte <;> exact ⟨_, rfl⟩

/-- After saving, interrupt entry moves `pc` to the handler, clears `E` and `U`, unlocks and ends a pause. -/
theorem State.enterInterrupt_eq (s : State) (i : Interrupt) :
    s.enterInterrupt i =
      { (((s.saved i).setPc ((s.saved i).getCtrl (handlerOf i.cause))).setCtrl ctrlStat
          ((s.saved i).getCtrl ctrlStat &&& 0xFFFFFFFFFFFFFFFC)).unlock with paused := false } := by
  simp only [State.enterInterrupt, State.saved, State.completed_pc, State.getCtrl_completed]

/-- The handler registers are not among those that interrupt entry saves into. -/
@[simp] theorem State.enterInterrupt_pc (s : State) (i : Interrupt) :
    (s.enterInterrupt i).pc = s.getCtrl (handlerOf i.cause) := by
  have hsaved : (s.saved i).getCtrl (handlerOf i.cause) = s.getCtrl (handlerOf i.cause) := by
    rw [State.getCtrl_saved]
    cases i.cause <;> rfl
  rw [State.enterInterrupt_eq]
  exact hsaved

/-- `stat` keeps `V` alone, and every other control register is as interrupt entry saved it (60_exceptions.md R257). -/
theorem State.getCtrl_enterInterrupt (s : State) (i : Interrupt) (k : CtrlReg) :
    (s.enterInterrupt i).getCtrl k = if k = ctrlStat then s.getCtrl ctrlStat &&& 4 else (s.saved i).getCtrl k := by
  have hstat (v : Word) : v &&& 0xFFFFFFFFFFFFFFFC &&& ctrlMask ctrlStat = v &&& 4 := BitVec.and_assoc ..
  have hsaved : (s.saved i).getCtrl ctrlStat = s.getCtrl ctrlStat := State.getCtrl_saved s i ctrlStat
  rw [← hsaved, ← hstat, State.enterInterrupt_eq]
  exact State.getCtrl_setCtrl _ ctrlStat k _

/-- Interrupt entry, from the state in which everything pending has taken effect, is the entry that the statements speak of. -/
theorem State.enterInterrupt_entered (s : State) (i : Interrupt) :
    s.completed.Entered (s.enterInterrupt i) (causeNumber i.cause).val i.val i.pte where
  intip := by rw [State.getCtrl_enterInterrupt, State.getCtrl_saved, State.completed_pc]; rfl
  intstat := by rw [State.getCtrl_enterInterrupt, State.getCtrl_saved, State.getCtrl_completed]; rfl
  intcause := by rw [State.getCtrl_enterInterrupt, State.getCtrl_saved]; rfl
  intval := by rw [State.getCtrl_enterInterrupt, State.getCtrl_saved, State.getCtrl_completed]; rfl
  intpte := by rw [State.getCtrl_enterInterrupt, State.getCtrl_saved, State.getCtrl_completed]; rfl
  handler n hn := by
    have hhandler : handlerOf i.cause = n := Fin.ext hn.symm
    rw [State.enterInterrupt_pc, State.getCtrl_completed, hhandler]
  stat := by rw [State.getCtrl_enterInterrupt, State.getCtrl_completed]; rfl
  ctrl n hn := by
    rw [State.getCtrl_enterInterrupt, State.getCtrl_saved, State.getCtrl_completed]
    rcases hn with hlow | rfl | rfl
    · have hne (k : CtrlReg) (hk : 16 ≤ k.val) : n ≠ k := by rintro rfl; omega
      simp [hne]
    · rfl
    · rfl
  lock := by simp
  running := by simp
  complete := by simp
  rest := by
    obtain ⟨c, hc⟩ := s.saved_only_ctrl i
    rw [State.enterInterrupt_eq, hc]
    rfl
  bytes := State.loadByte_congr (by simp) (by simp) (by simp)

/-! ### `pc` -/

/-- A write to `ip` as a register is discarded. -/
theorem State.setReg_ip (s : State) (v : Word) : s.setReg 31 v = s := rfl

theorem RaisedFrom.pc_ctrl {s b : State} (h : RaisedFrom s b) : b.pc = s.pc ∧ b.ctrl = s.ctrl := by
  cases h with
  | as_is => exact ⟨rfl, rfl⟩
  | locked addr sz pa => exact ⟨rfl, rfl⟩

end Sys2Proof.Machine

open Sys2Proof Sys2Proof.Machine

/-- Settles O21: by the effect of the instruction. Only the taken branches, the jumps and `iret` set `pc`; what is left
that moves it is interrupt entry, from the state in which everything pending has taken effect. -/
theorem pcChangesOnlyByControlFlow : Obligations.PcChangesOnlyByControlFlow := by
  refine ⟨State.setReg_ip, fun ins s t h => ?_⟩
  cases effect_of_exec h with
  | bz r k v => exact .inr (.inl ⟨r, k, .inl rfl⟩)
  | bn r k v => exact .inr (.inl ⟨r, k, .inr rfl⟩)
  | jl r q k v w => exact .inr (.inr (.inl ⟨r, q, k, .inl rfl⟩))
  | jlr r q k v w => exact .inr (.inr (.inl ⟨r, q, k, .inr rfl⟩))
  | iret hk => exact .inr (.inr (.inr (.inl rfl)))
  | interrupt _ b hb i =>
    obtain ⟨hpc, hctrl⟩ := hb.pc_ctrl
    exact .inr (.inr (.inr (.inr ⟨b.completed, i.cause, i.val, i.pte, by simpa using hpc, by simpa using hctrl,
      b.enterInterrupt_entered i⟩)))
  | none _ => exact .inl rfl
  | write _ r v => exact .inl (by simp)
  | load _ pa sz r v => exact .inl (by simp)
  | loadLock p hp r1 r2 r3 imm9 pa addr v => exact .inl (by simp)
  | store _ pa sz v => exact .inl (by simp)
  | storeConditional _ n pa sz hn x r v => exact .inl (by simp)
  | waitWrite _ n r v => exact .inl (by simp)
  | wait _ n => exact .inl (by simp)
  | unlock _ => exact .inl (by simp)
  | discard _ d i p => exact .inl (by simp)
  | pause _ hk => exact .inl rfl
  | sctrl _ hk n v => exact .inl (by simp)
end

section
/-!
PROOFS. Arithmetic (43_arithmetic.md): the frame of an instruction that writes one register, the bits of an extended immediate,
and what `ssi` does to each bit (R152).
-/
namespace Sys2Proof

/-! ### Sub-fields of `imm19` -/

/-- Bits of a word inside `imm19`, as bits of `imm19` (30_encoding.md R92). -/
theorem getLsbD_fieldImm19 (w : InstrWord) {k : Nat} (hk : k < 19) : (fieldImm19 w).getLsbD k = w.getLsbD (13 + k) := by
  simp [fieldImm19, hk]

/-- A run of bits of a word inside `imm19`, as a run of `imm19` (30_encoding.md R92, R96). -/
theorem extract_fieldImm19 (w : InstrWord) {k n : Nat} (hk : k + n ≤ 19) :
    (fieldImm19 w).extractLsb' k n = w.extractLsb' (13 + k) n := by
  apply BitVec.eq_of_getLsbD_eq
  intro j hj
  simp only [BitVec.getLsbD_extractLsb', hj, decide_true, Bool.true_and]
  rw [getLsbD_fieldImm19 w (by omega), Nat.add_assoc]

end Sys2Proof

namespace Sys2Proof.Machine

/-! ### An instruction that writes one register -/

/-- A register write changes the register written and nothing else. -/
theorem State.onlyReg_setReg (s : State) (r : Reg) (v : Word) : s.OnlyReg (s.setReg r v) r v where
  reg q := s.getReg_setReg r q v
  rest := by
    unfold State.setReg
    split
    · rfl
    · split <;> rfl
  bytes := State.loadByte_congr (by simp) (by simp) (by simp)

/-- An instruction whose next state is a register write writes that register alone. -/
theorem Writes.of_exec {ins : Instr} {s : State} {r : Reg} {v : Word} (h : exec ins s = .next (s.setReg r v)) :
    Writes ins s r v :=
  ⟨_, h, s.onlyReg_setReg r v⟩

theorem exec_ssi (r1 : Reg) (c : Bool) (sh : BitVec 2) (val : BitVec 16) (s : State) :
    exec (.ssi r1 c sh val) s = .next (s.setReg r1 (setShifted (s.getReg r1) c sh val)) := rfl

/-! ### Bits of extended values -/

theorem getLsbD_zext {n : Nat} (v : BitVec n) {k : Nat} (hk : k < 64) : (zext v).getLsbD k = v.getLsbD k := by
  simp [zext, hk]

theorem getLsbD_sext {n : Nat} (v : BitVec n) {k : Nat} (hk : k < 64) :
    (sext v).getLsbD k = if k < n then v.getLsbD k else v.msb := by
  simp only [sext, BitVec.getLsbD_signExtend, hk, decide_true, Bool.true_and]

/-! ### The bits that `ssi` sets -/

/-- The mask of a quarter-word. -/
theorem getLsbD_quarterMask (k : Nat) : (0xFFFF : Word).getLsbD k = decide (k < 16) := by
  have hmask : (0xFFFF : Word) = (BitVec.allOnes 16).setWidth 64 := by decide
  rw [hmask, BitVec.getLsbD_setWidth, BitVec.getLsbD_allOnes]
  simp only [Bool.and_eq_right_iff_imp, decide_eq_true_eq]
  omega

/-- With `c`, `ssi` writes `val`, sign-extended, over zeros. -/
theorem getLsbD_setShifted_clear (old : Word) (sh : BitVec 2) (val : BitVec 16) {k : Nat} (hk : k < 64) :
    (setShifted old true sh val).getLsbD k =
      if k < 16 * sh.toNat then false
      else if k < 16 * sh.toNat + 16 then val.getLsbD (k - 16 * sh.toNat) else val.getLsbD 15 := by
  have hsext : (sext val).getLsbD (k - 16 * sh.toNat) =
      if k - 16 * sh.toNat < 16 then val.getLsbD (k - 16 * sh.toNat) else val.msb := getLsbD_sext val (by omega)
  have hshift : (setShifted old true sh val).getLsbD k =
      (!decide (k < 16 * sh.toNat) && (sext val).getLsbD (k - 16 * sh.toNat)) := by
    simp only [setShifted, if_true, BitVec.getLsbD_shiftLeft, hk, decide_true, Bool.true_and]
  rw [hshift, hsext]
  by_cases hlow : k < 16 * sh.toNat
  · simp [hlow]
  · have hquarter : k - 16 * sh.toNat < 16 ↔ k < 16 * sh.toNat + 16 := by omega
    simp [hlow, hquarter, BitVec.msb_eq_getLsbD_last]

/-- Without `c`, `ssi` replaces a quarter-word by `val` and keeps the rest. -/
theorem getLsbD_setShifted_keep (old : Word) (sh : BitVec 2) (val : BitVec 16) {k : Nat} (hk : k < 64) :
    (setShifted old false sh val).getLsbD k =
      if 16 * sh.toNat ≤ k ∧ k < 16 * sh.toNat + 16 then val.getLsbD (k - 16 * sh.toNat) else old.getLsbD k := by
  have hzext : (zext val).getLsbD (k - 16 * sh.toNat) = val.getLsbD (k - 16 * sh.toNat) := getLsbD_zext val (by omega)
  have hbit : (setShifted old false sh val).getLsbD k =
      (old.getLsbD k && !(!decide (k < 16 * sh.toNat) && decide (k - 16 * sh.toNat < 16)) ||
        (!decide (k < 16 * sh.toNat) && val.getLsbD (k - 16 * sh.toNat))) := by
    rw [← hzext, ← getLsbD_quarterMask]
    simp only [setShifted, Bool.false_eq_true, if_false, BitVec.getLsbD_or, BitVec.getLsbD_and, BitVec.getLsbD_not,
      BitVec.getLsbD_shiftLeft, hk, decide_true, Bool.true_and]
  rw [hbit]
  by_cases hlow : k < 16 * sh.toNat
  · simp [hlow, Nat.not_le.mpr hlow]
  · have hge : 16 * sh.toNat ≤ k := Nat.not_lt.mp hlow
    by_cases hquarter : k < 16 * sh.toNat + 16
    · have hin : k - 16 * sh.toNat < 16 := by omega
      simp [hlow, hge, hquarter, hin]
    · have hout : ¬ k - 16 * sh.toNat < 16 := by omega
      have hval : val.getLsbD (k - 16 * sh.toNat) = false := BitVec.getLsbD_of_ge _ _ (by omega)
      simp [hquarter, hout, hval]

end Sys2Proof.Machine

open Sys2Proof Sys2Proof.Machine

/-- Settles O10: the three sub-fields of `imm19` are those of the decode table, and a bit of the result is found by whether `c`
clears or keeps and where the bit stands beside the quarter-word. -/
theorem ssiSetsOneQuarterWord : Obligations.SsiSetsOneQuarterWord := by
  refine ⟨fun w hw => ?_, fun s r1 c sh val => ⟨_, .of_exec (exec_ssi r1 c sh val s), fun k hk => ?_⟩⟩
  · have hc : (fieldImm19 w).getLsbD 0 = w.getLsbD 13 := getLsbD_fieldImm19 w (by decide)
    have hsh : (fieldImm19 w).extractLsb' 1 2 = w.extractLsb' 14 2 := extract_fieldImm19 w (by decide)
    have hval : (fieldImm19 w).extractLsb' 3 16 = w.extractLsb' 16 16 := extract_fieldImm19 w (by decide)
    rw [decodeWord_ssi hw, ← hc, ← hsh, ← hval]
  · cases c with
    | true => simp [getLsbD_setShifted_clear _ sh val hk]
    | false =>
      rw [getLsbD_setShifted_keep _ sh val hk]
      by_cases hlow : k < 16 * sh.toNat
      · simp [hlow, Nat.not_le.mpr hlow]
      · simp [hlow, Nat.not_lt.mp hlow]
end

section
/-!
PROOFS. Bitwise logic (44_bitwise.md R170 to R178): the value that each instruction writes, and the bits of the right operand.
-/
namespace Sys2Proof.Machine

/-! ### The bits of the right operand -/

/-- The right operand of the register forms, bit by bit (44_bitwise.md R170); above bit 8 the immediate has no bit. -/
theorem State.getLsbD_orZext (s : State) (r3 : Reg) (imm9 : BitVec 9) {k : Nat} (hk : k < 64) :
    (s.orZext r3 imm9).getLsbD k = ((s.getReg r3).getLsbD k || imm9.getLsbD k) := by
  rw [State.orZext, BitVec.getLsbD_or, getLsbD_zext imm9 hk]

/-! ### The value that each instruction writes -/

theorem writes_and (r1 r2 r3 : Reg) (imm9 : BitVec 9) (s : State) :
    Writes (.and r1 r2 r3 imm9) s r1 (s.getReg r2 &&& s.orZext r3 imm9) := .of_exec rfl

theorem writes_or (r1 r2 r3 : Reg) (imm9 : BitVec 9) (s : State) :
    Writes (.or r1 r2 r3 imm9) s r1 (s.getReg r2 ||| s.orZext r3 imm9) := .of_exec rfl

theorem writes_nor (r1 r2 r3 : Reg) (imm9 : BitVec 9) (s : State) :
    Writes (.nor r1 r2 r3 imm9) s r1 (~~~(s.getReg r2 ||| s.orZext r3 imm9)) := .of_exec rfl

theorem writes_xor (r1 r2 r3 : Reg) (imm9 : BitVec 9) (s : State) :
    Writes (.xor r1 r2 r3 imm9) s r1 (s.getReg r2 ^^^ s.orZext r3 imm9) := .of_exec rfl

theorem writes_andi (r1 r2 : Reg) (imm14 : BitVec 14) (s : State) :
    Writes (.andi r1 r2 imm14) s r1 (s.getReg r2 &&& zext imm14) := .of_exec rfl

theorem writes_ori (r1 r2 : Reg) (imm14 : BitVec 14) (s : State) :
    Writes (.ori r1 r2 imm14) s r1 (s.getReg r2 ||| zext imm14) := .of_exec rfl

theorem writes_nori (r1 r2 : Reg) (imm14 : BitVec 14) (s : State) :
    Writes (.nori r1 r2 imm14) s r1 (~~~(s.getReg r2 ||| zext imm14)) := .of_exec rfl

theorem writes_xori (r1 r2 : Reg) (imm14 : BitVec 14) (s : State) :
    Writes (.xori r1 r2 imm14) s r1 (s.getReg r2 ^^^ zext imm14) := .of_exec rfl

end Sys2Proof.Machine

open Sys2Proof Sys2Proof.Machine

/-- Settles O11: the encodings are rows of the decode table. Each result is one word operation of `r2` with the right operand,
and a word operation acts on each bit alone, so the bits of the right operand decide. -/
theorem logicIsBitByBit : Obligations.LogicIsBitByBit := by
  refine ⟨⟨fun _ => decodeWord_and, fun _ => decodeWord_or, fun _ => decodeWord_nor, fun _ => decodeWord_xor,
    fun _ => decodeWord_andi, fun _ => decodeWord_ori, fun _ => decodeWord_nori, fun _ => decodeWord_xori⟩,
    fun s r1 r2 r3 imm9 imm14 => ⟨_, _, _, _, _, _, _, _, writes_and r1 r2 r3 imm9 s, writes_or r1 r2 r3 imm9 s,
      writes_nor r1 r2 r3 imm9 s, writes_xor r1 r2 r3 imm9 s, writes_andi r1 r2 imm14 s, writes_ori r1 r2 imm14 s,
      writes_nori r1 r2 imm14 s, writes_xori r1 r2 imm14 s, fun k hk => ?_⟩⟩
  have hreg : (s.orZext r3 imm9).getLsbD k = ((s.getReg r3).getLsbD k || imm9.getLsbD k) := s.getLsbD_orZext r3 imm9 hk
  have himm : (zext imm14).getLsbD k = imm14.getLsbD k := getLsbD_zext imm14 hk
  simp only [BitVec.getLsbD_and, BitVec.getLsbD_or, BitVec.getLsbD_xor, BitVec.getLsbD_not, hk, decide_true,
    Bool.true_and, hreg, himm, and_self]
end

section
/-!
PROOFS. Comparison (45_comparison.md R200 to R210): when each relation holds, and that a comparison writes 1 then and 0 otherwise.
-/
namespace Sys2Proof.Machine

/-! ### Extended immediates as integers -/

theorem toNat_zext {n : Nat} (hn : n ≤ 64) (v : BitVec n) : (zext v).toNat = v.toNat := by
  rw [zext, BitVec.toNat_setWidth_of_le hn]

theorem toInt_sext {n : Nat} (hn : n ≤ 64) (v : BitVec n) : (sext v).toInt = v.toInt := by
  rw [sext, BitVec.toInt_signExtend_of_le hn]

/-! ### When each relation holds -/

theorem equalTo_iff (a b : Word) : equalTo a b = true ↔ a = b := beq_iff_eq

theorem lessUnsigned_iff (a b : Word) : lessUnsigned a b = true ↔ a.toNat < b.toNat := decide_eq_true_iff

theorem lessSigned_iff (a b : Word) : lessSigned a b = true ↔ a.toInt < b.toInt := decide_eq_true_iff

theorem lessEqualUnsigned_iff (a b : Word) : lessEqualUnsigned a b = true ↔ a.toNat ≤ b.toNat := decide_eq_true_iff

theorem lessEqualSigned_iff (a b : Word) : lessEqualSigned a b = true ↔ a.toInt ≤ b.toInt := decide_eq_true_iff

/-- A sign-extended immediate equals a word when the two are the same signed integer. -/
theorem equalTo_sext_iff {n : Nat} (hn : n ≤ 64) (a : Word) (v : BitVec n) :
    equalTo a (sext v) = true ↔ a.toInt = v.toInt := by
  rw [equalTo_iff, ← BitVec.toInt_inj, toInt_sext hn]

/-! ### The value that each instruction writes -/

/-- The result is exactly 1 when the relation holds and exactly 0 otherwise (45_comparison.md R200). -/
theorem truthWord_eq_ite {b : Bool} {p : Prop} [Decidable p] (h : b = true ↔ p) :
    truthWord b = if p then 1 else 0 := by
  simp only [truthWord, h]

/-- An instruction whose next state is a register write of a relation's result writes 1 or 0, by whether the relation holds. -/
theorem Writes.of_relation {ins : Instr} {s : State} {r : Reg} {b : Bool} {p : Prop} [Decidable p]
    (hexec : exec ins s = .next (s.setReg r (truthWord b))) (h : b = true ↔ p) :
    Writes ins s r (if p then 1 else 0) :=
  .of_exec (truthWord_eq_ite h ▸ hexec)

theorem writes_seq (r1 r2 r3 : Reg) (imm9 : BitVec 9) (s : State) :
    Writes (.seq r1 r2 r3 imm9) s r1 (if s.getReg r2 = s.plusSext r3 imm9 then 1 else 0) :=
  .of_relation rfl (equalTo_iff ..)

theorem writes_sult (r1 r2 r3 : Reg) (imm9 : BitVec 9) (s : State) :
    Writes (.sult r1 r2 r3 imm9) s r1 (if (s.getReg r2).toNat < (s.plusZext r3 imm9).toNat then 1 else 0) :=
  .of_relation rfl (lessUnsigned_iff ..)

theorem writes_silt (r1 r2 r3 : Reg) (imm9 : BitVec 9) (s : State) :
    Writes (.silt r1 r2 r3 imm9) s r1 (if (s.getReg r2).toInt < (s.plusSext r3 imm9).toInt then 1 else 0) :=
  .of_relation rfl (lessSigned_iff ..)

theorem writes_sule (r1 r2 r3 : Reg) (imm9 : BitVec 9) (s : State) :
    Writes (.sule r1 r2 r3 imm9) s r1 (if (s.getReg r2).toNat ≤ (s.plusZext r3 imm9).toNat then 1 else 0) :=
  .of_relation rfl (lessEqualUnsigned_iff ..)

theorem writes_sile (r1 r2 r3 : Reg) (imm9 : BitVec 9) (s : State) :
    Writes (.sile r1 r2 r3 imm9) s r1 (if (s.getReg r2).toInt ≤ (s.plusSext r3 imm9).toInt then 1 else 0) :=
  .of_relation rfl (lessEqualSigned_iff ..)

theorem writes_seqi (r1 r2 : Reg) (imm14 : BitVec 14) (s : State) :
    Writes (.seqi r1 r2 imm14) s r1 (if (s.getReg r2).toInt = imm14.toInt then 1 else 0) :=
  .of_relation rfl (equalTo_sext_iff (by decide) ..)

theorem writes_sulti (r1 r2 : Reg) (imm14 : BitVec 14) (s : State) :
    Writes (.sulti r1 r2 imm14) s r1 (if (s.getReg r2).toNat < imm14.toNat then 1 else 0) :=
  .of_relation rfl (by rw [lessUnsigned_iff, toNat_zext (by decide)])

theorem writes_silti (r1 r2 : Reg) (imm14 : BitVec 14) (s : State) :
    Writes (.silti r1 r2 imm14) s r1 (if (s.getReg r2).toInt < imm14.toInt then 1 else 0) :=
  .of_relation rfl (by rw [lessSigned_iff, toInt_sext (by decide)])

theorem writes_sulei (r1 r2 : Reg) (imm14 : BitVec 14) (s : State) :
    Writes (.sulei r1 r2 imm14) s r1 (if (s.getReg r2).toNat ≤ imm14.toNat then 1 else 0) :=
  .of_relation rfl (by rw [lessEqualUnsigned_iff, toNat_zext (by decide)])

theorem writes_silei (r1 r2 : Reg) (imm14 : BitVec 14) (s : State) :
    Writes (.silei r1 r2 imm14) s r1 (if (s.getReg r2).toInt ≤ imm14.toInt then 1 else 0) :=
  .of_relation rfl (by rw [lessEqualSigned_iff, toInt_sext (by decide)])

end Sys2Proof.Machine

open Sys2Proof Sys2Proof.Machine

/-- Settles O18: the encodings are rows of the decode table, and each instruction writes the result of its relation. In the
immediate forms, extension keeps the integer that the immediate stands for, so the relation speaks of `imm14` itself. -/
theorem comparisonsWriteOneOrZero : Obligations.ComparisonsWriteOneOrZero :=
  ⟨⟨fun _ => decodeWord_seq, fun _ => decodeWord_sult, fun _ => decodeWord_silt, fun _ => decodeWord_sule,
    fun _ => decodeWord_sile, fun _ => decodeWord_seqi, fun _ => decodeWord_sulti, fun _ => decodeWord_silti,
    fun _ => decodeWord_sulei, fun _ => decodeWord_silei⟩,
    fun s r1 r2 r3 imm9 imm14 => ⟨writes_seq r1 r2 r3 imm9 s, writes_sult r1 r2 r3 imm9 s, writes_silt r1 r2 r3 imm9 s,
      writes_sule r1 r2 r3 imm9 s, writes_sile r1 r2 r3 imm9 s, writes_seqi r1 r2 imm14 s, writes_sulti r1 r2 imm14 s,
      writes_silti r1 r2 imm14 s, writes_sulei r1 r2 imm14 s, writes_silei r1 r2 imm14 s⟩⟩
end

section
/-!
PROOFS. Control flow (46_control_flow.md R221 to R224): offsets counted in words, and the state that each branch and jump goes to.
-/
namespace Sys2Proof.Machine

/-! ### Offsets counted in words -/

theorem shiftLeft_two (v : Word) : v <<< 2 = 4 * v := by
  have hfour : BitVec.twoPow 64 2 = (4 : Word) := by decide
  rw [BitVec.shiftLeft_eq_mul_twoPow, hfour, BitVec.mul_comm]

/-- A sign-extended immediate, shifted as R221 and R222 say, is its integer times 4. -/
theorem sext_shiftLeft_two {n : Nat} (v : BitVec n) : sext v <<< 2 = BitVec.ofInt 64 (4 * v.toInt) := by
  have hsext : sext v = BitVec.ofInt 64 v.toInt := rfl
  rw [shiftLeft_two, hsext, BitVec.ofInt_mul]
  rfl

/-- A zero-extended immediate, shifted as R223 and R224 say, is its number times 4. -/
theorem zext_shiftLeft_two {n : Nat} (v : BitVec n) : zext v <<< 2 = BitVec.ofNat 64 (4 * v.toNat) := by
  rw [shiftLeft_two, zext, ← BitVec.ofNat_toNat, BitVec.ofNat_mul]
  rfl

/-! ### Targets -/

theorem State.branchTarget_eq (s : State) (imm19 : BitVec 19) :
    s.branchTarget imm19 = s.pc + BitVec.ofInt 64 (4 * imm19.toInt) := by
  rw [State.branchTarget, sext_shiftLeft_two]

theorem State.jumpTarget_eq (s : State) (r2 : Reg) (imm14 : BitVec 14) :
    s.jumpTarget r2 imm14 = s.getReg r2 + BitVec.ofNat 64 (4 * imm14.toNat) := by
  rw [State.jumpTarget, zext_shiftLeft_two]

theorem State.relativeTarget_eq (s : State) (r2 : Reg) (imm14 : BitVec 14) :
    s.relativeTarget r2 imm14 = s.pc + s.getReg r2 + BitVec.ofNat 64 (4 * imm14.toNat) := by
  rw [State.relativeTarget, zext_shiftLeft_two]

/-! ### The next state -/

theorem exec_bz (r1 : Reg) (imm19 : BitVec 19) (s : State) :
    exec (.bz r1 imm19) s = .next (s.setPc (if s.getReg r1 = 0 then s.branchTarget imm19 else s.pc)) := by
  rw [exec, execBz]
  by_cases hzero : s.getReg r1 = 0
  · rw [if_pos hzero, if_pos hzero]
  · rw [if_neg hzero, if_neg hzero]
    rfl

theorem exec_bn (r1 : Reg) (imm19 : BitVec 19) (s : State) :
    exec (.bn r1 imm19) s = .next (s.setPc (if s.getReg r1 = 0 then s.pc else s.branchTarget imm19)) := by
  rw [exec, execBn]
  by_cases hzero : s.getReg r1 = 0
  · rw [if_neg (not_not_intro hzero), if_pos hzero]
    rfl
  · rw [if_pos hzero, if_neg hzero]

theorem exec_jl (r1 r2 : Reg) (imm14 : BitVec 14) (s : State) :
    exec (.jl r1 r2 imm14) s = .next ((s.setPc (s.jumpTarget r2 imm14)).setReg r1 s.pc) := rfl

theorem exec_jlr (r1 r2 : Reg) (imm14 : BitVec 14) (s : State) :
    exec (.jlr r1 r2 imm14) s = .next ((s.setPc (s.relativeTarget r2 imm14)).setReg r1 s.pc) := rfl

end Sys2Proof.Machine

open Sys2Proof Sys2Proof.Machine

/-- Settles O20: both jumps set `pc` to a target computed from the state before, and then write the old `pc` as any register
write does, which leaves the new `pc` alone even where the register is `ip`. -/
theorem jumpsLinkAndJump : Obligations.JumpsLinkAndJump := by
  refine ⟨fun _ => decodeWord_jl, fun _ => decodeWord_jlr, fun s r1 r2 imm14 => ⟨?_, ?_⟩⟩
  · rw [← s.jumpTarget_eq]
    exact ⟨_, exec_jl r1 r2 imm14 s, State.onlyReg_setReg _ r1 s.pc⟩
  · rw [← s.relativeTarget_eq]
    exact ⟨_, exec_jlr r1 r2 imm14 s, State.onlyReg_setReg _ r1 s.pc⟩

/-- Settles O19: a branch sets `pc` to its target or, untaken, to what it was, by whether the register is 0. -/
theorem branchesTestOneRegister : Obligations.BranchesTestOneRegister := by
  refine ⟨fun _ => decodeWord_bz, fun _ => decodeWord_bn, fun s r1 imm19 => ?_⟩
  rw [← s.branchTarget_eq]
  exact ⟨exec_bz r1 imm19 s, exec_bn r1 imm19 s⟩
end

section
/-!
PROOFS. Interrupt entry and earlier memory operations (60_exceptions.md R259): memory once everything pending has taken effect.
-/
namespace Sys2Proof.Machine

/-- With nothing left pending, the newest value of a byte is the one in memory. -/
theorem State.memByte_completed {s : State} {a : Word} (ho : s.InOrder) (hu : s.Undisturbed a) :
    s.completed.memByte a = (pendingByte s.pending a).getD (s.memByte a) := by
  have hnewest : (pendingByte s.completed.pending a).getD (s.completed.memByte a) =
      (pendingByte s.pending a).getD (s.memByte a) := State.newest_elapse _ s ho hu
  rwa [State.completed_pending] at hnewest

/-- Interrupt entry saves into control registers only: memory is as when everything pending has taken effect. -/
@[simp] theorem State.memByte_enterInterrupt (s : State) (i : Interrupt) (a : Word) :
    (s.enterInterrupt i).memByte a = s.completed.memByte a :=
  State.memByte_congr (State.enterInterrupt_mem s i) a

end Sys2Proof.Machine

open Sys2Proof Sys2Proof.Machine

/-- Settles O49: an interrupt is entered from the state in which everything pending has taken effect. The wait for that state keeps
the newest value of an undisturbed byte, which at its end is the value in memory. -/
theorem entryCompletesEarlierStores : Obligations.EntryCompletesEarlierStores := by
  refine fun s i => ⟨State.enterInterrupt_pending s i, fun horder a hundisturbed => ?_⟩
  rw [State.memByte_enterInterrupt]
  exact State.memByte_completed horder hundisturbed
end

section
/-!
PROOFS. Encoding (30_encoding.md): a word put together again from its fields, one row of the decode table for each listed low byte,
and that decoding and encoding undo each other on the bits in use.
-/
namespace Sys2Proof
open Sys2Proof.Machine

/-! ### A word is made of its low byte and its fields -/

theorem formatA_fields (w : InstrWord) : formatA (lowByte w) (fieldR1 w) (fieldImm19 w) = w := by
  apply BitVec.eq_of_toNat_eq
  have := w.isLt
  simp only [toNat_formatA, lowByte, fieldR1, fieldImm19, BitVec.val_toFin, BitVec.extractLsb'_toNat,
    Nat.shiftRight_eq_div_pow]
  omega

theorem formatB_fields (w : InstrWord) : formatB (lowByte w) (fieldR1 w) (fieldR2 w) (fieldImm14 w) = w := by
  apply BitVec.eq_of_toNat_eq
  have := w.isLt
  simp only [toNat_formatB, lowByte, fieldR1, fieldR2, fieldImm14, BitVec.val_toFin, BitVec.extractLsb'_toNat,
    Nat.shiftRight_eq_div_pow]
  omega

theorem formatC_fields (w : InstrWord) :
    formatC (lowByte w) (fieldR1 w) (fieldR2 w) (fieldR3 w) (fieldImm9 w) = w := by
  apply BitVec.eq_of_toNat_eq
  have := w.isLt
  simp only [toNat_formatC, lowByte, fieldR1, fieldR2, fieldR3, fieldImm9, BitVec.val_toFin,
    BitVec.extractLsb'_toNat, Nat.shiftRight_eq_div_pow]
  omega

/-! ### Masks that keep a part of the immediate -/

theorem formatA_and_mask (low : Byte) (r : Reg) (k m : BitVec 19) :
    formatA low r k &&& formatA 0xFF#8 31 m = formatA low r (k &&& m) := by
  show (k ++ (BitVec.ofFin r : BitVec 5) ++ low) &&& (m ++ BitVec.allOnes 5 ++ BitVec.allOnes 8) = _
  rw [BitVec.and_append, BitVec.and_append, BitVec.and_allOnes, BitVec.and_allOnes]
  rfl

/-- Where the register is unused too. -/
theorem formatA_and_mask_zero (low : Byte) (r : Reg) (k m : BitVec 19) :
    formatA low r k &&& formatA 0xFF#8 0 m = formatA low 0 (k &&& m) := by
  show (k ++ (BitVec.ofFin r : BitVec 5) ++ low) &&& (m ++ BitVec.zero 5 ++ BitVec.allOnes 8) = _
  rw [BitVec.and_append, BitVec.and_append, BitVec.and_allOnes, show BitVec.zero 5 = 0#5 from rfl, BitVec.and_zero]
  rfl

theorem formatB_and_mask (low : Byte) (r1 r2 : Reg) (k m : BitVec 14) :
    formatB low r1 r2 k &&& formatB 0xFF#8 31 31 m = formatB low r1 r2 (k &&& m) := by
  show (k ++ (BitVec.ofFin r2 : BitVec 5) ++ (BitVec.ofFin r1 : BitVec 5) ++ low) &&&
    (m ++ BitVec.allOnes 5 ++ BitVec.allOnes 5 ++ BitVec.allOnes 8) = _
  rw [BitVec.and_append, BitVec.and_append, BitVec.and_append, BitVec.and_allOnes, BitVec.and_allOnes, BitVec.and_allOnes]
  rfl

theorem formatC_and_mask (low : Byte) (r1 r2 r3 : Reg) (k m : BitVec 9) :
    formatC low r1 r2 r3 k &&& formatC 0xFF#8 31 31 31 m = formatC low r1 r2 r3 (k &&& m) := by
  show (k ++ (BitVec.ofFin r3 : BitVec 5) ++ (BitVec.ofFin r2 : BitVec 5) ++ (BitVec.ofFin r1 : BitVec 5) ++ low) &&&
    (m ++ BitVec.allOnes 5 ++ BitVec.allOnes 5 ++ BitVec.allOnes 5 ++ BitVec.allOnes 8) = _
  rw [BitVec.and_append, BitVec.and_append, BitVec.and_append, BitVec.and_append, BitVec.and_allOnes, BitVec.and_allOnes,
    BitVec.and_allOnes, BitVec.and_allOnes]
  rfl

/-! ### The sub-fields of R96, put together again -/

theorem fence_subfields (k : BitVec 19) : 0#17 ++ flagBit (k.getLsbD 1) ++ flagBit (k.getLsbD 0) = k &&& 3 := by
  apply BitVec.eq_of_getLsbD_eq
  intro i hi
  rw [BitVec.getLsbD_append, BitVec.getLsbD_append]
  interval_cases i <;> simp [flagBit]

theorem cinval_subfields (k : BitVec 19) :
    0#15 ++ k.extractLsb' 2 2 ++ flagBit (k.getLsbD 1) ++ flagBit (k.getLsbD 0) = k &&& 0xF := by
  apply BitVec.eq_of_getLsbD_eq
  intro i hi
  rw [BitVec.getLsbD_append, BitVec.getLsbD_append, BitVec.getLsbD_append]
  interval_cases i <;> simp [flagBit]

theorem cfetch_subfields (k : BitVec 19) :
    0#16 ++ flagBit (k.getLsbD 2) ++ flagBit (k.getLsbD 1) ++ flagBit (k.getLsbD 0) = k &&& 7 := by
  apply BitVec.eq_of_getLsbD_eq
  intro i hi
  rw [BitVec.getLsbD_append, BitVec.getLsbD_append, BitVec.getLsbD_append]
  interval_cases i <;> simp [flagBit]

theorem ssi_subfields (k : BitVec 19) : k.extractLsb' 3 16 ++ k.extractLsb' 1 2 ++ flagBit (k.getLsbD 0) = k := by
  apply BitVec.eq_of_getLsbD_eq
  intro i hi
  rw [BitVec.getLsbD_append, BitVec.getLsbD_append]
  interval_cases i <;> simp [flagBit]

theorem si_subfields (k : BitVec 14) :
    0#1 ++ flagBit (k.getLsbD 12) ++ k.extractLsb' 6 6 ++ k.extractLsb' 0 6 = k &&& 0x1FFF := by
  apply BitVec.eq_of_getLsbD_eq
  intro i hi
  rw [BitVec.getLsbD_append, BitVec.getLsbD_append, BitVec.getLsbD_append]
  interval_cases i <;> simp [flagBit]

theorem cb_subfields (k : BitVec 14) : 0#2 ++ k.extractLsb' 6 6 ++ k.extractLsb' 0 6 = k &&& 0xFFF := by
  apply BitVec.eq_of_getLsbD_eq
  intro i hi
  rw [BitVec.getLsbD_append, BitVec.getLsbD_append]
  interval_cases i <;> simp

theorem rev_subfield (k : BitVec 14) : 0#8 ++ k.extractLsb' 0 6 = k &&& 0x3F := by
  apply BitVec.eq_of_getLsbD_eq
  intro i hi
  rw [BitVec.getLsbD_append]
  interval_cases i <;> simp

/-! ### The immediates of R96 as `encode` writes them, taken apart -/

theorem fence_bits (l s : Bool) :
    BitVec.getLsbD (w := 19) (0#17 ++ flagBit s ++ flagBit l) 0 = l ∧
      BitVec.getLsbD (w := 19) (0#17 ++ flagBit s ++ flagBit l) 1 = s := by
  revert l s; decide

theorem cinval_bits (d i : Bool) (m : BitVec 2) :
    BitVec.getLsbD (w := 19) (0#15 ++ m ++ flagBit i ++ flagBit d) 0 = d ∧
      BitVec.getLsbD (w := 19) (0#15 ++ m ++ flagBit i ++ flagBit d) 1 = i ∧
      BitVec.extractLsb' (n := 19) 2 2 (0#15 ++ m ++ flagBit i ++ flagBit d) = m := by
  revert d i m; decide

theorem cfetch_bits (l s i : Bool) :
    BitVec.getLsbD (w := 19) (0#16 ++ flagBit i ++ flagBit s ++ flagBit l) 0 = l ∧
      BitVec.getLsbD (w := 19) (0#16 ++ flagBit i ++ flagBit s ++ flagBit l) 1 = s ∧
      BitVec.getLsbD (w := 19) (0#16 ++ flagBit i ++ flagBit s ++ flagBit l) 2 = i := by
  revert l s i; decide

theorem ssi_bits (c : Bool) (sh : BitVec 2) (val : BitVec 16) :
    BitVec.getLsbD (w := 19) (val ++ sh ++ flagBit c) 0 = c ∧
      BitVec.extractLsb' (n := 19) 1 2 (val ++ sh ++ flagBit c) = sh ∧
      BitVec.extractLsb' (n := 19) 3 16 (val ++ sh ++ flagBit c) = val := by
  refine ⟨?_, ?_, ?_⟩
  · rw [BitVec.getLsbD_append (m := 1)]
    simp [flagBit]
  · show BitVec.extractLsb' (n := 16 + 2 + 1) 1 2 (val ++ sh ++ flagBit c) = sh
    rw [BitVec.extractLsb'_append_eq_of_le (by decide)]
    exact BitVec.extractLsb'_append_eq_right
  · show BitVec.extractLsb' (n := 16 + 2 + 1) 3 16 (val ++ sh ++ flagBit c) = val
    rw [BitVec.extractLsb'_append_eq_of_le (by decide)]
    exact BitVec.extractLsb'_append_eq_left

/-- A field at the bottom of an immediate of two 6-bit fields, and the field above it. -/
theorem two_fields (top : BitVec 2) (lsh rsh : BitVec 6) :
    BitVec.extractLsb' (n := 14) 0 6 (top ++ rsh ++ lsh) = lsh ∧
      BitVec.extractLsb' (n := 14) 6 6 (top ++ rsh ++ lsh) = rsh := by
  refine ⟨BitVec.extractLsb'_append_eq_right (a := top ++ rsh), ?_⟩
  show BitVec.extractLsb' (n := 2 + 6 + 6) 6 6 (top ++ rsh ++ lsh) = rsh
  rw [BitVec.extractLsb'_append_eq_of_le (by decide)]
  exact BitVec.extractLsb'_append_eq_right

theorem si_flag (lsh rsh : BitVec 6) (i : Bool) :
    BitVec.getLsbD (w := 14) (0#1 ++ flagBit i ++ rsh ++ lsh) 12 = i := by
  rw [BitVec.getLsbD_append (m := 6), BitVec.getLsbD_append (m := 6), BitVec.getLsbD_append (m := 1)]
  simp [flagBit]

/-! ### The rows whose fields are sub-fields of an immediate -/

theorem decodesA_fence : DecodesA 0x10#8 fun _ k => .fence (k.getLsbD 0) (k.getLsbD 1) := by
  intro w hw
  beta_reduce
  rw [decodeWord_fence hw, getLsbD_fieldImm19 w (by decide), getLsbD_fieldImm19 w (by decide)]

theorem decodesA_cinval : DecodesA 0x30#8 fun r k => .cinval r (k.getLsbD 0) (k.getLsbD 1) (k.extractLsb' 2 2) := by
  intro w hw
  beta_reduce
  rw [decodeWord_cinval hw, getLsbD_fieldImm19 w (by decide), getLsbD_fieldImm19 w (by decide),
    extract_fieldImm19 w (by decide)]

theorem decodesA_cfetch : DecodesA 0x50#8 fun r k => .cfetch r (k.getLsbD 0) (k.getLsbD 1) (k.getLsbD 2) := by
  intro w hw
  beta_reduce
  rw [decodeWord_cfetch hw, getLsbD_fieldImm19 w (by decide), getLsbD_fieldImm19 w (by decide),
    getLsbD_fieldImm19 w (by decide)]

/-- Bits of a word inside `imm14`, as bits of `imm14` (30_encoding.md R92). -/
theorem getLsbD_fieldImm14 (w : InstrWord) {k : Nat} (hk : k < 14) : (fieldImm14 w).getLsbD k = w.getLsbD (18 + k) := by
  simp [fieldImm14, hk]

/-- A run of bits of a word inside `imm14`, as a run of `imm14` (30_encoding.md R92, R96). -/
theorem extract_fieldImm14 (w : InstrWord) {k n : Nat} (hk : k + n ≤ 14) :
    (fieldImm14 w).extractLsb' k n = w.extractLsb' (18 + k) n := by
  apply BitVec.eq_of_getLsbD_eq
  intro j hj
  simp only [BitVec.getLsbD_extractLsb', hj, decide_true, Bool.true_and]
  rw [getLsbD_fieldImm14 w (by omega), Nat.add_assoc]

theorem decodesB_si :
    DecodesB 0x09#8 fun r1 r2 k => .si r1 r2 (k.extractLsb' 0 6) (k.extractLsb' 6 6) (k.getLsbD 12) := by
  intro w hw
  beta_reduce
  rw [decodeWord_si hw, extract_fieldImm14 w (by decide), extract_fieldImm14 w (by decide),
    getLsbD_fieldImm14 w (by decide)]

theorem decodesB_cb : DecodesB 0x29#8 fun r1 r2 k => .cb r1 r2 (k.extractLsb' 0 6) (k.extractLsb' 6 6) := by
  intro w hw
  beta_reduce
  rw [decodeWord_cb hw, extract_fieldImm14 w (by decide), extract_fieldImm14 w (by decide)]

theorem decodesB_rev : DecodesB 0x49#8 fun r1 r2 k => .rev r1 r2 (k.extractLsb' 0 6) := by
  intro w hw
  beta_reduce
  rw [decodeWord_rev hw, extract_fieldImm14 w (by decide)]

/-! ### Decoding a word that `encode` wrote -/

theorem DecodesA.decodeWord_formatA {low : Byte} {f : Reg → BitVec 19 → Instr} (h : DecodesA low f) (r1 : Reg)
    (imm19 : BitVec 19) : decodeWord (formatA low r1 imm19) = .ok (f r1 imm19) := by
  rw [h _ (lowByte_formatA ..), fieldR1_formatA, fieldImm19_formatA]

theorem DecodesB.decodeWord_formatB {low : Byte} {f : Reg → Reg → BitVec 14 → Instr} (h : DecodesB low f) (r1 r2 : Reg)
    (imm14 : BitVec 14) : decodeWord (formatB low r1 r2 imm14) = .ok (f r1 r2 imm14) := by
  rw [h _ (lowByte_formatB ..), fieldR1_formatB, fieldR2_formatB, fieldImm14_formatB]

theorem DecodesC.decodeWord_formatC {low : Byte} {f : Reg → Reg → Reg → BitVec 9 → Instr} (h : DecodesC low f)
    (r1 r2 r3 : Reg) (imm9 : BitVec 9) : decodeWord (formatC low r1 r2 r3 imm9) = .ok (f r1 r2 r3 imm9) := by
  rw [h _ (lowByte_formatC ..), fieldR1_formatC, fieldR2_formatC, fieldR3_formatC, fieldImm9_formatC]

theorem decodeWord_encode_fence (l s : Bool) : decodeWord (encode (.fence l s)) = .ok (.fence l s) := by
  obtain ⟨hl, hs⟩ := fence_bits l s
  rw [encode, DecodesA.decodeWord_formatA decodesA_fence, hl, hs]

theorem decodeWord_encode_cinval (r1 : Reg) (d i : Bool) (m : BitVec 2) :
    decodeWord (encode (.cinval r1 d i m)) = .ok (.cinval r1 d i m) := by
  obtain ⟨hd, hi, hm⟩ := cinval_bits d i m
  rw [encode, DecodesA.decodeWord_formatA decodesA_cinval, hd, hi, hm]

theorem decodeWord_encode_cfetch (r1 : Reg) (l s i : Bool) :
    decodeWord (encode (.cfetch r1 l s i)) = .ok (.cfetch r1 l s i) := by
  obtain ⟨hl, hs, hi⟩ := cfetch_bits l s i
  rw [encode, DecodesA.decodeWord_formatA decodesA_cfetch, hl, hs, hi]

theorem decodeWord_encode_ssi (r1 : Reg) (c : Bool) (sh : BitVec 2) (val : BitVec 16) :
    decodeWord (encode (.ssi r1 c sh val)) = .ok (.ssi r1 c sh val) := by
  obtain ⟨hc, hsh, hval⟩ := ssi_bits c sh val
  rw [encode, DecodesA.decodeWord_formatA (low := 0x08#8) ssiSetsOneQuarterWord.1, hc, hsh, hval]

theorem decodeWord_encode_si (r1 r2 : Reg) (lsh rsh : BitVec 6) (i : Bool) :
    decodeWord (encode (.si r1 r2 lsh rsh i)) = .ok (.si r1 r2 lsh rsh i) := by
  obtain ⟨hlsh, hrsh⟩ := two_fields (0#1 ++ flagBit i) lsh rsh
  rw [encode, DecodesB.decodeWord_formatB decodesB_si, hlsh, hrsh, si_flag]

theorem decodeWord_encode_cb (r1 r2 : Reg) (lsh rsh : BitVec 6) :
    decodeWord (encode (.cb r1 r2 lsh rsh)) = .ok (.cb r1 r2 lsh rsh) := by
  obtain ⟨hlsh, hrsh⟩ := two_fields 0#2 lsh rsh
  rw [encode, DecodesB.decodeWord_formatB decodesB_cb, hlsh, hrsh]

theorem decodeWord_encode_rev (r1 r2 : Reg) (set : BitVec 6) :
    decodeWord (encode (.rev r1 r2 set)) = .ok (.rev r1 r2 set) := by
  have hset : BitVec.extractLsb' (n := 14) 0 6 (0#8 ++ set) = set := BitVec.extractLsb'_append_eq_right (a := 0#8)
  rw [encode, DecodesB.decodeWord_formatB decodesB_rev, hset]

theorem decodeWord_encode (ins : Instr) : decodeWord (encode ins) = .ok ins := by
  cases ins
  case fence l s => exact decodeWord_encode_fence l s
  case cinval r1 d i m => exact decodeWord_encode_cinval r1 d i m
  case cfetch r1 l s i => exact decodeWord_encode_cfetch r1 l s i
  case ssi r1 c sh val => exact decodeWord_encode_ssi r1 c sh val
  case si r1 r2 lsh rsh i => exact decodeWord_encode_si r1 r2 lsh rsh i
  case cb r1 r2 lsh rsh => exact decodeWord_encode_cb r1 r2 lsh rsh
  case rev r1 r2 set => exact decodeWord_encode_rev r1 r2 set
  case csb r1 r2 => exact DecodesB.decodeWord_formatB (f := fun r1 r2 _ => .csb r1 r2) (fun _ => decodeWord_csb) r1 r2 0
  case clz r1 r2 => exact DecodesB.decodeWord_formatB (f := fun r1 r2 _ => .clz r1 r2) (fun _ => decodeWord_clz) r1 r2 0
  case ctz r1 r2 => exact DecodesB.decodeWord_formatB (f := fun r1 r2 _ => .ctz r1 r2) (fun _ => decodeWord_ctz) r1 r2 0
  case ext r1 r2 r3 =>
    exact DecodesC.decodeWord_formatC (f := fun r1 r2 r3 _ => .ext r1 r2 r3) (fun _ => decodeWord_ext) r1 r2 r3 0
  case dep r1 r2 r3 =>
    exact DecodesC.decodeWord_formatC (f := fun r1 r2 r3 _ => .dep r1 r2 r3) (fun _ => decodeWord_dep) r1 r2 r3 0
  case lw r1 r2 r3 imm9 => exact DecodesC.decodeWord_formatC (fun _ => decodeWord_lw) r1 r2 r3 imm9
  case lh r1 r2 r3 imm9 => exact DecodesC.decodeWord_formatC (fun _ => decodeWord_lh) r1 r2 r3 imm9
  case lq r1 r2 r3 imm9 => exact DecodesC.decodeWord_formatC (fun _ => decodeWord_lq) r1 r2 r3 imm9
  case lb r1 r2 r3 imm9 => exact DecodesC.decodeWord_formatC (fun _ => decodeWord_lb) r1 r2 r3 imm9
  case llw r1 r2 r3 imm9 => exact DecodesC.decodeWord_formatC (fun _ => decodeWord_llw) r1 r2 r3 imm9
  case llh r1 r2 r3 imm9 => exact DecodesC.decodeWord_formatC (fun _ => decodeWord_llh) r1 r2 r3 imm9
  case llq r1 r2 r3 imm9 => exact DecodesC.decodeWord_formatC (fun _ => decodeWord_llq) r1 r2 r3 imm9
  case llb r1 r2 r3 imm9 => exact DecodesC.decodeWord_formatC (fun _ => decodeWord_llb) r1 r2 r3 imm9
  case sw r1 r2 r3 imm9 => exact DecodesC.decodeWord_formatC (fun _ => decodeWord_sw) r1 r2 r3 imm9
  case sh r1 r2 r3 imm9 => exact DecodesC.decodeWord_formatC (fun _ => decodeWord_sh) r1 r2 r3 imm9
  case sq r1 r2 r3 imm9 => exact DecodesC.decodeWord_formatC (fun _ => decodeWord_sq) r1 r2 r3 imm9
  case sb r1 r2 r3 imm9 => exact DecodesC.decodeWord_formatC (fun _ => decodeWord_sb) r1 r2 r3 imm9
  case scw r1 r2 r3 imm9 => exact DecodesC.decodeWord_formatC (fun _ => decodeWord_scw) r1 r2 r3 imm9
  case sch r1 r2 r3 imm9 => exact DecodesC.decodeWord_formatC (fun _ => decodeWord_sch) r1 r2 r3 imm9
  case scq r1 r2 r3 imm9 => exact DecodesC.decodeWord_formatC (fun _ => decodeWord_scq) r1 r2 r3 imm9
  case scb r1 r2 r3 imm9 => exact DecodesC.decodeWord_formatC (fun _ => decodeWord_scb) r1 r2 r3 imm9
  case add r1 r2 r3 imm9 => exact DecodesC.decodeWord_formatC (fun _ => decodeWord_add) r1 r2 r3 imm9
  case sub r1 r2 r3 imm9 => exact DecodesC.decodeWord_formatC (fun _ => decodeWord_sub) r1 r2 r3 imm9
  case mul r1 r2 r3 imm9 => exact DecodesC.decodeWord_formatC (fun _ => decodeWord_mul) r1 r2 r3 imm9
  case umulh r1 r2 r3 imm9 => exact DecodesC.decodeWord_formatC (fun _ => decodeWord_umulh) r1 r2 r3 imm9
  case imulh r1 r2 r3 imm9 => exact DecodesC.decodeWord_formatC (fun _ => decodeWord_imulh) r1 r2 r3 imm9
  case udiv r1 r2 r3 imm9 => exact DecodesC.decodeWord_formatC (fun _ => decodeWord_udiv) r1 r2 r3 imm9
  case idiv r1 r2 r3 imm9 => exact DecodesC.decodeWord_formatC (fun _ => decodeWord_idiv) r1 r2 r3 imm9
  case urem r1 r2 r3 imm9 => exact DecodesC.decodeWord_formatC (fun _ => decodeWord_urem) r1 r2 r3 imm9
  case irem r1 r2 r3 imm9 => exact DecodesC.decodeWord_formatC (fun _ => decodeWord_irem) r1 r2 r3 imm9
  case addi r1 r2 imm14 => exact DecodesB.decodeWord_formatB (fun _ => decodeWord_addi) r1 r2 imm14
  case subi r1 r2 imm14 => exact DecodesB.decodeWord_formatB (fun _ => decodeWord_subi) r1 r2 imm14
  case muli r1 r2 imm14 => exact DecodesB.decodeWord_formatB (fun _ => decodeWord_muli) r1 r2 imm14
  case udivi r1 r2 imm14 => exact DecodesB.decodeWord_formatB (fun _ => decodeWord_udivi) r1 r2 imm14
  case idivi r1 r2 imm14 => exact DecodesB.decodeWord_formatB (fun _ => decodeWord_idivi) r1 r2 imm14
  case uremi r1 r2 imm14 => exact DecodesB.decodeWord_formatB (fun _ => decodeWord_uremi) r1 r2 imm14
  case iremi r1 r2 imm14 => exact DecodesB.decodeWord_formatB (fun _ => decodeWord_iremi) r1 r2 imm14
  case and r1 r2 r3 imm9 => exact DecodesC.decodeWord_formatC (fun _ => decodeWord_and) r1 r2 r3 imm9
  case or r1 r2 r3 imm9 => exact DecodesC.decodeWord_formatC (fun _ => decodeWord_or) r1 r2 r3 imm9
  case nor r1 r2 r3 imm9 => exact DecodesC.decodeWord_formatC (fun _ => decodeWord_nor) r1 r2 r3 imm9
  case xor r1 r2 r3 imm9 => exact DecodesC.decodeWord_formatC (fun _ => decodeWord_xor) r1 r2 r3 imm9
  case andi r1 r2 imm14 => exact DecodesB.decodeWord_formatB (fun _ => decodeWord_andi) r1 r2 imm14
  case ori r1 r2 imm14 => exact DecodesB.decodeWord_formatB (fun _ => decodeWord_ori) r1 r2 imm14
  case nori r1 r2 imm14 => exact DecodesB.decodeWord_formatB (fun _ => decodeWord_nori) r1 r2 imm14
  case xori r1 r2 imm14 => exact DecodesB.decodeWord_formatB (fun _ => decodeWord_xori) r1 r2 imm14
  case sl r1 r2 r3 imm9 => exact DecodesC.decodeWord_formatC (fun _ => decodeWord_sl) r1 r2 r3 imm9
  case usr r1 r2 r3 imm9 => exact DecodesC.decodeWord_formatC (fun _ => decodeWord_usr) r1 r2 r3 imm9
  case isr r1 r2 r3 imm9 => exact DecodesC.decodeWord_formatC (fun _ => decodeWord_isr) r1 r2 r3 imm9
  case ror r1 r2 r3 imm9 => exact DecodesC.decodeWord_formatC (fun _ => decodeWord_ror) r1 r2 r3 imm9
  case rol r1 r2 r3 imm9 => exact DecodesC.decodeWord_formatC (fun _ => decodeWord_rol) r1 r2 r3 imm9
  case seq r1 r2 r3 imm9 => exact DecodesC.decodeWord_formatC (fun _ => decodeWord_seq) r1 r2 r3 imm9
  case sult r1 r2 r3 imm9 => exact DecodesC.decodeWord_formatC (fun _ => decodeWord_sult) r1 r2 r3 imm9
  case silt r1 r2 r3 imm9 => exact DecodesC.decodeWord_formatC (fun _ => decodeWord_silt) r1 r2 r3 imm9
  case sule r1 r2 r3 imm9 => exact DecodesC.decodeWord_formatC (fun _ => decodeWord_sule) r1 r2 r3 imm9
  case sile r1 r2 r3 imm9 => exact DecodesC.decodeWord_formatC (fun _ => decodeWord_sile) r1 r2 r3 imm9
  case seqi r1 r2 imm14 => exact DecodesB.decodeWord_formatB (fun _ => decodeWord_seqi) r1 r2 imm14
  case sulti r1 r2 imm14 => exact DecodesB.decodeWord_formatB (fun _ => decodeWord_sulti) r1 r2 imm14
  case silti r1 r2 imm14 => exact DecodesB.decodeWord_formatB (fun _ => decodeWord_silti) r1 r2 imm14
  case sulei r1 r2 imm14 => exact DecodesB.decodeWord_formatB (fun _ => decodeWord_sulei) r1 r2 imm14
  case silei r1 r2 imm14 => exact DecodesB.decodeWord_formatB (fun _ => decodeWord_silei) r1 r2 imm14
  case bz r1 imm19 => exact DecodesA.decodeWord_formatA (fun _ => decodeWord_bz) r1 imm19
  case bn r1 imm19 => exact DecodesA.decodeWord_formatA (fun _ => decodeWord_bn) r1 imm19
  case jl r1 r2 imm14 => exact DecodesB.decodeWord_formatB (fun _ => decodeWord_jl) r1 r2 imm14
  case jlr r1 r2 imm14 => exact DecodesB.decodeWord_formatB (fun _ => decodeWord_jlr) r1 r2 imm14
  case syscall => exact decodeWord_syscall (lowByte_formatA ..)
  case breakpt => exact decodeWord_breakpt (lowByte_formatA ..)
  case wait => exact decodeWord_wait (lowByte_formatA ..)
  case spin => exact decodeWord_spin (lowByte_formatA ..)
  case iret => exact decodeWord_iret (lowByte_formatA ..)
  case lctrl r1 imm19 => exact DecodesA.decodeWord_formatA (fun _ => decodeWord_lctrl) r1 imm19
  case sctrl r1 imm19 => exact DecodesA.decodeWord_formatA (fun _ => decodeWord_sctrl) r1 imm19

/-! ### The rows of the decode table -/

/-- One row of the decode table: the words with this low byte are the instructions that `g` reads from them, all with the same bits
in use, and each word agrees there with its instruction's encoding. -/
structure DecodeRow (low : Byte) (g : InstrWord → Instr) : Prop where
  decodes : ∀ w, lowByte w = low → decodeWord w = .ok (g w)
  encodes : ∀ w, lowByte w = low → encode (g w) = w &&& (g w).usedBits
  sameBits : ∀ v w, (g v).usedBits = (g w).usedBits

theorem DecodeRow.ofFormatA {low : Byte} {mask : InstrWord} {f : Reg → BitVec 19 → Instr} (hd : DecodesA low f)
    (he : ∀ r1 k, encode (f r1 k) = formatA low r1 k &&& mask) (hm : ∀ r1 k, (f r1 k).usedBits = mask) :
    DecodeRow low fun w => f (fieldR1 w) (fieldImm19 w) where
  decodes := hd
  encodes w hw := by rw [he, hm, ← hw, formatA_fields]
  sameBits v w := by rw [hm, hm]

theorem DecodeRow.ofFormatB {low : Byte} {mask : InstrWord} {f : Reg → Reg → BitVec 14 → Instr} (hd : DecodesB low f)
    (he : ∀ r1 r2 k, encode (f r1 r2 k) = formatB low r1 r2 k &&& mask) (hm : ∀ r1 r2 k, (f r1 r2 k).usedBits = mask) :
    DecodeRow low fun w => f (fieldR1 w) (fieldR2 w) (fieldImm14 w) where
  decodes := hd
  encodes w hw := by rw [he, hm, ← hw, formatB_fields]
  sameBits v w := by rw [hm, hm]

theorem DecodeRow.ofFormatC {low : Byte} {mask : InstrWord} {f : Reg → Reg → Reg → BitVec 9 → Instr} (hd : DecodesC low f)
    (he : ∀ r1 r2 r3 k, encode (f r1 r2 r3 k) = formatC low r1 r2 r3 k &&& mask)
    (hm : ∀ r1 r2 r3 k, (f r1 r2 r3 k).usedBits = mask) :
    DecodeRow low fun w => f (fieldR1 w) (fieldR2 w) (fieldR3 w) (fieldImm9 w) where
  decodes := hd
  encodes w hw := by rw [he, hm, ← hw, formatC_fields]
  sameBits v w := by rw [hm, hm]

/-- The rows of the instructions without operands, which use the low byte alone. -/
theorem DecodeRow.ofBare {low : Byte} {ins : Instr} (hd : ∀ w, lowByte w = low → decodeWord w = .ok ins)
    (he : encode ins = formatA low 0 0) (hm : ins.usedBits = formatA 0xFF#8 0 0#19) : DecodeRow low fun _ => ins :=
  .ofFormatA (f := fun _ _ => ins) hd (fun r1 k => by rw [he, formatA_and_mask_zero, BitVec.and_zero]; rfl) fun _ _ => hm

theorem exists_row_fence : ∃ g, DecodeRow 0x10#8 g :=
  ⟨_, .ofFormatA decodesA_fence (mask := formatA 0xFF#8 0 3)
    (fun r1 k => by rw [encode, fence_subfields, formatA_and_mask_zero]) fun _ _ => rfl⟩

theorem exists_row_cinval : ∃ g, DecodeRow 0x30#8 g :=
  ⟨_, .ofFormatA decodesA_cinval (mask := formatA 0xFF#8 31 0xF)
    (fun r1 k => by rw [encode, cinval_subfields, formatA_and_mask]) fun _ _ => rfl⟩

theorem exists_row_cfetch : ∃ g, DecodeRow 0x50#8 g :=
  ⟨_, .ofFormatA decodesA_cfetch (mask := formatA 0xFF#8 31 7)
    (fun r1 k => by rw [encode, cfetch_subfields, formatA_and_mask]) fun _ _ => rfl⟩

theorem exists_row_ssi : ∃ g, DecodeRow 0x08#8 g :=
  ⟨_, .ofFormatA ssiSetsOneQuarterWord.1 (mask := 0xFFFFFFFF#32)
    (fun r1 k => by rw [encode, ssi_subfields]; exact BitVec.and_allOnes.symm) fun _ _ => rfl⟩

theorem exists_row_si : ∃ g, DecodeRow 0x09#8 g :=
  ⟨_, .ofFormatB decodesB_si (mask := formatB 0xFF#8 31 31 0x1FFF)
    (fun r1 r2 k => by rw [encode, si_subfields, formatB_and_mask]) fun _ _ _ => rfl⟩

theorem exists_row_cb : ∃ g, DecodeRow 0x29#8 g :=
  ⟨_, .ofFormatB decodesB_cb (mask := formatB 0xFF#8 31 31 0xFFF)
    (fun r1 r2 k => by rw [encode, cb_subfields, formatB_and_mask]) fun _ _ _ => rfl⟩

theorem exists_row_rev : ∃ g, DecodeRow 0x49#8 g :=
  ⟨_, .ofFormatB decodesB_rev (mask := formatB 0xFF#8 31 31 0x3F)
    (fun r1 r2 k => by rw [encode, rev_subfield, formatB_and_mask]) fun _ _ _ => rfl⟩

/-- The rows of Format B whose `imm14` is unused. -/
theorem DecodeRow.ofTwoRegs {low : Byte} {f : Reg → Reg → Instr} (hd : DecodesB low fun r1 r2 _ => f r1 r2)
    (he : ∀ r1 r2, encode (f r1 r2) = formatB low r1 r2 0) (hm : ∀ r1 r2, (f r1 r2).usedBits = formatB 0xFF#8 31 31 0#14) :
    DecodeRow low fun w => f (fieldR1 w) (fieldR2 w) :=
  .ofFormatB (f := fun r1 r2 _ => f r1 r2) hd (fun r1 r2 k => by rw [he, formatB_and_mask, BitVec.and_zero]; rfl)
    fun r1 r2 _ => hm r1 r2

/-- The rows of Format C whose `imm9` is unused. -/
theorem DecodeRow.ofThreeRegs {low : Byte} {f : Reg → Reg → Reg → Instr} (hd : DecodesC low fun r1 r2 r3 _ => f r1 r2 r3)
    (he : ∀ r1 r2 r3, encode (f r1 r2 r3) = formatC low r1 r2 r3 0)
    (hm : ∀ r1 r2 r3, (f r1 r2 r3).usedBits = formatC 0xFF#8 31 31 31 0#9) :
    DecodeRow low fun w => f (fieldR1 w) (fieldR2 w) (fieldR3 w) :=
  .ofFormatC (f := fun r1 r2 r3 _ => f r1 r2 r3) hd
    (fun r1 r2 r3 k => by rw [he, formatC_and_mask, BitVec.and_zero]; rfl) fun r1 r2 r3 _ => hm r1 r2 r3

/-- Every listed low byte has its row, in the order of the list. -/
theorem exists_decodeRow : ∀ low ∈ listedLowBytes, ∃ g, DecodeRow low g := by
  simp only [listedLowBytes, List.cons_append, List.nil_append, List.forall_mem_cons]
  exact ⟨
    ⟨_, .ofFormatB (fun _ => decodeWord_addi) (fun _ _ _ => BitVec.and_allOnes.symm) fun _ _ _ => rfl⟩,
    ⟨_, .ofFormatC (fun _ => decodeWord_add) (fun _ _ _ _ => BitVec.and_allOnes.symm) fun _ _ _ _ => rfl⟩,
    ⟨_, .ofFormatB (fun _ => decodeWord_andi) (fun _ _ _ => BitVec.and_allOnes.symm) fun _ _ _ => rfl⟩,
    ⟨_, .ofFormatC (fun _ => decodeWord_and) (fun _ _ _ _ => BitVec.and_allOnes.symm) fun _ _ _ _ => rfl⟩,
    exists_row_ssi,
    exists_row_si,
    ⟨_, .ofFormatC (fun _ => decodeWord_ror) (fun _ _ _ _ => BitVec.and_allOnes.symm) fun _ _ _ _ => rfl⟩,
    ⟨_, .ofFormatB (fun _ => decodeWord_sulti) (fun _ _ _ => BitVec.and_allOnes.symm) fun _ _ _ => rfl⟩,
    ⟨_, .ofFormatC (fun _ => decodeWord_sult) (fun _ _ _ _ => BitVec.and_allOnes.symm) fun _ _ _ _ => rfl⟩,
    exists_row_fence,
    ⟨_, .ofFormatC (fun _ => decodeWord_lw) (fun _ _ _ _ => BitVec.and_allOnes.symm) fun _ _ _ _ => rfl⟩,
    ⟨_, .ofFormatC (fun _ => decodeWord_sw) (fun _ _ _ _ => BitVec.and_allOnes.symm) fun _ _ _ _ => rfl⟩,
    ⟨_, .ofBare (fun _ => decodeWord_syscall) rfl rfl⟩,
    ⟨_, .ofFormatB (fun _ => decodeWord_subi) (fun _ _ _ => BitVec.and_allOnes.symm) fun _ _ _ => rfl⟩,
    ⟨_, .ofFormatC (fun _ => decodeWord_sub) (fun _ _ _ _ => BitVec.and_allOnes.symm) fun _ _ _ _ => rfl⟩,
    ⟨_, .ofFormatB (fun _ => decodeWord_ori) (fun _ _ _ => BitVec.and_allOnes.symm) fun _ _ _ => rfl⟩,
    ⟨_, .ofFormatC (fun _ => decodeWord_or) (fun _ _ _ _ => BitVec.and_allOnes.symm) fun _ _ _ _ => rfl⟩,
    exists_row_cb,
    ⟨_, .ofFormatC (fun _ => decodeWord_rol) (fun _ _ _ _ => BitVec.and_allOnes.symm) fun _ _ _ _ => rfl⟩,
    ⟨_, .ofFormatB (fun _ => decodeWord_silti) (fun _ _ _ => BitVec.and_allOnes.symm) fun _ _ _ => rfl⟩,
    ⟨_, .ofFormatC (fun _ => decodeWord_silt) (fun _ _ _ _ => BitVec.and_allOnes.symm) fun _ _ _ _ => rfl⟩,
    exists_row_cinval,
    ⟨_, .ofFormatC (fun _ => decodeWord_lh) (fun _ _ _ _ => BitVec.and_allOnes.symm) fun _ _ _ _ => rfl⟩,
    ⟨_, .ofFormatC (fun _ => decodeWord_sh) (fun _ _ _ _ => BitVec.and_allOnes.symm) fun _ _ _ _ => rfl⟩,
    ⟨_, .ofBare (fun _ => decodeWord_breakpt) rfl rfl⟩,
    ⟨_, .ofFormatB (fun _ => decodeWord_muli) (fun _ _ _ => BitVec.and_allOnes.symm) fun _ _ _ => rfl⟩,
    ⟨_, .ofFormatC (fun _ => decodeWord_mul) (fun _ _ _ _ => BitVec.and_allOnes.symm) fun _ _ _ _ => rfl⟩,
    ⟨_, .ofFormatB (fun _ => decodeWord_nori) (fun _ _ _ => BitVec.and_allOnes.symm) fun _ _ _ => rfl⟩,
    ⟨_, .ofFormatC (fun _ => decodeWord_nor) (fun _ _ _ _ => BitVec.and_allOnes.symm) fun _ _ _ _ => rfl⟩,
    exists_row_rev,
    ⟨_, .ofFormatC (fun _ => decodeWord_usr) (fun _ _ _ _ => BitVec.and_allOnes.symm) fun _ _ _ _ => rfl⟩,
    ⟨_, .ofFormatB (fun _ => decodeWord_sulei) (fun _ _ _ => BitVec.and_allOnes.symm) fun _ _ _ => rfl⟩,
    ⟨_, .ofFormatC (fun _ => decodeWord_sule) (fun _ _ _ _ => BitVec.and_allOnes.symm) fun _ _ _ _ => rfl⟩,
    exists_row_cfetch,
    ⟨_, .ofFormatC (fun _ => decodeWord_lq) (fun _ _ _ _ => BitVec.and_allOnes.symm) fun _ _ _ _ => rfl⟩,
    ⟨_, .ofFormatC (fun _ => decodeWord_sq) (fun _ _ _ _ => BitVec.and_allOnes.symm) fun _ _ _ _ => rfl⟩,
    ⟨_, .ofBare (fun _ => decodeWord_spin) rfl rfl⟩,
    ⟨_, .ofFormatB (fun _ => decodeWord_xori) (fun _ _ _ => BitVec.and_allOnes.symm) fun _ _ _ => rfl⟩,
    ⟨_, .ofFormatC (fun _ => decodeWord_xor) (fun _ _ _ _ => BitVec.and_allOnes.symm) fun _ _ _ _ => rfl⟩,
    ⟨_, .ofFormatC (fun _ => decodeWord_isr) (fun _ _ _ _ => BitVec.and_allOnes.symm) fun _ _ _ _ => rfl⟩,
    ⟨_, .ofFormatB (fun _ => decodeWord_silei) (fun _ _ _ => BitVec.and_allOnes.symm) fun _ _ _ => rfl⟩,
    ⟨_, .ofFormatC (fun _ => decodeWord_sile) (fun _ _ _ _ => BitVec.and_allOnes.symm) fun _ _ _ _ => rfl⟩,
    ⟨_, .ofFormatC (fun _ => decodeWord_lb) (fun _ _ _ _ => BitVec.and_allOnes.symm) fun _ _ _ _ => rfl⟩,
    ⟨_, .ofFormatC (fun _ => decodeWord_sb) (fun _ _ _ _ => BitVec.and_allOnes.symm) fun _ _ _ _ => rfl⟩,
    ⟨_, .ofFormatB (fun _ => decodeWord_udivi) (fun _ _ _ => BitVec.and_allOnes.symm) fun _ _ _ => rfl⟩,
    ⟨_, .ofFormatC (fun _ => decodeWord_udiv) (fun _ _ _ _ => BitVec.and_allOnes.symm) fun _ _ _ _ => rfl⟩,
    ⟨_, .ofTwoRegs (f := .clz) (fun _ => decodeWord_clz) (fun _ _ => rfl) fun _ _ => rfl⟩,
    ⟨_, .ofThreeRegs (f := .ext) (fun _ => decodeWord_ext) (fun _ _ _ => rfl) fun _ _ _ => rfl⟩,
    ⟨_, .ofFormatC (fun _ => decodeWord_sl) (fun _ _ _ _ => BitVec.and_allOnes.symm) fun _ _ _ _ => rfl⟩,
    ⟨_, .ofFormatB (fun _ => decodeWord_seqi) (fun _ _ _ => BitVec.and_allOnes.symm) fun _ _ _ => rfl⟩,
    ⟨_, .ofFormatC (fun _ => decodeWord_seq) (fun _ _ _ _ => BitVec.and_allOnes.symm) fun _ _ _ _ => rfl⟩,
    ⟨_, .ofFormatB (fun _ => decodeWord_jlr) (fun _ _ _ => BitVec.and_allOnes.symm) fun _ _ _ => rfl⟩,
    ⟨_, .ofFormatC (fun _ => decodeWord_llw) (fun _ _ _ _ => BitVec.and_allOnes.symm) fun _ _ _ _ => rfl⟩,
    ⟨_, .ofFormatC (fun _ => decodeWord_scw) (fun _ _ _ _ => BitVec.and_allOnes.symm) fun _ _ _ _ => rfl⟩,
    ⟨_, .ofBare (fun _ => decodeWord_iret) rfl rfl⟩,
    ⟨_, .ofFormatB (fun _ => decodeWord_idivi) (fun _ _ _ => BitVec.and_allOnes.symm) fun _ _ _ => rfl⟩,
    ⟨_, .ofFormatC (fun _ => decodeWord_idiv) (fun _ _ _ _ => BitVec.and_allOnes.symm) fun _ _ _ _ => rfl⟩,
    ⟨_, .ofTwoRegs (f := .ctz) (fun _ => decodeWord_ctz) (fun _ _ => rfl) fun _ _ => rfl⟩,
    ⟨_, .ofThreeRegs (f := .dep) (fun _ => decodeWord_dep) (fun _ _ _ => rfl) fun _ _ _ => rfl⟩,
    ⟨_, .ofFormatB (fun _ => decodeWord_jl) (fun _ _ _ => BitVec.and_allOnes.symm) fun _ _ _ => rfl⟩,
    ⟨_, .ofFormatC (fun _ => decodeWord_llh) (fun _ _ _ _ => BitVec.and_allOnes.symm) fun _ _ _ _ => rfl⟩,
    ⟨_, .ofFormatC (fun _ => decodeWord_sch) (fun _ _ _ _ => BitVec.and_allOnes.symm) fun _ _ _ _ => rfl⟩,
    ⟨_, .ofFormatA (fun _ => decodeWord_lctrl) (fun _ _ => BitVec.and_allOnes.symm) fun _ _ => rfl⟩,
    ⟨_, .ofFormatB (fun _ => decodeWord_uremi) (fun _ _ _ => BitVec.and_allOnes.symm) fun _ _ _ => rfl⟩,
    ⟨_, .ofFormatC (fun _ => decodeWord_urem) (fun _ _ _ _ => BitVec.and_allOnes.symm) fun _ _ _ _ => rfl⟩,
    ⟨_, .ofTwoRegs (f := .csb) (fun _ => decodeWord_csb) (fun _ _ => rfl) fun _ _ => rfl⟩,
    ⟨_, .ofFormatC (fun _ => decodeWord_umulh) (fun _ _ _ _ => BitVec.and_allOnes.symm) fun _ _ _ _ => rfl⟩,
    ⟨_, .ofFormatA (fun _ => decodeWord_bz) (fun _ _ => BitVec.and_allOnes.symm) fun _ _ => rfl⟩,
    ⟨_, .ofFormatC (fun _ => decodeWord_llq) (fun _ _ _ _ => BitVec.and_allOnes.symm) fun _ _ _ _ => rfl⟩,
    ⟨_, .ofFormatC (fun _ => decodeWord_scq) (fun _ _ _ _ => BitVec.and_allOnes.symm) fun _ _ _ _ => rfl⟩,
    ⟨_, .ofFormatA (fun _ => decodeWord_sctrl) (fun _ _ => BitVec.and_allOnes.symm) fun _ _ => rfl⟩,
    ⟨_, .ofFormatB (fun _ => decodeWord_iremi) (fun _ _ _ => BitVec.and_allOnes.symm) fun _ _ _ => rfl⟩,
    ⟨_, .ofFormatC (fun _ => decodeWord_irem) (fun _ _ _ _ => BitVec.and_allOnes.symm) fun _ _ _ _ => rfl⟩,
    ⟨_, .ofFormatC (fun _ => decodeWord_imulh) (fun _ _ _ _ => BitVec.and_allOnes.symm) fun _ _ _ _ => rfl⟩,
    ⟨_, .ofFormatA (fun _ => decodeWord_bn) (fun _ _ => BitVec.and_allOnes.symm) fun _ _ => rfl⟩,
    ⟨_, .ofFormatC (fun _ => decodeWord_llb) (fun _ _ _ _ => BitVec.and_allOnes.symm) fun _ _ _ _ => rfl⟩,
    ⟨_, .ofFormatC (fun _ => decodeWord_scb) (fun _ _ _ _ => BitVec.and_allOnes.symm) fun _ _ _ _ => rfl⟩,
    ⟨_, .ofBare (fun _ => decodeWord_wait) rfl rfl⟩, List.forall_mem_nil _⟩

/-- Every other low byte is rejected. -/
theorem decodeWord_of_not_listed {w : InstrWord} (h : lowByte w ∉ listedLowBytes) : ∃ e, decodeWord w = .error e := by
  unfold decodeWord
  split
  case h_79 => split <;> exact ⟨_, rfl⟩
  all_goals
    rename_i hlow
    exact absurd (by rw [hlow]; decide) h

theorem exists_decodeWord_iff (w : InstrWord) : (∃ ins, decodeWord w = .ok ins) ↔ lowByte w ∈ listedLowBytes := by
  constructor
  · rintro ⟨ins, hins⟩
    by_contra hlow
    obtain ⟨e, he⟩ := decodeWord_of_not_listed hlow
    rw [he] at hins
    cases hins
  · intro hlow
    obtain ⟨g, hrow⟩ := exists_decodeRow _ hlow
    exact ⟨g w, hrow.decodes w rfl⟩

/-- What a word decodes to is read by the row of its low byte. -/
theorem decodeWord_row {w : InstrWord} {ins : Instr} (h : decodeWord w = .ok ins) :
    ∃ g, DecodeRow (lowByte w) g ∧ ins = g w := by
  obtain ⟨g, hrow⟩ := exists_decodeRow _ ((exists_decodeWord_iff w).1 ⟨ins, h⟩)
  rw [hrow.decodes w rfl] at h
  exact ⟨g, hrow, (Except.ok.inj h).symm⟩

/-- The low byte is in use in every instruction. -/
theorem lowByte_and_usedBits (w : InstrWord) (ins : Instr) : lowByte (w &&& ins.usedBits) = lowByte w := by
  have hused : lowByte ins.usedBits = BitVec.allOnes 8 := by unfold Instr.usedBits; split <;> decide
  rw [← BitVec.and_allOnes (x := lowByte w), ← hused]
  exact BitVec.extractLsb'_and

theorem encode_of_decodeWord {w : InstrWord} {ins : Instr} (h : decodeWord w = .ok ins) : w &&& ins.usedBits = encode ins := by
  obtain ⟨g, hrow, rfl⟩ := decodeWord_row h
  exact (hrow.encodes w rfl).symm

/-- Two words with one low byte are instructions with the same bits in use. -/
theorem decodeWord_sameBits {v w : InstrWord} {ins : Instr} (h : decodeWord v = .ok ins) (hlow : lowByte w = lowByte v) :
    ∃ ins', decodeWord w = .ok ins' ∧ ins'.usedBits = ins.usedBits := by
  obtain ⟨g, hrow, rfl⟩ := decodeWord_row h
  exact ⟨g w, hrow.decodes w hlow, hrow.sameBits w v⟩

end Sys2Proof

open Sys2Proof Sys2Proof.Machine

/-- Settles O1: instruction by instruction, from the row of the decode table for its low byte and the fields of its format. -/
theorem decodeInvertsEncode : Obligations.DecodeInvertsEncode := decodeWord_encode

/-- Settles O2: a word decodes by the row of its low byte, which encodes it again on the bits in use. Conversely, a word that agrees
with an instruction's encoding has its low byte, so decodes to an instruction with the same bits in use and the same encoding there;
decoding that encoding gives both. -/
theorem unusedBitsAloneAreFree : Obligations.UnusedBitsAloneAreFree := by
  refine fun w ins => ⟨encode_of_decodeWord, fun h => ?_⟩
  have hlow : lowByte w = lowByte (encode ins) := by rw [← h, lowByte_and_usedBits]
  obtain ⟨ins', hdecode, hbits⟩ := decodeWord_sameBits (decodeWord_encode ins) hlow
  have hencode : encode ins' = encode ins := by rw [← encode_of_decodeWord hdecode, hbits, h]
  have hsame : (.ok ins' : Except DecodeError Instr) = .ok ins := by
    rw [← decodeWord_encode ins', hencode, decodeWord_encode ins]
  rw [hdecode, hsame]

/-- Settles O3: the rows of the decode table, one by one; every other low byte is rejected. -/
theorem listedLowBytesDecode : Obligations.ListedLowBytesDecode := by
  refine ⟨exists_decodeWord_iff, ?_, ?_, ?_⟩
  · simp only [tableA, List.cons_append, List.nil_append, List.forall_mem_cons]
    exact ⟨decodesA_fence, decodesA_cinval, decodesA_cfetch, fun _ => decodeWord_syscall, fun _ => decodeWord_breakpt,
      fun _ => decodeWord_wait, fun _ => decodeWord_spin, fun _ => decodeWord_iret, fun _ => decodeWord_lctrl,
      fun _ => decodeWord_sctrl, List.forall_mem_nil _⟩
  · simp only [tableB, List.forall_mem_cons]
    exact ⟨fun _ => decodeWord_addi, fun _ => decodeWord_subi, fun _ => decodeWord_muli, fun _ => decodeWord_udivi,
      fun _ => decodeWord_idivi, fun _ => decodeWord_uremi, fun _ => decodeWord_iremi, List.forall_mem_nil _⟩
  · simp only [tableC, List.cons_append, List.nil_append, List.forall_mem_cons]
    exact ⟨fun _ => decodeWord_lw, fun _ => decodeWord_lh, fun _ => decodeWord_lq, fun _ => decodeWord_lb,
      fun _ => decodeWord_llw, fun _ => decodeWord_llh, fun _ => decodeWord_llq, fun _ => decodeWord_llb,
      fun _ => decodeWord_sw, fun _ => decodeWord_sh, fun _ => decodeWord_sq, fun _ => decodeWord_sb,
      fun _ => decodeWord_scw, fun _ => decodeWord_sch, fun _ => decodeWord_scq, fun _ => decodeWord_scb,
      fun _ => decodeWord_add, fun _ => decodeWord_sub, fun _ => decodeWord_mul, fun _ => decodeWord_umulh,
      fun _ => decodeWord_imulh, fun _ => decodeWord_udiv, fun _ => decodeWord_idiv, fun _ => decodeWord_urem,
      fun _ => decodeWord_irem, List.forall_mem_nil _⟩

/-- Settles O4: each word has the low byte of its row and the fields written out; 0x00 and 0xFF are in no row. -/
theorem sampleWordsDecode : Obligations.SampleWordsDecode := by
  have hnone (w : InstrWord) (h : lowByte w ∉ listedLowBytes) (ins : Instr) : decodeWord w ≠ .ok ins :=
    fun hins => h ((exists_decodeWord_iff w).1 ⟨ins, hins⟩)
  exact ⟨by rfl, by rfl, by rfl, by rfl, by rfl, by rfl, by rfl, by rfl, hnone _ (by decide), hnone _ (by decide)⟩
end

section
/-!
PROOFS. The step (10_state.md R14): how a property that every part of a step keeps is carried through it, and the properties that every
step keeps: the invariant, coherence of the d-cache (20_memory.md R57), the platform and the requests to come.
-/
namespace Sys2Proof.Machine

/-! ### Carrying a property through a step -/

theorem State.ticks_induction {P : State → Prop} (l : List EnvEvent) (htick : ∀ s, ∀ e ∈ l, P s → P (s.tick e)) :
    ∀ s, P s → P (s.ticks l) := by
  induction l with
  | nil => exact fun s h => h
  | cons e rest ih =>
    exact fun s h => ih (fun s e he => htick s e (by simp [he])) _ (htick s e (by simp) h)

/-- The boundary is the step's own events, and then perhaps everything pending. -/
theorem State.atBoundary_induction {P : State → Prop} {s : State}
    (hstart : P { s with env := s.env.tail, delay := s.input.delay })
    (htick : ∀ s', ∀ e ∈ s.input.events, P s' → P (s'.tick e)) (hall : ∀ s', P s' → P s'.performAll) : P s.atBoundary := by
  have hticks := State.ticks_induction s.input.events htick _ hstart
  unfold State.atBoundary
  simp only []
  split
  · exact hticks
  · exact hall _ hticks

/-- What the boundary establishes and waiting, interrupt entry and every instruction keep, a step establishes. -/
theorem step_induction {P : State → Prop} (hpc : ∀ s v, P s → P (s.setPc v)) (helapse : ∀ s n, P s → P (s.elapse n))
    (hint : ∀ s i, P s → P (s.enterInterrupt i)) (hexec : ∀ ins s t, P s → ExecEffect s ins t → P t) {s t : State}
    (hb : P s.atBoundary) (h : step s = .next t) : P t := by
  have hfetch {w : InstrWord} {b : State} (hf : s.atBoundary.fetchWord s.atBoundary.pc = .ok (w, b)) :
      P (b.setPc (b.pc + 4)) := by
    obtain ⟨pa, _, rfl, _⟩ := State.fetchWord_eq_ok hf
    refine hpc _ _ ?_
    unfold State.fetchPoint
    split
    · exact hb
    · exact helapse _ _ hb
  rcases step_cases s with ⟨_, he⟩ | ⟨_, _, he⟩ | ⟨_, _, ⟨e, _, he⟩ | ⟨w, b, e, hf, _, he⟩ | ⟨w, b, ins, hf, _, he⟩⟩ <;>
    rw [he] at h
  · cases h; exact hint _ _ hb
  · cases h; exact hb
  · cases h; exact hint _ _ hb
  · cases h; exact hint _ _ (hfetch hf)
  · exact hexec _ _ _ (hfetch hf) (effect_of_exec h)

theorem RaisedFrom.keeps {P : State → Prop} (hlock : ∀ s addr sz pa, P s → P (s.lockOn addr sz pa)) {s b : State}
    (h : RaisedFrom s b) (hs : P s) : P b := by
  cases h with
  | as_is => exact hs
  | locked addr sz pa => exact hlock _ _ _ _ hs

/-! ### What the caches hold -/

theorem CacheBlock.Sound.blockOf {m : Memory} (h : m.wf = true) (number : Nat) :
    CacheBlock.Sound { number := number, copy := blockOf m number } :=
  ⟨wf_blockOf m number h, fun cell hcell => by simpa [Machine.blockOf] using (List.mem_filter.1 hcell).2⟩

theorem CacheBlock.Sound.cachePut {c : List CacheBlock} (h : ∀ blk ∈ c, blk.Sound) (a : Word) (b : Byte) :
    ∀ blk ∈ cachePut c a b, blk.Sound := by
  intro blk hblk
  obtain ⟨old, hold, rfl⟩ := List.mem_map.1 hblk
  obtain ⟨hwf, hin⟩ := h old hold
  split
  case isTrue hnumber =>
    refine ⟨Memory.wf_write _ _ _ (BitVec.isLt _) hwf, fun cell hcell => ?_⟩
    rcases Memory.mem_write _ _ _ _ hcell with haddr | hcell
    · rw [haddr, ← hnumber]
    · exact hin cell hcell
  case isFalse => exact ⟨hwf, hin⟩

theorem CacheBlock.Sound.cachePutBytes {c : List CacheBlock} (h : ∀ blk ∈ c, blk.Sound) (pa v : Word) (n : Nat) :
    ∀ blk ∈ cachePutBytes c pa v n, blk.Sound := by
  induction n with
  | zero => exact h
  | succ n ih => exact CacheBlock.Sound.cachePut ih _ _

theorem cachePutBytes_nil (pa v : Word) (n : Nat) : cachePutBytes [] pa v n = [] := by
  induction n with
  | zero => rfl
  | succ n ih => rw [cachePutBytes, ih]; rfl

/-- A walk of at least one level that succeeds ends with a valid entry (20_memory.md R62, R65). -/
theorem State.walk_ok_valid {s : State} {va : Word} {kind : Access} (l : List Nat) :
    ∀ {table pte0 pte : Word}, s.walk va kind l table pte0 = .ok pte → l ≠ [] ∨ pte0.getLsbD 0 = true →
      pte.getLsbD 0 = true := by
  induction l with
  | nil =>
    intro table pte0 pte h hv
    cases h
    exact hv.resolve_left (fun hne => hne rfl)
  | cons level rest ih =>
    intro table pte0 pte h _
    simp only [State.walk] at h
    split at h
    · split at h
      case isTrue hvalid => exact ih h (.inr hvalid)
      case isFalse => cases h
    · cases h

theorem State.finalPte_valid {s : State} {va pte : Word} {kind : Access} (h : s.finalPte va kind = .ok pte) :
    pte.getLsbD 0 = true :=
  State.walk_ok_valid _ h (.inl (by simp))

/-! ### The parts of the invariant -/

/-- The part of the invariant about memory and the caches, which no access's waiting concerns. -/
structure State.UnitsSound (s : State) : Prop where
  mem : s.mem.wf = true
  noDcache : s.platform.hasDcache = false → s.dcache = []
  noIcache : s.platform.hasIcache = false → s.icache = []
  noTcache : s.platform.hasTcache = false → s.tcacheK = [] ∧ s.tcacheU = []
  dcache : ∀ blk ∈ s.dcache, blk.Sound
  icache : ∀ blk ∈ s.icache, blk.Sound
  tcacheK : ∀ t ∈ s.tcacheK, t.pte.getLsbD 0 = true
  tcacheU : ∀ t ∈ s.tcacheU, t.pte.getLsbD 0 = true

/-- The part of the invariant about pending accesses (20_memory.md R50 a, R59). -/
structure State.PendingSound (s : State) : Prop where
  unreordered : s.platform.reorders = false → s.pending = []
  inOrder : s.InOrder

theorem State.inv_iff (s : State) : s.Inv ↔ s.UnitsSound ∧ s.HardwiredZero ∧ s.PendingSound :=
  ⟨fun h => ⟨⟨h.mem, h.noDcache, h.noIcache, h.noTcache, h.dcache, h.icache, h.tcacheK, h.tcacheU⟩, h.hardwired,
      h.unreordered, h.inOrder⟩,
    fun ⟨hu, hh, hp⟩ => ⟨hu.mem, hh, hp.unreordered, hp.inOrder, hu.noDcache, hu.noIcache, hu.noTcache, hu.dcache, hu.icache,
      hu.tcacheK, hu.tcacheU⟩⟩

/-! ### Memory and the caches -/

theorem State.UnitsSound.congr {s t : State} (h : s.UnitsSound) (hmem : t.mem = s.mem) (hplatform : t.platform = s.platform)
    (hdcache : t.dcache = s.dcache) (hicache : t.icache = s.icache) (htcacheK : t.tcacheK = s.tcacheK)
    (htcacheU : t.tcacheU = s.tcacheU) : t.UnitsSound := by
  obtain ⟨h1, h2, h3, h4, h5, h6, h7, h8⟩ := h
  constructor <;> simp only [hmem, hplatform, hdcache, hicache, htcacheK, htcacheU] <;> assumption

theorem State.UnitsSound.setPc {s : State} (h : s.UnitsSound) (v : Word) : (s.setPc v).UnitsSound :=
  h.congr rfl rfl rfl rfl rfl rfl

theorem State.UnitsSound.unlock {s : State} (h : s.UnitsSound) : s.unlock.UnitsSound := h.congr rfl rfl rfl rfl rfl rfl

theorem State.UnitsSound.setCtrl {s : State} (h : s.UnitsSound) (n : CtrlReg) (v : Word) : (s.setCtrl n v).UnitsSound :=
  h.congr rfl rfl rfl rfl rfl rfl

theorem State.UnitsSound.withPending {s : State} (h : s.UnitsSound) (l : List Pending) :
    State.UnitsSound { s with pending := l } := h.congr rfl rfl rfl rfl rfl rfl

theorem State.UnitsSound.takeEffect {s : State} (h : s.UnitsSound) (st : Store) : (s.takeEffect st).UnitsSound where
  mem := Memory.wf_writeBytes _ _ _ _ h.mem
  noDcache hno := by rw [State.takeEffect_dcache, h.noDcache hno, cachePutBytes_nil]
  noIcache := h.noIcache
  noTcache := h.noTcache
  dcache := CacheBlock.Sound.cachePutBytes h.dcache _ _ _
  icache := h.icache
  tcacheK := h.tcacheK
  tcacheU := h.tcacheU

theorem State.UnitsSound.performed {s : State} (h : s.UnitsSound) (p : Pending) : (s.performed p).UnitsSound := by
  unfold State.performed
  split
  · exact h.takeEffect _
  · exact h
  · exact h

theorem State.UnitsSound.performDue {s : State} (h : s.UnitsSound) (due : Pending → Bool) (kept l : List Pending) :
    (State.performDue due kept l s).UnitsSound :=
  State.performDue_induction (P := State.UnitsSound) (fun _ l h => h.withPending l) (fun _ p h => h.performed p) due l kept s h

theorem State.UnitsSound.fillD {s : State} (h : s.UnitsSound) (number : Nat) :
    (s.afterEvent (.fillD number)).UnitsSound := by
  simp only [State.afterEvent]
  split
  case isTrue hhas =>
    refine { h with noDcache := fun hno => absurd (hhas.symm.trans hno) (by decide), dcache := ?_ }
    intro blk hblk
    rcases List.mem_cons.1 hblk with rfl | hblk
    · exact .blockOf h.mem number
    · exact h.dcache blk (List.mem_filter.1 hblk).1
  case isFalse => exact h

theorem State.UnitsSound.fillI {s : State} (h : s.UnitsSound) (number : Nat) (fromD : Bool) :
    (s.afterEvent (.fillI number fromD)).UnitsSound := by
  simp only [State.afterEvent]
  split
  case isTrue hhas =>
    refine { h with noIcache := fun hno => absurd (hhas.symm.trans hno) (by decide), icache := ?_ }
    intro blk hblk
    rcases List.mem_cons.1 hblk with rfl | hblk
    · split
      case h_1 found hfound =>
        have hfind : s.dcache.find? (fun blk => blk.number == number) = some found := by
          split at hfound
          · exact hfound
          · cases hfound
        obtain ⟨hwf, hin⟩ := h.dcache found (List.mem_of_find?_eq_some hfind)
        have hnumber : found.number = number := by simpa using List.find?_some hfind
        exact ⟨hwf, hnumber ▸ hin⟩
      case h_2 => exact .blockOf h.mem number
    · exact h.icache blk (List.mem_filter.1 hblk).1
  case isFalse => exact h

theorem State.UnitsSound.remember {s : State} (h : s.UnitsSound) (va : Word) : (s.afterEvent (.remember va)).UnitsSound := by
  simp only [State.afterEvent]
  split
  case isTrue hon =>
    have hhas : s.platform.hasTcache = true := by simp only [Bool.and_eq_true] at hon; exact hon.1.1
    split
    case h_1 pte hpte =>
      have hvalid := State.finalPte_valid hpte
      split
      · refine { h with noTcache := fun hno => absurd (hhas.symm.trans hno) (by decide), tcacheU := ?_ }
        exact List.forall_mem_cons.2 ⟨hvalid, h.tcacheU⟩
      · refine { h with noTcache := fun hno => absurd (hhas.symm.trans hno) (by decide), tcacheK := ?_ }
        exact List.forall_mem_cons.2 ⟨hvalid, h.tcacheK⟩
    case h_2 => exact h
  case isFalse => exact h

theorem State.UnitsSound.afterEvent {s : State} (h : s.UnitsSound) (e : EnvEvent) : (s.afterEvent e).UnitsSound := by
  cases e with
  | pass => exact h
  | fillD number => exact h.fillD number
  | fillI number fromD => exact h.fillI number fromD
  | dropD number =>
    exact { h with
      noDcache := fun hno => by rw [State.afterEvent, h.noDcache hno]; rfl
      dcache := fun blk hblk => h.dcache blk (List.mem_filter.1 hblk).1 }
  | dropI number =>
    exact { h with
      noIcache := fun hno => by rw [State.afterEvent, h.noIcache hno]; rfl
      icache := fun blk hblk => h.icache blk (List.mem_filter.1 hblk).1 }
  | remember va => exact h.remember va
  | forget user page =>
    simp only [State.afterEvent]
    split
    · exact { h with
        noTcache := fun hno => by simp [h.noTcache hno]
        tcacheU := fun t ht => h.tcacheU t (List.mem_filter.1 ht).1 }
    · exact { h with
        noTcache := fun hno => by simp [h.noTcache hno]
        tcacheK := fun t ht => h.tcacheK t (List.mem_filter.1 ht).1 }
  | lpStore st => exact h.takeEffect st
  | extStore st => exact { h with mem := Memory.wf_writeBytes _ _ _ _ h.mem }

theorem State.UnitsSound.tick {s : State} (h : s.UnitsSound) (e : EnvEvent) : (s.tick e).UnitsSound :=
  (h.afterEvent e).performDue _ _ _

theorem State.UnitsSound.elapse {s : State} (h : s.UnitsSound) (n : Nat) : (s.elapse n).UnitsSound :=
  State.elapse_induction (P := State.UnitsSound) n s
    (fun s e rest _ h => State.UnitsSound.tick (s := { s with env := rest }) (h.congr rfl rfl rfl rfl rfl rfl) e)
    (fun _ h => h.performDue _ _ _) h

theorem State.UnitsSound.issueAfter {s : State} (h : s.UnitsSound) (n : Nat) (pa : Word) (sz : AccessSize)
    (eff : AccessEffect) : (s.issueAfter n pa sz eff).UnitsSound := by
  rcases s.issueAfter_cases n pa sz eff with ⟨_, hnow⟩ | ⟨k, _, hqueued⟩
  · rw [hnow]; exact h.performed _
  · rw [hqueued]; exact h.withPending _

theorem State.UnitsSound.lockOn {s : State} (h : s.UnitsSound) (addr : Word) (sz : AccessSize) (pa : Word) :
    (s.lockOn addr sz pa).UnitsSound := h.congr rfl rfl rfl rfl rfl rfl

theorem State.UnitsSound.setReg {s : State} (h : s.UnitsSound) (r : Reg) (v : Word) : (s.setReg r v).UnitsSound :=
  h.congr (by simp) (by simp) (by simp) (by simp) (by simp) (by simp)

theorem State.UnitsSound.enterInterrupt {s : State} (h : s.UnitsSound) (i : Interrupt) : (s.enterInterrupt i).UnitsSound :=
  State.UnitsSound.congr (s := s.completed) (h.elapse _) (by simp) (by simp) (by simp) (by simp) (by simp) (by simp)

theorem State.UnitsSound.discard {s : State} (h : s.UnitsSound) (d i : Bool) (p : Nat → Bool) :
    (s.discard d i p).UnitsSound where
  mem := h.mem
  noDcache hno := by simp [h.noDcache hno]
  noIcache hno := by simp [h.noIcache hno]
  noTcache := h.noTcache
  dcache blk hblk := by
    rw [State.discard_dcache] at hblk
    split at hblk
    · exact h.dcache blk (List.mem_filter.1 hblk).1
    · exact h.dcache blk hblk
  icache blk hblk := by
    rw [State.discard_icache] at hblk
    split at hblk
    · exact h.icache blk (List.mem_filter.1 hblk).1
    · exact h.icache blk hblk
  tcacheK := h.tcacheK
  tcacheU := h.tcacheU

theorem State.UnitsSound.dropTranslations {s : State} (h : s.UnitsSound) (n : CtrlReg) :
    (s.dropTranslations n).UnitsSound where
  mem := h.mem
  noDcache := h.noDcache
  noIcache := h.noIcache
  noTcache hno := by simp [h.noTcache hno]
  dcache := h.dcache
  icache := h.icache
  tcacheK t ht := by
    rw [State.dropTranslations_tcacheK] at ht
    split at ht
    · cases ht
    · exact h.tcacheK t ht
  tcacheU t ht := by
    rw [State.dropTranslations_tcacheU] at ht
    split at ht
    · cases ht
    · exact h.tcacheU t ht

theorem State.UnitsSound.exec {ins : Instr} {s t : State} (h : s.UnitsSound) (he : ExecEffect s ins t) : t.UnitsSound := by
  cases he with
  | none _ => exact h
  | write _ r v => exact h.setReg r v
  | bz r k v => exact h.setPc v
  | bn r k v => exact h.setPc v
  | jl r q k v w => exact (h.setPc v).setReg r w
  | jlr r q k v w => exact (h.setPc v).setReg r w
  | load _ pa sz r v => exact (h.issueAfter _ pa sz _).setReg r v
  | loadLock p hp r1 r2 r3 imm9 pa addr v => exact ((h.lockOn addr p.2 pa).issueAfter _ pa p.2 _).setReg r1 v
  | store _ pa sz v => exact h.issueAfter _ pa sz _
  | storeConditional _ n pa sz hn x r v =>
    exact (h.issueAfter n pa sz _).unlock.setReg r v
  | waitWrite _ n r v => exact (h.elapse n).setReg r v
  | wait _ n => exact h.elapse n
  | unlock _ => exact h.congr rfl rfl rfl rfl rfl rfl
  | discard _ d i p => exact h.unlock.discard d i p
  | pause _ hk => exact h.congr rfl rfl rfl rfl rfl rfl
  | iret hk => exact h.congr rfl rfl rfl rfl rfl rfl
  | sctrl _ hk n v => exact (h.setCtrl n v).dropTranslations n
  | interrupt _ b hb i =>
    exact State.UnitsSound.enterInterrupt (hb.keeps (fun _ addr sz pa h => h.lockOn addr sz pa) h) i

theorem State.UnitsSound.atBoundary {s : State} (h : s.UnitsSound) : s.atBoundary.UnitsSound :=
  State.atBoundary_induction (h.congr rfl rfl rfl rfl rfl rfl) (fun _ e _ h => h.tick e) fun _ h => h.performDue _ _ _

/-! ### The hardwired bits -/

theorem State.HardwiredZero.congr {s t : State} (h : s.HardwiredZero) (hctrl : t.ctrl = s.ctrl) : t.HardwiredZero :=
  fun n => by rw [State.getCtrl_congr hctrl]; exact h n

theorem State.HardwiredZero.setCtrl {s : State} (h : s.HardwiredZero) (n : CtrlReg) (v : Word) :
    (s.setCtrl n v).HardwiredZero := by
  intro k
  rw [State.getCtrl_setCtrl]
  split
  case isTrue hk => rw [hk, ctrlMask_idem]
  case isFalse => exact h k

theorem State.HardwiredZero.enterInterrupt {s : State} (h : s.HardwiredZero) (i : Interrupt) :
    (s.enterInterrupt i).HardwiredZero := by
  have hcompleted : s.completed.HardwiredZero := h.congr (by simp)
  have hsaved : (s.saved i).HardwiredZero := by
    unfold State.saved
    cases i.val <;> cases i.pte <;> simp only [State.recordAddress, State.recordPte]
    · exact ((hcompleted.setCtrl _ _).setCtrl _ _).setCtrl _ _
    · exact (((hcompleted.setCtrl _ _).setCtrl _ _).setCtrl _ _).setCtrl _ _
    · exact (((hcompleted.setCtrl _ _).setCtrl _ _).setCtrl _ _).setCtrl _ _
    · exact ((((hcompleted.setCtrl _ _).setCtrl _ _).setCtrl _ _).setCtrl _ _).setCtrl _ _
  rw [State.enterInterrupt_eq]
  exact State.HardwiredZero.setCtrl (hsaved.congr rfl) _ _

theorem State.HardwiredZero.exec {ins : Instr} {s t : State} (h : s.HardwiredZero) (he : ExecEffect s ins t) :
    t.HardwiredZero := by
  cases he with
  | iret hk => exact h.setCtrl ctrlStat (s.getCtrl ctrlIntstat)
  | sctrl _ hk n v => exact h.setCtrl n v
  | interrupt _ b hb i => exact (h.congr hb.pc_ctrl.2).enterInterrupt i
  | pause _ hk => exact h
  | _ => exact h.congr (by simp)

/-! ### Pending accesses in order -/

theorem State.PendingSound.congr {s t : State} (h : s.PendingSound) (hpending : t.pending = s.pending)
    (hplatform : t.platform = s.platform) : t.PendingSound where
  unreordered := by rw [hpending, hplatform]; exact h.unreordered
  inOrder := by unfold State.InOrder; rw [hpending]; exact h.inOrder

theorem State.PendingSound.of_nil {s : State} (h : s.pending = []) : s.PendingSound where
  unreordered _ := h
  inOrder := by unfold State.InOrder; rw [h]; exact List.Pairwise.nil

theorem State.PendingSound.tick {s : State} (h : s.PendingSound) (e : EnvEvent) : (s.tick e).PendingSound where
  unreordered hno := by rw [State.tick_pending, h.unreordered (by simpa using hno)]; rfl
  inOrder := h.inOrder.tick e

theorem State.PendingSound.elapse {s : State} (h : s.PendingSound) (n : Nat) : (s.elapse n).PendingSound :=
  State.elapse_induction (P := State.PendingSound) n s
    (fun s e rest _ h => State.PendingSound.tick (s := { s with env := rest }) (h.congr rfl rfl) e)
    (fun _ _ => .of_nil (by simp)) h

/-- Where nothing is pending and the platform gives no delay, an access has nothing to wait for. -/
theorem State.PendingSound.inTurn {s : State} (h : s.PendingSound) (hno : s.platform.reorders = false) (pa : Word)
    (sz : AccessSize) : s.InTurn pa sz :=
  ⟨.inl hno, fun p hp => absurd (h.unreordered hno ▸ hp) (by simp)⟩

theorem State.PendingSound.issueAfter {s : State} (h : s.PendingSound) {n : Nat} {pa : Word} {sz : AccessSize}
    (hn : s.overlapWait pa (sizeBytes sz) ≤ n ∧ n ≤ s.waitFor pa (sizeBytes sz)) (eff : AccessEffect) :
    (s.issueAfter n pa sz eff).PendingSound where
  unreordered hno := by
    rw [State.issueAfter_platform] at hno
    have hzero : n = 0 := by
      have := (h.inTurn hno pa sz).waitFor
      omega
    subst hzero
    exact (State.performed_pending _ _).trans (h.unreordered hno)
  inOrder := h.inOrder.issueAfter hn.1 eff

theorem State.PendingSound.issue {s : State} (h : s.PendingSound) (pa : Word) (sz : AccessSize) (eff : AccessEffect) :
    (s.issue pa sz eff).PendingSound :=
  h.issueAfter ⟨s.overlapWait_le_waitFor pa _, Nat.le_refl _⟩ eff

theorem State.PendingSound.lockOn {s : State} (h : s.PendingSound) (addr : Word) (sz : AccessSize) (pa : Word) :
    (s.lockOn addr sz pa).PendingSound where
  unreordered hno := by rw [State.lockOn_pending, h.unreordered hno]; rfl
  inOrder := List.Pairwise.map _ (fun _ _ hpq => hpq) h.inOrder

theorem State.PendingSound.exec {ins : Instr} {s t : State} (h : s.PendingSound) (he : ExecEffect s ins t) :
    t.PendingSound := by
  cases he with
  | load _ pa sz r v => exact (h.issue pa sz .load).congr (by simp) (by simp)
  | loadLock p hp r1 r2 r3 imm9 pa addr v =>
    exact ((h.lockOn addr p.2 pa).issue pa p.2 .loadLock).congr (by simp) (by simp)
  | store _ pa sz v => exact h.issue pa sz _
  | storeConditional _ n pa sz hn x r v => exact (h.issueAfter hn (.store x)).congr (by simp) (by simp)
  | waitWrite _ n r v => exact (h.elapse n).congr (by simp) (by simp)
  | wait _ n => exact h.elapse n
  | interrupt _ b hb i => exact .of_nil (by simp)
  | none _ => exact h
  | pause _ hk => exact h.congr rfl rfl
  | _ => exact h.congr (by simp) (by simp)

theorem State.PendingSound.atBoundary {s : State} (h : s.PendingSound) : s.atBoundary.PendingSound :=
  State.atBoundary_induction (h.congr rfl rfl) (fun _ e _ h => h.tick e) fun _ _ => .of_nil (by simp)

end Sys2Proof.Machine

open Sys2Proof Sys2Proof.Machine

/-- Settles O58: the invariant's three parts, on the units, the hardwired bits and the pending accesses, are each kept by the
boundary, by waiting, by interrupt entry and by every effect of an instruction. -/
theorem everyStepKeepsTheInvariant : Obligations.EveryStepKeepsTheInvariant := by
  intro s t hinv hstep
  obtain ⟨hunits, hhardwired, hpending⟩ := s.inv_iff.1 hinv
  rw [State.inv_iff]
  refine step_induction (P := fun s => s.UnitsSound ∧ s.HardwiredZero ∧ s.PendingSound) ?_ ?_ ?_ ?_
    ⟨hunits.atBoundary, hhardwired.congr (by simp), hpending.atBoundary⟩ hstep
  · exact fun s v ⟨hu, hh, hp⟩ => ⟨hu.setPc v, hh.congr rfl, hp.congr rfl rfl⟩
  · exact fun s n ⟨hu, hh, hp⟩ => ⟨hu.elapse n, hh.congr (by simp), hp.elapse n⟩
  · exact fun s i ⟨hu, hh, _⟩ => ⟨hu.enterInterrupt i, hh.enterInterrupt i, .of_nil (by simp)⟩
  · exact fun ins s t ⟨hu, hh, hp⟩ he => ⟨hu.exec he, hh.exec he, hp.exec he⟩

/-- Settles O59: memory and the caches are empty, every control register is 0 and nothing is pending. -/
theorem resetHasTheInvariant : Obligations.ResetHasTheInvariant := by
  have hhardwired : State.reset.HardwiredZero := by unfold State.HardwiredZero; decide
  exact (State.inv_iff _).2 ⟨⟨rfl, fun _ => rfl, fun _ => rfl, fun _ => ⟨rfl, rfl⟩, List.forall_mem_nil _, List.forall_mem_nil _,
    List.forall_mem_nil _, List.forall_mem_nil _⟩, hhardwired, .of_nil rfl⟩

/-- Settles O60: each row of the reset table, read off the reset state. -/
theorem resetIsAllowed : Obligations.ResetIsAllowed where
  pc := ⟨rfl, by decide⟩
  zero := rfl
  stat := by decide
  hardwired := resetHasTheInvariant.hardwired
  lock := rfl
  running := rfl
  caches := ⟨rfl, rfl, rfl, rfl⟩
  pending := rfl
end

section
/-!
PROOFS. Coherence of the d-cache (20_memory.md R57): its copies follow the stores of logical processors, and only a store of an external
agent leaves one behind.
-/
namespace Sys2Proof.Machine

/-- No event to come is a store of an external agent. -/
def State.InternalOnly (s : State) : Prop := ∀ i ∈ s.env, ∀ e ∈ i.events, e.isInternal = true

theorem State.InternalOnly.congr {s t : State} (h : s.InternalOnly) (henv : t.env = s.env) : t.InternalOnly := by
  unfold State.InternalOnly
  rw [henv]
  exact h

/-- The next event is none of an external agent's stores either, and those after it are none. -/
theorem State.InternalOnly.next {s : State} (h : s.InternalOnly) {e : EnvEvent} {rest : List EnvInput}
    (he : nextEvent s.env = some (e, rest)) : e.isInternal = true ∧ State.InternalOnly { s with env := rest } := by
  obtain ⟨_, ⟨i, hi, hie⟩, hrest⟩ := nextEvent_spec he
  refine ⟨h i hi e hie, fun j hj e' he' => ?_⟩
  obtain ⟨k, hk, hke⟩ := hrest j hj e' he'
  exact h k hk e' hke

theorem State.InternalOnly.input {s : State} (h : s.InternalOnly) : ∀ e ∈ s.input.events, e.isInternal = true := by
  unfold State.input
  unfold State.InternalOnly at h
  split
  case h_1 => exact List.forall_mem_nil _
  case h_2 i rest henv => exact h i (by rw [henv]; exact List.mem_cons_self)

theorem State.Coherent.congr {s t : State} (h : s.Coherent) (hmem : t.mem = s.mem) (hdcache : t.dcache = s.dcache) :
    t.Coherent := by
  intro a b hb
  rw [State.memByte_congr hmem]
  exact h a b (hdcache ▸ hb)

/-- Dropping copies leaves those that remain as they were. -/
theorem State.Coherent.of_cachedByte {s t : State} (h : s.Coherent) (hmem : t.mem = s.mem)
    (hdcache : ∀ a, cachedByte t.dcache a = none ∨ cachedByte t.dcache a = cachedByte s.dcache a) : t.Coherent := by
  intro a b hb
  rw [State.memByte_congr hmem]
  rcases hdcache a with hnone | hsame
  · rw [hnone] at hb; cases hb
  · exact h a b (hsame ▸ hb)

/-- A store of a logical processor writes the copy and memory alike. -/
theorem State.Coherent.takeEffect {s : State} (h : s.Coherent) (st : Store) : (s.takeEffect st).Coherent := by
  intro a b hb
  rw [State.takeEffect_dcache, cachedByte_store, Option.map_eq_some_iff] at hb
  obtain ⟨old, hold, rfl⟩ := hb
  rw [State.memByte_takeEffect, h a old hold]

theorem State.Coherent.performed {s : State} (h : s.Coherent) (p : Pending) : (s.performed p).Coherent := by
  unfold State.performed
  split
  · exact h.takeEffect _
  · exact h
  · exact h

theorem State.Coherent.performDue {s : State} (h : s.Coherent) (due : Pending → Bool) (kept l : List Pending) :
    (State.performDue due kept l s).Coherent :=
  State.performDue_induction (P := State.Coherent) (fun _ _ h => h) (fun _ p h => h.performed p) due l kept s h

theorem State.Coherent.afterEvent {s : State} (h : s.Coherent) {e : EnvEvent} (he : e.isInternal = true) :
    (s.afterEvent e).Coherent := by
  cases e with
  | pass => exact h
  | fillD number =>
    simp only [State.afterEvent]
    split
    · intro a b hb
      rw [cachedByte_cons, cachedByte_cacheDrop] at hb
      by_cases hnumber : number = a.toNat / 64
      · rw [if_pos hnumber, read_blockOf _ _ _ hnumber.symm] at hb
        exact (Option.some.inj hb).symm
      · rw [if_neg hnumber, if_neg (fun h => hnumber h.symm)] at hb
        exact h a b hb
    · exact h
  | fillI number fromD =>
    simp only [State.afterEvent]
    split
    · exact h
    · exact h
  | dropD number =>
    refine h.of_cachedByte rfl fun a => ?_
    simp only [State.afterEvent, cachedByte_cacheDrop]
    split
    · exact .inl rfl
    · exact .inr rfl
  | dropI number => exact h
  | remember va =>
    simp only [State.afterEvent]
    split
    · split
      · split <;> exact h
      · exact h
    · exact h
  | forget user page =>
    simp only [State.afterEvent]
    split <;> exact h
  | lpStore st => exact h.takeEffect st
  | extStore st => cases he

theorem State.Coherent.tick {s : State} (h : s.Coherent) {e : EnvEvent} (he : e.isInternal = true) : (s.tick e).Coherent :=
  (h.afterEvent he).performDue _ _ _

/-- Waiting for events none of which is an external agent's store keeps the copies in agreement with memory. -/
theorem State.Coherent.elapse {s : State} (h : s.Coherent) (hi : s.InternalOnly) (n : Nat) :
    (s.elapse n).Coherent ∧ (s.elapse n).InternalOnly := by
  refine State.elapse_induction (P := fun s => s.Coherent ∧ s.InternalOnly) n s ?_ ?_ ⟨h, hi⟩
  · intro s e rest he ⟨h, hi⟩
    obtain ⟨hinternal, hrest⟩ := hi.next he
    exact ⟨State.Coherent.tick (s := { s with env := rest }) h hinternal, hrest.congr (by simp)⟩
  · exact fun s ⟨h, hi⟩ => ⟨h.performDue _ _ _, hi.congr (by simp)⟩

theorem State.Coherent.enterInterrupt {s : State} (h : s.Coherent) (hi : s.InternalOnly) (i : Interrupt) :
    (s.enterInterrupt i).Coherent ∧ (s.enterInterrupt i).InternalOnly := by
  obtain ⟨hc, hci⟩ := h.elapse hi (s.lastDue fun _ => true)
  exact ⟨State.Coherent.congr hc (State.enterInterrupt_mem s i) (State.enterInterrupt_dcache s i),
    State.InternalOnly.congr hci (State.enterInterrupt_env s i)⟩

theorem State.Coherent.issueAfter {s : State} (h : s.Coherent) (n : Nat) (pa : Word) (sz : AccessSize) (eff : AccessEffect) :
    (s.issueAfter n pa sz eff).Coherent := by
  rcases s.issueAfter_cases n pa sz eff with ⟨_, hnow⟩ | ⟨k, _, hqueued⟩
  · rw [hnow]; exact h.performed _
  · rw [hqueued]; exact h

theorem State.Coherent.issue {s : State} (h : s.Coherent) (pa : Word) (sz : AccessSize) (eff : AccessEffect) :
    (s.issue pa sz eff).Coherent := h.issueAfter _ pa sz eff

theorem State.Coherent.discard {s : State} (h : s.Coherent) (d i : Bool) (p : Nat → Bool) : (s.discard d i p).Coherent := by
  refine h.of_cachedByte rfl fun a => ?_
  rw [State.discard_dcache]
  split
  · rw [cachedByte_filter]
    split
    · exact .inl rfl
    · exact .inr rfl
  · exact .inr rfl

theorem State.Coherent.exec {ins : Instr} {s t : State} (h : s.Coherent) (hi : s.InternalOnly) (he : ExecEffect s ins t) :
    t.Coherent ∧ t.InternalOnly := by
  cases he with
  | load _ pa sz r v => exact ⟨(h.issue pa sz .load).congr (by simp) (by simp), hi.congr (by simp)⟩
  | loadLock p hp r1 r2 r3 imm9 pa addr v =>
    have hlocked : (s.lockOn addr p.2 pa).Coherent := h
    exact ⟨(hlocked.issue pa p.2 .loadLock).congr (by simp) (by simp), hi.congr (by simp)⟩
  | store _ pa sz v => exact ⟨h.issue pa sz (.store v), hi.congr (by simp)⟩
  | storeConditional _ n pa sz hn x r v =>
    exact ⟨(h.issueAfter n pa sz (.store x)).congr (by simp) (by simp), hi.congr (by simp)⟩
  | waitWrite _ n r v =>
    obtain ⟨hn, hni⟩ := h.elapse hi n
    exact ⟨hn.congr (by simp) (by simp), hni.congr (by simp)⟩
  | wait _ n => exact h.elapse hi n
  | discard _ d i p => exact ⟨State.Coherent.discard (s := s.unlock) h d i p, hi⟩
  | interrupt _ b hb i =>
    obtain ⟨hbc, hbi⟩ := hb.keeps (P := fun s => s.Coherent ∧ s.InternalOnly) (fun _ _ _ _ h => h) ⟨h, hi⟩
    exact hbc.enterInterrupt hbi i
  | none _ => exact ⟨h, hi⟩
  | pause _ hk => exact ⟨h, hi⟩
  | _ => exact ⟨h.congr (by simp) (by simp), hi.congr (by simp)⟩

theorem State.Coherent.atBoundary {s : State} (h : s.Coherent) (hi : s.InternalOnly) :
    s.atBoundary.Coherent ∧ s.atBoundary.InternalOnly := by
  refine State.atBoundary_induction (P := fun s => s.Coherent ∧ s.InternalOnly) ⟨h, fun i hmem => hi i (List.mem_of_mem_tail hmem)⟩
    ?_ ?_
  · exact fun s' e he ⟨hc, hci⟩ => ⟨hc.tick (hi.input e he), hci.congr (by simp)⟩
  · exact fun s' ⟨hc, hci⟩ => ⟨hc.performDue _ _ _, hci.congr (by simp)⟩

end Sys2Proof.Machine

open Sys2Proof Sys2Proof.Machine

/-- Settles O37: with the inputs to come free of an external agent's stores, the agreement of copies and memory is kept by every event,
by every access that takes effect and by every effect of an instruction. -/
theorem dataCacheStaysCoherent : Obligations.DataCacheStaysCoherent := by
  intro s t hcoherent hinternal hstep
  have hboth : t.Coherent ∧ t.InternalOnly :=
    step_induction (P := fun s => s.Coherent ∧ s.InternalOnly) (fun _ _ h => h) (fun _ n ⟨h, hi⟩ => h.elapse hi n)
      (fun _ i ⟨h, hi⟩ => h.enterInterrupt hi i) (fun _ _ _ ⟨h, hi⟩ he => h.exec hi he)
      (hcoherent.atBoundary hinternal) hstep
  exact hboth.1
end

section
/-!
PROOFS. What a step does (10_state.md R14): that there is always a next state, what the boundary leaves alone, when an interrupt is
entered (60_exceptions.md), and who may change the control registers and lock the lock state.
-/
namespace Sys2Proof.Machine

/-! ### A next state, the platform and the requests -/

theorem exists_step (s : State) : ∃ t, step s = .next t := by
  rcases step_cases s with ⟨_, he⟩ | ⟨_, _, he⟩ | ⟨_, _, ⟨e, _, he⟩ | ⟨w, b, e, _, _, he⟩ | ⟨w, b, ins, _, _, he⟩⟩
  · exact ⟨_, he⟩
  · exact ⟨_, he⟩
  · exact ⟨_, he⟩
  · exact ⟨_, he⟩
  · obtain ⟨t, ht, _⟩ := exec_effect ins (b.setPc (b.pc + 4))
    exact ⟨t, he.trans ht⟩

/-- From `s` to `t` the platform is the same, and the requests for interrupts come at the same steps. -/
def State.SameRequests (s t : State) : Prop :=
  t.platform = s.platform ∧ t.env.map EnvInput.extIrq = s.env.map EnvInput.extIrq

theorem State.SameRequests.trans {s t u : State} (h : s.SameRequests t) (k : t.SameRequests u) : s.SameRequests u :=
  ⟨k.1.trans h.1, k.2.trans h.2⟩

theorem State.SameRequests.of_env {s t : State} (hplatform : t.platform = s.platform) (henv : t.env = s.env) :
    s.SameRequests t := ⟨hplatform, by rw [henv]⟩

theorem State.Waited.sameRequests {s t : State} (h : s.Waited t) : s.SameRequests t := ⟨h.platform.1, h.requests⟩

theorem State.SameRequests.enterInterrupt (s : State) (i : Interrupt) : s.SameRequests (s.enterInterrupt i) :=
  (State.Waited.completed s).sameRequests.trans (.of_env (by simp) (by simp))

theorem ExecEffect.sameRequests {ins : Instr} {s t : State} (he : ExecEffect s ins t) : s.SameRequests t := by
  cases he with
  | waitWrite _ n r v => exact (State.Waited.elapse n s).sameRequests.trans (.of_env (by simp) (by simp))
  | wait _ n => exact (State.Waited.elapse n s).sameRequests
  | interrupt _ b hb i =>
    exact (hb.keeps (P := s.SameRequests) (fun _ _ _ _ h => h) ⟨rfl, rfl⟩).trans (.enterInterrupt b i)
  | none _ => exact ⟨rfl, rfl⟩
  | pause _ hk => exact ⟨rfl, rfl⟩
  | _ => exact .of_env (by simp) (by simp)

theorem step_sameRequests {s t : State} (h : step s = .next t) : s.atBoundary.SameRequests t :=
  step_induction (P := s.atBoundary.SameRequests) (fun _ _ h => h)
    (fun u n h => h.trans (State.Waited.elapse n u).sameRequests) (fun u i h => h.trans (.enterInterrupt u i))
    (fun _ _ _ h he => h.trans he.sameRequests) ⟨rfl, rfl⟩ h

/-! ### The lock state -/

theorem State.atBoundary_lock (s : State) : s.LockKeptOrUnlocked s.atBoundary :=
  State.atBoundary_induction (P := s.LockKeptOrUnlocked) (.inl rfl) (fun u e _ h => h.trans (State.Waited.tick u e).lock)
    fun u h => h.trans (State.Waited.performAll u).lock

theorem State.LockKeptOrUnlocked.locked {s t : State} (h : s.LockKeptOrUnlocked t) (ht : t.lock.locked = true) :
    s.lock.locked = true := by
  rcases h with hkept | hunlocked
  · exact hkept ▸ ht
  · rw [hunlocked] at ht; cases ht

theorem State.issueAfter_lock (s : State) (n : Nat) (pa : Word) (sz : AccessSize) (eff : AccessEffect) :
    s.LockKeptOrUnlocked (s.issueAfter n pa sz eff) := by
  rcases s.issueAfter_cases n pa sz eff with ⟨_, hnow⟩ | ⟨k, _, hqueued⟩
  · rw [hnow]; exact State.performed_lock s _
  · rw [hqueued]; exact .inl rfl

/-- An instruction after which the lock state is locked is a load-lock, or found it locked. -/
theorem ExecEffect.locked {ins : Instr} {s t : State} (he : ExecEffect s ins t) (ht : t.lock.locked = true) :
    s.lock.locked = true ∨ ∃ p ∈ loadLocks, ∃ r1 r2 r3 imm9, ins = p.1 r1 r2 r3 imm9 := by
  cases he with
  | loadLock p hp r1 r2 r3 imm9 pa addr v => exact .inr ⟨p, hp, r1, r2, r3, imm9, rfl⟩
  | load _ pa sz r v => exact .inl ((s.issueAfter_lock _ pa sz .load).locked (by simpa [State.issue] using ht))
  | store _ pa sz v => exact .inl ((s.issueAfter_lock _ pa sz (.store v)).locked ht)
  | waitWrite _ n r v => exact .inl ((State.Waited.elapse n s).lock.locked (by simpa using ht))
  | wait _ n => exact .inl ((State.Waited.elapse n s).lock.locked ht)
  | storeConditional _ n pa sz hn x r v => simp at ht
  | unlock _ => simp at ht
  | discard _ d i p => simp at ht
  | iret hk => simp at ht
  | interrupt _ b hb i => simp at ht
  | none _ => exact .inl ht
  | pause _ hk => exact .inl ht
  | _ => exact .inl (by simpa using ht)

/-! ### The word fetched -/

/-- A fetch that succeeds has waited, and no more. -/
theorem State.Waited.fetchWord {s b : State} {addr : Word} {w : InstrWord} (h : s.fetchWord addr = .ok (w, b)) : s.Waited b := by
  obtain ⟨pa, _, rfl, _⟩ := State.fetchWord_eq_ok h
  exact .fetchPoint s pa

theorem State.fetchWord_pc {s b : State} {addr : Word} {w : InstrWord} (h : s.fetchWord addr = .ok (w, b)) : b.pc = s.pc := by
  obtain ⟨_, hpc, _⟩ := (State.Waited.fetchWord h).control
  exact hpc

theorem State.fetchWord_ctrl {s b : State} {addr : Word} {w : InstrWord} (h : s.fetchWord addr = .ok (w, b)) :
    b.ctrl = s.ctrl := by
  obtain ⟨_, _, hctrl, _⟩ := (State.Waited.fetchWord h).control
  exact hctrl

/-! ### User mode -/

theorem State.statU_congr {s t : State} (h : t.ctrl = s.ctrl) : t.statU = s.statU := by
  unfold State.statU
  rw [State.getCtrl_congr h]

theorem State.statE_congr {s t : State} (h : t.ctrl = s.ctrl) : t.statE = s.statE := by
  unfold State.statE
  rw [State.getCtrl_congr h]

/-- In user mode an instruction leaves the control registers alone, or enters an interrupt. -/
theorem ExecEffect.user_ctrl {ins : Instr} {s t : State} (he : ExecEffect s ins t) (hu : s.statU = true) :
    t.ctrl = s.ctrl ∨ ∃ (b : State) (i : Interrupt), b.ctrl = s.ctrl ∧ t = b.enterInterrupt i := by
  cases he with
  | interrupt _ b hb i => exact .inr ⟨b, i, hb.pc_ctrl.2, rfl⟩
  | iret hk => exact absurd (hu.symm.trans hk) (by decide)
  | sctrl _ hk n v => exact absurd (hu.symm.trans hk) (by decide)
  | none _ => exact .inl rfl
  | pause _ hk => exact .inl rfl
  | _ => exact .inl (by simp)

theorem step_user_ctrl {s t : State} (hu : s.statU = true) (h : step s = .next t) :
    t.ctrl = s.ctrl ∨ ∃ (b : State) (i : Interrupt), b.ctrl = s.ctrl ∧ t = b.enterInterrupt i := by
  rcases step_cases s with ⟨_, he⟩ | ⟨_, _, he⟩ | ⟨_, _, ⟨e, _, he⟩ | ⟨w, b, e, hf, _, he⟩ | ⟨w, b, ins, hf, _, he⟩⟩ <;>
    rw [he] at h
  · cases h; exact .inr ⟨_, _, by simp, rfl⟩
  · cases h; exact .inl (by simp)
  · cases h; exact .inr ⟨_, _, by simp, rfl⟩
  · cases h; exact .inr ⟨_, _, by simpa using State.fetchWord_ctrl hf, rfl⟩
  · have hctrl : (b.setPc (b.pc + 4)).ctrl = s.ctrl := by simpa using State.fetchWord_ctrl hf
    rcases (effect_of_exec h).user_ctrl ((State.statU_congr hctrl).trans hu) with hsame | ⟨u, i, huctrl, ht⟩
    · exact .inl (hsame.trans hctrl)
    · exact .inr ⟨u, i, huctrl.trans hctrl, ht⟩

/-! ### Fetches that fail -/

theorem and_three_eq_zero_iff (a : Word) : a &&& 3 = 0 ↔ a.toNat % 4 = 0 := by
  rw [← BitVec.toNat_inj, BitVec.toNat_and]
  show a.toNat &&& (2 ^ 2 - 1) = 0 ↔ _
  rw [Nat.and_two_pow_sub_one_eq_mod]

theorem State.aligned_fetch_iff {s : State} {addr : Word} : s.aligned addr .half .fetch = true ↔ addr &&& 3 = 0 :=
  State.aligned_fetch.trans (and_three_eq_zero_iff addr).symm

theorem State.accessAddr_unaligned {s : State} {addr : Word} {sz : AccessSize} {kind : Access}
    (h : ¬ s.aligned addr sz kind = true) :
    s.accessAddr addr sz kind = .error (addressInterrupt (unalignedCause kind) addr) := by
  unfold State.accessAddr
  rw [if_neg h]

theorem State.accessAddr_aligned {s : State} {addr : Word} {sz : AccessSize} {kind : Access}
    (h : s.aligned addr sz kind = true) : s.accessAddr addr sz kind = s.translate addr kind := by
  unfold State.accessAddr
  rw [if_pos h]

theorem State.fetchWord_of_accessAddr_error {s : State} {addr : Word} {i : Interrupt}
    (h : s.accessAddr addr .half .fetch = .error i) : s.fetchWord addr = .error i := by
  unfold State.fetchWord
  rw [h]

theorem State.fetchWord_refused {s : State} {addr pa : Word} (h : s.accessAddr addr .half .fetch = .ok pa)
    (hbus : s.busOk pa .half .fetch = false) : s.fetchWord addr = .error (addressInterrupt .busx addr) := by
  unfold State.fetchWord
  simp only [h, hbus, Bool.false_eq_true, if_false]

/-- A running processor whose fetch fails enters the interrupt of the fetch, with `pc` still its address. -/
theorem step_of_fetch_error {s : State} {i : Interrupt} (hext : s.takesExternal = false)
    (hrun : s.atBoundary.paused = false) (h : s.atBoundary.fetchWord s.atBoundary.pc = .error i) :
    step s = .next (s.atBoundary.enterInterrupt i) := by
  unfold step State.fetchExecute
  rw [hext, hrun, h]
  rfl

/-- A running processor whose fetch succeeds executes the word. -/
theorem step_of_fetch_ok {s b : State} {w : InstrWord} (hext : s.takesExternal = false)
    (hrun : s.atBoundary.paused = false) (h : s.atBoundary.fetchWord s.atBoundary.pc = .ok (w, b)) :
    step s = b.executeWord w := by
  unfold step State.fetchExecute
  rw [hext, hrun, h]
  rfl

end Sys2Proof.Machine

open Sys2Proof Sys2Proof.Machine

/-- Settles O48: the entry itself; and what it waits for changes no register, and is nothing where nothing is pending. -/
theorem interruptEntry : Obligations.InterruptEntry := fun s i =>
  ⟨s.enterInterrupt_entered i, State.completed_gpr s, State.completed_pc s, State.completed_ctrl s, State.completed_of_nil⟩

/-- Settles O50: the boundary's events leave the registers alone, so the `E` that decides is the one from before them. -/
theorem externalInterruptsAtBoundaries : Obligations.ExternalInterruptsAtBoundaries := by
  intro s
  have hstatE : s.atBoundary.statE = s.statE := State.statE_congr (by simp)
  refine ⟨⟨by simp, by simp, by simp, by simp, by simp, s.atBoundary_lock, by simp⟩, fun hreq hon => ?_, fun hno hpaused => ?_⟩
  · have htakes : s.takesExternal = true := by rw [State.takesExternal, hreq, hstatE, hon]; rfl
    refine ⟨_, ?_, s.atBoundary.enterInterrupt_entered (plainInterrupt .externl)⟩
    rw [step, if_pos htakes]
    rfl
  · have htakes : ¬ s.takesExternal = true := by
      rw [State.takesExternal, hstatE]
      rcases hno with hreq | hoff
      · simp [hreq]
      · simp [hoff]
    have hstays : s.atBoundary.paused = true := by simpa using hpaused
    rw [step, if_neg htakes, if_pos hstays]

/-- Settles O51: the fetch leaves `pc` alone, so the instruction runs with `pc` 4 past the address fetched from. -/
theorem stepRunsTheDecodedInstruction : Obligations.StepRunsTheDecodedInstruction := by
  intro s b w ins hext hrun hfetch hdecode
  rw [step_of_fetch_ok hext hrun hfetch, State.executeWord, hdecode, State.fetchWord_pc hfetch]
  rfl

/-- Settles O53: a word whose low byte is in no row does not decode, and then INVALID is entered with `pc` past it. -/
theorem noInstructionRaises : Obligations.NoInstructionRaises := by
  intro s b w hext hrun hfetch hlow
  obtain ⟨e, hdecode⟩ := decodeWord_of_not_listed hlow
  refine ⟨_, ?_, State.enterInterrupt_entered _ (plainInterrupt .invalid)⟩
  rw [step_of_fetch_ok hext hrun hfetch, State.executeWord, hdecode, State.fetchWord_pc hfetch]
  rfl

/-- Settles O54: the three checks of a fetch, in their order; the interrupt of each is entered from the boundary. -/
theorem failedFetchesRaise : Obligations.FailedFetchesRaise := by
  intro s hext hrun b
  have hraise {i : Interrupt} (h : b.fetchWord b.pc = .error i) :
      ∃ t, step s = .next t ∧ b.completed.Entered t (causeNumber i.cause).val i.val i.pte :=
    ⟨_, step_of_fetch_error hext hrun h, b.enterInterrupt_entered i⟩
  refine ⟨fun hodd => ?_, fun i heven htrans => ?_, fun pa heven htrans hbus => ?_⟩
  · have halign : ¬ b.aligned b.pc .half .fetch = true := fun h => hodd (State.aligned_fetch_iff.1 h)
    exact hraise (State.fetchWord_of_accessAddr_error (State.accessAddr_unaligned halign))
  · rw [← State.accessAddr_aligned (State.aligned_fetch_iff.2 heven)] at htrans
    exact hraise (State.fetchWord_of_accessAddr_error htrans)
  · rw [← State.accessAddr_aligned (State.aligned_fetch_iff.2 heven)] at htrans
    exact hraise (State.fetchWord_refused htrans hbus)

/-- Settles O55: every branch of the step gives a next state; the boundary uses one input up, and the rest only waits. -/
theorem everyStepGoesOn : Obligations.EveryStepGoesOn := by
  intro s
  obtain ⟨t, ht⟩ := exists_step s
  obtain ⟨hplatform, hrequests⟩ := step_sameRequests ht
  exact ⟨t, ht, by simpa using hplatform, by simpa using hrequests⟩

/-- Settles O56: the privileged effects need kernel mode, so what is left that writes a control register is interrupt entry. -/
theorem userModeKeepsControlRegisters : Obligations.UserModeKeepsControlRegisters := by
  intro s t hu hstep
  rcases step_user_ctrl hu hstep with hctrl | ⟨b, i, hctrl, rfl⟩
  · exact .inl ⟨hctrl, (State.statU_congr hctrl).trans hu⟩
  · exact .inr ⟨b.completed, i.cause, i.val, i.pte, by simpa using hctrl, b.enterInterrupt_entered i⟩

/-- Settles O57: waiting at most unlocks and interrupt entry unlocks, so a lock that was not there before is the work of the
instruction, and a load-lock's alone. -/
theorem onlyLoadLocksLock : Obligations.OnlyLoadLocksLock := by
  intro s t hstep hlocked
  rcases step_cases s with ⟨_, he⟩ | ⟨_, _, he⟩ | ⟨_, _, ⟨e, _, he⟩ | ⟨w, b, e, _, _, he⟩ | ⟨w, b, ins, hf, hdecode, he⟩⟩ <;>
    rw [he] at hstep
  · cases hstep; simp at hlocked
  · cases hstep; exact .inl (s.atBoundary_lock.locked hlocked)
  · cases hstep; simp at hlocked
  · cases hstep; simp at hlocked
  · rcases (effect_of_exec hstep).locked hlocked with hb | ⟨p, hp, r1, r2, r3, imm9, rfl⟩
    · exact .inl ((s.atBoundary_lock.trans (State.Waited.fetchWord hf).lock).locked hb)
    · exact .inr ⟨w, b, hf, p, hp, r1, r2, r3, imm9, hdecode⟩
end

section
/-!
PROOFS. Instruction fetch (20_memory.md R43, R46, R69): the word that four bytes make, and the state in which they are read.
-/
namespace Sys2Proof.Machine

/-- Four bytes assembled little-endian, as an instruction word (30_encoding.md R90). -/
theorem assemble_four (f : Word → Byte) (pa : Word) :
    (assemble f pa 4).setWidth 32 = wordOfBytes (f pa) (f (pa + 1)) (f (pa + 2)) (f (pa + 3)) := by
  apply BitVec.eq_of_getLsbD_eq
  intro k hk
  have hbyte : ((assemble f pa 4).setWidth 32).getLsbD k = (f (pa + BitVec.ofNat 64 (k / 8))).getLsbD (k % 8) := by
    rw [BitVec.getLsbD_setWidth, getLsbD_assemble _ _ _ _ (by omega), if_pos (by omega)]
    simp [hk]
  rw [hbyte, wordOfBytes, BitVec.getLsbD_append (m := 8), BitVec.getLsbD_append (m := 8), BitVec.getLsbD_append (m := 8)]
  have hlt : k / 8 < 4 := by omega
  split
  · rw [show k / 8 = 0 by omega, show k % 8 = k by omega]; simp
  · split
    · rw [show k / 8 = 1 by omega, show k % 8 = k - 8 by omega]; rfl
    · split
      · rw [show k / 8 = 2 by omega, show k % 8 = k - 8 - 8 by omega]; rfl
      · rw [show k / 8 = 3 by omega, show k % 8 = k - 8 - 8 - 8 by omega]; rfl

/-- The byte that a pending store writes lies in a store that overlaps every access to that byte. -/
theorem Pending.overlaps_of_byteAt {p : Pending} {a pa : Word} {n : Nat} {b : Byte} (hb : p.byteAt a = some b)
    (ha : (a - pa).toNat < n) : p.isStore = true ∧ p.overlaps pa n = true := by
  refine ⟨?_, overlaps_of_mem (Pending.lt_of_byteAt hb) ha⟩
  unfold Pending.byteAt at hb
  unfold Pending.isStore
  split at hb
  case h_1 => rfl
  case h_2 => cases hb
  case h_3 => cases hb

/-- Where no store over the bytes of an access is pending, none to one of its bytes is. -/
theorem pendingByte_eq_none_of_clear {l : List Pending} {a pa : Word} {n : Nat} (ha : (a - pa).toNat < n)
    (hclear : ∀ p ∈ l, p.isStore = true → p.overlaps pa n = false) : pendingByte l a = none := by
  rw [pendingByte_eq_none]
  intro p hp
  by_contra hsome
  obtain ⟨b, hb⟩ := Option.ne_none_iff_exists'.1 hsome
  obtain ⟨hstore, hover⟩ := Pending.overlaps_of_byteAt hb ha
  exact absurd ((hclear p hp hstore).symm.trans hover) (by decide)

theorem State.fetchPoint_eq_elapse (s : State) (pa : Word) : ∃ n, s.fetchPoint pa = s.elapse n := by
  unfold State.fetchPoint
  split
  · exact ⟨0, rfl⟩
  · exact ⟨_, rfl⟩

/-- Without an i-cache the fetch waits until no store to its bytes is pending. -/
theorem State.fetchPoint_clear {s : State} (hno : s.platform.hasIcache = false) (pa : Word) :
    ∀ p ∈ (s.fetchPoint pa).pending, p.isStore = true → p.overlaps pa 4 = false := by
  intro p hp hstore
  unfold State.fetchPoint at hp
  simp only [hno, Bool.false_eq_true, if_false] at hp
  have hsel := State.elapse_lastDue s (fun p => p.isStore && p.overlaps pa 4) (fun _ _ => rfl) p hp
  simpa [hstore] using hsel

theorem State.fetchPoint_of_clear {s : State} {pa : Word}
    (hclear : ∀ p ∈ s.pending, p.isStore = true → p.overlaps pa 4 = false) : s.fetchPoint pa = s := by
  have hnone : s.lastDue (fun p => p.isStore && p.overlaps pa 4) = 0 := by
    refine State.lastDue_eq_zero fun p hp => ?_
    cases hstore : p.isStore
    · rfl
    · exact hclear p hp hstore
  unfold State.fetchPoint
  rw [hnone]
  split <;> rfl

/-- Without an i-cache a fetch sees memory. -/
theorem State.fetchByte_of_noIcache {s : State} (hno : s.platform.hasIcache = false) (a : Word) :
    s.fetchByte a = s.memByte a := by
  rw [State.fetchByte_eq, hno]
  rfl

/-- Where a fetch reads without an i-cache, an undisturbed byte has what the newest earlier store wrote. -/
theorem State.fetchByte_fetchPoint {s : State} {a pa : Word} (hno : s.platform.hasIcache = false) (horder : s.InOrder)
    (ha : (a - pa).toNat < 4) (hundisturbed : s.Undisturbed a) :
    (s.fetchPoint pa).fetchByte a = (pendingByte s.pending a).getD (s.memByte a) := by
  obtain ⟨n, hn⟩ := s.fetchPoint_eq_elapse pa
  have hnewest := State.newest_elapse n s horder hundisturbed
  rw [← hn, pendingByte_eq_none_of_clear ha (State.fetchPoint_clear hno pa)] at hnewest
  rw [State.fetchByte_of_noIcache (by simpa using hno)]
  exact hnewest

end Sys2Proof.Machine

open Sys2Proof Sys2Proof.Machine

/-- Settles O52: a fetch that passes its checks assembles four bytes of the one state in which it reads; waiting for that state leaves
the newest store to each byte in memory. -/
theorem fetchReadsFourBytes : Obligations.FetchReadsFourBytes := by
  intro s addr pa heven htrans hbus
  refine ⟨s.fetchPoint pa, ?_, s.fetchPoint_eq_elapse pa, .fetchPoint s pa, fun hhas => ?_, fun hno => ?_,
    State.fetchPoint_of_clear⟩
  · rw [State.fetchWord_ok (State.aligned_fetch_iff.2 heven) htrans hbus, assemble_four]
  · rw [State.fetchPoint, if_pos hhas]
  · exact ⟨State.fetchPoint_clear hno pa, fun horder a ha hundisturbed => State.fetchByte_fetchPoint hno horder ha hundisturbed⟩
end

section
/-!
PROOFS. Arithmetic (43_arithmetic.md R150 to R168): each result as a number, unsigned or signed, and its low or high 64 bits.
-/
namespace Sys2Proof.Machine

/-! ### Operands as numbers -/

theorem ofInt_toNat {n : Nat} (v : BitVec n) : BitVec.ofInt n v.toNat = v := by
  rw [BitVec.ofInt_natCast, BitVec.ofNat_toNat, BitVec.setWidth_eq]

theorem zext_eq_ofInt {n : Nat} (v : BitVec n) : zext v = BitVec.ofInt 64 v.toNat := by
  rw [BitVec.ofInt_natCast, BitVec.ofNat_toNat]
  rfl

theorem sext_eq_ofInt {n : Nat} (v : BitVec n) : sext v = BitVec.ofInt 64 v.toInt := rfl

theorem ofInt_sub_ofInt (n : Nat) (x y : Int) : BitVec.ofInt n (x - y) = BitVec.ofInt n x - BitVec.ofInt n y := by
  rw [Int.sub_eq_add_neg, BitVec.ofInt_add, BitVec.ofInt_neg, BitVec.sub_eq_add_neg]

/-- A right operand extended with zeros, before it is reduced. -/
theorem State.plusZext_eq_ofInt (s : State) (r3 : Reg) (imm9 : BitVec 9) :
    s.plusZext r3 imm9 = BitVec.ofInt 64 ((s.getReg r3).toNat + imm9.toNat) := by
  rw [BitVec.ofInt_add, ofInt_toNat, ← zext_eq_ofInt]
  rfl

/-- A right operand extended with the sign, before it is reduced. -/
theorem State.plusSext_eq_ofInt (s : State) (r3 : Reg) (imm9 : BitVec 9) :
    s.plusSext r3 imm9 = BitVec.ofInt 64 ((s.getReg r3).toInt + imm9.toInt) := by
  rw [BitVec.ofInt_add, BitVec.ofInt_toInt, ← sext_eq_ofInt]
  rfl

/-! ### Sums and products -/

theorem writes_add (r1 r2 r3 : Reg) (imm9 : BitVec 9) (s : State) :
    Writes (.add r1 r2 r3 imm9) s r1
      (BitVec.ofInt 64 ((s.getReg r2).toNat + ((s.getReg r3).toNat + imm9.toNat))) := by
  rw [BitVec.ofInt_add, ofInt_toNat, ← s.plusZext_eq_ofInt]
  exact .of_exec rfl

theorem writes_sub (r1 r2 r3 : Reg) (imm9 : BitVec 9) (s : State) :
    Writes (.sub r1 r2 r3 imm9) s r1
      (BitVec.ofInt 64 ((s.getReg r2).toNat - ((s.getReg r3).toNat + imm9.toNat))) := by
  rw [ofInt_sub_ofInt, ofInt_toNat, ← s.plusZext_eq_ofInt]
  exact .of_exec rfl

theorem writes_mul (r1 r2 r3 : Reg) (imm9 : BitVec 9) (s : State) :
    Writes (.mul r1 r2 r3 imm9) s r1
      (BitVec.ofInt 64 ((s.getReg r2).toInt * ((s.getReg r3).toInt + imm9.toInt))) := by
  rw [BitVec.ofInt_mul, BitVec.ofInt_toInt, ← s.plusSext_eq_ofInt]
  exact .of_exec rfl

theorem writes_addi (r1 r2 : Reg) (imm14 : BitVec 14) (s : State) :
    Writes (.addi r1 r2 imm14) s r1 (BitVec.ofInt 64 ((s.getReg r2).toNat + imm14.toNat)) := by
  rw [BitVec.ofInt_add, ofInt_toNat, ← zext_eq_ofInt]
  exact .of_exec rfl

theorem writes_subi (r1 r2 : Reg) (imm14 : BitVec 14) (s : State) :
    Writes (.subi r1 r2 imm14) s r1 (BitVec.ofInt 64 ((s.getReg r2).toNat - imm14.toNat)) := by
  rw [ofInt_sub_ofInt, ofInt_toNat, ← zext_eq_ofInt]
  exact .of_exec rfl

theorem writes_muli (r1 r2 : Reg) (imm14 : BitVec 14) (s : State) :
    Writes (.muli r1 r2 imm14) s r1 (BitVec.ofInt 64 ((s.getReg r2).toInt * imm14.toInt)) := by
  rw [BitVec.ofInt_mul, BitVec.ofInt_toInt, ← sext_eq_ofInt]
  exact .of_exec rfl

/-! ### The upper halves of products -/

/-- The unsigned product of two words fits 128 bits. -/
theorem unsignedProductHigh_eq (a b : Word) :
    unsignedProductHigh a b = (a.setWidth 128 * b.setWidth 128).extractLsb' 64 64 := by
  have hfits : a.toNat * b.toNat < 2 ^ 128 :=
    calc a.toNat * b.toNat < 2 ^ 64 * 2 ^ 64 := Nat.mul_lt_mul'' a.isLt b.isLt
      _ = 2 ^ 128 := rfl
  apply BitVec.eq_of_toNat_eq
  rw [unsignedProductHigh, BitVec.toNat_ofNat, BitVec.extractLsb'_toNat, BitVec.toNat_mul,
    BitVec.toNat_setWidth_of_le (by decide), BitVec.toNat_setWidth_of_le (by decide), Nat.mod_eq_of_lt hfits,
    Nat.shiftRight_eq_div_pow]

/-- Bits 127 to 64 of an integer, taken from its low 128 bits. -/
theorem extract_high_ofInt (p : Int) : (BitVec.ofInt 128 p).extractLsb' 64 64 = BitVec.ofInt 64 (p / 2 ^ 64) := by
  apply BitVec.eq_of_toNat_eq
  rw [BitVec.extractLsb'_toNat, BitVec.toNat_ofInt, BitVec.toNat_ofInt, Nat.shiftRight_eq_div_pow]
  omega

theorem signedProductHigh_eq (a b : Word) :
    signedProductHigh a b = (a.signExtend 128 * b.signExtend 128).extractLsb' 64 64 := by
  have hproduct : a.signExtend 128 * b.signExtend 128 = BitVec.ofInt 128 (a.toInt * b.toInt) := (BitVec.ofInt_mul _ _).symm
  rw [hproduct, extract_high_ofInt]
  rfl

/-! ### Division -/

theorem toNat_unsignedQuotient {a b : Word} (hb : b ≠ 0) : (unsignedQuotient a b).toNat = a.toNat / b.toNat := by
  rw [unsignedQuotient, if_neg hb, BitVec.toNat_ofNat]
  exact Nat.mod_eq_of_lt (Nat.lt_of_le_of_lt (Nat.div_le_self _ _) a.isLt)

theorem toNat_unsignedRemainder {a b : Word} (hb : b ≠ 0) : (unsignedRemainder a b).toNat = a.toNat % b.toNat := by
  rw [unsignedRemainder, if_neg hb, BitVec.toNat_ofNat]
  exact Nat.mod_eq_of_lt (Nat.lt_of_le_of_lt (Nat.mod_le _ _) a.isLt)

theorem unsignedDivides (a b : Word) : UnsignedDivides a b (unsignedQuotient a b) (unsignedRemainder a b) := by
  refine ⟨fun hb => ?_, fun hb => ?_⟩
  · rw [unsignedQuotient, unsignedRemainder, if_pos hb, if_pos hb]
    decide
  · have hpos : 0 < b.toNat := Nat.pos_of_ne_zero fun h => hb (BitVec.eq_of_toNat_eq h)
    rw [toNat_unsignedQuotient hb, toNat_unsignedRemainder hb]
    exact ⟨(Nat.div_add_mod _ _).symm, Nat.mod_lt _ hpos⟩

theorem toInt_ofInt_of_bounds {p : Int} (hlo : -2 ^ 63 ≤ p) (hhi : p < 2 ^ 63) : (BitVec.ofInt 64 p).toInt = p :=
  BitVec.toInt_ofInt_eq_self (by decide) hlo hhi

/-- A quotient of 2^63 is that of -2^63 by -1. -/
theorem tdiv_eq_two_pow_63 {a b : Int} (ha : a.natAbs ≤ 2 ^ 63) (hq : a.tdiv b = 2 ^ 63) (hhi : a < 2 ^ 63) :
    a = -2 ^ 63 ∧ b = -1 := by
  have habs : a.natAbs / b.natAbs = 2 ^ 63 := by
    have := Int.natAbs_tdiv a b
    rw [hq] at this
    exact this.symm
  have ha' : a = -2 ^ 63 := by
    have := Nat.div_le_self a.natAbs b.natAbs
    omega
  have hb : b.natAbs < 2 := by
    by_contra hbig
    have := Nat.div_le_div_left (a := a.natAbs) (Nat.not_lt.mp hbig) (by decide)
    omega
  refine ⟨ha', ?_⟩
  have hcases : b = -1 ∨ b = 0 ∨ b = 1 := by omega
  rcases hcases with hb | hb | hb
  · exact hb
  · rw [hb, Int.tdiv_zero] at hq
    omega
  · rw [hb, Int.tdiv_one] at hq
    omega

/-- Only -2^63 by -1 has a quotient that 64 bits do not hold. -/
theorem toInt_signedQuotient {a b : Word} (hb : b ≠ 0) (hmin : ¬ (b = -1 ∧ a = BitVec.intMin 64)) :
    (signedQuotient a b).toInt = a.toInt.tdiv b.toInt := by
  rw [signedQuotient, if_neg hb]
  have ha_lo : -2 ^ 63 ≤ a.toInt := a.le_toInt
  have ha_hi : a.toInt < 2 ^ 63 := BitVec.toInt_lt
  have habs := Int.natAbs_tdiv_le_natAbs a.toInt b.toInt
  have hne : a.toInt.tdiv b.toInt ≠ 2 ^ 63 := by
    intro hq
    obtain ⟨ha, hb⟩ := tdiv_eq_two_pow_63 (by omega) hq ha_hi
    exact hmin ⟨BitVec.eq_of_toInt_eq hb, BitVec.eq_of_toInt_eq ha⟩
  exact toInt_ofInt_of_bounds (by omega) (by omega)

theorem toInt_ne_zero {b : Word} (hb : b ≠ 0) : b.toInt ≠ 0 := fun h => hb (BitVec.eq_of_toInt_eq h)

/-- The remainder is smaller than the divisor. -/
theorem natAbs_tmod_lt (a : Int) {b : Int} (hb : b ≠ 0) : (a.tmod b).natAbs < b.natAbs := by
  rw [Int.natAbs_tmod]
  exact Nat.mod_lt _ (Int.natAbs_pos.mpr hb)

theorem toInt_signedRemainder {a b : Word} (hb : b ≠ 0) : (signedRemainder a b).toInt = a.toInt.tmod b.toInt := by
  rw [signedRemainder, if_neg hb]
  have hb_lo : -2 ^ 63 ≤ b.toInt := b.le_toInt
  have hb_hi : b.toInt < 2 ^ 63 := BitVec.toInt_lt
  have hlt := natAbs_tmod_lt a.toInt (toInt_ne_zero hb)
  exact toInt_ofInt_of_bounds (by omega) (by omega)

/-- The remainder has the sign of the dividend, or is 0. -/
theorem tmod_sign (a b : Int) : a.tmod b = 0 ∨ (a.tmod b < 0 ↔ a < 0) := by
  have hsign := Int.sign_tmod a b
  split at hsign
  · exact .inl (Int.sign_eq_zero_iff_zero.mp hsign)
  · exact .inr (by rw [← Int.sign_eq_neg_one_iff_neg, hsign, Int.sign_eq_neg_one_iff_neg])

theorem signedDivides (a b : Word) : SignedDivides a b (signedQuotient a b) (signedRemainder a b) := by
  refine ⟨fun hb => ?_, fun ⟨hb, ha⟩ => ?_, fun hb hmin => ?_⟩
  · rw [signedQuotient, signedRemainder, if_pos hb, if_pos hb]
    decide
  · rw [hb, ha]
    decide
  · rw [toInt_signedQuotient hb hmin, toInt_signedRemainder hb]
    exact ⟨(Int.mul_tdiv_add_tmod _ _).symm, natAbs_tmod_lt _ (toInt_ne_zero hb), tmod_sign _ _⟩

end Sys2Proof.Machine

open Sys2Proof Sys2Proof.Machine

/-- Settles O6: extension keeps the integer that an immediate stands for, and reduction to 64 bits goes through sums and products. -/
theorem sumsAndProductsAreModular : Obligations.SumsAndProductsAreModular := fun s r1 r2 r3 imm9 imm14 =>
  ⟨writes_add r1 r2 r3 imm9 s, writes_sub r1 r2 r3 imm9 s, writes_mul r1 r2 r3 imm9 s, writes_addi r1 r2 imm14 s,
    writes_subi r1 r2 imm14 s, writes_muli r1 r2 imm14 s⟩

/-- Settles O7: the exact product and the 128-bit one agree on bits 127 to 64. -/
theorem highProductsAreUpperHalves : Obligations.HighProductsAreUpperHalves := by
  intro s r1 r2 r3 imm9
  rw [← unsignedProductHigh_eq, ← signedProductHigh_eq]
  exact ⟨.of_exec rfl, .of_exec rfl⟩

/-- Settles O8: each pair of instructions writes the quotient and the remainder of one unsigned division. -/
theorem unsignedDivision : Obligations.UnsignedDivision := fun s _ r2 r3 imm9 imm14 =>
  ⟨⟨_, _, .of_exec rfl, .of_exec rfl, unsignedDivides (s.getReg r2) (s.plusZext r3 imm9)⟩,
    ⟨_, _, .of_exec rfl, .of_exec rfl, unsignedDivides (s.getReg r2) (zext imm14)⟩⟩

/-- Settles O9: each pair of instructions writes the quotient and the remainder of one signed division; the quotient that 64 bits do
not hold is the second clause's. -/
theorem signedDivision : Obligations.SignedDivision := fun s _ r2 r3 imm9 imm14 =>
  ⟨⟨_, _, .of_exec rfl, .of_exec rfl, signedDivides (s.getReg r2) (s.plusSext r3 imm9)⟩,
    ⟨_, _, .of_exec rfl, .of_exec rfl, signedDivides (s.getReg r2) (sext imm14)⟩⟩
end

section
/-!
PROOFS. Bitwise logic (44_bitwise.md R179 to R191): where each bit of a shift, rotation, field, reversal, extract or deposit comes
from, and what the counts count.
-/
namespace Sys2Proof.Machine

/-! ### Shifts and rotations -/

/-- The amount of a shift or rotation: the sum modulo 64 (44_bitwise.md R170). -/
theorem State.shiftAmount_eq (s : State) (r3 : Reg) (imm9 : BitVec 9) :
    s.shiftAmount r3 imm9 = ((s.getReg r3).toNat + imm9.toNat) % 64 := by
  rw [State.shiftAmount, BitVec.toNat_and, BitVec.toNat_add, toNat_zext (by decide)]
  show _ &&& (2 ^ 6 - 1) = _
  rw [Nat.and_two_pow_sub_one_eq_mod]
  omega

theorem getLsbD_shiftLeft_word (x : Word) (n : Nat) {k : Nat} (hk : k < 64) :
    (x <<< n).getLsbD k = (decide (n ≤ k) && x.getLsbD (k - n)) := by
  rw [BitVec.getLsbD_shiftLeft]
  by_cases hn : n ≤ k
  · simp [hk, hn, Nat.not_lt.mpr hn]
  · simp [hn, Nat.not_le.mp hn]

theorem getLsbD_shiftRight_word (x : Word) (n k : Nat) : (x >>> n).getLsbD k = x.getLsbD (k + n) := by
  rw [BitVec.getLsbD_ushiftRight, Nat.add_comm]

/-- A signed shift keeps the highest bit. -/
theorem getLsbD_sshiftRight_word (x : Word) (n : Nat) {k : Nat} (hk : k < 64) :
    (x.sshiftRight n).getLsbD k = x.getLsbD (min 63 (k + n)) := by
  rw [BitVec.getLsbD_sshiftRight, Nat.add_comm]
  by_cases hin : k + n < 64
  · rw [Nat.min_eq_right (by omega)]
    simp [hk, hin]
  · rw [Nat.min_eq_left (by omega)]
    simp [hk, hin, BitVec.msb_eq_getLsbD_last]

theorem getLsbD_rotatedRight (x : Word) {n k : Nat} (hn : n < 64) (hk : k < 64) :
    (rotatedRight x n).getLsbD k = x.getLsbD ((k + n) % 64) := by
  unfold rotatedRight
  split
  case isTrue hzero => rw [hzero, Nat.add_zero, Nat.mod_eq_of_lt hk]
  case isFalse hpos =>
    rw [BitVec.getLsbD_or, getLsbD_shiftRight_word, getLsbD_shiftLeft_word _ _ hk]
    by_cases hin : k + n < 64
    · have hlow : ¬ 64 - n ≤ k := by omega
      rw [Nat.mod_eq_of_lt hin]
      simp [hlow]
    · have hhigh : 64 - n ≤ k := by omega
      have hsource : (k + n) % 64 = k - (64 - n) := by omega
      rw [hsource, BitVec.getLsbD_of_ge _ _ (Nat.not_lt.mp hin)]
      simp [hhigh]

theorem getLsbD_rotatedLeft (x : Word) {n k : Nat} (hn : n < 64) (hk : k < 64) :
    (rotatedLeft x n).getLsbD k = x.getLsbD ((k + 64 - n) % 64) := by
  unfold rotatedLeft
  split
  case isTrue hzero => rw [hzero, Nat.sub_zero, Nat.add_mod_right, Nat.mod_eq_of_lt hk]
  case isFalse hpos =>
    rw [BitVec.getLsbD_or, getLsbD_shiftRight_word, getLsbD_shiftLeft_word _ _ hk]
    by_cases hin : n ≤ k
    · have hsource : (k + 64 - n) % 64 = k - n := by omega
      rw [hsource, BitVec.getLsbD_of_ge _ (k + (64 - n)) (by omega)]
      simp [hin]
    · have hsource : (k + 64 - n) % 64 = k + (64 - n) := by omega
      rw [hsource]
      simp [hin]

/-! ### Fields -/

/-- The bits under the mask of `cb` (44_bitwise.md R183). -/
theorem getLsbD_clearMask (lsh rsh : BitVec 6) (k : Nat) :
    (clearMask lsh rsh).getLsbD k = (decide (lsh.toNat ≤ k + rsh.toNat) && decide (k + rsh.toNat < 64)) := by
  rw [clearMask, getLsbD_shiftRight_word]
  by_cases hin : k + rsh.toNat < 64
  · have hones : (0xFFFFFFFFFFFFFFFF : Word).getLsbD (k + rsh.toNat - lsh.toNat) = true := by
      show (BitVec.allOnes 64).getLsbD _ = true
      rw [BitVec.getLsbD_allOnes]
      simp only [decide_eq_true_eq]
      omega
    rw [getLsbD_shiftLeft_word _ _ hin, hones]
    simp [hin]
  · rw [BitVec.getLsbD_of_ge _ _ (Nat.not_lt.mp hin)]
    simp [hin]

/-- `si` without the sign: bits from beyond bit 63 are 0 (44_bitwise.md R182). -/
theorem getLsbD_shiftedLeftRight_unsigned (x : Word) (lsh rsh : BitVec 6) (k : Nat) :
    (shiftedLeftRight x lsh rsh false).getLsbD k = (decide (k + rsh.toNat < 64) &&
      (decide (lsh.toNat ≤ k + rsh.toNat) && x.getLsbD (k + rsh.toNat - lsh.toNat))) := by
  show ((x <<< lsh.toNat) >>> rsh.toNat).getLsbD k = _
  rw [getLsbD_shiftRight_word]
  by_cases hin : k + rsh.toNat < 64
  · rw [getLsbD_shiftLeft_word _ _ hin]
    simp [hin]
  · rw [BitVec.getLsbD_of_ge _ _ (Nat.not_lt.mp hin)]
    simp [hin]

theorem getLsbD_shiftedLeftRight_signed (x : Word) (lsh rsh : BitVec 6) {k : Nat} (hk : k < 64) :
    (shiftedLeftRight x lsh rsh true).getLsbD k = (decide (lsh.toNat ≤ min 63 (k + rsh.toNat)) &&
      x.getLsbD (min 63 (k + rsh.toNat) - lsh.toNat)) := by
  show ((x <<< lsh.toNat).sshiftRight rsh.toNat).getLsbD k = _
  rw [getLsbD_sshiftRight_word _ _ hk, getLsbD_shiftLeft_word _ _ (by omega)]

/-! ### Reversal -/

/-- The masks of a swap stage: at each position one of the two shifted parts is empty, and the other has the bit whose position
differs by the stage's distance. -/
def SwapsBy (hi lo : Word) (d : Nat) : Prop :=
  ∀ j, j < 64 →
    (hi.getLsbD (j + d) = true ∧ j + d = j ^^^ d ∧ (d ≤ j → lo.getLsbD (j - d) = false)) ∨
    (hi.getLsbD (j + d) = false ∧ d ≤ j ∧ lo.getLsbD (j - d) = true ∧ j - d = j ^^^ d)

theorem getLsbD_swapStage {hi lo : Word} {d : Nat} (h : SwapsBy hi lo d) (sel : Bool) (x : Word) {j : Nat} (hj : j < 64) :
    (swapStage sel hi lo d x).getLsbD j = x.getLsbD (j ^^^ (if sel then d else 0)) := by
  cases sel with
  | false => exact congrArg x.getLsbD (Nat.xor_zero j).symm
  | true =>
    rw [swapStage, if_pos rfl, if_pos rfl, BitVec.getLsbD_or, getLsbD_shiftRight_word, getLsbD_shiftLeft_word _ _ hj,
      BitVec.getLsbD_and, BitVec.getLsbD_and]
    rcases h j hj with ⟨hhi, hsource, hlo⟩ | ⟨hhi, hle, hlo, hsource⟩
    · rw [hhi, ← hsource]
      by_cases hle : d ≤ j
      · simp [hlo hle]
      · simp [hle]
    · rw [hhi, hlo, ← hsource]
      simp [hle]

theorem swapsBy_stages :
    SwapsBy 0xFFFFFFFF00000000 0x00000000FFFFFFFF 32 ∧ SwapsBy 0xFFFF0000FFFF0000 0x0000FFFF0000FFFF 16 ∧
    SwapsBy 0xFF00FF00FF00FF00 0x00FF00FF00FF00FF 8 ∧ SwapsBy 0xF0F0F0F0F0F0F0F0 0x0F0F0F0F0F0F0F0F 4 ∧
    SwapsBy 0xCCCCCCCCCCCCCCCC 0x3333333333333333 2 ∧ SwapsBy 0xAAAAAAAAAAAAAAAA 0x5555555555555555 1 := by
  unfold SwapsBy
  refine ⟨?_, ?_, ?_, ?_, ?_, ?_⟩ <;> decide

/-- The distances of the stages that `sel` enables, together. -/
theorem xor_stages (sel : BitVec 6) (k : Nat) :
    k ^^^ (if sel.getLsbD 0 then 1 else 0) ^^^ (if sel.getLsbD 1 then 2 else 0) ^^^ (if sel.getLsbD 2 then 4 else 0) ^^^
      (if sel.getLsbD 3 then 8 else 0) ^^^ (if sel.getLsbD 4 then 16 else 0) ^^^ (if sel.getLsbD 5 then 32 else 0) =
    k ^^^ sel.toNat := by
  have hsel : ∀ sel : BitVec 6,
      (if sel.getLsbD 0 then 1 else 0) ^^^ ((if sel.getLsbD 1 then 2 else 0) ^^^ ((if sel.getLsbD 2 then 4 else 0) ^^^
        ((if sel.getLsbD 3 then 8 else 0) ^^^ ((if sel.getLsbD 4 then 16 else 0) ^^^ (if sel.getLsbD 5 then 32 else 0))))) =
      sel.toNat := by decide
  simp only [Nat.xor_assoc, hsel]

theorem xor_stage_lt {j d : Nat} (hj : j < 64) (hd : d < 64) (sel : Bool) : j ^^^ (if sel then d else 0) < 64 := by
  refine Nat.xor_lt_two_pow (n := 6) hj ?_
  split
  · exact hd
  · decide

theorem getLsbD_reversedBits (x : Word) (sel : BitVec 6) {k : Nat} (hk : k < 64) :
    (reversedBits x sel).getLsbD k = x.getLsbD (k ^^^ sel.toNat) := by
  obtain ⟨h5, h4, h3, h2, h1, h0⟩ := swapsBy_stages
  have hk0 := xor_stage_lt hk (d := 1) (by decide) (sel.getLsbD 0)
  have hk1 := xor_stage_lt hk0 (d := 2) (by decide) (sel.getLsbD 1)
  have hk2 := xor_stage_lt hk1 (d := 4) (by decide) (sel.getLsbD 2)
  have hk3 := xor_stage_lt hk2 (d := 8) (by decide) (sel.getLsbD 3)
  have hk4 := xor_stage_lt hk3 (d := 16) (by decide) (sel.getLsbD 4)
  rw [reversedBits, getLsbD_swapStage h0 _ _ hk, getLsbD_swapStage h1 _ _ hk0, getLsbD_swapStage h2 _ _ hk1,
    getLsbD_swapStage h3 _ _ hk2, getLsbD_swapStage h4 _ _ hk3, getLsbD_swapStage h5 _ _ hk4, xor_stages]

/-! ### Counts -/

theorem countSet_eq (x : Word) (n : Nat) : countSet x n = (List.range n).countP fun k => x.getLsbD k := by
  induction n with
  | zero => rfl
  | succ n ih => rw [countSet, ih, List.range_succ, List.countP_append, List.countP_singleton]

/-- Counting down from bit `n - 1` ends below bit 0, or at the first set bit. -/
theorem countLeadingZeroes_spec (x : Word) (n : Nat) :
    (countLeadingZeroes x n = n ∧ ∀ k, k < n → x.getLsbD k = false) ∨
    (countLeadingZeroes x n < n ∧ x.getLsbD (n - 1 - countLeadingZeroes x n) = true ∧
      ∀ k, n - 1 - countLeadingZeroes x n < k → k < n → x.getLsbD k = false) := by
  induction n with
  | zero => exact .inl ⟨rfl, fun k hk => absurd hk (Nat.not_lt_zero k)⟩
  | succ n ih =>
    rw [countLeadingZeroes]
    split
    case isTrue hset => exact .inr ⟨Nat.succ_pos n, hset, fun k hlo hhi => by omega⟩
    case isFalse hclear =>
      have htop {k : Nat} (hk : k < n + 1) (hrest : k < n → x.getLsbD k = false) : x.getLsbD k = false := by
        rcases Nat.lt_succ_iff_lt_or_eq.mp hk with hlt | rfl
        · exact hrest hlt
        · simpa using hclear
      rcases ih with ⟨hall, hzero⟩ | ⟨hlt, hset, hzero⟩
      · exact .inl ⟨by omega, fun k hk => htop hk (hzero k)⟩
      · have hplace : n + 1 - 1 - (1 + countLeadingZeroes x n) = n - 1 - countLeadingZeroes x n := by omega
        rw [hplace]
        exact .inr ⟨by omega, hset, fun k hlo hhi => htop hhi (hzero k hlo)⟩

/-- Counting up from bit `64 - n` ends above bit 63, or at the first set bit. -/
theorem countTrailingZeroes_spec (x : Word) (n : Nat) (hn : n ≤ 64) :
    (countTrailingZeroes x n = n ∧ ∀ k, 64 - n ≤ k → x.getLsbD k = false) ∨
    (countTrailingZeroes x n < n ∧ x.getLsbD (64 - n + countTrailingZeroes x n) = true ∧
      ∀ k, 64 - n ≤ k → k < 64 - n + countTrailingZeroes x n → x.getLsbD k = false) := by
  induction n with
  | zero => exact .inl ⟨rfl, fun k hk => BitVec.getLsbD_of_ge _ _ hk⟩
  | succ n ih =>
    have hbottom : 64 - (n + 1) = 63 - n := by omega
    rw [countTrailingZeroes, hbottom]
    split
    case isTrue hset => exact .inr ⟨Nat.succ_pos n, hset, fun k hlo hhi => by omega⟩
    case isFalse hclear =>
      have hlow {k : Nat} (hk : 63 - n ≤ k) (hrest : 64 - n ≤ k → x.getLsbD k = false) : x.getLsbD k = false := by
        rcases Nat.eq_or_lt_of_le hk with rfl | hlt
        · simpa using hclear
        · exact hrest (by omega)
      rcases ih (by omega) with ⟨hall, hzero⟩ | ⟨hlt, hset, hzero⟩
      · exact .inl ⟨by omega, fun k hk => hlow hk (hzero k)⟩
      · have hplace : 63 - n + (1 + countTrailingZeroes x n) = 64 - n + countTrailingZeroes x n := by omega
        rw [hplace]
        exact .inr ⟨by omega, hset, fun k hlo hhi => hlow hlo fun h => hzero k h hhi⟩

/-- A word is 0 when each of its bits is. -/
theorem eq_zero_of_getLsbD {x : Word} (h : ∀ k, k < 64 → x.getLsbD k = false) : x = 0 :=
  BitVec.eq_of_getLsbD_eq fun k hk => by rw [h k hk]; exact (BitVec.getLsbD_zero).symm

/-! ### Extract and deposit -/

/-- The set positions of a mask from position `64 - n` up, in rising order. -/
def setPositions (mask : Word) (n : Nat) : List Nat := (List.range' (64 - n) n).filter fun j => mask.getLsbD j

theorem setPositions_succ (mask : Word) {n : Nat} (hn : n + 1 ≤ 64) :
    setPositions mask (n + 1) =
      if mask.getLsbD (63 - n) then (63 - n) :: setPositions mask n else setPositions mask n := by
  have hstart : 64 - (n + 1) = 63 - n := by omega
  have hnext : 63 - n + 1 = 64 - n := by omega
  rw [setPositions, hstart, List.range'_succ, hnext, List.filter_cons]
  rfl

theorem setPositions_full (mask : Word) : setPositions mask 64 = (List.range 64).filter fun j => mask.getLsbD j := by
  rw [setPositions, List.range_eq_range']

theorem length_setPositions_le (mask : Word) (n : Nat) : (setPositions mask n).length ≤ n := by
  refine (List.length_filter_le _ _).trans ?_
  rw [List.length_range']

/-- The bit of a word at a listed position, 0 beyond the list. -/
def bitAt (x : Word) (positions : List Nat) (k : Nat) : Bool :=
  match positions[k]? with
  | some j => x.getLsbD j
  | none => false

theorem bitAt_of_length_le (x : Word) {l : List Nat} {k : Nat} (h : l.length ≤ k) : bitAt x l k = false := by
  rw [bitAt, List.getElem?_eq_none h]

theorem getLsbD_bitWord (x : Word) (j k : Nat) : (bitWord x j).getLsbD k = (decide (k = 0) && x.getLsbD j) := by
  unfold bitWord
  split
  case isTrue hset => rw [hset, Bool.and_true]; simp
  case isFalse hclear => simp [hclear]

/-- Extract packs the bits at the set positions, in their order (44_bitwise.md R190). -/
theorem getLsbD_extractFrom (x mask : Word) (n : Nat) (hn : n ≤ 64) (k : Nat) :
    (extractFrom x mask n).getLsbD k = bitAt x (setPositions mask n) k := by
  induction n generalizing k with
  | zero => exact BitVec.getLsbD_zero
  | succ n ih =>
    rw [extractFrom, setPositions_succ mask hn]
    split
    case isFalse => exact ih (by omega) k
    case isTrue =>
      rw [BitVec.getLsbD_or, getLsbD_bitWord]
      cases k with
      | zero => simp [bitAt]
      | succ k =>
        have hcons : bitAt x ((63 - n) :: setPositions mask n) (k + 1) = bitAt x (setPositions mask n) k := rfl
        rw [hcons]
        by_cases hk : k + 1 < 64
        · rw [getLsbD_shiftLeft_word _ _ hk, Nat.add_sub_cancel, ih (by omega)]
          simp
        · have hlen := length_setPositions_le mask n
          rw [bitAt_of_length_le x (by omega), BitVec.getLsbD_of_ge _ _ (Nat.not_lt.mp hk)]
          simp

/-- Deposit puts at a set position the bit numbered by the set positions below it (44_bitwise.md R191). -/
theorem getLsbD_depositFrom (x mask : Word) (n : Nat) (hn : n ≤ 64) (k : Nat) {j : Nat} (hj : j < 64) :
    (depositFrom x mask n k).getLsbD j = (decide (64 - n ≤ j) && mask.getLsbD j &&
      x.getLsbD (k + (List.range' (64 - n) (j - (64 - n))).countP fun i => mask.getLsbD i)) := by
  induction n generalizing k with
  | zero =>
    have hout : ¬ 64 - 0 ≤ j := by omega
    simp [depositFrom, hout]
  | succ n ih =>
    have hstart : 64 - (n + 1) = 63 - n := by omega
    rw [depositFrom, hstart]
    rcases Nat.lt_trichotomy j (63 - n) with hbelow | rfl | habove
    · have hout : ¬ 63 - n ≤ j := by omega
      have hout' : ¬ 64 - n ≤ j := by omega
      split
      · rw [BitVec.getLsbD_or, getLsbD_shiftLeft_word _ _ hj, ih (by omega)]
        simp [hout, hout']
      · rw [ih (by omega)]
        simp [hout, hout']
    · have hout' : ¬ 64 - n ≤ 63 - n := by omega
      split
      case isTrue hset =>
        rw [BitVec.getLsbD_or, getLsbD_shiftLeft_word _ _ hj, getLsbD_bitWord, ih (by omega)]
        simp [hout', hset]
      case isFalse hclear =>
        rw [ih (by omega)]
        simp [hclear]
    · have hnext : 63 - n + 1 = 64 - n := by omega
      have hcount : (List.range' (63 - n) (j - (63 - n))).countP (fun i => mask.getLsbD i) =
          (if mask.getLsbD (63 - n) then 1 else 0) +
            (List.range' (64 - n) (j - (64 - n))).countP (fun i => mask.getLsbD i) := by
        rw [show j - (63 - n) = j - (64 - n) + 1 by omega, List.range'_succ, hnext, List.countP_cons, Nat.add_comm]
      have hin : 63 - n ≤ j := by omega
      have hin' : 64 - n ≤ j := by omega
      rw [hcount]
      split
      case isTrue hset =>
        have hother : j - (63 - n) ≠ 0 := by omega
        rw [BitVec.getLsbD_or, getLsbD_shiftLeft_word _ _ hj, getLsbD_bitWord, ih (by omega)]
        simp [hin, hin', hother, Nat.add_assoc]
      case isFalse hclear =>
        rw [ih (by omega)]
        simp [hin, hin']

/-- The whole of a deposit. -/
theorem getLsbD_deposit (x mask : Word) {j : Nat} (hj : j < 64) :
    (depositFrom x mask 64 0).getLsbD j =
      (mask.getLsbD j && x.getLsbD ((List.range j).countP fun i => mask.getLsbD i)) := by
  rw [getLsbD_depositFrom x mask 64 (by decide) 0 hj, List.range_eq_range']
  simp

/-- A set position is listed behind the set positions below it. -/
theorem setPositions_getElem?_count (mask : Word) {j : Nat} (hj : j < 64) (hset : mask.getLsbD j = true) :
    (setPositions mask 64)[(List.range j).countP fun i => mask.getLsbD i]? = some j := by
  have hsplit : List.range 64 = List.range j ++ j :: List.range' (j + 1) (63 - j) := by
    have happend := List.range'_append_1 (s := 0) (m := j) (n := 63 - j + 1)
    rw [Nat.zero_add, show j + (63 - j + 1) = 64 by omega] at happend
    rw [List.range_eq_range', List.range_eq_range', ← List.range'_succ, happend]
  rw [setPositions_full, hsplit, List.filter_append, List.countP_eq_length_filter, List.getElem?_append_right (Nat.le_refl _),
    List.filter_cons, if_pos hset, Nat.sub_self]
  rfl

/-- What is listed at a place is a set position, with as many set positions below it. -/
theorem count_of_setPositions_getElem? {mask : Word} {k j : Nat} (h : (setPositions mask 64)[k]? = some j) :
    j < 64 ∧ mask.getLsbD j = true ∧ ((List.range j).countP fun i => mask.getLsbD i) = k := by
  have hmem : j ∈ setPositions mask 64 := List.mem_of_getElem? h
  rw [setPositions_full, List.mem_filter, List.mem_range] at hmem
  obtain ⟨hj, hset⟩ := hmem
  refine ⟨hj, hset, ?_⟩
  have hnodup : (setPositions mask 64).Nodup := by
    rw [setPositions_full]
    exact List.nodup_range.filter _
  have hk : k < (setPositions mask 64).length := (List.getElem?_eq_some_iff.1 h).1
  exact ((List.getElem?_inj hk hnodup).1 (h.trans (setPositions_getElem?_count mask hj hset).symm)).symm

end Sys2Proof.Machine

open Sys2Proof Sys2Proof.Machine

/-- Settles O12: the amount is the sum modulo 64; a shift takes each bit from that far away, with zeros or the highest bit beyond the
ends, and a rotation takes it from around the end. -/
theorem shiftsAndRotatesMoveBits : Obligations.ShiftsAndRotatesMoveBits := by
  refine ⟨⟨fun _ => decodeWord_sl, fun _ => decodeWord_usr, fun _ => decodeWord_isr, fun _ => decodeWord_ror,
    fun _ => decodeWord_rol⟩, fun s r1 r2 r3 imm9 => ⟨_, _, _, _, _, .of_exec rfl, .of_exec rfl, .of_exec rfl, .of_exec rfl,
    .of_exec rfl, fun k hk => ?_⟩⟩
  intro n x
  have hn : n < 64 := Nat.mod_lt _ (by decide)
  rw [s.shiftAmount_eq]
  exact ⟨getLsbD_shiftLeft_word x n hk, getLsbD_shiftRight_word x n k, getLsbD_sshiftRight_word x n hk,
    getLsbD_rotatedRight x hn hk, getLsbD_rotatedLeft x hn hk⟩

/-- Settles O13: both shifts of `si`, one after the other, and the two shifts that make the mask of `cb`. -/
theorem shiftImmediateAndClearBits : Obligations.ShiftImmediateAndClearBits := by
  refine ⟨decodesB_si, decodesB_cb, fun s r1 r2 lsh rsh => ⟨_, _, _, .of_exec rfl, .of_exec rfl, .of_exec rfl, fun k hk => ?_⟩⟩
  refine ⟨getLsbD_shiftedLeftRight_unsigned _ lsh rsh k, getLsbD_shiftedLeftRight_signed _ lsh rsh hk, ?_⟩
  rw [BitVec.getLsbD_and, BitVec.getLsbD_not, getLsbD_clearMask]
  simp [hk]

/-- Settles O14: each enabled stage takes bit `k` from the position that differs by its distance, and the distances together are
`set`. -/
theorem revPermutesBits : Obligations.RevPermutesBits :=
  ⟨decodesB_rev, fun s _ r2 sel => ⟨_, .of_exec rfl, fun _ hk => getLsbD_reversedBits (s.getReg r2) sel hk⟩⟩

/-- Settles O15: each count ends below its last bit, and then the source is 0, or at the set bit that it looks for. -/
theorem countsCountBits : Obligations.CountsCountBits := by
  refine ⟨⟨fun _ => decodeWord_csb, fun _ => decodeWord_clz, fun _ => decodeWord_ctz⟩, fun s r1 r2 =>
    ⟨_, _, _, .of_exec rfl, .of_exec rfl, .of_exec rfl, countSet_eq _ 64, fun hzero => ?_, fun hne => ?_⟩⟩
  · rw [hzero]
    decide
  · have hnot (h : ∀ k, k < 64 → (s.getReg r2).getLsbD k = false) : False := hne (eq_zero_of_getLsbD h)
    rcases countLeadingZeroes_spec (s.getReg r2) 64 with ⟨_, hall⟩ | ⟨hl, hltop, hlzero⟩
    · exact absurd hall hnot
    · rcases countTrailingZeroes_spec (s.getReg r2) 64 (by decide) with ⟨_, hall⟩ | ⟨ht, htbit, htzero⟩
      · exact absurd (fun k _ => hall k (Nat.zero_le k)) hnot
      · refine ⟨hl, hltop, fun k hk => ?_, ht, by simpa using htbit, fun k hk => htzero k (Nat.zero_le k) (by omega)⟩
        by_cases hin : k < 64
        · exact hlzero k hk hin
        · exact BitVec.getLsbD_of_ge _ _ (Nat.not_lt.mp hin)

/-- Settles O16: extract reads the list of the mask's set positions, deposit counts the ones below. -/
theorem extractPacksDepositSpreads : Obligations.ExtractPacksDepositSpreads := by
  refine ⟨fun _ => decodeWord_ext, fun _ => decodeWord_dep, fun s r1 r2 r3 =>
    ⟨_, _, .of_exec rfl, .of_exec rfl, fun k hk => ⟨?_, getLsbD_deposit _ _ hk⟩⟩⟩
  rw [getLsbD_extractFrom _ _ 64 (by decide), setPositions_full]
  rfl

/-- Settles O17: a set position is the one listed at the number of set positions below it, so the two numberings undo each other. -/
theorem depositAndExtractAreInverse : Obligations.DepositAndExtractAreInverse := by
  refine fun x mask => ⟨BitVec.eq_of_getLsbD_eq fun j hj => ?_, fun k => ?_⟩
  · rw [getLsbD_deposit _ _ hj, getLsbD_extractFrom _ _ 64 (by decide), BitVec.getLsbD_and, Bool.and_comm]
    cases hset : mask.getLsbD j with
    | false => simp
    | true => simp [bitAt, setPositions_getElem?_count mask hj hset]
  · rw [getLsbD_extractFrom _ _ 64 (by decide), bitAt, List.countP_eq_length_filter, ← setPositions_full]
    cases hk : (setPositions mask 64)[k]? with
    | none =>
      have hout : ¬ k < (setPositions mask 64).length := Nat.not_lt.mpr (List.getElem?_eq_none_iff.1 hk)
      simp [hout]
    | some j =>
      obtain ⟨hj, hset, hcount⟩ := count_of_setPositions_getElem? hk
      have hin : k < (setPositions mask 64).length := (List.getElem?_eq_some_iff.1 hk).1
      simp [getLsbD_deposit _ _ hj, hset, hcount, hin]
end

section
/-!
PROOFS. Registers, system control and the instructions that raise an interrupt (10_state.md R11, R12; 42_memory_effects.md R143;
47_system.md).
-/
namespace Sys2Proof.Machine

/-! ### Raising an interrupt -/

/-- An instruction that raises an interrupt enters it from the state in which it runs. -/
theorem Raises.of_exec {ins : Instr} {s : State} {i : Interrupt} (h : exec ins s = s.raised i) :
    Raises ins s (causeNumber i.cause).val i.val i.pte :=
  ⟨_, h, s.enterInterrupt_entered i⟩

/-! ### The privileged instructions -/

theorem exec_wait_kernel {s : State} (hk : s.statU = false) : exec .wait s = .next { s with paused := true } := by
  rw [exec, execWait, hk]
  rfl

theorem exec_wait_user {s : State} (hu : s.statU = true) : exec .wait s = s.raised (plainInterrupt .invalid) := by
  rw [exec, execWait, if_pos hu]

theorem exec_iret_kernel {s : State} (hk : s.statU = false) : exec .iret s = .next s.returnFromInterrupt := by
  rw [exec, execIret, hk]
  rfl

theorem exec_iret_user {s : State} (hu : s.statU = true) : exec .iret s = s.raised (plainInterrupt .invalid) := by
  rw [exec, execIret, if_pos hu]

theorem ctrlNumber_eq_some {imm19 : BitVec 19} {n : CtrlReg} (h : imm19.toNat = n.val) : ctrlNumber imm19 = some n := by
  have hlt : imm19.toNat < 24 := h ▸ n.isLt
  rw [ctrlNumber, dif_pos hlt]
  exact congrArg some (Fin.ext h)

theorem ctrlNumber_eq_none {imm19 : BitVec 19} (h : ¬ imm19.toNat < 24) : ctrlNumber imm19 = none := by
  rw [ctrlNumber, dif_neg h]

theorem exec_lctrl_kernel {s : State} {imm19 : BitVec 19} {n : CtrlReg} (r1 : Reg) (hk : s.statU = false)
    (hn : imm19.toNat = n.val) : exec (.lctrl r1 imm19) s = .next (s.setReg r1 (s.getCtrl n)) := by
  rw [exec, execLctrl, hk, ctrlNumber_eq_some hn]
  rfl

theorem exec_sctrl_kernel {s : State} {imm19 : BitVec 19} {n : CtrlReg} (r1 : Reg) (hk : s.statU = false)
    (hn : imm19.toNat = n.val) : exec (.sctrl r1 imm19) s = .next ((s.setCtrl n (s.getReg r1)).dropTranslations n) := by
  rw [exec, execSctrl, hk, ctrlNumber_eq_some hn]
  rfl

/-- In user mode, or for a number above 23, `lctrl` and `sctrl` raise INVALID. -/
theorem exec_lctrl_invalid {s : State} {imm19 : BitVec 19} (r1 : Reg) (h : s.statU = true ∨ ¬ imm19.toNat < 24) :
    exec (.lctrl r1 imm19) s = s.raised (plainInterrupt .invalid) := by
  rw [exec, execLctrl]
  split
  case isTrue => rfl
  case isFalse hk => rw [ctrlNumber_eq_none (h.resolve_left hk)]

theorem exec_sctrl_invalid {s : State} {imm19 : BitVec 19} (r1 : Reg) (h : s.statU = true ∨ ¬ imm19.toNat < 24) :
    exec (.sctrl r1 imm19) s = s.raised (plainInterrupt .invalid) := by
  rw [exec, execSctrl]
  split
  case isTrue => rfl
  case isFalse hk => rw [ctrlNumber_eq_none (h.resolve_left hk)]

/-! ### Memory effects that raise -/

theorem exec_cinval_invalid (r1 : Reg) (d i : Bool) {m : BitVec 2} (hm : m = 3) (s : State) :
    exec (.cinval r1 d i m) s = s.raised (plainInterrupt .invalid) := by
  rw [exec, execCinval, if_pos hm]

theorem exec_cfetch_ok {s : State} {r1 : Reg} {pa : Word} (l w i : Bool) (h : s.translate (s.getReg r1) .read = .ok pa) :
    exec (.cfetch r1 l w i) s = .next s.unlock := by
  rw [exec, execCfetch, h]

/-! ### The bits that a control register keeps -/

/-- The classes of hardwired bits (10_state.md R16). -/
theorem and_ctrlMask (v : Word) (n : CtrlReg) :
    v &&& ctrlMask n =
      if n.val ≤ 16 then v &&& ~~~3 else if n.val ≤ 19 then v else if n.val ≤ 21 then v &&& ~~~0xFFF else v &&& 7 := by
  have hall : v &&& 0xFFFFFFFFFFFFFFFF = v := BitVec.and_allOnes (w := 64)
  unfold ctrlMask
  split
  · rfl
  · split
    · exact hall
    · split <;> rfl

end Sys2Proof.Machine

open Sys2Proof Sys2Proof.Machine

/-- Settles O5: from what a read gives after a write; a write to either register is discarded. -/
theorem zeroAndIpIgnoreWrites : Obligations.ZeroAndIpIgnoreWrites := by
  refine fun s r v => ⟨s.getReg_zero, s.getReg_ip, ?_, fun hzero hip => ?_⟩
  · rintro (rfl | rfl)
    · rfl
    · exact s.setReg_ip v
  · rw [s.getReg_setReg, if_pos ⟨rfl, hzero, hip⟩]

/-- Settles O34: a translation that succeeds leaves the unlocking alone. -/
theorem cfetchOnlyUnlocks : Obligations.CfetchOnlyUnlocks := fun _ _ l w i _ h => exec_cfetch_ok l w i h

/-- Settles O41: both raise whatever the mode. -/
theorem syscallAndBreakptRaise : Obligations.SyscallAndBreakptRaise := fun _ =>
  ⟨.of_exec (i := plainInterrupt .syscall) rfl, .of_exec (i := plainInterrupt .breakpt) rfl⟩

/-- Settles O42: kernel mode passes the privilege check of `wait`; `spin` has none. -/
theorem waitPausesSpinIdles : Obligations.WaitPausesSpinIdles := fun _ => ⟨exec_wait_kernel, rfl⟩

/-- Settles O43: of the control registers only `stat` is written, with its hardwired bits 0. -/
theorem iretRestores : Obligations.IretRestores := by
  refine fun s hk => ⟨_, exec_iret_kernel hk, State.returnFromInterrupt_pc s, fun n => ?_, State.returnFromInterrupt_lock s, rfl,
    State.loadByte_congr rfl rfl rfl⟩
  exact State.getCtrl_setCtrl s ctrlStat n (s.getCtrl ctrlIntstat)

/-- Settles O44: a number below 24 names a control register. -/
theorem lctrlReads : Obligations.LctrlReads := fun _ r1 _ _ hk hn => .of_exec (exec_lctrl_kernel r1 hk hn)

/-- Settles O45: one control register is written, through the mask of its class; the translation cache of its mode, if it is a root,
is emptied. -/
theorem sctrlWrites : Obligations.SctrlWrites := by
  refine fun s r1 imm19 n hk hn => ⟨_, exec_sctrl_kernel r1 hk hn, fun k => ?_, rfl, rfl, rfl, State.loadByte_congr rfl rfl rfl⟩
  rw [← and_ctrlMask, ite_not]
  exact State.getCtrl_setCtrl s n k (s.getReg r1)

/-- Settles O46: user mode fails the privilege check before anything else. -/
theorem privilegedInUserModeRaise : Obligations.PrivilegedInUserModeRaise := fun _ r1 _ hu =>
  ⟨.of_exec (exec_wait_user hu), .of_exec (exec_iret_user hu), .of_exec (exec_lctrl_invalid r1 (.inl hu)),
    .of_exec (exec_sctrl_invalid r1 (.inl hu))⟩

/-- Settles O47: the three instructions that the check can fail, each with the argument it fails for. -/
theorem illFormedRaise : Obligations.IllFormedRaise := by
  intro s ins hill
  cases ins
  case cinval r1 d i m => exact .of_exec (exec_cinval_invalid r1 d i (by simpa [Instr.wellFormed] using hill) s)
  case lctrl r1 imm19 =>
    have hbig : ¬ imm19.toNat ≤ 23 := by simpa [Instr.wellFormed] using hill
    exact .of_exec (exec_lctrl_invalid r1 (.inr (by omega)))
  case sctrl r1 imm19 =>
    have hbig : ¬ imm19.toNat ≤ 23 := by simpa [Instr.wellFormed] using hill
    exact .of_exec (exec_sctrl_invalid r1 (.inr (by omega)))
  all_goals exact absurd rfl hill
end

section
/-!
PROOFS. Address translation (20_memory.md R61 to R68): the page walk level by level, and the entries that the translation cache holds.
-/
namespace Sys2Proof.Machine

/-! ### The fields of an address and of an entry -/

/-- Nine bits of an address, as the claims write them. -/
theorem zext_extract_nine (va : Word) (i : Nat) : zext (va.extractLsb' i 9) = (va >>> i) &&& 0x1FF := by
  apply BitVec.eq_of_toNat_eq
  have hlt : (va.toNat >>> i) % 2 ^ 9 < 2 ^ 64 := by omega
  rw [zext, BitVec.toNat_setWidth, BitVec.extractLsb'_toNat, Nat.mod_eq_of_lt hlt, BitVec.toNat_and, BitVec.toNat_ushiftRight]
  exact (Nat.and_two_pow_sub_one_eq_mod _ 9).symm

theorem nextBase_eq (pte : Word) : nextBase pte = pte &&& ~~~0xFFF := rfl

theorem canonicalAddr_iff (va : Word) :
    canonicalAddr va = true ↔ va.extractLsb' 48 16 = (if va.getLsbD 47 then 0xFFFF else 0) := beq_iff_eq

/-! ### The walk -/

theorem State.tableAt_zero (s : State) (va : Word) : s.tableAt va 0 = s.tableRoot := rfl

/-- The table of the next level is the one that the entry of this level names. -/
theorem State.tableAt_succ (s : State) (va : Word) (k : Nat) : s.tableAt va (k + 1) = nextBase (s.entryAt va k) := rfl

theorem State.entryAddr_eq (s : State) (va : Word) (k : Nat) : s.tableAt va k + 8 * tableIndex va k = s.entryAddr va k := by
  rw [tableIndex, zext_extract_nine, State.entryAddr]

/-- One level of the walk, from the table of that level. -/
theorem State.walk_level (s : State) (va : Word) (kind : Access) (k : Nat) (rest : List Nat) (last : Word) :
    s.walk va kind (k :: rest) (s.tableAt va k) last =
      if s.busOk (s.entryAddr va k) .word .read then
        if (s.entryAt va k).getLsbD 0 then s.walk va kind rest (s.tableAt va (k + 1)) (s.entryAt va k)
        else .error (pteInterrupt (accessCause kind) va (s.entryAt va k))
      else .error (addressInterrupt .vatfail va) := by
  rw [State.walk, s.entryAddr_eq, s.tableAt_succ]
  rfl

theorem State.LevelsGood.of_le {s : State} {va : Word} {j k : Nat} (h : s.LevelsGood va k) (hle : j ≤ k) : s.LevelsGood va j :=
  fun i hi => h i (by omega)

/-- Where the levels below `k` are good, the walk comes to level `k` with the entry of the level before. -/
theorem State.LevelsGood.finalPte {s : State} {va : Word} {k : Nat} (h : s.LevelsGood va k) (hk : k ≤ 4) (kind : Access) :
    ∃ last, (∀ j, k = j + 1 → last = s.entryAt va j) ∧
      s.finalPte va kind = s.walk va kind (List.range' k (4 - k)) (s.tableAt va k) last := by
  induction k with
  | zero => exact ⟨0, fun j hj => absurd hj (by omega), rfl⟩
  | succ k ih =>
    obtain ⟨last, _, hwalk⟩ := ih (h.of_le (by omega)) (by omega)
    obtain ⟨hread, hvalid⟩ := h k (by omega)
    refine ⟨s.entryAt va k, fun j hj => by rw [Nat.succ.inj hj], ?_⟩
    rw [hwalk, show 4 - k = (4 - (k + 1)) + 1 by omega, List.range'_succ, s.walk_level, if_pos hread, if_pos hvalid]

/-- The walk through four good levels ends at the entry of the last. -/
theorem State.LevelsGood.finalPte_four {s : State} {va : Word} (h : s.LevelsGood va 4) (kind : Access) :
    s.finalPte va kind = .ok (s.entryAt va 3) := by
  obtain ⟨last, hlast, hwalk⟩ := h.finalPte (Nat.le_refl 4) kind
  rw [hwalk, hlast 3 rfl]
  rfl

/-- At the first bad level the walk does what that level says. -/
theorem State.LevelsGood.finalPte_level {s : State} {va : Word} {k : Nat} (h : s.LevelsGood va k) (hk : k < 4) (kind : Access) :
    ∃ rest last, s.finalPte va kind = s.walk va kind (k :: rest) (s.tableAt va k) last := by
  obtain ⟨last, _, hwalk⟩ := h.finalPte (Nat.le_of_lt hk) kind
  refine ⟨List.range' (k + 1) (4 - (k + 1)), last, ?_⟩
  rw [hwalk, show 4 - k = (4 - (k + 1)) + 1 by omega, List.range'_succ]

/-- An entry that cannot be read. -/
theorem State.LevelsGood.finalPte_unread {s : State} {va : Word} {k : Nat} (h : s.LevelsGood va k) (hk : k < 4)
    (hread : s.busOk (s.entryAddr va k) .word .read = false) (kind : Access) :
    s.finalPte va kind = .error (addressInterrupt .vatfail va) := by
  obtain ⟨rest, last, hwalk⟩ := h.finalPte_level hk kind
  rw [hwalk, s.walk_level, hread]
  rfl

/-- An entry that is not valid. -/
theorem State.LevelsGood.finalPte_invalid {s : State} {va : Word} {k : Nat} (h : s.LevelsGood va k) (hk : k < 4)
    (hread : s.busOk (s.entryAddr va k) .word .read = true) (hvalid : (s.entryAt va k).getLsbD 0 = false) (kind : Access) :
    s.finalPte va kind = .error (pteInterrupt (accessCause kind) va (s.entryAt va k)) := by
  obtain ⟨rest, last, hwalk⟩ := h.finalPte_level hk kind
  rw [hwalk, s.walk_level, if_pos hread, hvalid]
  rfl

/-! ### The final entry and the translation -/

/-- The page with the offset, where the final entry gives the permission. -/
theorem applyPte_allowed {va pte : Word} {kind : Access} (hwrite : kind = .write → pte.getLsbD 1 = true)
    (hfetch : kind = .fetch → pte.getLsbD 2 = true) : applyPte va kind pte = .ok ((pte &&& ~~~0xFFF) ||| (va &&& 0xFFF)) := by
  rw [applyPte, if_neg, nextBase_eq]
  rintro (⟨hkind, hno⟩ | ⟨hkind, hno⟩)
  · exact absurd ((hwrite hkind).symm.trans hno) (by decide)
  · exact absurd ((hfetch hkind).symm.trans hno) (by decide)

theorem applyPte_denied {va pte : Word} {kind : Access}
    (h : (kind = .write ∧ pte.getLsbD 1 = false) ∨ (kind = .fetch ∧ pte.getLsbD 2 = false)) :
    applyPte va kind pte = .error (pteInterrupt (accessCause kind) va pte) := if_pos h

theorem State.translate_noncanonical {s : State} (hon : s.statV = true) {va : Word}
    (h : va.extractLsb' 48 16 ≠ (if va.getLsbD 47 then 0xFFFF else 0)) (kind : Access) :
    s.translate va kind = .error (addressInterrupt (accessCause kind) va) := by
  rw [State.translate, if_pos hon, if_neg (mt (canonicalAddr_iff va).1 h)]

/-- Without a cached entry the walk decides. -/
theorem State.Walks.translate_error {s : State} {va : Word} (h : s.Walks va) {kind : Access} {i : Interrupt}
    (hwalk : s.finalPte va kind = .error i) : s.translate va kind = .error i := by
  obtain ⟨hon, hcanonical, hmiss⟩ := h
  rw [State.translate, if_pos hon, if_pos ((canonicalAddr_iff va).2 hcanonical), hmiss, hwalk]

theorem State.Walks.translate_ok {s : State} {va pte : Word} (h : s.Walks va) {kind : Access}
    (hwalk : s.finalPte va kind = .ok pte) : s.translate va kind = applyPte va kind pte := by
  obtain ⟨hon, hcanonical, hmiss⟩ := h
  rw [State.translate, if_pos hon, if_pos ((canonicalAddr_iff va).2 hcanonical), hmiss, hwalk]

/-- The first entry for the page is the one that the translation cache gives. -/
theorem State.Hits.cachedPte {s : State} {va pte : Word} (h : s.Hits va pte) : s.cachedPte va = some pte := by
  obtain ⟨_, _, hunit, before, t, after, hsplit, hpage, hpte, hbefore⟩ := h
  have hfind : s.currentTcache.find? (fun x => x.page == va.toNat / 4096) = some t := by
    rw [List.find?_eq_some_iff_append]
    exact ⟨beq_iff_eq.2 hpage, before, after, hsplit, fun x hx => by simpa using hbefore x hx⟩
  rw [State.cachedPte, if_pos hunit, hfind, ← hpte]

/-- A cached entry translates without a walk. -/
theorem State.Hits.translate {s : State} {va pte : Word} (h : s.Hits va pte) (kind : Access) :
    s.translate va kind = applyPte va kind pte := by
  have ⟨hon, hcanonical, _⟩ := h
  rw [State.translate, if_pos hon, if_pos ((canonicalAddr_iff va).2 hcanonical), h.cachedPte]

end Sys2Proof.Machine

open Sys2Proof Sys2Proof.Machine

/-- Settles O38: the table of causes, translation off, and the canonical form. -/
theorem translationOffAndNonCanonical : Obligations.TranslationOffAndNonCanonical := by
  refine ⟨⟨rfl, rfl, rfl⟩, by decide, fun c => ⟨causeNumber c, ?_⟩, fun s va kind => ⟨fun hoff => ?_, fun hon hnot => ?_⟩⟩
  · cases c <;> decide
  · exact s.translate_off hoff va kind
  · exact s.translate_noncanonical hon hnot kind

/-- Settles O39: the entry of the last level, or the cached one, allows the access. -/
theorem fourGoodLevelsTranslate : Obligations.FourGoodLevelsTranslate := by
  refine fun s va kind => ⟨fun hwalks hgood hwrite hfetch => ?_, fun pte hhits hwrite hfetch => ?_⟩
  · rw [hwalks.translate_ok (hgood.finalPte_four kind), applyPte_allowed hwrite hfetch]
  · rw [hhits.translate kind, applyPte_allowed hwrite hfetch]

/-- Settles O40: a cached entry without the permission; an entry unread, one not valid, a final one without the permission. -/
theorem walkFailsAtTheFirstBadLevel : Obligations.WalkFailsAtTheFirstBadLevel := by
  refine fun s va kind => ⟨fun pte hhits hdenied => ?_, fun hwalks => ⟨fun k hk hgood hread => ?_,
    fun k hk hgood hread hvalid => ?_, fun hgood hdenied => ?_⟩⟩
  · rw [hhits.translate kind, applyPte_denied hdenied]; rfl
  · exact hwalks.translate_error (hgood.finalPte_unread hk hread kind)
  · exact hwalks.translate_error (hgood.finalPte_invalid hk hread hvalid kind)
  · rw [hwalks.translate_ok (hgood.finalPte_four kind), applyPte_denied hdenied]; rfl
end

section
/-!
PROOFS. Pseudo-instructions (48_pseudo_instructions.md): a value put together by `ssi`, quarter-word by quarter-word, and the jump that
adds the rest.
-/
namespace Sys2Proof.Machine

/-! ### Bits of values and distances -/

theorem getLsbD_quarterWord (v : Word) (n k : Nat) : (quarterWord v n).getLsbD k = (decide (k < 16) && v.getLsbD (16 * n + k)) :=
  BitVec.getLsbD_extractLsb' ..

theorem getLsbD_and_upper (v : Word) {k : Nat} (hk : k < 64) :
    (v &&& ~~~0xFFFF).getLsbD k = (decide (16 ≤ k) && v.getLsbD k) := by
  have hge : (!decide (k < 16)) = decide (16 ≤ k) := by rw [← decide_not]; simp only [Nat.not_lt]
  rw [BitVec.getLsbD_and, BitVec.getLsbD_not, getLsbD_quarterMask, Bool.and_comm, hge]
  simp only [hk, decide_true, Bool.true_and]

/-- The low two bits of a multiple of 4. -/
theorem getLsbD_of_and_three {v : Word} (h : v &&& 3 = 0) {k : Nat} (hk : k < 2) : v.getLsbD k = false := by
  have hbit : (v &&& 3).getLsbD k = v.getLsbD k := by
    have hmask : ∀ j < 2, (3 : Word).getLsbD j = true := by decide
    rw [BitVec.getLsbD_and, hmask k hk, Bool.and_true]
  rw [← hbit, h]
  exact BitVec.getLsbD_zero

/-- The bits from 16 up and, shifted back, the bits 15 to 2 of a multiple of 4 make it up (R240, R241). -/
theorem upper_add_jump {v : Word} (h : v &&& 3 = 0) :
    (v &&& ~~~0xFFFF : Word) + (zext (v.extractLsb' 2 14) <<< 2) = v := by
  have hjump : ∀ k < 64, (zext (v.extractLsb' 2 14) <<< 2).getLsbD k = (decide (k < 16) && v.getLsbD k) := by
    intro k hk
    rw [BitVec.getLsbD_shiftLeft]
    by_cases hlow : k < 2
    · simp [hlow, getLsbD_of_and_three h hlow]
    · have hmid : k - 2 < 14 ↔ k < 16 := by omega
      rw [getLsbD_zext _ (by omega), BitVec.getLsbD_extractLsb', show 2 + (k - 2) = k by omega]
      simp [hk, hlow, hmid]
  have hdisjoint : (v &&& ~~~0xFFFF : Word) &&& (zext (v.extractLsb' 2 14) <<< 2) = 0 := by
    apply BitVec.eq_of_getLsbD_eq
    intro k hk
    rw [BitVec.getLsbD_and, getLsbD_and_upper v hk, hjump k hk]
    by_cases hlow : k < 16
    · simp [Nat.not_le.2 hlow]
    · simp [hlow]
  rw [BitVec.add_eq_or_of_and_eq_zero _ _ hdisjoint]
  apply BitVec.eq_of_getLsbD_eq
  intro k hk
  rw [BitVec.getLsbD_or, getLsbD_and_upper v hk, hjump k hk]
  by_cases hlow : k < 16
  · simp [hlow]
  · simp [hlow, Nat.not_lt.1 hlow]

/-- A distance of 32 signed bits has its highest bit in all the upper ones. -/
theorem getLsbD_of_signed_half {d : Word} (h : (d.setWidth 32).signExtend 64 = d) {k : Nat} (hk : k < 64) :
    d.getLsbD k = if k < 32 then d.getLsbD k else d.getLsbD 31 := by
  split
  · rfl
  · next hlow =>
    conv_lhs => rw [← h]
    rw [BitVec.getLsbD_signExtend, BitVec.msb_eq_getLsbD_last, BitVec.getLsbD_setWidth]
    simp [hk, hlow]

/-! ### Values put together -/

/-- `ssi.c` with quarter-word 1 of a distance of 32 signed bits (R240). -/
theorem setShifted_call {d : Word} (h : (d.setWidth 32).signExtend 64 = d) (old : Word) :
    setShifted old true 1 (quarterWord d 1) = d &&& ~~~0xFFFF := by
  apply BitVec.eq_of_getLsbD_eq
  intro k hk
  rw [getLsbD_setShifted_clear old 1 _ hk, getLsbD_and_upper d hk, getLsbD_quarterWord, getLsbD_quarterWord]
  simp only [show (1 : BitVec 2).toNat = 1 from rfl]
  by_cases hlow : k < 16
  · simp [hlow, Nat.not_le.2 hlow]
  · by_cases hmid : k < 32
    · simp [hlow, Nat.not_lt.1 hlow, hmid, show k - 16 < 16 by omega, show 16 + (k - 16) = k by omega]
    · have hsign := getLsbD_of_signed_half h hk
      rw [if_neg hmid] at hsign
      simp [hlow, Nat.not_lt.1 hlow, hmid, hsign]

/-- The upper three quarter-words (R241). -/
theorem setShifted_upper (v old : Word) :
    setShifted (setShifted (setShifted old true 3 (quarterWord v 3)) false 2 (quarterWord v 2)) false 1 (quarterWord v 1) =
      v &&& ~~~0xFFFF := by
  apply BitVec.eq_of_getLsbD_eq
  intro k hk
  rw [getLsbD_setShifted_keep _ 1 _ hk, getLsbD_setShifted_keep _ 2 _ hk, getLsbD_setShifted_clear _ 3 _ hk, getLsbD_and_upper v hk]
  simp only [getLsbD_quarterWord, show (1 : BitVec 2).toNat = 1 from rfl, show (2 : BitVec 2).toNat = 2 from rfl,
    show (3 : BitVec 2).toNat = 3 from rfl]
  rcases (by omega : k < 16 ∨ (16 ≤ k ∧ k < 32) ∨ (32 ≤ k ∧ k < 48) ∨ 48 ≤ k) with hq | hq | hq | hq
  · simp [show ¬ 16 ≤ k by omega, show ¬ 32 ≤ k by omega, show k < 48 by omega]
  · simp [hq, show k - 16 < 16 by omega, show 16 + (k - 16) = k by omega]
  · simp [hq, show ¬ k < 32 by omega, show 16 ≤ k by omega, show k - 32 < 16 by omega, show 32 + (k - 32) = k by omega]
  · simp [hk, show ¬ k < 32 by omega, show ¬ k < 48 by omega, show 16 ≤ k by omega, show k - 48 < 16 by omega,
      show 48 + (k - 48) = k by omega]

/-- All four quarter-words (R242). -/
theorem setShifted_whole (v : Word) : setShifted (v &&& ~~~0xFFFF) false 0 (quarterWord v 0) = v := by
  apply BitVec.eq_of_getLsbD_eq
  intro k hk
  rw [getLsbD_setShifted_keep _ 0 _ hk, getLsbD_and_upper v hk, getLsbD_quarterWord]
  by_cases hlow : k < 16
  · simp [hlow]
  · simp [hlow, Nat.not_lt.1 hlow]

/-! ### Register writes in a row -/

theorem State.getReg_setReg_same (s : State) {r : Reg} (hzero : r ≠ 0) (hip : r ≠ 31) (v : Word) : (s.setReg r v).getReg r = v := by
  rw [State.getReg_setReg, if_pos ⟨rfl, hzero, hip⟩]

/-- The later of two writes to a register stands. -/
theorem State.setReg_setReg (s : State) (r : Reg) (v w : Word) : (s.setReg r v).setReg r w = s.setReg r w := by
  unfold State.setReg
  split
  · rfl
  · split
    · rw [Vector.set_set]
    · rfl

theorem State.setReg_zero (s : State) (v : Word) : s.setReg 0 v = s := rfl

/-- What is written to `zr` or `ip` does not matter. -/
theorem State.setReg_congr (s : State) {r : Reg} {v w : Word} (h : r ≠ 0 → r ≠ 31 → v = w) : s.setReg r v = s.setReg r w := by
  by_cases hzero : r = 0
  · rw [hzero, s.setReg_zero, s.setReg_zero]
  · by_cases hip : r = 31
    · rw [hip, s.setReg_ip, s.setReg_ip]
    · rw [h hzero hip]

theorem State.setPc_setReg (s : State) (r : Reg) (v p : Word) : (s.setReg r v).setPc p = (s.setPc p).setReg r v := by
  unfold State.setReg
  split
  · rfl
  · split <;> rfl

/-! ### Instructions in a row -/

theorem State.runs_cons {s t : State} {ins : Instr} (h : exec ins (s.setPc (s.pc + 4)) = .next t) (rest : List Instr) :
    s.runs (ins :: rest) = t.runs rest := by
  rw [State.runs, h]

/-- `ssi` after a write of its register. -/
theorem State.runs_ssi (s : State) (r : Reg) (p v : Word) (c : Bool) (sh : BitVec 2) (val : BitVec 16) (rest : List Instr) :
    ((s.setPc p).setReg r v).runs (.ssi r c sh val :: rest) =
      ((s.setPc (p + 4)).setReg r (setShifted v c sh val)).runs rest := by
  apply State.runs_cons
  rw [exec_ssi, State.setReg_pc, State.setPc_setReg, State.setReg_setReg]
  exact congrArg _ (State.setReg_congr _ fun hzero hip => by rw [State.getReg_setReg_same _ hzero hip])

/-- `ssi` as the first instruction. -/
theorem State.runs_first_ssi (s : State) (r : Reg) (c : Bool) (sh : BitVec 2) (val : BitVec 16) (rest : List Instr) :
    s.runs (.ssi r c sh val :: rest) =
      ((s.setPc (s.pc + 4)).setReg r (setShifted ((s.setPc (s.pc + 4)).getReg r) c sh val)).runs rest := rfl

/-- The three `ssi` that set the upper quarter-words. -/
theorem State.runs_upper (s : State) (r : Reg) (v : Word) (rest : List Instr) :
    s.runs (.ssi r true 3 (quarterWord v 3) :: .ssi r false 2 (quarterWord v 2) :: .ssi r false 1 (quarterWord v 1) :: rest) =
      ((s.setPc (s.pc + 12)).setReg r (v &&& ~~~0xFFFF)).runs rest := by
  rw [s.runs_first_ssi, State.runs_ssi, State.runs_ssi, setShifted_upper, BitVec.add_assoc, BitVec.add_assoc]
  rfl

/-- `jl` through the register written before, as the last instruction. -/
theorem State.runs_jl (s : State) (r1 : Reg) {r2 : Reg} (hzero : r2 ≠ 0) (hip : r2 ≠ 31) (p v : Word) (imm14 : BitVec 14) :
    ((s.setPc p).setReg r2 v).runs [.jl r1 r2 imm14] =
      some (((s.setPc (v + (zext imm14 <<< 2))).setReg r2 v).setReg r1 (p + 4)) := by
  have hexec := exec_jl r1 r2 imm14 (((s.setPc p).setReg r2 v).setPc (((s.setPc p).setReg r2 v).pc + 4))
  rw [State.runs_cons hexec, State.setReg_pc, State.setPc_setReg, State.setPc_setReg, State.jumpTarget,
    State.getReg_setReg_same _ hzero hip, State.setReg_pc]
  rfl

/-- `jlr` likewise. -/
theorem State.runs_jlr (s : State) (r1 : Reg) {r2 : Reg} (hzero : r2 ≠ 0) (hip : r2 ≠ 31) (p v : Word) (imm14 : BitVec 14) :
    ((s.setPc p).setReg r2 v).runs [.jlr r1 r2 imm14] =
      some (((s.setPc (p + (4 : Word) + v + (zext imm14 <<< 2))).setReg r2 v).setReg r1 (p + 4)) := by
  have hexec := exec_jlr r1 r2 imm14 (((s.setPc p).setReg r2 v).setPc (((s.setPc p).setReg r2 v).pc + 4))
  rw [State.runs_cons hexec, State.setReg_pc, State.setPc_setReg, State.setPc_setReg, State.relativeTarget,
    State.getReg_setReg_same _ hzero hip, State.setReg_pc]
  rfl

/-! ### The expansions -/

theorem State.runs_nop (s : State) : s.runs (Pseudo.nop.expand s.pc) = some (s.setPc (s.pc + 4)) := rfl

theorem State.runs_ret (s : State) (r1 : Reg) :
    s.runs ((Pseudo.ret r1).expand s.pc) = some (s.setPc ((s.setPc (s.pc + 4)).getReg r1)) := by
  have htarget : (s.setPc (s.pc + 4)).jumpTarget r1 0 = (s.setPc (s.pc + 4)).getReg r1 := BitVec.add_zero _
  rw [Pseudo.expand, State.runs_cons (exec_jl 0 r1 0 _), State.setReg_zero, htarget]
  rfl

theorem State.runs_mov (s : State) (r1 r2 : Reg) :
    s.runs ((Pseudo.mov r1 r2).expand s.pc) =
      some ((s.setPc (s.pc + 4)).setReg r1 ((s.setPc (s.pc + 4)).getReg r2)) := by
  have hor : ∀ b : State, b.getReg r2 ||| b.orZext 0 0 = b.getReg r2 := fun b => by
    rw [State.orZext, State.getReg_zero, show zext (0 : BitVec 9) = 0 by decide]
    exact BitVec.or_zero
  rw [Pseudo.expand, State.runs_cons rfl, hor]
  rfl

theorem State.runs_li (s : State) (r1 : Reg) (v : Word) :
    s.runs ((Pseudo.li r1 v).expand s.pc) = some ((s.setPc (s.pc + 16)).setReg r1 v) := by
  rw [Pseudo.expand, s.runs_upper, State.runs_ssi, setShifted_whole, BitVec.add_assoc]
  rfl

/-- `fcall` reaches its symbol. -/
theorem State.runs_fcall (s : State) (r1 : Reg) {r2 : Reg} (hzero : r2 ≠ 0) (hip : r2 ≠ 31) {v : Word} (hv : v &&& 3 = 0) :
    s.runs ((Pseudo.fcall r1 r2 v).expand s.pc) =
      some (((s.setPc v).setReg r2 (v &&& ~~~0xFFFF)).setReg r1 (s.pc + 16)) := by
  rw [Pseudo.expand, s.runs_upper, State.runs_jl _ _ hzero hip, upper_add_jump hv, BitVec.add_assoc]
  rfl

/-- The expansion of `call` lands its distance after the end of itself. -/
theorem State.runs_callOver (s : State) (r1 : Reg) {r2 : Reg} (hzero : r2 ≠ 0) (hip : r2 ≠ 31) {d : Word} (hd : d &&& 3 = 0)
    (hfits : (d.setWidth 32).signExtend 64 = d) :
    s.runs (callOver r1 r2 d) =
      some (((s.setPc (s.pc + 8 + d)).setReg r2 (d &&& ~~~0xFFFF)).setReg r1 (s.pc + 8)) := by
  have hnext : s.pc + 4 + 4 = s.pc + 8 := BitVec.add_assoc ..
  rw [callOver, s.runs_first_ssi, setShifted_call hfits, State.runs_jlr _ _ hzero hip, hnext, BitVec.add_assoc, upper_add_jump hd]

end Sys2Proof.Machine

open Sys2Proof Sys2Proof.Machine

/-- Settles O22: what each expansion runs to; a call's distance, counted from the end of its expansion, gives its target. -/
theorem pseudoInstructionsTakeEffect : Obligations.PseudoInstructionsTakeEffect := by
  intro s r1 r2 v
  refine ⟨s.runs_nop, ⟨_, s.runs_mov r1 r2, State.onlyReg_setReg ..⟩, s.runs_ret r1,
    ⟨_, s.runs_li r1 v, State.onlyReg_setReg ..⟩, fun hzero hip => ⟨fun hv => ?_, fun hreach => ?_, fun hreach => ?_⟩⟩
  · exact ⟨_, _, s.runs_fcall r1 hzero hip hv, State.onlyReg_setReg .., State.onlyReg_setReg ..⟩
  · have hland : s.pc + 8 + (v - s.pc) = v + 8 := by ring
    have hrun := s.runs_callOver r1 hzero hip hreach.1 hreach.2
    rw [hland] at hrun
    exact ⟨_, _, hrun, State.onlyReg_setReg .., State.onlyReg_setReg ..⟩
  · have hland : s.pc + 8 + (v - s.pc - 8) = v := by ring
    have hrun := s.runs_callOver r1 hzero hip hreach.1 hreach.2
    rw [hland] at hrun
    exact ⟨_, _, hrun, State.onlyReg_setReg .., State.onlyReg_setReg ..⟩
end

section
/-!
PROOFS. Loads and stores (40_loads.md, 41_stores.md): the address and its checks, what each shape of access does when it completes, and
the interrupts that end it.
-/
namespace Sys2Proof.Machine

/-! ### The address -/

theorem sizeBytes_eq (sz : AccessSize) : sizeBytes sz = 2 ^ sizeShift sz := by cases sz <;> rfl

/-- An offset counts units of the access size (30_encoding.md R95). -/
theorem scaledOffset_eq (sz : AccessSize) (imm9 : BitVec 9) :
    scaledOffset sz imm9 = BitVec.ofNat 64 (imm9.toNat * sizeBytes sz) := by
  apply BitVec.eq_of_toNat_eq
  rw [scaledOffset, BitVec.toNat_shiftLeft, toNat_zext (by decide), BitVec.toNat_ofNat, Nat.shiftLeft_eq, sizeBytes_eq]

theorem State.indexedAddr_eq (s : State) (sz : AccessSize) (r2 r3 : Reg) (imm9 : BitVec 9) :
    s.indexedAddr sz r2 r3 imm9 = s.offsetAddr sz r2 r3 imm9 := by
  rw [State.indexedAddr, scaledOffset_eq, State.offsetAddr]

theorem State.conditionalAddr_eq (s : State) (sz : AccessSize) (r3 : Reg) (imm9 : BitVec 9) :
    s.conditionalAddr sz r3 imm9 = s.getReg r3 + BitVec.ofNat 64 (imm9.toNat * sizeBytes sz) := by
  rw [State.conditionalAddr, scaledOffset_eq]

/-! ### The checks of an access -/

theorem State.aligned_iff {s : State} {addr : Word} {sz : AccessSize} {kind : Access} (hk : kind ≠ .fetch) :
    s.aligned addr sz kind = true ↔ s.AlignedAt addr sz := by
  rw [State.aligned_data hk, State.AlignedAt]
  cases s.platform.dataAlign <;> simp

/-- An aligned access goes on to its translation. -/
theorem State.AlignedAt.accessAddr {s : State} {addr : Word} {sz : AccessSize} (h : s.AlignedAt addr sz) {kind : Access}
    (hk : kind ≠ .fetch) : s.accessAddr addr sz kind = s.translate addr kind :=
  State.accessAddr_aligned ((State.aligned_iff hk).2 h)

/-- An access that is not aligned raises before translation. -/
theorem State.accessAddr_of_not_alignedAt {s : State} {addr : Word} {sz : AccessSize} (h : ¬ s.AlignedAt addr sz) {kind : Access}
    (hk : kind ≠ .fetch) : s.accessAddr addr sz kind = .error (addressInterrupt (unalignedCause kind) addr) :=
  State.accessAddr_unaligned (mt (State.aligned_iff hk).1 h)

/-! ### What each shape does -/

theorem State.load_eq_of_error {s : State} {sz : AccessSize} {r2 r3 : Reg} {imm9 : BitVec 9} {i : Interrupt}
    (h : s.accessAddr (s.offsetAddr sz r2 r3 imm9) sz .read = .error i) (r1 : Reg) : s.load sz r1 r2 r3 imm9 = s.raised i := by
  rw [State.load, State.memRead, s.indexedAddr_eq, h]

theorem State.load_eq {s : State} {sz : AccessSize} {r2 r3 : Reg} {imm9 : BitVec 9} {pa : Word}
    (h : s.accessAddr (s.offsetAddr sz r2 r3 imm9) sz .read = .ok pa) (r1 : Reg) :
    s.load sz r1 r2 r3 imm9 =
      if s.busOk pa sz .read then
        .next ((s.issue pa sz .load).setReg r1 ((s.effectPoint pa (sizeBytes sz)).loadValue pa (sizeBytes sz)))
      else s.raised (addressInterrupt .busr (s.offsetAddr sz r2 r3 imm9)) := by
  simp only [State.load, State.memRead, s.indexedAddr_eq, h]
  cases s.busOk pa sz .read <;> rfl

theorem State.loadLock_eq_of_error {s : State} {sz : AccessSize} {r2 r3 : Reg} {imm9 : BitVec 9} {i : Interrupt}
    (h : s.accessAddr (s.offsetAddr sz r2 r3 imm9) sz .read = .error i) (r1 : Reg) :
    s.loadLock sz r1 r2 r3 imm9 = (s.withLock sz (s.offsetAddr sz r2 r3 imm9) s.lock.paddr).raised i := by
  simp only [State.loadLock, s.indexedAddr_eq, h, State.lockOn_eq_withLock]

theorem State.loadLock_eq {s : State} {sz : AccessSize} {r2 r3 : Reg} {imm9 : BitVec 9} {pa : Word}
    (h : s.accessAddr (s.offsetAddr sz r2 r3 imm9) sz .read = .ok pa) (r1 : Reg) :
    s.loadLock sz r1 r2 r3 imm9 =
      if s.busOk pa sz .read then
        .next (((s.withLock sz (s.offsetAddr sz r2 r3 imm9) pa).issue pa sz .loadLock).setReg r1
          ((s.effectPoint pa (sizeBytes sz)).loadValue pa (sizeBytes sz)))
      else (s.withLock sz (s.offsetAddr sz r2 r3 imm9) pa).raised (addressInterrupt .busr (s.offsetAddr sz r2 r3 imm9)) := by
  simp only [State.loadLock, s.indexedAddr_eq, h, State.lockOn_eq_withLock]

theorem State.store_eq_of_error {s : State} {sz : AccessSize} {r2 r3 : Reg} {imm9 : BitVec 9} {i : Interrupt}
    (h : s.accessAddr (s.offsetAddr sz r2 r3 imm9) sz .write = .error i) (r1 : Reg) : s.store sz r1 r2 r3 imm9 = s.raised i := by
  rw [State.store, State.memWrite, s.indexedAddr_eq, h]

theorem State.store_eq {s : State} {sz : AccessSize} {r2 r3 : Reg} {imm9 : BitVec 9} {pa : Word}
    (h : s.accessAddr (s.offsetAddr sz r2 r3 imm9) sz .write = .ok pa) (r1 : Reg) :
    s.store sz r1 r2 r3 imm9 =
      if s.busOk pa sz .write then .next (s.issue pa sz (.store (s.getReg r1)))
      else s.raised (addressInterrupt .busw (s.offsetAddr sz r2 r3 imm9)) := by
  simp only [State.store, State.memWrite, s.indexedAddr_eq, h]
  cases s.busOk pa sz .write <;> rfl

theorem State.storeConditional_eq_of_error {s : State} {sz : AccessSize} {r3 : Reg} {imm9 : BitVec 9} {i : Interrupt}
    (h : s.accessAddr (s.getReg r3 + BitVec.ofNat 64 (imm9.toNat * sizeBytes sz)) sz .write = .error i) (r1 r2 : Reg) :
    s.storeConditional sz r1 r2 r3 imm9 = s.raised i := by
  simp only [State.storeConditional, s.conditionalAddr_eq, h]

theorem State.storeConditional_eq {s : State} {sz : AccessSize} {r3 : Reg} {imm9 : BitVec 9} {addr pa : Word}
    (haddr : s.getReg r3 + BitVec.ofNat 64 (imm9.toNat * sizeBytes sz) = addr) (h : s.accessAddr addr sz .write = .ok pa)
    (r1 r2 : Reg) :
    s.storeConditional sz r1 r2 r3 imm9 =
      if (s.testPoint addr pa sz).lockHolds addr sz then
        if s.busOk pa sz .write then
          .next ((s.issueAfter (s.conditionalWait addr pa sz) pa sz (.store (s.getReg r1))).unlock.setReg r2 1)
        else s.raised (addressInterrupt .busw addr)
      else .next ((s.testPoint addr pa sz).setReg r2 0) := by
  simp only [State.storeConditional, s.conditionalAddr_eq, haddr, h]

/-- The test of a store-conditional, as the claims write it. -/
theorem State.lockHolds_iff (s : State) (addr : Word) (sz : AccessSize) :
    s.lockHolds addr sz = true ↔ s.lock.locked = true ∧ s.lock.address = addr ∧ s.lock.width = sz := by
  simp only [State.lockHolds, Bool.and_eq_true, beq_iff_eq, and_assoc]

/-! ### The instructions of each shape -/

theorem exec_plainLoad {p : (Reg → Reg → Reg → BitVec 9 → Instr) × AccessSize} (hp : p ∈ plainLoads) (r1 r2 r3 : Reg)
    (imm9 : BitVec 9) (s : State) : exec (p.1 r1 r2 r3 imm9) s = s.load p.2 r1 r2 r3 imm9 := by
  revert p
  simp only [plainLoads, List.forall_mem_cons]
  exact ⟨rfl, rfl, rfl, rfl, by simp⟩

theorem exec_loadLock {p : (Reg → Reg → Reg → BitVec 9 → Instr) × AccessSize} (hp : p ∈ loadLocks) (r1 r2 r3 : Reg)
    (imm9 : BitVec 9) (s : State) : exec (p.1 r1 r2 r3 imm9) s = s.loadLock p.2 r1 r2 r3 imm9 := by
  revert p
  simp only [loadLocks, List.forall_mem_cons]
  exact ⟨rfl, rfl, rfl, rfl, by simp⟩

theorem exec_plainStore {p : (Reg → Reg → Reg → BitVec 9 → Instr) × AccessSize} (hp : p ∈ plainStores) (r1 r2 r3 : Reg)
    (imm9 : BitVec 9) (s : State) : exec (p.1 r1 r2 r3 imm9) s = s.store p.2 r1 r2 r3 imm9 := by
  revert p
  simp only [plainStores, List.forall_mem_cons]
  exact ⟨rfl, rfl, rfl, rfl, by simp⟩

theorem exec_storeConditional {p : (Reg → Reg → Reg → BitVec 9 → Instr) × AccessSize} (hp : p ∈ storeConditionals)
    (r1 r2 r3 : Reg) (imm9 : BitVec 9) (s : State) :
    exec (p.1 r1 r2 r3 imm9) s = s.storeConditional p.2 r1 r2 r3 imm9 := by
  revert p
  simp only [storeConditionals, List.forall_mem_cons]
  exact ⟨rfl, rfl, rfl, rfl, by simp⟩

/-- An access that ends by an interrupt enters it from the state that it leaves behind. -/
theorem Entered.of_exec {ins : Instr} {s b : State} {i : Interrupt} (h : exec ins s = b.raised i) :
    ∃ t, exec ins s = .next t ∧ b.completed.Entered t (causeNumber i.cause).val i.val i.pte :=
  ⟨_, h, b.enterInterrupt_entered i⟩

/-! ### Translation of the cache instructions -/

theorem exec_cinval_error {s : State} {r1 : Reg} {i : Interrupt} (h : s.translate (s.getReg r1) .read = .error i) (d f : Bool)
    {m : BitVec 2} (hthree : m ≠ 3) (hall : m ≠ 2) : exec (.cinval r1 d f m) s = s.raised i := by
  rw [exec, execCinval, if_neg hthree, if_neg hall, h]

theorem exec_cfetch_error {s : State} {r1 : Reg} {i : Interrupt} (h : s.translate (s.getReg r1) .read = .error i) (l w f : Bool) :
    exec (.cfetch r1 l w f) s = s.raised i := by
  rw [exec, execCfetch, h]

end Sys2Proof.Machine

open Sys2Proof Sys2Proof.Machine

/-- Settles O29: the alignment check comes first in all four shapes. -/
theorem unalignedAccessesRaise : Obligations.UnalignedAccessesRaise := by
  refine ⟨fun p hp s r1 r2 r3 imm9 hnot => ?_, fun p hp s r1 r2 r3 imm9 hnot => ?_, fun p hp s r1 r2 r3 imm9 hnot => ?_,
    fun p hp s r1 r2 r3 imm9 hnot => ?_⟩
  · exact .of_exec ((exec_plainLoad hp ..).trans (State.load_eq_of_error (State.accessAddr_of_not_alignedAt hnot (by decide)) r1))
  · exact Entered.of_exec ((exec_loadLock hp ..).trans
      (State.loadLock_eq_of_error (State.accessAddr_of_not_alignedAt hnot (by decide)) r1))
  · exact .of_exec ((exec_plainStore hp ..).trans (State.store_eq_of_error (State.accessAddr_of_not_alignedAt hnot (by decide)) r1))
  · exact .of_exec ((exec_storeConditional hp ..).trans
      (State.storeConditional_eq_of_error (State.accessAddr_of_not_alignedAt hnot (by decide)) r1 r2))

/-- Settles O31: translation comes next, and its interrupt ends the instruction. -/
theorem failedTranslationsRaise : Obligations.FailedTranslationsRaise := by
  refine fun s r1 r2 r3 imm9 i => ⟨fun p hp hal htr => ?_, fun p hp hal htr => ?_, fun p hp hal htr => ?_,
    fun p hp hal htr => ?_, fun htr => ⟨fun d f => ⟨?_, ?_⟩, fun l w f => ?_⟩⟩
  · exact .of_exec ((exec_plainLoad hp ..).trans (State.load_eq_of_error ((hal.accessAddr (by decide)).trans htr) r1))
  · exact Entered.of_exec ((exec_loadLock hp ..).trans (State.loadLock_eq_of_error ((hal.accessAddr (by decide)).trans htr) r1))
  · exact .of_exec ((exec_plainStore hp ..).trans (State.store_eq_of_error ((hal.accessAddr (by decide)).trans htr) r1))
  · exact .of_exec ((exec_storeConditional hp ..).trans
      (State.storeConditional_eq_of_error ((hal.accessAddr (by decide)).trans htr) r1 r2))
  · exact .of_exec (exec_cinval_error htr d f (by decide) (by decide))
  · exact .of_exec (exec_cinval_error htr d f (by decide) (by decide))
  · exact .of_exec (exec_cfetch_error htr l w f)

/-- Settles O30: the bus is asked last; by a store-conditional only where the lock holds. -/
theorem refusedAccessesRaise : Obligations.RefusedAccessesRaise := by
  refine ⟨fun p hp s r1 r2 r3 imm9 pa hal htr hbus => ?_, fun p hp s r1 r2 r3 imm9 pa hal htr hbus => ?_,
    fun p hp s r1 r2 r3 imm9 pa hal htr hbus => ?_,
    fun p hp s r1 r2 r3 imm9 pa hal htr hbus hlocked haddress hwidth => ?_⟩
  · have hload := State.load_eq ((hal.accessAddr (by decide)).trans htr) r1
    rw [hbus] at hload
    exact .of_exec ((exec_plainLoad hp ..).trans hload)
  · have hload := State.loadLock_eq ((hal.accessAddr (by decide)).trans htr) r1
    rw [hbus] at hload
    exact Entered.of_exec ((exec_loadLock hp ..).trans hload)
  · have hstore := State.store_eq ((hal.accessAddr (by decide)).trans htr) r1
    rw [hbus] at hstore
    exact .of_exec ((exec_plainStore hp ..).trans hstore)
  · have hstore := State.storeConditional_eq rfl ((hal.accessAddr (by decide)).trans htr) r1 r2
    rw [if_pos ((State.lockHolds_iff ..).2 ⟨hlocked, haddress, hwidth⟩), hbus] at hstore
    exact .of_exec ((exec_storeConditional hp ..).trans hstore)
end

section
/-!
PROOFS. Accesses that complete (20_memory.md R40 to R56): what a load returns, what a store changes, the lock state through both, and
the store-conditional on its two paths.
-/
namespace Sys2Proof.Machine

/-! ### Bytes -/

theorem byteOf_eq (v : Word) (k : Nat) : byteOf v k = v.extractLsb' (8 * k) 8 := by
  apply BitVec.eq_of_getLsbD_eq
  intro j hj
  simp [byteOf, hj]

/-- A load returns the bytes, little-endian, extended with zeros. -/
theorem State.bytesAt_loadValue (s : State) (pa : Word) (sz : AccessSize) : s.BytesAt pa sz (s.loadValue pa (sizeBytes sz)) :=
  fun _ hk => getLsbD_assemble s.loadByte pa (sizeBytes sz) _ hk

/-- The byte that a store writes, or the one before. -/
theorem Store.getD_byteAt (st : Store) (a : Word) (b : Byte) :
    (st.byteAt a).getD b =
      if (a - st.addr).toNat < sizeBytes st.size then st.value.extractLsb' (8 * (a - st.addr).toNat) 8 else b := by
  rw [Store.byteAt, ← byteOf_eq]
  split <;> rfl

/-! ### The lock state and a store -/

/-- When a store unlocks: by overlap, or with the larger granule by touching the block. -/
theorem unlocks_iff (p : Platform) (lk : Lock) (st : Store) :
    unlocks p lk st = true ↔
      overlaps lk.paddr (sizeBytes lk.width) st.addr (sizeBytes st.size) = true ∨
        (p.lockGranule = .block64 ∧ overlaps (lk.paddr &&& ~~~63) 64 st.addr (sizeBytes st.size) = true) := by
  unfold unlocks
  cases p.lockGranule with
  | exact => simp
  | block64 => simp

theorem State.lockAfter_of_pending {s : State} (h : s.lockPending = true) (st : Store) : s.lockAfter st = s.lock := by
  rw [State.lockAfter, h]
  rfl

theorem State.lockAfter_of_unlocks {s : State} {st : Store} (h : s.lockPending = false) (hst : unlocks s.platform s.lock st = true) :
    s.lockAfter st = { s.lock with locked := false } := by
  rw [State.lockAfter, h, hst]
  rfl

theorem State.lockAfter_of_not_unlocks {s : State} {st : Store} (hst : ¬ unlocks s.platform s.lock st = true) :
    s.lockAfter st = s.lock := by
  rw [State.lockAfter, eq_false_of_ne_true hst, Bool.and_false]
  rfl

/-- A store that overlaps the locked bytes unlocks. -/
theorem State.lockAfter_of_overlapsLock {s : State} {st : Store} (h : s.lockPending = false) (hst : s.OverlapsLock st.addr st.size) :
    s.lockAfter st = { s.lock with locked := false } :=
  State.lockAfter_of_unlocks h ((unlocks_iff ..).2 (.inl hst))

/-- With the exact granule no other store unlocks. -/
theorem State.lockAfter_exact {s : State} {st : Store} (hgranule : s.platform.lockGranule = .exact)
    (hst : ¬ s.OverlapsLock st.addr st.size) : s.lockAfter st = s.lock := by
  refine State.lockAfter_of_not_unlocks fun hunlocks => ?_
  rcases (unlocks_iff ..).1 hunlocks with hover | ⟨hblock, _⟩
  · exact hst hover
  · exact absurd (hgranule.symm.trans hblock) (by decide)

/-! ### Issuing -/

theorem State.issue_of_waitFor_zero {s : State} {pa : Word} {sz : AccessSize} (h : s.waitFor pa (sizeBytes sz) = 0)
    (eff : AccessEffect) : s.issue pa sz eff = s.performed { addr := pa, size := sz, effect := eff, wait := 0 } := by
  rw [State.issue, h]
  rfl

theorem State.queued_of_waitFor_succ {s : State} {pa : Word} {sz : AccessSize} {k : Nat}
    (h : s.waitFor pa (sizeBytes sz) = k + 1) (eff : AccessEffect) : s.Queued (s.issue pa sz eff) pa sz eff k := by
  rw [State.issue, h]
  rfl

theorem State.InTurn.effectPoint {s : State} {pa : Word} {sz : AccessSize} (h : s.InTurn pa sz) :
    s.effectPoint pa (sizeBytes sz) = s := by
  rw [State.effectPoint, h.waitFor]
  rfl

/-- A new lock state changes no pending access's bytes and delay. -/
theorem State.waitFor_withLock (s : State) (sz : AccessSize) (addr pa a : Word) (n : Nat) :
    (s.withLock sz addr pa).waitFor a n = s.waitFor a n := by
  have hover : (s.withLock sz addr pa).overlapWait a n = s.overlapWait a n := by
    rw [← State.lockOn_eq_withLock]
    exact List.foldr_map ..
  rw [State.waitFor, hover]
  rfl

/-! ### Stores -/

/-- A store that takes effect at once. -/
theorem State.storedAt_takeEffect (s : State) (pa : Word) (sz : AccessSize) (v : Word) :
    s.StoredAt (s.takeEffect { addr := pa, size := sz, value := v }) pa sz v where
  rest := rfl
  bytes a := (s.loadByte_takeEffect _ a).trans (Store.getD_byteAt ..)
  memory a := (s.memByte_takeEffect _ a).trans (Store.getD_byteAt ..)
  lock := s.lockAfter_cases _

/-- The same with the lock state given up, as a store-conditional does. -/
theorem State.StoredAt.unlock {s t : State} {pa : Word} {sz : AccessSize} {v : Word} (h : s.StoredAt t pa sz v) :
    s.StoredAt t.unlock pa sz v where
  rest := h.rest
  bytes a := (State.loadByte_congr rfl rfl rfl a).trans (h.bytes a)
  memory a := (State.memByte_congr rfl a).trans (h.memory a)
  lock := by
    rcases h.lock with hlock | hlock <;> exact .inr (by rw [State.unlock, hlock])

/-- Unlocking leaves the same lock state whether or not something unlocked before. -/
theorem State.LockKeptOrUnlocked.unlock {s t : State} (h : s.LockKeptOrUnlocked t) :
    t.unlock.lock = { s.lock with locked := false } := by
  rcases h with hlock | hlock <;> rw [State.unlock, hlock]

/-! ### The store-conditional -/

/-- Where the lock does not hold it is tested as it is. -/
theorem State.testPoint_of_not_holds {s : State} {addr : Word} {sz : AccessSize} (h : ¬ s.lockHolds addr sz = true) (pa : Word) :
    s.testPoint addr pa sz = s := if_neg h

theorem State.testPoint_of_holds {s : State} {addr : Word} {sz : AccessSize} (h : s.lockHolds addr sz = true) (pa : Word) :
    s.testPoint addr pa sz = s.elapse (s.overlapWait pa (sizeBytes sz)) := if_pos h

theorem State.testPoint_elapse (s : State) (addr pa : Word) (sz : AccessSize) : ∃ n, s.testPoint addr pa sz = s.elapse n := by
  rcases s.testPoint_cases addr pa sz with h | h
  · exact ⟨0, h⟩
  · exact ⟨_, h⟩

/-- The lock holds where it is tested only if it holds now. -/
theorem State.lockHolds_of_testPoint {s : State} {addr pa : Word} {sz : AccessSize}
    (h : (s.testPoint addr pa sz).lockHolds addr sz = true) : s.lockHolds addr sz = true := by
  by_contra hnot
  rw [State.testPoint_of_not_holds hnot] at h
  exact hnot h

/-- Where the test succeeds, the lock still holds where the store takes effect. -/
theorem State.lockHolds_at_effect {s : State} {addr pa : Word} {sz : AccessSize}
    (h : (s.testPoint addr pa sz).lockHolds addr sz = true) :
    (s.elapse (s.conditionalWait addr pa sz)).lockHolds addr sz = true := by
  unfold State.conditionalWait
  split
  · next heffect => exact heffect
  · rw [← State.testPoint_of_holds (State.lockHolds_of_testPoint h)]
    exact h

end Sys2Proof.Machine

open Sys2Proof Sys2Proof.Machine

/-- Settles O23: the value is that of the bytes where the load takes effect; issuing the load changes nothing, or queues it. -/
theorem loadsReadLittleEndian : Obligations.LoadsReadLittleEndian := by
  intro p hp s r1 r2 r3 imm9 pa hal htr hbus
  have hload := State.load_eq ((hal.accessAddr (by decide)).trans htr) r1
  rw [if_pos hbus] at hload
  have hnow : s.waitFor pa (sizeBytes p.2) = 0 → s.issue pa p.2 .load = s := fun hzero => State.issue_of_waitFor_zero hzero _
  refine ⟨s.issue pa p.2 .load, _, _, (exec_plainLoad hp ..).trans hload, State.onlyReg_setReg .., State.bytesAt_loadValue _ _ _,
    hnow, fun k hk => State.queued_of_waitFor_succ hk _, fun hturn => ⟨hnow hturn.waitFor, ?_⟩⟩
  rw [hturn.effectPoint]
  exact s.bytesAt_loadValue _ _

/-- Settles O24: the lock state is set first, which changes neither the wait nor the bytes read. -/
theorem loadLocksReadAndLock : Obligations.LoadLocksReadAndLock := by
  intro p hp s r1 r2 r3 imm9 pa hal htr hbus l
  have hload := State.loadLock_eq ((hal.accessAddr (by decide)).trans htr) r1
  rw [if_pos hbus] at hload
  have hwait : l.waitFor pa (sizeBytes p.2) = s.waitFor pa (sizeBytes p.2) := s.waitFor_withLock ..
  have hnow : s.waitFor pa (sizeBytes p.2) = 0 → l.issue pa p.2 .loadLock = l := fun hzero =>
    State.issue_of_waitFor_zero (hwait.trans hzero) _
  refine ⟨l.issue pa p.2 .loadLock, _, _, (exec_loadLock hp ..).trans hload, State.onlyReg_setReg .., State.bytesAt_loadValue _ _ _,
    hnow, fun k hk => State.queued_of_waitFor_succ (hwait.trans hk) _, fun hturn => ⟨hnow hturn.waitFor, ?_⟩⟩
  rw [hturn.effectPoint]
  exact s.bytesAt_loadValue _ _

/-- Settles O25: a store without a wait takes effect as it is issued. -/
theorem storesWriteLittleEndian : Obligations.StoresWriteLittleEndian := by
  intro p hp s r1 r2 r3 imm9 pa hal htr hbus
  have hstore := State.store_eq ((hal.accessAddr (by decide)).trans htr) r1
  rw [if_pos hbus] at hstore
  refine ⟨_, (exec_plainStore hp ..).trans hstore, fun hzero => ?_, fun k hk => State.queued_of_waitFor_succ hk _,
    fun hturn => hturn.waitFor⟩
  rw [State.issue_of_waitFor_zero hzero]
  refine ⟨s.storedAt_takeEffect .., fun hnone hover => ?_, fun hexact hapart => ?_, fun hpending => ?_⟩
  · exact congrArg Lock.locked (State.lockAfter_of_overlapsLock hnone hover)
  · exact State.lockAfter_exact hexact hapart
  · exact State.lockAfter_of_pending hpending _

/-- Settles O35: each of the three kinds of store leaves the lock state that `lockAfter` says. -/
theorem storesUnlockOverlappedLocks : Obligations.StoresUnlockOverlappedLocks := by
  intro s st touchesBlock t ht
  have hlock : t.lock = s.lockAfter st := by
    simp only [List.mem_cons, List.not_mem_nil, or_false] at ht
    rcases ht with rfl | rfl | rfl <;> rfl
  rw [hlock]
  refine ⟨fun hpending => State.lockAfter_of_pending hpending st, fun hnone => ⟨fun hover => ?_, fun hblock htouch => ?_,
    fun hexact hapart => ?_, fun _ hapart huntouched => ?_⟩⟩
  · exact State.lockAfter_of_overlapsLock hnone hover
  · exact State.lockAfter_of_unlocks hnone ((unlocks_iff ..).2 (.inr ⟨hblock, htouch⟩))
  · exact State.lockAfter_exact hexact hapart
  · refine State.lockAfter_of_not_unlocks fun hunlocks => ?_
    rcases (unlocks_iff ..).1 hunlocks with hover | ⟨_, htouch⟩
    · exact hapart hover
    · exact huntouched htouch

/-- Settles O26: the store is issued behind its wait, and the lock state is given up. -/
theorem storeConditionalSucceeds : Obligations.StoreConditionalSucceeds := by
  intro p hp s r1 r2 r3 imm9 pa addr lock wait hal htr hbus hlocked haddress hwidth
  have htest : (s.testPoint addr pa p.2).lockHolds addr p.2 = true := (State.lockHolds_iff ..).2 ⟨hlocked, haddress, hwidth⟩
  have hstore := State.storeConditional_eq rfl ((hal.accessAddr (by decide)).trans htr) r1 r2
  rw [if_pos htest, if_pos hbus] at hstore
  refine ⟨_, _, (exec_storeConditional hp ..).trans hstore, State.onlyReg_setReg .., (s.issueAfter_lock ..).unlock, fun hzero => ?_,
    fun k hk => ?_, fun hclear => hclear.testPoint addr, fun hturn => ?_, ?_⟩
  · rw [show s.conditionalWait addr pa p.2 = 0 from hzero]
    exact (s.storedAt_takeEffect pa p.2 (s.getReg r1)).unlock
  · rw [show s.conditionalWait addr pa p.2 = k + 1 from hk]
    rfl
  · have hbound : wait ≤ s.waitFor pa (sizeBytes p.2) := (s.conditionalWait_bounds addr pa p.2).2
    rw [hturn.waitFor] at hbound
    exact Nat.le_zero.1 hbound
  · exact ((State.lockHolds_iff ..).1 (State.lockHolds_at_effect htest)).1

/-- Settles O27: the flag is written in the state in which the lock was tested. -/
theorem storeConditionalFails : Obligations.StoreConditionalFails := by
  intro p hp s r1 r2 r3 imm9 pa addr u hal htr hnot
  have hstore := State.storeConditional_eq rfl ((hal.accessAddr (by decide)).trans htr) r1 r2
  rw [if_neg (mt (State.lockHolds_iff ..).1 hnot)] at hstore
  refine ⟨⟨_, (exec_storeConditional hp ..).trans hstore, State.onlyReg_setReg ..⟩, s.testPoint_elapse addr pa p.2, ?_⟩
  rintro (hclear | hfree)
  · exact hclear.testPoint addr
  · exact State.testPoint_of_not_holds (mt (State.lockHolds_iff ..).1 hfree) pa
end

section
/-!
PROOFS. Pending accesses (20_memory.md R50 to R60): what waiting does to a byte and to the lock state; `fence`, `cinval`, and the
store-conditional behind an own store.
-/
namespace Sys2Proof.Machine

/-! ### Stores among the pending accesses -/

theorem Pending.byteAt_of_not_store {p : Pending} (h : p.isStore = false) (a : Word) : p.byteAt a = none := by
  cases heffect : p.effect with
  | store v => rw [Pending.isStore, heffect] at h; cases h
  | load => rw [Pending.byteAt, heffect]
  | loadLock => rw [Pending.byteAt, heffect]

theorem pendingByte_eq_none_of_no_store {l : List Pending} (h : ∀ p ∈ l, p.isStore = false) (a : Word) : pendingByte l a = none :=
  pendingByte_eq_none.2 fun p hp => Pending.byteAt_of_not_store (h p hp) a

theorem Pending.exists_of_isStore {p : Pending} (h : p.isStore = true) : ∃ v, p.effect = .store v := by
  cases heffect : p.effect with
  | store v => exact ⟨v, rfl⟩
  | load => rw [Pending.isStore, heffect] at h; cases h
  | loadLock => rw [Pending.isStore, heffect] at h; cases h

theorem State.lockPending_eq_false {s : State} : s.lockPending = false ↔ ∀ p ∈ s.pending, p.effect ≠ .loadLock := by
  simp [State.lockPending]

/-! ### Waiting without events -/

theorem nextEvent_eq_none {l : List EnvInput} (h : ∀ i ∈ l, i.events = []) : nextEvent l = none := by
  induction l with
  | nil => rfl
  | cons i rest ih =>
    have hrest := ih fun j hj => h j (List.mem_cons_of_mem i hj)
    have hnone := h i List.mem_cons_self
    unfold nextEvent
    simp only [hnone, hrest]

theorem State.elapse_succ_some {s : State} {e : EnvEvent} {rest : List EnvInput} (h : nextEvent s.env = some (e, rest)) (n : Nat) :
    s.elapse (n + 1) = (({ s with env := rest } : State).tick e).elapse n := by
  rw [State.elapse, h]

theorem State.elapse_succ_none {s : State} (h : nextEvent s.env = none) (n : Nat) : s.elapse (n + 1) = s.performAll := by
  rw [State.elapse, h]

/-- Where no event is to come, waiting is the pending accesses' taking effect, or nothing. -/
theorem State.elapse_quiet {s : State} (h : nextEvent s.env = none) (n : Nat) : s.elapse n = s ∨ s.elapse n = s.performAll := by
  cases n with
  | zero => exact .inl rfl
  | succ n => exact .inr (State.elapse_succ_none h n)

theorem State.loadByte_performAll (s : State) (a : Word) : s.performAll.loadByte a = (pendingByte s.pending a).getD (s.loadByte a) := by
  rw [State.performAll, State.performDue_loadByte, List.filter_true]

theorem State.memByte_performAll (s : State) (a : Word) : s.performAll.memByte a = (pendingByte s.pending a).getD (s.memByte a) := by
  rw [State.performAll, State.performDue_memByte, List.filter_true]

theorem State.loadByte_tick (s : State) (e : EnvEvent) (a : Word) :
    (s.tick e).loadByte a = (pendingByte (s.pending.filter fun p => p.wait == 0) a).getD ((s.afterEvent e).loadByte a) := by
  rw [State.tick, State.comeDue, State.performDue_loadByte, State.afterEvent_pending]

theorem State.memByte_tick (s : State) (e : EnvEvent) (a : Word) :
    (s.tick e).memByte a = (pendingByte (s.pending.filter fun p => p.wait == 0) a).getD ((s.afterEvent e).memByte a) := by
  rw [State.tick, State.comeDue, State.performDue_memByte, State.afterEvent_pending]

theorem State.pendingByte_tick (s : State) (e : EnvEvent) (a : Word) :
    pendingByte (s.tick e).pending a = pendingByte (s.pending.filter fun p => p.wait != 0) a := by
  rw [State.tick_pending, pendingByte_map_wait]

theorem State.Undisturbed.tick {s : State} {a : Word} (h : s.Undisturbed a) (e : EnvEvent) : (s.tick e).Undisturbed a := by
  unfold State.Undisturbed
  rw [State.tick_env]
  exact h

/-! ### A byte that its owner stored -/

/-- Memory and the loads agree on the byte `b` at `a`, which nothing pending writes. -/
structure State.Settled (s : State) (a : Word) (b : Byte) : Prop where
  /-- No event to come writes it. -/
  undisturbed : s.Undisturbed a
  /-- No pending access writes it. -/
  clear : pendingByte s.pending a = none
  /-- Memory has it. -/
  memory : s.memByte a = b
  /-- Loads see it. -/
  load : s.loadByte a = b

theorem State.Settled.tick {s : State} {a : Word} {b : Byte} (h : s.Settled a b) {e : EnvEvent} (he : e.writes a = false) :
    (s.tick e).Settled a b := by
  have hdue : pendingByte (s.pending.filter fun p => p.wait == 0) a = none :=
    pendingByte_eq_none.2 fun p hp => pendingByte_eq_none.1 h.clear p (List.mem_of_mem_filter hp)
  refine ⟨h.undisturbed.tick e, ?_, ?_, ?_⟩
  · rw [State.pendingByte_tick]
    exact pendingByte_eq_none.2 fun p hp => pendingByte_eq_none.1 h.clear p (List.mem_of_mem_filter hp)
  · rw [State.memByte_tick, hdue, Option.getD_none, State.memByte_afterEvent he, h.memory]
  · rw [State.loadByte_tick, hdue, Option.getD_none, State.loadByte_afterEvent he h.memory h.load]

theorem State.Settled.performAll {s : State} {a : Word} {b : Byte} (h : s.Settled a b) : s.performAll.Settled a b where
  undisturbed := by
    have henv : s.performAll.env = s.env := by simp
    unfold State.Undisturbed
    rw [henv]
    exact h.undisturbed
  clear := by rw [State.performAll_pending]; rfl
  memory := by rw [State.memByte_performAll, h.clear, Option.getD_none, h.memory]
  load := by rw [State.loadByte_performAll, h.clear, Option.getD_none, h.load]

/-- A settled byte stays settled. -/
theorem State.Settled.elapse {s : State} {a : Word} {b : Byte} (h : s.Settled a b) (n : Nat) : (s.elapse n).Settled a b := by
  refine State.elapse_induction (P := fun t => t.Settled a b) n s (fun t e rest he ht => ?_) (fun t ht => ht.performAll) h
  obtain ⟨hwrites, hrest⟩ := ht.undisturbed.next he
  exact State.Settled.tick (s := { t with env := rest })
    ⟨hrest, ht.clear, ht.memory, (State.loadByte_congr rfl rfl rfl a).trans ht.load⟩ hwrites

/-- The newest store to a byte reads back once nothing pending writes there, unless another agent stores there first. -/
theorem State.loadByte_elapse_newest {a : Word} {b : Byte} (n : Nat) {s : State} (ho : s.InOrder) (hu : s.Undisturbed a)
    (hb : pendingByte s.pending a = some b) (hdone : pendingByte (s.elapse n).pending a = none) : (s.elapse n).loadByte a = b := by
  induction n generalizing s with
  | zero => exact absurd (hb.symm.trans hdone) (Option.some_ne_none b)
  | succ n ih =>
    cases hnext : nextEvent s.env with
    | none => rw [State.elapse_succ_none hnext, State.loadByte_performAll, hb, Option.getD_some]
    | some x =>
      obtain ⟨e, rest⟩ := x
      obtain ⟨hwrites, hrest⟩ := hu.next hnext
      rw [State.elapse_succ_some hnext] at hdone ⊢
      have hnewest : (pendingByte (s.pending.filter fun p => p.wait != 0) a).or
          (pendingByte (s.pending.filter fun p => p.wait == 0) a) = some b := (pendingByte_due a ho).symm.trans hb
      cases hlater : pendingByte (s.pending.filter fun p => p.wait != 0) a with
      | some c =>
        rw [hlater, Option.some_or] at hnewest
        refine ih (State.InOrder.tick (s := { s with env := rest }) ho e) (hrest.tick e) ?_ hdone
        rw [State.pendingByte_tick]
        exact hlater.trans hnewest
      | none =>
        rw [hlater, Option.none_or] at hnewest
        have hsettled : (({ s with env := rest } : State).tick e).Settled a b := by
          refine ⟨hrest.tick e, ?_, ?_, ?_⟩
          · rw [State.pendingByte_tick]; exact hlater
          · rw [State.memByte_tick, hnewest, Option.getD_some]
          · rw [State.loadByte_tick, hnewest, Option.getD_some]
        exact (hsettled.elapse n).load

/-- No access to the bytes of an access is pending where it takes effect. -/
theorem State.clearAt_effectPoint (s : State) (pa : Word) (sz : AccessSize) : (s.effectPoint pa (sizeBytes sz)).ClearAt pa sz :=
  s.elapse_clear (fun p => p.overlaps pa (sizeBytes sz)) (fun _ _ => rfl) _ (s.overlapWait_le_waitFor ..)

theorem State.ClearAt.pendingByte {s : State} {pa : Word} {sz : AccessSize} (h : s.ClearAt pa sz) {a : Word}
    (ha : (a - pa).toNat < sizeBytes sz) : Machine.pendingByte s.pending a = none :=
  pendingByte_eq_none_of_clear ha fun p hp _ => h p hp

/-! ### The lock state and an own store -/

theorem State.LockKeptOrUnlocked.unlocked {s t : State} (h : s.LockKeptOrUnlocked t) (hs : s.lock.locked = false) :
    t.lock.locked = false := by
  rcases h with hlock | hlock <;> rw [hlock]
  exact hs

/-- Losing the lock leaves the locked bytes as recorded. -/
theorem State.LockKeptOrUnlocked.overlapsLock {s t : State} (h : s.LockKeptOrUnlocked t) {pa : Word} {sz : AccessSize}
    (hover : s.OverlapsLock pa sz) : t.OverlapsLock pa sz := by
  unfold State.OverlapsLock
  rcases h with hlock | hlock <;> rw [hlock] <;> exact hover

/-- A pending store over the locked bytes unlocks when it takes effect. -/
theorem State.performed_unlocks {s : State} {q : Pending} (hstore : q.isStore = true) (hnone : s.lockPending = false)
    (hover : s.OverlapsLock q.addr q.size) : (s.performed q).lock.locked = false := by
  obtain ⟨v, hv⟩ := Pending.exists_of_isStore hstore
  rw [State.performed, hv]
  exact congrArg Lock.locked (State.lockAfter_of_overlapsLock hnone hover)

/-- The same among all that take effect with it; no load-lock is pending. -/
theorem State.performDue_unlocks {due : Pending → Bool} {q : Pending} (hdue : due q = true) (hstore : q.isStore = true)
    {l kept : List Pending} {s : State} (hnone : ∀ p ∈ kept ++ l, p.effect ≠ .loadLock) (hq : q ∈ l)
    (hover : s.OverlapsLock q.addr q.size) : (State.performDue due kept l s).lock.locked = false := by
  induction l generalizing kept s with
  | nil => cases hq
  | cons p rest ih =>
    rw [State.performDue]
    cases hp : due p with
    | true =>
      have hless : ∀ x ∈ kept ++ rest, x.effect ≠ .loadLock := fun x hx =>
        hnone x (List.mem_append.2 ((List.mem_append.1 hx).imp_right (List.mem_cons_of_mem p)))
      rcases List.mem_cons.1 hq with rfl | hrest
      · exact (State.performDue_lock due rest kept _).unlocked
          (State.performed_unlocks hstore (State.lockPending_eq_false.2 hless) hover)
      · exact ih hless hrest (State.LockKeptOrUnlocked.overlapsLock (State.performed_lock _ p) hover)
    | false =>
      rcases List.mem_cons.1 hq with rfl | hrest
      · exact absurd (hdue.symm.trans hp) (by decide)
      · refine ih (fun x hx => ?_) hrest hover
        rw [List.append_assoc, List.singleton_append, List.mem_append, List.mem_cons] at hx
        rcases hx with hx | rfl | hx
        · exact hnone x (List.mem_append_left _ hx)
        · exact hnone p (List.mem_append_right _ List.mem_cons_self)
        · exact hnone x (List.mem_append_right _ (List.mem_cons_of_mem p hx))

/-- A pending store over the locked bytes has unlocked once its delay is over. -/
theorem State.elapse_unlocks (n : Nat) {s : State} {q : Pending} (hq : q ∈ s.pending) (hwait : q.wait < n)
    (hstore : q.isStore = true) (hnone : s.lockPending = false) (hover : s.OverlapsLock q.addr q.size) :
    (s.elapse n).lock.locked = false := by
  induction n generalizing s q with
  | zero => exact absurd hwait (Nat.not_lt_zero _)
  | succ n ih =>
    have hnone' := State.lockPending_eq_false.1 hnone
    cases hnext : nextEvent s.env with
    | none =>
      rw [State.elapse_succ_none hnext]
      exact State.performDue_unlocks (kept := []) rfl hstore hnone' hq hover
    | some x =>
      obtain ⟨e, rest⟩ := x
      rw [State.elapse_succ_some hnext]
      have hpending : (({ s with env := rest } : State).afterEvent e).pending = s.pending := State.afterEvent_pending ..
      cases hzero : q.wait with
      | zero =>
        have hover' : (({ s with env := rest } : State).afterEvent e).OverlapsLock q.addr q.size :=
          State.LockKeptOrUnlocked.overlapsLock (State.afterEvent_lock { s with env := rest } e) hover
        refine (State.Waited.elapse n _).lock.unlocked ?_
        have hdue : (q.wait == 0) = true := beq_iff_eq.2 hzero
        rw [State.tick, State.comeDue, hpending]
        exact State.performDue_unlocks (due := fun p => p.wait == 0) (kept := []) hdue hstore hnone' hq hover'
      | succ k =>
        refine ih (q := { q with wait := q.wait - 1 }) ?_ (by simp only; omega) hstore ?_ ?_
        · rw [State.tick_pending]
          exact List.mem_map.2 ⟨q, List.mem_filter.2 ⟨hq, by simp [hzero]⟩, rfl⟩
        · rw [State.lockPending_eq_false, State.tick_pending]
          intro p hp
          obtain ⟨p', hp', rfl⟩ := List.mem_map.1 hp
          exact hnone' p' (List.mem_of_mem_filter hp')
        · exact State.LockKeptOrUnlocked.overlapsLock (State.Waited.tick { s with env := rest } e).lock hover

/-! ### What a fence waits for -/

/-- The accesses that a `fence` waits for (42_memory_effects.md R141). -/
def fenceSelects (l w : Bool) (p : Pending) : Bool := if p.isStore then w else l

theorem exec_fence (l w : Bool) (s : State) : exec (.fence l w) s = .next (s.elapse (s.lastDue (fenceSelects l w))) := rfl

theorem fenceSelects_eq_false (l w : Bool) (p : Pending) :
    fenceSelects l w p = false ↔ if p.isStore then w = false else l = false := by
  unfold fenceSelects
  split <;> rfl

theorem State.no_store_after_fence (s : State) (l : Bool) {w : Bool} (hw : w = true) :
    ∀ p ∈ (s.elapse (s.lastDue (fenceSelects l w))).pending, p.isStore = false := by
  intro p hp
  have hdone := (fenceSelects_eq_false l w p).1 (s.elapse_lastDue (fenceSelects l w) (fun _ _ => rfl) p hp)
  by_contra hstore
  rw [if_pos (eq_true_of_ne_false hstore)] at hdone
  exact absurd (hw.symm.trans hdone) (by decide)

theorem State.no_load_after_fence (s : State) {l : Bool} (hl : l = true) (w : Bool) :
    ∀ p ∈ (s.elapse (s.lastDue (fenceSelects l w))).pending, p.isStore = true := by
  intro p hp
  have hdone := (fenceSelects_eq_false l w p).1 (s.elapse_lastDue (fenceSelects l w) (fun _ _ => rfl) p hp)
  by_contra hload
  rw [if_neg hload] at hdone
  exact absurd (hl.symm.trans hdone) (by decide)

/-! ### Discarded blocks -/

/-- The blocks that `cinval` selects (42_memory_effects.md R142). -/
def cinvalHit (m : BitVec 2) (pa : Word) (number : Nat) : Bool :=
  m == 2 || (m == 0 && number == pa.toNat / 64) || (m == 1 && number / 64 == pa.toNat / 4096)

theorem cinvalHit_iff (m : BitVec 2) (pa : Word) (number : Nat) :
    cinvalHit m pa number = true ↔ m = 2 ∨ (m = 0 ∧ number = pa.toNat / 64) ∨ (m = 1 ∧ number / 64 = pa.toNat / 4096) := by
  simp only [cinvalHit, Bool.or_eq_true, Bool.and_eq_true, beq_iff_eq, or_assoc]

theorem exec_cinval {s : State} {r1 : Reg} {m : BitVec 2} {pa : Word} (hthree : m ≠ 3)
    (htr : m ≠ 2 → s.translate (s.getReg r1) .read = .ok pa) (d i : Bool) :
    exec (.cinval r1 d i m) s = .next (s.unlock.discard d i (cinvalHit m pa)) := by
  rw [exec, execCinval, if_neg hthree]
  by_cases hall : m = 2
  · rw [if_pos hall, hall]
    rfl
  · rw [if_neg hall, htr hall]
    by_cases hpage : m = 1
    · subst hpage
      exact congrArg (fun p => Host.Outcome.next (s.unlock.discard d i p)) (funext fun number => by simp [cinvalHit])
    · have hblock : ∀ x : BitVec 2, x ≠ 3 → x ≠ 2 → x ≠ 1 → x = 0 := by decide
      rw [hblock m hthree hall hpage]
      exact congrArg (fun p => Host.Outcome.next (s.unlock.discard d i p)) (funext fun number => by simp [cinvalHit])

theorem mem_discarded {c : List CacheBlock} {p : Nat → Bool} (on : Bool) (blk : CacheBlock) :
    blk ∈ (if on then c.filter fun x => !p x.number else c) ↔ blk ∈ c ∧ ¬ (on = true ∧ p blk.number = true) := by
  cases on <;> simp

/-- A byte of a discarded block is read from memory, any other as before. -/
theorem cachedByte_discarded (c : List CacheBlock) (p : Nat → Bool) (on : Bool) (a : Word) :
    cachedByte (if on then c.filter fun x => !p x.number else c) a =
      if on = true ∧ p (a.toNat / 64) = true then none else cachedByte c a := by
  cases on with
  | false => simp
  | true => simp [cachedByte_filter]

theorem State.loadByte_discard (s : State) (d i : Bool) (p : Nat → Bool) (a : Word) :
    (s.discard d i p).loadByte a = if d = true ∧ p (a.toNat / 64) = true then s.memByte a else s.loadByte a := by
  have hmem : (s.discard d i p).memByte a = s.memByte a := State.memByte_congr rfl a
  rw [State.loadByte_eq, State.loadByte_eq, hmem, State.discard, cachedByte_discarded]
  by_cases hgone : d = true ∧ p (a.toNat / 64) = true
  · rw [if_pos hgone, if_pos hgone, ite_self, Option.getD_none]
  · rw [if_neg hgone, if_neg hgone]

theorem State.fetchByte_discard (s : State) (d i : Bool) (p : Nat → Bool) (a : Word) :
    (s.discard d i p).fetchByte a = if i = true ∧ p (a.toNat / 64) = true then s.memByte a else s.fetchByte a := by
  have hmem : (s.discard d i p).memByte a = s.memByte a := State.memByte_congr rfl a
  rw [State.fetchByte_eq, State.fetchByte_eq, hmem, State.discard, cachedByte_discarded]
  by_cases hgone : i = true ∧ p (a.toNat / 64) = true
  · rw [if_pos hgone, if_pos hgone, ite_self, Option.getD_none]
  · rw [if_neg hgone, if_neg hgone]

end Sys2Proof.Machine

open Sys2Proof Sys2Proof.Machine

/-- Settles O36: what an event does; the wait of an access; and the owner's own byte, by induction on the events. -/
theorem bufferIsInvisibleToItsOwner : Obligations.BufferIsInvisibleToItsOwner := by
  intro s e pa sz due
  refine ⟨fun n => .elapse n s, s.loadByte_tick e, s.memByte_tick e, s.tick_pending e, s.clearAt_effectPoint pa sz,
    State.InTurn.effectPoint, fun hreorders => ?_, fun hreorders hclear => ?_, fun ho a b ha hu hb => ?_⟩
  · rw [State.waitFor, if_pos hreorders]
    exact Nat.le_max_left ..
  · rw [State.waitFor, if_pos hreorders, hclear.overlapWait, Nat.max_zero]
  · exact State.loadByte_elapse_newest _ ho hu hb ((s.clearAt_effectPoint pa sz).pendingByte ha)

/-- Settles O28: the lock is tested after the overlapping accesses; a store over the locked bytes is one of them. -/
theorem storeConditionalAfterOverlap : Obligations.StoreConditionalAfterOverlap := by
  intro p hp s r1 r2 r3 imm9 pa addr hal htr _ hlocked haddress hwidth
  have hholds : s.lockHolds addr p.2 = true := (State.lockHolds_iff ..).2 ⟨hlocked, haddress, hwidth⟩
  have htest := State.testPoint_of_holds hholds pa
  refine ⟨?_, fun hnone ⟨q, hq, hstore, hover, hlock⟩ => ?_⟩
  · rw [htest]
    exact s.elapse_lastDue (fun p' => p'.overlaps pa (sizeBytes p.2)) fun _ _ => rfl
  · have hlost : (s.testPoint addr pa p.2).lock.locked = false := by
      rw [htest]
      exact State.elapse_unlocks _ hq (State.wait_lt_lastDue (sel := fun p' => p'.overlaps pa (sizeBytes p.2)) hq hover) hstore hnone hlock
    have hfails : ¬ (s.testPoint addr pa p.2).lockHolds addr p.2 = true := fun h =>
      absurd (hlost.symm.trans ((State.lockHolds_iff ..).1 h).1) (by decide)
    have hexec := State.storeConditional_eq rfl ((hal.accessAddr (by decide)).trans htr) r1 r2
    rw [if_neg hfails] at hexec
    refine ⟨s.overlapWait pa (sizeBytes p.2), _, (exec_storeConditional hp ..).trans hexec, ?_, ?_⟩
    · rw [← htest]
      exact State.onlyReg_setReg ..
    · rw [State.setReg_lock]
      exact hlost

/-- Settles O32: after the wait no selected access is pending; without events to come the wait is the pending accesses' taking effect. -/
theorem fenceDrainsStores : Obligations.FenceDrainsStores := by
  intro s l w
  refine ⟨_, exec_fence l w s, ⟨_, rfl⟩, .elapse _ s, fun hw => s.no_store_after_fence l hw, fun hl => s.no_load_after_fence hl w,
    fun ho a hu => ?_, fun hquiet => ?_, fun hnone => ?_⟩
  · have hnewest := State.newest_elapse (s.lastDue (fenceSelects l w)) s ho hu
    refine ⟨hnewest, fun hw => ?_⟩
    rwa [pendingByte_eq_none_of_no_store (s.no_store_after_fence l hw)] at hnewest
  · have hnostore := fun hw : w = true => s.no_store_after_fence l hw
    rcases State.elapse_quiet (nextEvent_eq_none hquiet) (s.lastDue (fenceSelects l w)) with hsame | hall
    · rw [hsame] at hnostore ⊢
      refine ⟨rfl, rfl, rfl, fun hw a => ?_⟩
      rw [pendingByte_eq_none_of_no_store (hnostore hw), Option.getD_none]
    · rw [hall]
      exact ⟨by simp, by simp, by simp, fun _ a => s.loadByte_performAll a⟩
  · have hzero : s.lastDue (fenceSelects l w) = 0 := State.lastDue_eq_zero fun p hp => (fenceSelects_eq_false l w p).2 (hnone p hp)
    rw [hzero]
    rfl

/-- Settles O33: `cinval` unlocks and discards the blocks that it selects. -/
theorem cinvalDiscardsAndUnlocks : Obligations.CinvalDiscardsAndUnlocks := by
  intro s r1 d i m pa hthree htr hit
  have hhit : ∀ number, cinvalHit m pa number = true ↔ hit number := cinvalHit_iff m pa
  have hload := s.unlock.loadByte_discard d i (cinvalHit m pa)
  have hfetch := s.unlock.fetchByte_discard d i (cinvalHit m pa)
  simp only [hhit] at hload hfetch
  refine ⟨_, exec_cinval hthree htr d i, rfl, rfl, fun blk => ?_, fun blk => ?_, fun a hkept => ?_, fun a hd ha => ?_,
    fun a hkept => ?_, fun a hi ha => ?_⟩
  · rw [← hhit]
    exact mem_discarded d blk
  · rw [← hhit]
    exact mem_discarded i blk
  · exact (hload a).trans (if_neg hkept)
  · exact (hload a).trans (if_pos ⟨hd, ha⟩)
  · exact (hfetch a).trans (if_neg hkept)
  · exact (hfetch a).trans (if_pos ⟨hi, ha⟩)
end
